-- ==== Sys2Proof/Word.lean ====
section
/-! DEFINITION. The words of the TC712: a byte, a row time, a capture, and a received character.
Row seconds and nanoseconds are counts (00_scope.md section 8), so they are `Nat`; the epoch is a 16-bit count that
wraps (R8), so it is a bit vector. -/

namespace Sys2Proof

/-- One byte: a line character's data, or a byte of a request or response frame. -/
abbrev Byte := BitVec 8

/-- A row time or a follower time, `seconds.nnnnnnnnn` (00_scope.md section 8).
A follower time taken from a REPLY may carry `ns` of 1,000,000,000 or more (R57). -/
structure RowTime where
  /-- seconds, 0 to 2^48 - 1 -/
  sec : Nat
  /-- nanoseconds, 0 to 999,999,999 in every row time the part itself keeps -/
  ns : Nat
  deriving DecidableEq, Repr

/-- A capture of row time with the epoch of the same instant (R20). -/
structure Capture where
  time : RowTime
  epoch : BitVec 16
  deriving DecidableEq, Repr

/-- Samples 7, 8 and 9 of the sixteen taken of one bit of a character (R27).
A sample is `true` at the idle level, which is a bit value of 1, and `false` at the break level. -/
structure BitSamples where
  s7 : Bool
  s8 : Bool
  s9 : Bool
  deriving DecidableEq, Repr

/-- One character as its receiver sampled it: the deciding samples of its eleven bits (R26, R27 and the table of 10.2).
The time-of-day inputs bring the same characters (R2). -/
structure RxChar where
  start : BitSamples
  d0 : BitSamples
  d1 : BitSamples
  d2 : BitSamples
  d3 : BitSamples
  d4 : BitSamples
  d5 : BitSamples
  d6 : BitSamples
  d7 : BitSamples
  mark : BitSamples
  stop : BitSamples
  deriving DecidableEq, Repr

end Sys2Proof
end

