-- ==== Sys2Proof/Config.lean ====
section
/-! DEFINITION. What the spec leaves open and the machine still needs: values with no body, so that nothing in Lean can
know them. Each is named in the assumption log. -/

namespace Sys2Proof

/-- The direction of a walk excursion (R153). -/
inductive Excursion where
  /-- the counter reached plus the walk limit: the followers read ahead of row time -/
  | leading
  /-- the counter reached minus the walk limit -/
  | lagging
  deriving DecidableEq, Repr

/-- FREE VALUE (assumption 1). A fill byte of the request port's data out (R171): the spec gives it no value.
The argument is the model's own counter of fill bytes, so no two fill bytes are known to be equal. -/
opaque Config.fillByte : Nat → Byte

/-- FREE VALUE (assumption 2). The byte that carries an excursion, or its absence, in a RACK_LOOKUP response:
the enumerations of 10.5 do not list it. -/
opaque Config.excursionCode : Option Excursion → Byte

/-- FREE VALUE (assumption 3). The age term of an error bound (R70) when row time has wrapped from its greatest second
to 0 between the newest sample's t1 and the instant of the bound: R70 says that an age is never negative, and the
spec states no result there. The arguments are t1 and the instant, in ns. -/
opaque Config.ageTermAcrossWrap : Nat → Nat → Nat

/-- FREE VALUE (assumption 50). Whether a frame of a type that R186 does not have ends at the number of characters that its
length character states, or is taken as one whose length is not allowed, which a gap or an address character ends (R28):
R186 gives allowed lengths to its own five types alone. The arguments are the type character and the length character. -/
opaque Config.unlistedTypeLength : Byte → Byte → Bool

end Sys2Proof
end

