-- ==== Sys2Proof/Syntax.lean ====
section
/-! DEFINITION. The commands of the TC712: one constructor per row of spec/opcode_table.json.

The operands are what the outside world decides about an event. `dt` is the local time in ns (R7) that passes between
the previous command and this one. An event that the part's own timers place (the end of a frame being sent, a window's
end, a deadline, a period, a local second, a second tick) carries no `dt`: its instant is in the state, and the command
takes local time there. `line` and `rack` are 0 to 11. `levels` are what a line's receive pair or a channel's time-of-day
input reads at successive samples, sixteen to a bit time (R2, R27, R32): `true` is the idle level and `false` the break
level; a command may bring any number of them, so that samples of several lines and inputs can be taken in turn.
`body` is the body of a request frame, and `bytes` the bytes of one SPI write transaction (R171, R172). -/

namespace Sys2Proof

/-- A reference channel. -/
inductive Chan where
  | a
  | b
  deriving DecidableEq, Repr

/-- A stretch of samples of one receive pair, with the `dt` before it: what the two watches of a line measure (R32, R34). -/
structure Stretch where
  dt : Nat
  levels : List Bool
  deriving DecidableEq, Repr

/-- The commands, in the order of the table. -/
inductive Instr where
  /-- HARD_RESET (R184); `csLow`: chip select is low when the reset is released. -/
  | hardReset (csLow : Bool)
  /-- PPS_EDGE (R3, R4). -/
  | ppsEdge (ch : Chan) (dt : Nat)
  /-- TOD_MESSAGE (R2): samples of the channel's time-of-day input. -/
  | todMessage (ch : Chan) (dt : Nat) (levels : List Bool)
  /-- TOD_GAP_TIMEOUT (R2). -/
  | todGapTimeout (ch : Chan)
  /-- LOSS_DEADLINE_EXPIRY (R5). -/
  | lossDeadlineExpiry (ch : Chan)
  /-- LOCAL_SECOND_START (R9). -/
  | localSecondStart
  /-- SECOND_TICK (R10). -/
  | secondTick
  /-- RACK_SWEEP (R156). -/
  | rackSweep (rack : Fin 12)
  /-- PERIOD_ELAPSED (R47). -/
  | periodElapsed (line : Fin 12)
  /-- POLL_SENT (R54). -/
  | pollSent (line : Fin 12)
  /-- REPLY_HANDOFF (R56): samples that complete a frame in the reply window. -/
  | replyHandoff (line : Fin 12) (dt : Nat) (levels : List Bool)
  /-- POLLING_FRAME_FAILED (R54). -/
  | pollingFrameFailed (line : Fin 12) (dt : Nat) (levels : List Bool)
  /-- REPLY_WINDOW_END (R55). -/
  | replyWindowEnd (line : Fin 12)
  /-- CLOSE_SENT (R63). -/
  | closeSent (line : Fin 12)
  /-- DISCOVER_SENT (R64). -/
  | discoverSent (line : Fin 12)
  /-- ANNOUNCE (R65). -/
  | announce (line : Fin 12) (dt : Nat) (levels : List Bool)
  /-- DISCOVERY_COLLISION (R65). -/
  | discoveryCollision (line : Fin 12) (dt : Nat) (levels : List Bool)
  /-- DISCOVERY_WINDOW_END (R66). -/
  | discoveryWindowEnd (line : Fin 12)
  /-- FRAME_GAP_TIMEOUT (R28). -/
  | frameGapTimeout (line : Fin 12)
  /-- STRAY_CHARACTER (R29). -/
  | strayCharacter (line : Fin 12) (dt : Nat) (levels : List Bool)
  /-- LINE_FAULT (R32): samples that bring the receive pair to 22 bit times at the break level. -/
  | lineFault (line : Fin 12) (stretch : Stretch)
  /-- LINE_RECOVERY (R34): the receive pair has been at the idle level for 1 s, counted from the first sample at that
  level since the last at the break level; where the recovery watch has met no such sample yet, from the next one. -/
  | lineRecovery (line : Fin 12) (dt : Nat)
  /-- BAD_FRAME (R174): a write transaction of whole bytes and then of the bits `rest`, first in travel first: those of a byte in
  which chip select rose. -/
  | badFrame (dt : Nat) (bytes : List Byte) (rest : List Bool)
  /-- OVERLAP (R174): a write transaction, in the same way. -/
  | overlap (dt : Nat) (bytes : List Byte) (rest : List Bool)
  /-- UNKNOWN_REQUEST (R176): a good frame with this code and body. -/
  | unknownRequest (dt : Nat) (code : Byte) (body : List Byte)
  /-- RESPONSE_FORMED (R176). -/
  | responseFormed (dt : Nat)
  /-- RESPONSE_READ (R175): a read transaction that clocks `clocked` bits after the read code. -/
  | responseRead (dt : Nat) (clocked : Nat)
  /-- REF_CONFIG (R23). -/
  | refConfig (dt : Nat) (body : List Byte)
  /-- SET_TIME (R24). -/
  | setTime (dt : Nat) (body : List Byte)
  /-- READ_TIME (R25). -/
  | readTime (dt : Nat) (body : List Byte)
  /-- LINE_CONFIG (R35). -/
  | lineConfig (dt : Nat) (body : List Byte)
  /-- LINE_QUIESCE (R37). -/
  | lineQuiesce (dt : Nat) (body : List Byte)
  /-- LINE_RESUME (R39). -/
  | lineResume (dt : Nat) (body : List Byte)
  /-- LINE_RESET (R40). -/
  | lineReset (dt : Nat) (body : List Byte)
  /-- ENROLL (R85). -/
  | enroll (dt : Nat) (body : List Byte)
  /-- LOOKUP (R86). -/
  | lookup (dt : Nat) (body : List Byte)
  /-- AMEND (R87). -/
  | amend (dt : Nat) (body : List Byte)
  /-- SUSPEND (R88). -/
  | suspend (dt : Nat) (body : List Byte)
  /-- RESUME (R91). -/
  | resume (dt : Nat) (body : List Byte)
  /-- RETIRE (R89). -/
  | retire (dt : Nat) (body : List Byte)
  /-- SCAN (R92). -/
  | scan (dt : Nat) (body : List Byte)
  /-- NEWCOMERS (R95). -/
  | newcomers (dt : Nat) (body : List Byte)
  /-- DISMISS (R96). -/
  | dismiss (dt : Nat) (body : List Byte)
  /-- DOMAIN_OPEN (R123). -/
  | domainOpen (dt : Nat) (body : List Byte)
  /-- DOMAIN_AMEND (R124). -/
  | domainAmend (dt : Nat) (body : List Byte)
  /-- DOMAIN_FREEZE (R125). -/
  | domainFreeze (dt : Nat) (body : List Byte)
  /-- DOMAIN_THAW (R126). -/
  | domainThaw (dt : Nat) (body : List Byte)
  /-- DOMAIN_RETIRE (R127). -/
  | domainRetire (dt : Nat) (body : List Byte)
  /-- DOMAIN_LOOKUP (R129). -/
  | domainLookup (dt : Nat) (body : List Byte)
  /-- STAMP (R132). -/
  | stamp (dt : Nat) (body : List Byte)
  /-- RACK_CONFIG (R165). -/
  | rackConfig (dt : Nat) (body : List Byte)
  /-- RACK_LOOKUP (R167). -/
  | rackLookup (dt : Nat) (body : List Byte)
  /-- RACK_CLEAR (R168). -/
  | rackClear (dt : Nat) (body : List Byte)
  /-- RACK_REBASE (R169). -/
  | rackRebase (dt : Nat) (body : List Byte)
  /-- STATUS (R182). -/
  | status (dt : Nat) (body : List Byte)
  /-- ACK (R180). -/
  | ack (dt : Nat) (body : List Byte)
  /-- MASK (R181). -/
  | mask (dt : Nat) (body : List Byte)
  /-- RESTART (R183). -/
  | restart (dt : Nat) (body : List Byte)
  /-- RECOVERY_WATCH_RESTART (R34): samples while the line is in FAULT. -/
  | recoveryWatchRestart (line : Fin 12) (stretch : Stretch)
  deriving DecidableEq, Repr

end Sys2Proof
end

