-- ==== Sys2Proof/Decode.lean ====
section
/-! DEFINITION. Commands spelled by a word's bits. spec/opcode_table.json gives no row any bits: a command of this block is
an event, a pin or a transaction, and its operands are no instruction word. -/

namespace Sys2Proof

/-- The command that a word spells by the table's bits: none, because no row gives bits. -/
def decodeTableWord (_nbits _w : Nat) : Option Instr := none

end Sys2Proof
end

