-- ==== Sys2Proof/Machine/State.lean ====
section
/-! DEFINITION. The state of the TC712: every piece of state that the spec gives the part, as plain data, with the queue
of commands that are waiting. Field by field, INVENTORY.md names the rule and the reset value. -/

namespace Sys2Proof.Machine

open Sys2Proof

/-! ### Reference channels and row clock (01_the_row_clock_and_its_references.md) -/

/-- Channel states (1.1). -/
inductive ChanState where
  | disabled
  | down
  | qualifying
  | qualified
  deriving DecidableEq, Repr

/-- A character receiver: a line's, or that of a time-of-day input, which is the same (R2, R27). -/
inductive Receiver where
  /-- it looks for a transition from the idle level to the break level -/
  | waiting
  /-- after a framing error it waits for a sample at the idle level -/
  | held
  /-- a character is arriving: the local time and the capture of its leading edge, whether that edge lay in an open reply
  or discovery window of a line, and the samples taken since, oldest first -/
  | char (start : Nat) (edge : Capture) (inWindow : Bool) (taken : List Bool)
  deriving DecidableEq, Repr

/-- What a receiver hears in a sample (R27). -/
inductive Heard where
  /-- it goes on -/
  | going (r : Receiver)
  /-- the start bit is decided at the idle level: there was no character -/
  | falseStart
  /-- a character is complete; the local time and the capture of its leading edge -/
  | character (start : Nat) (edge : Capture) (c : RxChar)
  deriving DecidableEq, Repr

/-- The held time-of-day message: its seconds, and whether its status is OK (otherwise DEGRADED) (R1, R2). -/
structure HeldMessage where
  sec : Nat
  ok : Bool
  deriving DecidableEq, Repr

/-- A reference channel (R1). -/
structure RefChannel where
  enable : Bool
  state : ChanState
  good : Nat
  prevEdge : Option Nat
  edgeSec : Option Nat
  held : Option HeldMessage
  msgFault : Bool
  lastPhase : Int
  lossDeadline : Option Nat
  /-- the message being assembled, oldest character first -/
  tod : List RxChar
  /-- local time at which the stop bit of the last character of `tod` ends -/
  todAt : Nat
  /-- what the time-of-day input read at the last sample: `true` at the idle level -/
  todLevel : Bool
  /-- local time of the last sample of the time-of-day input -/
  todSampledAt : Nat
  /-- the receiver of the time-of-day input -/
  todReceiver : Receiver
  deriving DecidableEq, Repr

/-- Row clock states (1.3). -/
inductive ClockState where
  | freerun
  | acquiring
  | locked
  | holdover
  deriving DecidableEq, Repr

/-- Where an acquisition came from (R8, R13). -/
inductive Origin where
  | freerun
  | locked
  | holdover
  deriving DecidableEq, Repr

/-- ROWCLK (R8). -/
structure RowClock where
  state : ClockState
  row : RowTime
  epoch : BitVec 16
  selected : Option Chan
  preferred : Chan
  revertive : Bool
  integral : Int
  applied : Int
  next : Int
  u : Nat
  stepCount : Nat
  lockCount : Nat
  stepLimit : Nat
  holdRate : Nat
  origin : Origin
  hasLocked : Bool
  entryValue : Nat
  entrySec : Nat
  deriving DecidableEq, Repr

/-! ### Rack lines (02_rack_lines.md, 03_the_exchange_and_the_poll_cycle.md) -/

/-- Line states (2.5). -/
inductive LineState where
  | off
  | idle
  | polling
  | closing
  | discovering
  | quiesced
  | fault
  deriving DecidableEq, Repr

/-- Bit rates: 1, 2 or 4 Mbit/s (R30). -/
inductive BitRate where
  | m1
  | m2
  | m4
  deriving DecidableEq, Repr

/-- The phases of a cycle (3.1); `stopped`: no cycle is running; `done`: all phases are over and the line waits for its
next cycle start. -/
inductive Phase where
  | stopped
  | list
  | urgent
  | discovery
  | done
  deriving DecidableEq, Repr

/-- The transaction in flight (R30, R53, R54): its subject slot, the reply window in force at the POLL in us, and whether
the transaction has failed. Its t1 and the epoch at t1 stand in the line's `Latch`. -/
structure Transaction where
  slot : Nat
  window : Nat
  failed : Bool
  deriving DecidableEq, Repr

/-- A frame being sent (R26): its characters' data, address character first, the local time of its first start bit and of
the end of its last stop bit. `TxFrame.bits` gives every bit of it. -/
structure TxFrame where
  bytes : List Byte
  start : Nat
  finish : Nat
  deriving DecidableEq, Repr

/-- t1 and the epoch at t1 of a line's transaction (R20, R30, R53): the capture, and, while the POLL's first start bit is
still to go out, the local time of its leading edge, at which the capture will be made. -/
structure Latch where
  due : Option Nat
  capture : Capture
  deriving DecidableEq, Repr

/-- The seven line counters (R42). -/
structure LineCounters where
  noisy : Nat
  badFrames : Nat
  stray : Nat
  misses : Nat
  overruns : Nat
  urgentDrops : Nat
  collisions : Nat
  deriving DecidableEq, Repr

/-- What the start of a transaction or of a discovery phase took from its line (R53, R64), with the local time of that start:
the line may be found as it stood before, if a line fault or a LINE_RESET falls at that very instant (R33, R40; the model's own
field, assumption 43). -/
structure Begun where
  /-- local time of the start -/
  now : Nat
  /-- the transaction number before it -/
  txNumber : BitVec 8
  /-- the bit rate in force before it -/
  rate : BitRate
  /-- the urgent queue before it -/
  urgent : List Nat
  deriving DecidableEq, Repr

/-- A line controller (R30, and the cycle values and cycle marks of R43, R44, R47). -/
structure Line where
  enable : Bool
  state : LineState
  quiesceReq : Bool
  rate : BitRate
  cfgRate : BitRate
  /-- ms -/
  cfgPeriod : Nat
  /-- ms -/
  period : Nat
  /-- us -/
  replyWindow : Nat
  discEnable : Bool
  /-- us -/
  discWindow : Nat
  missLimit : Nat
  /-- ns -/
  delayLimit : Nat
  /-- ns -/
  asymAllow : Nat
  /-- ns/s -/
  driftAllow : Nat
  cycle : BitVec 32
  txNumber : BitVec 8
  phase : Phase
  boost : Bool
  pollList : List Nat
  pollPos : Nat
  /-- the local time at which the period of the running cycle ends, while its timer runs (R43) -/
  periodEnd : Option Nat
  periodElapsed : Bool
  overrun : Bool
  transaction : Option Transaction
  urgent : List Nat
  /-- the discovery window taken at the DISCOVER (R64), us -/
  discLength : Nat
  rxOpen : Bool
  /-- the local time at which the open reply or discovery window ends -/
  windowEnd : Option Nat
  /-- the window's length has run while a frame is in assembly (R29) -/
  windowElapsed : Bool
  /-- the frame in assembly, oldest character first (R28) -/
  rx : List RxChar
  /-- the capture at the leading edge of the first character of `rx` (R28) -/
  rxEdge : Capture
  /-- local time at which the stop bit of the last character of `rx` ends -/
  rxAt : Nat
  /-- what the receive pair read at the last sample: `true` at the idle level -/
  level : Bool
  /-- local time of the last sample -/
  sampledAt : Nat
  receiver : Receiver
  tx : Option TxFrame
  /-- the characters of the frame that was cut off last, to the end of the one then in progress (R26, R31) -/
  tail : Option TxFrame
  /-- the last start of a transaction or of a discovery phase, none since reset (assumption 43) -/
  begun : Option Begun
  /-- time at the break level in samples, sixteen to a bit time, while the watch runs (R32) -/
  faultWatch : Option Nat
  /-- while the watch runs: the local time of the first sample at the idle level since the last at the break level, or
  none yet (R34) -/
  recoveryWatch : Option (Option Nat)
  counters : LineCounters
  deriving DecidableEq, Repr

/-! ### Endpoint records (04_endpoint_records.md, 05_clock_corrections.md) -/

/-- Record states (4.2). -/
inductive RecState where
  | enrolling
  | tracking
  | suspect
  | lost
  | suspended
  | retiring
  deriving DecidableEq, Repr

/-- Withdrawal pending (R67); `no` is the table's "none". -/
inductive Withdrawal where
  | no
  | suspend
  | retire
  deriving DecidableEq, Repr

/-- A sample of the window (R60). -/
structure Sample where
  t1 : RowTime
  theta : Int
  delta : Nat
  deriving DecidableEq, Repr

/-- Correction kinds (R97). -/
inductive CorrKind where
  | slew
  | step
  deriving DecidableEq, Repr

/-- A correction to send: sequence, kind and value (R67). -/
structure Correction where
  seq : BitVec 4
  kind : CorrKind
  value : Int
  deriving DecidableEq, Repr

/-- Refusal codes of a stamp request, in the order of the checks (R134). -/
inductive RefusalCode where
  | badCount
  | noDomain
  | domainClosed
  | domainFrozen
  | notMember
  | epochChanged
  | withdrawn
  | rackFenced
  | untracked
  | correcting
  | uncertain
  deriving DecidableEq, Repr

/-- A grant as formed in R142. -/
structure Grant where
  domain : Byte
  epoch : BitVec 16
  base : RowTime
  count : Nat
  uncertainty : Nat
  clamped : Bool
  deriving DecidableEq, Repr

/-- What a pending grant holds: a grant, or a refusal with the domain id as received (R143). -/
inductive Answer where
  | grant (g : Grant)
  | refusal (domain : Byte) (code : RefusalCode)
  deriving DecidableEq, Repr

/-- An endpoint record (R67). `cycleClass` is the cycle base class of R44. Least delay and filtered offset are derived
from the window (R61). -/
structure Endpoint where
  slot : Nat
  line : Fin 12
  addr : Nat
  state : RecState
  withdrawal : Withdrawal
  inTxn : Bool
  baseClass : Nat
  cycleClass : Nat
  corrEnabled : Bool
  stepThreshold : Nat
  asym : Option Int
  identity : Option (BitVec 32)
  goodCount : Nat
  missCount : Nat
  window : List Sample
  lastRaw : Option Int
  lastGood : Option Nat
  freq : Int
  baseline : Option Int
  cmdSeq : BitVec 4
  cmd : Option (CorrKind × Int)
  toSend : Option Correction
  ackSeq : BitVec 4
  repSeq : BitVec 4
  unack : Nat
  answer : Option Answer
  goodTotal : Nat
  missTotal : Nat
  rejected : Nat
  voids : Nat
  conflicts : Nat
  corrFaults : Nat
  deriving DecidableEq, Repr

/-- A newcomer entry (R93). -/
structure Newcomer where
  line : Fin 12
  addr : Nat
  identity : BitVec 32
  timesSeen : Nat
  firstSeen : Nat
  deriving DecidableEq, Repr

/-! ### Stamp domains (06_stamp_domains.md) -/

/-- Domain states (6.2). -/
inductive DomState where
  | opened
  | frozen
  | retiring
  deriving DecidableEq, Repr

/-- Freeze causes (R114). -/
inductive FreezeCause where
  | host
  | rack (n : Fin 12)
  deriving DecidableEq, Repr

/-- Fence modes (6.3). -/
inductive FenceMode where
  | off
  | refuseRack
  | freezeDomain
  deriving DecidableEq, Repr

/-- A stamp domain (R114). -/
structure Domain where
  id : Byte
  state : DomState
  cause : Option FreezeCause
  tolerance : Nat
  fence : FenceMode
  members : BitVec 12
  lastIssued : Option RowTime
  grants : Nat
  stamps : Nat
  refusals : Nat
  burned : Nat
  pendingDel : Nat
  deriving DecidableEq, Repr

/-! ### Rack records (08_rack_drift_watch.md) -/

/-- Watch states (8.1). -/
inductive WatchState where
  | off
  | quiet
  | watch
  | warn
  | alarm
  deriving DecidableEq, Repr

/-- Alarm causes (R151). -/
inductive AlarmCause where
  | drift
  | lost
  | lineFault
  | walk
  deriving DecidableEq, Repr

/-- The member counts of a rack (R151, R152). -/
structure MemberCounts where
  enrolling : Nat
  tracking : Nat
  suspect : Nat
  lost : Nat
  suspended : Nat
  retiring : Nat
  deriving DecidableEq, Repr

/-- A rack record (R151). `sweepDue` is the model's own: the countdown has reached 0 and been reloaded, and the sweep of
that instant has not yet been taken (assumption 16). -/
structure Rack where
  watch : WatchState
  cause : Option AlarmCause
  boost : Bool
  repeatOn : Bool
  driftClear : Nat
  driftWarn : Nat
  driftAlarm : Nat
  lostWarn : Nat
  lostAlarm : Nat
  walkQuantum : Nat
  walkLimit : Nat
  dwellLimit : Nat
  sweepExp : Nat
  countdown : Nat
  sweepDue : Bool
  dwell : Nat
  repeats : Nat
  walk : Int
  latch : Option Excursion
  sweptD : Int
  sweptTracking : Nat
  sweptLost : Nat
  sweptExcursion : Option Excursion
  members : MemberCounts
  changed : Bool
  deriving DecidableEq, Repr

/-! ### Request port (09_the_request_port.md) -/

/-- Port states (R173). -/
inductive PortState where
  | ready
  | executing
  | responseHeld
  deriving DecidableEq, Repr

/-- Status codes (R177). -/
inductive Status where
  | ok
  | accepted
  | badFrame
  | unknownRequest
  | badField
  | notFound
  | exists
  | full
  | wrongState
  deriving DecidableEq, Repr

/-- A response frame (R173); its body length and CRC-16 follow from these fields. -/
structure Response where
  code : Byte
  status : Status
  overlap : Bool
  body : List Byte
  deriving DecidableEq, Repr

/-- The link of the request port: the pins chip select and data out, and what the transaction under way has clocked in
(R171). The clock idles low, and data in is what a clock edge brings. -/
structure Link where
  /-- chip select is low -/
  low : Bool
  /-- the whole bytes clocked in since chip select fell, oldest first -/
  bytes : List Byte
  /-- the bits of the byte in progress, oldest first -/
  bits : List Bool
  /-- what a read carries from its second byte on: the held response or a marker; none in a write, and until the first byte
  is complete (R175) -/
  reading : Option (List Byte)
  /-- the level that data out is driven to; none: it is at high impedance -/
  out : Option Bool
  deriving DecidableEq, Repr

/-- The link with chip select high (R171). -/
def Link.idle : Link := ⟨false, [], [], none, none⟩

/-- RQP (R173), with the response being formed (R176), the mark of R184 that the transaction under way is ignored, the link
(R171), and the levels that data out carried at the clock's rising edges in the last transaction taken, in their order. -/
structure Port where
  state : PortState
  held : Option Response
  forming : Option Response
  overlapMark : Bool
  badFrames : Nat
  overlaps : Nat
  causes : BitVec 8
  mask : BitVec 8
  ignoring : Bool
  link : Link
  dataOut : List Bool
  deriving DecidableEq, Repr

/-! ### The part -/

/-- What falls on the present instant and is still to be taken, before or after another event of that instant (R9, R10, R150):
the model's own record of it (assumption 35). -/
structure Due where
  /-- row time's ns count has rolled over: a second tick (R10) -/
  tick : Bool
  /-- a local second starts (R9) -/
  start : Bool
  deriving DecidableEq, Repr

/-- The whole part (00_scope.md section 3) and the queue of waiting commands. -/
structure State where
  /-- the local time base, ns (R7) -/
  localNs : Nat
  /-- what time's passage has brought to this very instant -/
  due : Due
  chanA : RefChannel
  chanB : RefChannel
  clk : RowClock
  lines : Vector Line 12
  /-- t1 of each line's transaction -/
  latches : Vector Latch 12
  /-- the endpoint table, by rising slot (R68) -/
  records : List Endpoint
  /-- the newcomer set, oldest first (R93) -/
  newcomers : List Newcomer
  overflow : Bool
  /-- the domain table (R115) -/
  domains : List Domain
  racks : Vector Rack 12
  port : Port
  /-- the model's own counter of fill bytes begun (assumption 1) -/
  freeCount : Nat
  /-- the commands that are waiting, first in, first out -/
  pending : List Instr
  deriving DecidableEq, Repr

/-- Why the part would stop. The spec describes no event that stops it, so there is no such reason. -/
inductive Fault where
  deriving DecidableEq, Repr

/-- Why the model would not run a command. -/
inductive Refusal where
  /-- Raised by no command here: every command of the table has its meaning. Safe. -/
  | notModelled (mnemonic : String)
  deriving DecidableEq, Repr

/-! ### Reset values -/

/-- A reference channel after a hard reset (R1). -/
def RefChannel.reset : RefChannel where
  enable := true
  state := .down
  good := 0
  prevEdge := none
  edgeSec := none
  held := none
  msgFault := false
  lastPhase := 0
  lossDeadline := none
  tod := []
  todAt := 0
  todLevel := true
  todSampledAt := 0
  todReceiver := .waiting

/-- ROWCLK after a hard reset (R8). -/
def RowClock.reset : RowClock where
  state := .freerun
  row := ⟨0, 0⟩
  epoch := 0
  selected := none
  preferred := .a
  revertive := false
  integral := 0
  applied := 0
  next := 0
  u := 4294967295
  stepCount := 0
  lockCount := 0
  stepLimit := 1000
  holdRate := 50
  origin := .freerun
  hasLocked := false
  entryValue := 0
  entrySec := 0

/-- The line counters after a hard reset or LINE_RESET (R42). -/
def LineCounters.zero : LineCounters := ⟨0, 0, 0, 0, 0, 0, 0⟩

/-- A line controller after a hard reset (R30; the cycle marks, which R30 does not list, as in assumption 20). -/
def Line.reset : Line where
  enable := false
  state := .off
  quiesceReq := false
  rate := .m1
  cfgRate := .m1
  cfgPeriod := 1000
  period := 1000
  replyWindow := 200
  discEnable := true
  discWindow := 1000
  missLimit := 4
  delayLimit := 50000
  asymAllow := 500
  driftAllow := 20
  cycle := 0
  txNumber := 0
  phase := .stopped
  boost := false
  pollList := []
  pollPos := 0
  periodEnd := none
  periodElapsed := false
  overrun := false
  transaction := none
  urgent := []
  discLength := 0
  rxOpen := false
  windowEnd := none
  windowElapsed := false
  rx := []
  rxEdge := ⟨⟨0, 0⟩, 0⟩
  rxAt := 0
  level := true
  sampledAt := 0
  receiver := .waiting
  tx := none
  tail := none
  begun := none
  faultWatch := none
  recoveryWatch := none
  counters := LineCounters.zero

/-- A rack record after a hard reset or RESTART (R151). -/
def Rack.reset : Rack where
  watch := .off
  cause := none
  boost := true
  repeatOn := false
  driftClear := 50
  driftWarn := 200
  driftAlarm := 1000
  lostWarn := 2
  lostAlarm := 8
  walkQuantum := 1000
  walkLimit := 64
  dwellLimit := 3
  sweepExp := 4
  countdown := 16
  sweepDue := false
  dwell := 0
  repeats := 0
  walk := 0
  latch := none
  sweptD := 0
  sweptTracking := 0
  sweptLost := 0
  sweptExcursion := none
  members := ⟨0, 0, 0, 0, 0, 0⟩
  changed := false

/-- RQP after a hard reset (R173, R184). -/
def Port.reset : Port where
  state := .ready
  held := none
  forming := none
  overlapMark := false
  badFrames := 0
  overlaps := 0
  causes := 0
  mask := 0
  ignoring := false
  link := Link.idle
  dataOut := []

/-- The part right after a hard reset (R184), with an empty queue. -/
def State.reset : State where
  localNs := 0
  due := ⟨false, false⟩
  chanA := RefChannel.reset
  chanB := RefChannel.reset
  clk := RowClock.reset
  lines := Vector.replicate 12 Line.reset
  latches := Vector.replicate 12 ⟨none, ⟨⟨0, 0⟩, 0⟩⟩
  records := []
  newcomers := []
  overflow := false
  domains := []
  racks := Vector.replicate 12 Rack.reset
  port := Port.reset
  freeCount := 0
  pending := []

end Sys2Proof.Machine
end

