-- ==== Sys2Proof/Machine/Ops.lean ====
section
/-! DEFINITION. The named operations over the state: arithmetic of the conventions (00_scope.md section 8), row times,
byte order and the two checks (10_formats.md), the character receiver's decisions (R27), and the accessors of lines,
racks, records and domains. -/

namespace Sys2Proof

namespace Machine

/-! ### Arithmetic -/

/-- "Clipped to plus or minus N" (00_scope.md section 8). -/
def clip (n x : Int) : Int := max (-n) (min n x)

/-- A saturating counter with greatest value `top` advances by `n`. -/
def satAdd (top c n : Nat) : Nat := min top (c + n)

/-- A 16-bit saturating counter advances by one (R42, R67, R173). -/
def inc16 (c : Nat) : Nat := satAdd 65535 c 1

/-- The cap of row uncertainty, error bounds and uncertainties (R21, R70, R140). -/
def uCap : Nat := 4294967295

/-- The number of row seconds before they wrap (R10). -/
def secMod : Nat := 281474976710656

/-- One second in ns. -/
def second : Nat := 1000000000

/-! ### Row times -/

end Machine

open Machine

/-- The whole count of ns of a time (7.3, 3.4). -/
def RowTime.toNs (t : RowTime) : Nat := t.sec * second + t.ns

/-- The row time of a whole count of ns, the seconds modulo 2^48 (R10). -/
def RowTime.ofNs (n : Nat) : RowTime := ⟨n / second % secMod, n % second⟩

/-- A time moved by a signed number of ns, the seconds modulo 2^48 (R10, R19). -/
def RowTime.move (t : RowTime) (d : Int) : RowTime :=
  RowTime.ofNs ((((t.toNs : Nat) : Int) + d) % ((secMod * second : Nat) : Int)).toNat

namespace Machine

/-! ### Bytes, most significant first (10_formats.md) -/

/-- The `n` bytes of a count, most significant byte first. -/
def bytesOf : Nat → Nat → List Byte
  | 0, _ => []
  | n + 1, v => BitVec.ofNat 8 (v / 256 ^ n) :: bytesOf n v

/-- The `n` bytes of a signed value in two's complement. -/
def signedBytes (n : Nat) (v : Int) : List Byte := bytesOf n (v % ((256 ^ n : Nat) : Int)).toNat

/-- The count that bytes spell, most significant byte first. -/
def natOf (bs : List Byte) : Nat := bs.foldl (fun a b => a * 256 + b.toNat) 0

/-- The `n`-byte field at offset `off`. -/
def field (bs : List Byte) (off n : Nat) : Nat := natOf ((bs.drop off).take n)

/-- A 4-byte signed field at offset `off`. -/
def signedField32 (bs : List Byte) (off : Nat) : Int := (BitVec.ofNat 32 (field bs off 4)).toInt

/-- Bit `k` of the byte at offset `off`. -/
def flag (bs : List Byte) (off k : Nat) : Bool := (field bs off 1).testBit k

/-- The ten bytes of a row time. -/
def timeBytes (t : RowTime) : List Byte := bytesOf 6 t.sec ++ bytesOf 4 t.ns

/-- The time carried in the ten bytes at offset `off`; its ns may be out of range (R57). -/
def timeField (bs : List Byte) (off : Nat) : RowTime := ⟨field bs off 6, field bs (off + 6) 4⟩

/-- One bit of a check: shift left, and subtract the generator when a one falls out (R185). -/
def crcShift {w : Nat} (poly c : BitVec w) : BitVec w := if c.msb then (c <<< 1) ^^^ poly else c <<< 1

/-- Eight such bits. -/
def crcShift8 {w : Nat} (poly c : BitVec w) : BitVec w :=
  crcShift poly (crcShift poly (crcShift poly (crcShift poly
    (crcShift poly (crcShift poly (crcShift poly (crcShift poly c)))))))

/-- CRC-8: generator x^8 + x^2 + x + 1, initial value 0x00, no final inversion (R185). -/
def crc8 (bs : List Byte) : Byte := bs.foldl (fun c b => crcShift8 0x07#8 (c ^^^ b)) 0x00#8

/-- CRC-16: generator x^16 + x^12 + x^5 + 1, initial value 0xFFFF, no final inversion (R185). -/
def crc16 (bs : List Byte) : BitVec 16 :=
  bs.foldl (fun c b => crcShift8 0x1021#16 (c ^^^ (BitVec.ofNat 16 (b.toNat * 256)))) 0xFFFF#16

/-! ### Characters (R27) -/

end Machine

open Machine

/-- The majority of the three deciding samples. -/
def BitSamples.value (b : BitSamples) : Bool := (b.s7 && b.s8) || (b.s7 && b.s9) || (b.s8 && b.s9)

/-- The three deciding samples do not all agree. -/
def BitSamples.split (b : BitSamples) : Bool := !(b.s7 == b.s8 && b.s8 == b.s9)

/-- The start bit is decided at the idle level: there was no character (R27). -/
def RxChar.falseStart (c : RxChar) : Bool := c.start.value

/-- The data byte, bit 0 first on the line (R26). -/
def RxChar.byte (c : RxChar) : Byte :=
  BitVec.ofNat 8 (c.d0.value.toNat + 2 * c.d1.value.toNat + 4 * c.d2.value.toNat + 8 * c.d3.value.toNat
    + 16 * c.d4.value.toNat + 32 * c.d5.value.toNat + 64 * c.d6.value.toNat + 128 * c.d7.value.toNat)

/-- The mark bit. -/
def RxChar.marked (c : RxChar) : Bool := c.mark.value

/-- The stop bit is decided at the break level (R27). -/
def RxChar.framing (c : RxChar) : Bool := !c.stop.value

/-- The samples of some bit of the character do not all agree (R27). -/
def RxChar.noisy (c : RxChar) : Bool :=
  c.start.split || c.d0.split || c.d1.split || c.d2.split || c.d3.split || c.d4.split || c.d5.split || c.d6.split
    || c.d7.split || c.mark.split || c.stop.split

/-- The three deciding samples of a bit, the 7th, 8th and 9th of its sixteen, among a character's samples (R27). -/
def BitSamples.ofBit (taken : List Bool) (k : Nat) : BitSamples :=
  ⟨taken.getD (16 * k + 6) true, taken.getD (16 * k + 7) true, taken.getD (16 * k + 8) true⟩

/-- The character that a receiver has sampled since the leading edge of its start bit (R27). -/
def RxChar.ofSamples (taken : List Bool) : RxChar where
  start := .ofBit taken 0
  d0 := .ofBit taken 1
  d1 := .ofBit taken 2
  d2 := .ofBit taken 3
  d3 := .ofBit taken 4
  d4 := .ofBit taken 5
  d5 := .ofBit taken 6
  d6 := .ofBit taken 7
  d7 := .ofBit taken 8
  mark := .ofBit taken 9
  stop := .ofBit taken 10

namespace Machine

/-- The state of a receiver once it has completed a character: after a framing error it waits for the idle level (R27). -/
def Receiver.following (c : RxChar) : Receiver := if c.framing then .held else .waiting

/-- A character is arriving. -/
def Receiver.busy : Receiver → Bool
  | .char _ _ _ _ => true
  | .waiting => false
  | .held => false

/-- The samples since a leading edge: a start bit decided at the idle level was no character, and the ninth sample of the
stop bit completes one (R27, assumption 34). -/
def Receiver.decided (start : Nat) (edge : Capture) (inWindow : Bool) (taken : List Bool) : Heard :=
  if taken.length = 9 ∧ (BitSamples.ofBit taken 0).value = true then .falseStart
  else if 169 ≤ taken.length then .character start edge (RxChar.ofSamples taken)
  else .going (.char start edge inWindow taken)

/-- A receiver takes a sample at level `v`, after one at level `was`. A transition from the idle level to the break level is
the leading edge of a possible start bit: the character's first sample, at which `edge` is captured (R20, R27). -/
def Receiver.hear (now : Nat) (edge : Capture) (inWindow was v : Bool) : Receiver → Heard
  | .waiting => .going (if was && !v then .char now edge inWindow [false] else .waiting)
  | .held => .going (if v then .waiting else .held)
  | .char start edge inWindow taken => Receiver.decided start edge inWindow (taken ++ [v])

/-! ### Bit rates (2.1) -/

/-- The bit rate in Mbit/s. -/
def BitRate.mbit : BitRate → Nat
  | .m1 => 1
  | .m2 => 2
  | .m4 => 4

/-- One bit time in ns. -/
def BitRate.bitNs : BitRate → Nat
  | .m1 => 1000
  | .m2 => 500
  | .m4 => 250

/-- One character time in ns: eleven bit times. -/
def BitRate.charNs (r : BitRate) : Nat := 11 * r.bitNs

/-- The local time of the first sample at or after `t`: sixteen samples to a bit time, each in whole ns (R27, R32). -/
def BitRate.sampleFrom (r : BitRate) (t : Nat) : Nat := (16 * t + r.bitNs - 1) / r.bitNs * r.bitNs / 16

/-- The same for a time-of-day input, at sixteen times 115,200 bit/s (R2, R27). -/
def todSampleFrom (t : Nat) : Nat := (1843200 * t + 999999999) / 1000000000 * 1000000000 / 1843200

/-! ### Lines and racks -/

/-- The lines and racks in order. -/
def all12 : List (Fin 12) := [0, 1, 2, 3, 4, 5, 6, 7, 8, 9, 10, 11]

/-- The line controller of line `i`. -/
def State.line (s : State) (i : Fin 12) : Line := s.lines[i]

/-- The line controller of line `i` replaced. -/
def State.setLine (i : Fin 12) (l : Line) (s : State) : State := { s with lines := s.lines.set i l }

/-- The line controller of line `i` changed by `f`. -/
def State.modLine (i : Fin 12) (f : Line → Line) (s : State) : State := s.setLine i (f (s.line i))

/-- t1 and the epoch at t1 of the transaction on line `i` (R53). -/
def State.t1 (s : State) (i : Fin 12) : Capture := s.latches[i].capture

/-- The rack record of rack `i`. -/
def State.rack (s : State) (i : Fin 12) : Rack := s.racks[i]

/-- The rack record of rack `i` replaced. -/
def State.setRack (i : Fin 12) (r : Rack) (s : State) : State := { s with racks := s.racks.set i r }

/-- The rack record of rack `i` changed by `f`. -/
def State.modRack (i : Fin 12) (f : Rack → Rack) (s : State) : State := s.setRack i (f (s.rack i))

/-- A step taken for every line or rack, in order. -/
def State.forAll12 (f : Fin 12 → State → State) (s : State) : State := all12.foldl (fun s i => f i s) s

/-! ### Reference channels -/

end Machine

open Machine

/-- The other channel. -/
def Chan.other : Chan → Chan
  | .a => .b
  | .b => .a

namespace Machine

/-- The reference channel `c`. -/
def State.chan (s : State) : Chan → RefChannel
  | .a => s.chanA
  | .b => s.chanB

/-- The reference channel `c` replaced. -/
def State.setChan (c : Chan) (r : RefChannel) (s : State) : State :=
  match c with
  | .a => { s with chanA := r }
  | .b => { s with chanB := r }

/-- ROWCLK changed by `f`. -/
def State.modClk (f : RowClock → RowClock) (s : State) : State := { s with clk := f s.clk }

/-! ### Tables -/

/-- The record in a slot. -/
def State.bySlot (s : State) (slot : Nat) : Option Endpoint := s.records.find? (fun r => r.slot == slot)

/-- The record of a key (line, address). -/
def State.byKey (s : State) (line : Fin 12) (addr : Nat) : Option Endpoint :=
  s.records.find? (fun r => r.line == line && r.addr == addr)

/-- A record put among the others, which stand by rising slot. -/
def insertRecord (r : Endpoint) : List Endpoint → List Endpoint
  | [] => [r]
  | x :: xs => if r.slot < x.slot then r :: x :: xs else x :: insertRecord r xs

/-- The domain of an id. -/
def State.domain (s : State) (id : Byte) : Option Domain := s.domains.find? (fun d => d.id == id)

/-- The domain of an id changed by `f`; its id stays. -/
def State.modDomain (id : Byte) (f : Domain → Domain) (s : State) : State :=
  { s with domains := s.domains.map (fun d => if d.id == id then { f d with id := d.id } else d) }

/-- The domain of an id removed (R128). -/
def State.dropDomain (id : Byte) (s : State) : State :=
  { s with domains := s.domains.filter (fun d => d.id != id) }

end Machine

end Sys2Proof
end

