-- ==== Sys2Proof/Machine/Flags.lean ====
section
/-! DEFINITION. Attention: the eight causes, the mask and the attention pin (9.4). -/

namespace Sys2Proof.Machine

open Sys2Proof

/-- The eight attention causes, in the order of R178, which is also their bit order (10.5). -/
inductive Cause where
  | step
  | ref
  | line
  | rack
  | domain
  | lost
  | newcomer
  | port
  deriving DecidableEq, Repr

/-- The bit of a cause in a cause set (10.5). -/
def Cause.bit : Cause → Nat
  | .step => 0
  | .ref => 1
  | .line => 2
  | .rack => 3
  | .domain => 4
  | .lost => 5
  | .newcomer => 6
  | .port => 7

/-- The request port changed by `f`. -/
def State.modPort (f : Port → Port) (s : State) : State := { s with port := f s.port }

/-- Raising a cause makes it pending; a pending cause stays pending (R178). -/
def State.raise (c : Cause) (s : State) : State :=
  s.modPort (fun p => { p with causes := p.causes ||| (1#8 <<< c.bit) })

/-- The cause is pending. -/
def Port.isPending (p : Port) (c : Cause) : Bool := p.causes.getLsbD c.bit

/-- The attention line is asserted (driven low) while some cause is both pending and in the mask (R179). -/
def Port.attention (p : Port) : Bool := (p.causes &&& p.mask) != 0

/-- The first cause (R178), as its bit number; 0xFF when no cause is pending (10.5). -/
def Port.firstCause (p : Port) : Nat :=
  if p.causes.getLsbD 0 then 0 else if p.causes.getLsbD 1 then 1 else if p.causes.getLsbD 2 then 2
  else if p.causes.getLsbD 3 then 3 else if p.causes.getLsbD 4 then 4 else if p.causes.getLsbD 5 then 5
  else if p.causes.getLsbD 6 then 6 else if p.causes.getLsbD 7 then 7 else 255

/-- Clearing the named causes (R180). -/
def State.clearCauses (set : Byte) (s : State) : State := s.modPort (fun p => { p with causes := p.causes &&& ~~~set })

end Sys2Proof.Machine
end

