-- ==== Sys2Proof/Machine/Watch.lean ====
section
/-! DEFINITION. The drift watch unit and the notice it sends to the stamp service (08_rack_drift_watch.md, R121):
member counts, the walk counter, alarm entry, the sweep, the countdown at a tick. Shared operations; the rack commands'
meanings are in Machine/Racks.lean. -/

namespace Sys2Proof.Machine

open Sys2Proof

/-! ### Member counts (R152) -/

/-- The count of one record state. -/
def MemberCounts.get (m : MemberCounts) : RecState → Nat
  | .enrolling => m.enrolling
  | .tracking => m.tracking
  | .suspect => m.suspect
  | .lost => m.lost
  | .suspended => m.suspended
  | .retiring => m.retiring

/-- The count of one record state replaced. -/
def MemberCounts.set (st : RecState) (n : Nat) (m : MemberCounts) : MemberCounts :=
  match st with
  | .enrolling => { m with enrolling := n }
  | .tracking => { m with tracking := n }
  | .suspect => { m with suspect := n }
  | .lost => { m with lost := n }
  | .suspended => { m with suspended := n }
  | .retiring => { m with retiring := n }

/-- The count of a state advances by 1. -/
def Rack.gain (st : RecState) (r : Rack) : Rack := { r with members := r.members.set st (r.members.get st + 1) }

/-- The count of a state falls by 1. -/
def Rack.lose (st : RecState) (r : Rack) : Rack := { r with members := r.members.set st (r.members.get st - 1) }

/-- The old state of a report (R152). -/
def State.reportOld (i : Fin 12) (old : Option RecState) (s : State) : State :=
  match old with
  | some st => s.modRack i (Rack.lose st)
  | none => s

/-- The new state of a report (R152). -/
def State.reportNew (i : Fin 12) (new : Option RecState) (s : State) : State :=
  match new with
  | some st => s.modRack i (Rack.gain st)
  | none => s

/-- A report of EPT to DWU: creation with a new state, removal with an old one, or a change from old to new (R69, R152). -/
def State.report (i : Fin 12) (old new : Option RecState) (s : State) : State :=
  (s.reportOld i old).reportNew i new

/-! ### The walk counter (R153, R154) -/

/-- An accepted-sample report with its raw offset and the record's state after the REPLY's state rules (R153). -/
def Rack.sample (theta : Int) (st : RecState) (r : Rack) : Rack :=
  if r.watch = .off ∨ st ≠ .tracking then r
  else
    let w := if theta > (r.walkQuantum : Int) then r.walk + 1
      else if theta < -(r.walkQuantum : Int) then r.walk - 1
      else r.walk
    if w ≥ (r.walkLimit : Int) then { r with walk := 0, latch := some .leading }
    else if w ≤ -(r.walkLimit : Int) then { r with walk := 0, latch := some .lagging }
    else { r with walk := w }

/-- A row step sets the walk counter of all twelve racks to 0 and keeps the latches (R154). -/
def State.walkReset (s : State) : State := s.forAll12 (fun i => State.modRack i (fun r => { r with walk := 0 }))

/-! ### Changes and alarm entry (R121, R161 to R163) -/

/-- The rack is in ALARM (R120). -/
def State.inAlarm (s : State) (i : Fin 12) : Bool := (s.rack i).watch == .alarm

/-- The domain is named by a rack's alarm notice: OPEN, FREEZE_DOMAIN, and the rack a member (R121). -/
def Domain.fencedBy (d : Domain) (i : Fin 12) : Bool :=
  d.state == .opened && d.fence == .freezeDomain && d.members.getLsbD i

/-- STS takes the notice that a rack has entered ALARM (R121). -/
def State.alarmNotice (i : Fin 12) (s : State) : State :=
  if s.domains.any (fun d => d.fencedBy i) then
    State.raise .domain
      { s with domains := s.domains.map (fun d =>
          if d.fencedBy i then { d with state := .frozen, cause := some (.rack i) } else d) }
  else s

/-- A change of watch state sets the changed flag and raises RACK (R163). -/
def State.rackChanged (i : Fin 12) (s : State) : State :=
  (s.modRack i (fun r => { r with changed := true })).raise .rack

/-- The rack's own part of its entry to ALARM (R161, action 1). -/
def Rack.toAlarm (c : AlarmCause) (r : Rack) : Rack := { r with watch := .alarm, cause := some c, dwell := 0, repeats := 0 }

/-- Entry to ALARM (R161). -/
def State.enterAlarm (i : Fin 12) (c : AlarmCause) (s : State) : State :=
  ((s.modRack i (Rack.toAlarm c)).alarmNotice i).rackChanged i

/-- A fault of the rack's line, as DWU takes it (R162). -/
def State.rackLineFault (i : Fin 12) (s : State) : State :=
  match (s.rack i).watch with
  | .off => s
  | .alarm => s
  | .quiet => s.enterAlarm i .lineFault
  | .watch => s.enterAlarm i .lineFault
  | .warn => s.enterAlarm i .lineFault

/-- The boost condition of a rack (R44, R164). -/
def Rack.boosted (r : Rack) : Bool := (r.watch == .warn || r.watch == .alarm) && r.boost

/-! ### The sweep (R156 to R161) -/

/-- The indicators of a sweep (R156). -/
structure Indicators where
  d : Int
  tracking : Nat
  lost : Nat
  excursion : Option Excursion
  deriving DecidableEq, Repr

/-- The differences of frequency estimate and baseline over the rack's TRACKING records that have a baseline (R156). -/
def State.drifts (s : State) (i : Fin 12) : List Int :=
  s.records.filterMap (fun r =>
    if r.line = i ∧ r.state = .tracking then r.baseline.map (fun b => r.freq - b) else none)

/-- The mean, truncated toward zero; 0 of nothing (R156). -/
def meanDrift (ds : List Int) : Int := if ds = [] then 0 else ds.sum.tdiv (ds.length : Int)

/-- The indicators of rack `i` at a sweep (R156). -/
def State.indicators (s : State) (i : Fin 12) : Indicators where
  d := meanDrift (s.drifts i)
  tracking := (s.drifts i).length
  lost := (s.rack i).members.lost
  excursion := (s.rack i).latch

/-- The rack is hot at the sweep (R156). -/
def Rack.hot (r : Rack) (x : Indicators) : Bool :=
  decide (x.d.natAbs ≥ r.driftWarn) || decide (x.lost ≥ r.lostWarn) || x.excursion.isSome

/-- The rack is cool at the sweep (R156). -/
def Rack.cool (r : Rack) (x : Indicators) : Bool :=
  decide (x.d.natAbs ≤ r.driftClear) && decide (x.lost < r.lostWarn) && x.excursion.isNone

/-- The alarm tests of R159, in order: the first that holds gives the cause. -/
def Rack.alarmTest (r : Rack) (x : Indicators) : Option AlarmCause :=
  if x.d.natAbs ≥ r.driftAlarm then some .drift
  else if x.lost ≥ r.lostAlarm then some .lost
  else if x.excursion.isSome ∧ x.excursion = r.sweptExcursion then some .walk
  else none

/-- A sweep of a rack in QUIET (R157). -/
def State.sweepQuiet (i : Fin 12) (x : Indicators) (s : State) : State :=
  if (s.rack i).hot x then (s.modRack i (fun r => { r with watch := .watch, dwell := 1 })).rackChanged i
  else s.modRack i (fun r => { r with dwell := 0 })

/-- A sweep of a rack in WATCH (R158). -/
def State.sweepWatch (i : Fin 12) (x : Indicators) (s : State) : State :=
  if (s.rack i).hot x then
    if (s.rack i).dwell + 1 ≥ (s.rack i).dwellLimit then
      (s.modRack i (fun r => { r with watch := .warn, dwell := 0, repeats := 0 })).rackChanged i
    else s.modRack i (fun r => { r with dwell := r.dwell + 1 })
  else if (s.rack i).cool x then (s.modRack i (fun r => { r with watch := .quiet, dwell := 0 })).rackChanged i
  else s

/-- A sweep of a rack in WARN: the alarm tests (R159), then R160. -/
def State.sweepWarn (i : Fin 12) (x : Indicators) (s : State) : State :=
  match (s.rack i).alarmTest x with
  | some c => s.enterAlarm i c
  | none =>
    if (s.rack i).cool x then
      if (s.rack i).dwell + 1 ≥ (s.rack i).dwellLimit then
        (s.modRack i (fun r => { r with watch := .quiet, dwell := 0, repeats := 0 })).rackChanged i
      else s.modRack i (fun r => { r with dwell := r.dwell + 1, repeats := 0 })
    else if (s.rack i).hot x then
      if (s.rack i).repeatOn then
        if (s.rack i).repeats + 1 ≥ (s.rack i).dwellLimit then
          (s.modRack i (fun r => { r with dwell := 0, repeats := 0 })).rackChanged i
        else s.modRack i (fun r => { r with dwell := 0, repeats := r.repeats + 1 })
      else s.modRack i (fun r => { r with dwell := 0, repeats := 0 })
    else s

/-- The state rule of the rack's watch state (R157 to R161). -/
def State.sweepRule (i : Fin 12) (x : Indicators) (s : State) : State :=
  match (s.rack i).watch with
  | .off => s
  | .quiet => s.sweepQuiet i x
  | .watch => s.sweepWatch i x
  | .warn => s.sweepWarn i x
  | .alarm => s

/-- The indicators are written as the swept indicators, and the latch becomes none (R156). -/
def Rack.record (x : Indicators) (r : Rack) : Rack :=
  { r with sweptD := x.d, sweptTracking := x.tracking, sweptLost := x.lost, sweptExcursion := x.excursion,
           latch := none, sweepDue := false }

/-- A sweep, taken as one step (R156). -/
def State.sweep (i : Fin 12) (s : State) : State :=
  (s.sweepRule i (s.indicators i)).modRack i (Rack.record (s.indicators i))

/-- The countdown at a second tick (R155). -/
def Rack.tick (r : Rack) : Rack :=
  if r.watch = .off then r
  else if r.countdown ≤ 1 then { r with countdown := 2 ^ r.sweepExp, sweepDue := true }
  else { r with countdown := r.countdown - 1 }

end Sys2Proof.Machine
end

