-- ==== Sys2Proof/Machine/Records.lean ====
section
/-! DEFINITION. The endpoint table and the correction unit (04_endpoint_records.md, 05_clock_corrections.md): the rules
of one record as functions of the record, the one operation that changes a record in the table and makes its reports
(R69), and the newcomer set. Shared operations; the meanings of the record requests are in Machine/Endpoints.lean. -/

namespace Sys2Proof.Machine

open Sys2Proof

/-! ### Derived fields of a record -/

/-- A record is pollable (3.1, R69). -/
def Endpoint.pollable (r : Endpoint) : Bool :=
  (match r.state with
    | .enrolling => true
    | .tracking => true
    | .suspect => true
    | .lost => true
    | .suspended => false
    | .retiring => false) && r.withdrawal == .no

/-- A correction is in flight (R97). -/
def Endpoint.inFlight (r : Endpoint) : Bool := r.ackSeq != r.cmdSeq

/-- The newest of the samples that have the least delay (R61). -/
def bestSample (w : List Sample) : Option Sample :=
  w.foldl (fun best x => match best with
    | none => some x
    | some b => if x.delta ≤ b.delta then some x else some b) none

/-- The least delay of a window (R61). -/
def leastDelay (w : List Sample) : Option Nat := (bestSample w).map Sample.delta

/-- The filtered offset of a window (R61). -/
def filteredOffset (w : List Sample) : Option Int := (bestSample w).map Sample.theta

/-- The effective class of a record in the running cycle (R44); 0 for a state that has none. -/
def Endpoint.effClass (boost : Bool) (r : Endpoint) : Nat :=
  match r.state with
  | .enrolling => 0
  | .suspect => 0
  | .lost => 3
  | .tracking => if boost then 0 else r.cycleClass
  | .suspended => 0
  | .retiring => 0

/-- The filtered offset has a magnitude at or above the step threshold (R72, R75, R99). -/
def Endpoint.overThreshold (r : Endpoint) : Bool :=
  match filteredOffset r.window with
  | some f => decide (f.natAbs ≥ r.stepThreshold)
  | none => false

/-! ### The REPLY, as decoded (R57, R187) -/

/-- What a good REPLY carries (R56, R186). -/
structure Reply where
  txn : Byte
  seq : BitVec 4
  clockValid : Bool
  wantPoll : Bool
  t2 : RowTime
  t3 : RowTime
  /-- the stamp request, if the REPLY carries one: domain id and count as received -/
  ask : Option (Byte × Nat)
  deriving DecidableEq, Repr

/-- How an exchange is counted (R56, R59). -/
inductive Verdict where
  | void
  | rejected
  | accepted (x : Sample)
  deriving DecidableEq, Repr

/-- The offset of R58, clipped to plus or minus (2^62 - 1) ns. -/
def offset (t1 t2 t3 t4 : RowTime) (a : Int) : Int :=
  clip 4611686018427387903
    (((((t2.toNs : Nat) : Int) - (t1.toNs : Nat)) + (((t3.toNs : Nat) : Int) - (t4.toNs : Nat))).tdiv 2 - a)

/-- The delay of R58. -/
def delay (t1 t2 t3 t4 : RowTime) : Int :=
  (((t4.toNs : Nat) : Int) - (t1.toNs : Nat)) - (((t3.toNs : Nat) : Int) - (t2.toNs : Nat))

/-- The judgement of an exchange (R57, R58, R59); `void`: the epoch check failed or a withdrawal is pending (R56). -/
def judgeSample (void : Bool) (delayLimit : Nat) (t1 t4 : RowTime) (p : Reply) (a : Option Int) : Verdict :=
  if void then .void
  else if p.t2.ns ≥ second ∨ p.t3.ns ≥ second then .rejected
  else
    let dly := delay t1 p.t2 p.t3 t4
    if 0 ≤ dly ∧ dly ≤ (delayLimit : Int) ∧ p.clockValid = true then
      .accepted ⟨t1, offset t1 p.t2 p.t3 t4 (a.getD 0), dly.toNat⟩
    else .rejected

/-! ### Acknowledgement (5.4, 5.5) -/

/-- The correction in flight is acknowledged (R104, R105, R106). -/
def Endpoint.acknowledge (r : Endpoint) : Endpoint :=
  let r := { r with ackSeq := r.cmdSeq, unack := 0 }
  match r.cmd with
  | some (.slew, v) => { r with freq := clip 1000000 (r.freq + v) }
  | some (.step, _) => { r with window := [] }
  | none => r

/-- The correction in flight is abandoned (R107, R79). -/
def Endpoint.abandonCorrection (r : Endpoint) : Endpoint :=
  { r with ackSeq := r.cmdSeq, unack := 0, corrFaults := inc16 r.corrFaults,
           state := if r.state = .tracking then .suspect else r.state }

/-- The acknowledgement judgement on a REPLY that reports `seq` (R103, R104, R107). -/
def Endpoint.judgeAck (seq : BitVec 4) (r : Endpoint) : Endpoint :=
  let r := { r with repSeq := seq }
  if r.inFlight then
    if seq = r.cmdSeq then r.acknowledge
    else if r.unack + 1 ≥ 3 then r.abandonCorrection
    else { r with unack := r.unack + 1 }
  else r

/-! ### Samples and state rules (4.2) -/

/-- An accepted sample joins the window and sets the fields of R61 (R60). -/
def Endpoint.append (x : Sample) (r : Endpoint) : Endpoint :=
  { r with window := if (r.window ++ [x]).length > 4 then (r.window ++ [x]).tail else r.window ++ [x],
           lastRaw := some x.theta, lastGood := some x.t1.sec }

/-- The state rule of an accepted sample, already appended (R72 to R75); `suspectNow`: the record became SUSPECT on this
same REPLY through a correction fault. -/
def Endpoint.acceptRule (x : Sample) (suspectNow : Bool) (r : Endpoint) : Endpoint :=
  let r := { r with goodTotal := inc16 r.goodTotal, missCount := 0 }
  match r.state with
  | .enrolling =>
    if r.corrEnabled && r.overThreshold then { r with goodCount := 0 }
    else if r.inFlight then r
    else if r.goodCount + 1 ≥ 3 then
      { r with goodCount := 3, state := .tracking, baseline := some (r.baseline.getD r.freq) }
    else { r with goodCount := r.goodCount + 1 }
  | .tracking => r
  | .suspect => if r.inFlight || suspectNow then r else { r with state := .tracking }
  | .lost =>
    let r := { r with state := .enrolling, window := [x] }
    { r with goodCount := if (r.corrEnabled && r.overThreshold) || r.inFlight then 0 else 1 }
  | .suspended => r
  | .retiring => r

/-- The rule of a rejected sample (R76). -/
def Endpoint.rejectRule (r : Endpoint) : Endpoint :=
  let r := { r with rejected := inc16 r.rejected }
  match r.state with
  | .tracking => { r with state := .suspect }
  | .enrolling => { r with goodCount := 0 }
  | .suspect => r
  | .lost => r
  | .suspended => r
  | .retiring => r

/-- What EPT does with a REPLY of verdict `v`: acknowledgement, sample, state rules (steps 1 to 3 of R56). -/
def Endpoint.takeReply (v : Verdict) (seq : BitVec 4) (r : Endpoint) : Endpoint :=
  let q := r.judgeAck seq
  match v with
  | .void => { q with voids := inc16 q.voids }
  | .rejected => q.rejectRule
  | .accepted x => (q.append x).acceptRule x (r.state == .tracking && q.state == .suspect)

/-- The rule of a MISS against the line's miss limit in force (R77). -/
def Endpoint.missRule (limit : Nat) (r : Endpoint) : Endpoint :=
  let r := { r with missCount := satAdd 15 r.missCount 1, missTotal := inc16 r.missTotal }
  match r.state, r.withdrawal with
  | .enrolling, .no =>
    if r.missCount ≥ limit then { r with state := .lost, goodCount := 0 } else { r with goodCount := 0 }
  | .tracking, .no =>
    if r.missCount ≥ limit then { r with state := .lost, goodCount := 0 } else { r with state := .suspect }
  | .suspect, .no => if r.missCount ≥ limit then { r with state := .lost, goodCount := 0 } else r
  | .enrolling, .suspend => { r with goodCount := 0 }
  | .enrolling, .retire => { r with goodCount := 0 }
  | .tracking, .suspend => r
  | .tracking, .retire => r
  | .suspect, .suspend => r
  | .suspect, .retire => r
  | .lost, _ => r
  | .suspended, _ => r
  | .retiring, _ => r

/-- The rule of a conflict (R80). -/
def Endpoint.conflictRule (r : Endpoint) : Endpoint :=
  { r with conflicts := inc16 r.conflicts, state := if r.state = .tracking then .suspect else r.state }

/-- The rule of a line fault (R82). -/
def Endpoint.faultRule (r : Endpoint) : Endpoint :=
  match r.state with
  | .enrolling => { r with state := .lost, goodCount := 0 }
  | .tracking => { r with state := .lost, goodCount := 0 }
  | .suspect => { r with state := .lost, goodCount := 0 }
  | .lost => r
  | .suspended => r
  | .retiring => r

/-! ### Corrections (5.2, 5.3, 5.6) -/

/-- EPT writes a command to the record (R101). -/
def Endpoint.command (k : CorrKind) (v : Int) (r : Endpoint) : Endpoint :=
  { r with cmdSeq := r.cmdSeq + 1, cmd := some (k, v), toSend := some ⟨r.cmdSeq + 1, k, v⟩, unack := 0 }

/-- The delta of a SLEW (R100): the interval is in ms. -/
def slewDelta (f : Int) (interval : Nat) : Int := clip 500 ((-f * 1000).tdiv (4 * (interval : Int)))

/-- COR's decision on a REPLY (R98, R99, R100). -/
def Endpoint.correct (accepted : Bool) (interval : Nat) (r : Endpoint) : Endpoint :=
  if accepted && r.corrEnabled && !r.inFlight then
    match r.state, filteredOffset r.window with
    | .enrolling, some f => if f.natAbs ≥ r.stepThreshold then r.command .step (-f) else r
    | .tracking, some f =>
      if f.natAbs ≥ r.stepThreshold then r.command .step (-f)
      else if slewDelta f interval = 0 then r
      else r.command .slew (slewDelta f interval)
    | _, _ => r
  else r

/-- Withdrawing a correction in flight (R108); `assembled`: the CLOSE that carries a correction to send is assembled. -/
def Endpoint.withdraw (assembled : Bool) (r : Endpoint) : Endpoint :=
  if r.inFlight then
    { r with ackSeq := r.cmdSeq, unack := 0, toSend := if assembled then r.toSend else none }
  else r

/-- EPT's rule at a row step (R81, R109). -/
def Endpoint.stepRule (assembled : Bool) (r : Endpoint) : Endpoint :=
  let r := { (r.withdraw assembled) with window := [] }
  match r.state with
  | .tracking => { r with state := .enrolling, goodCount := 0 }
  | .suspect => { r with state := .enrolling, goodCount := 0 }
  | .enrolling => { r with goodCount := 0 }
  | .lost => r
  | .suspended => r
  | .retiring => r

/-- How a transaction ended (R31, R55, R63). -/
inductive TxnEnd where
  /-- completed at the end of its CLOSE -/
  | closed
  /-- completed by a MISS -/
  | missed
  | abandoned
  deriving DecidableEq, Repr

/-- The settlement of the correction to send (R102). -/
def Endpoint.settle (how : TxnEnd) (r : Endpoint) : Endpoint :=
  match how, r.toSend with
  | .closed, _ => { r with toSend := none }
  | .missed, _ => r
  | .abandoned, none => r
  | .abandoned, some _ => { (r.withdraw false) with toSend := none }

/-- EPT at a transaction's end, for a record that stays: R71, and the SUSPEND of R90. -/
def Endpoint.endRule (how : TxnEnd) (r : Endpoint) : Endpoint :=
  let r := ({ r with inTxn := false }).settle how
  match r.withdrawal with
  | .suspend => { r with state := .suspended, withdrawal := .no }
  | .retire => r
  | .no => r

/-! ### The table (R68, R69) -/

/-- A slot leaves the entries of the poll list not yet reached (R46) and the urgent queue (R51). -/
def Line.dropSlot (slot : Nat) (l : Line) : Line :=
  { l with pollList := l.pollList.take l.pollPos ++ (l.pollList.drop l.pollPos).filter (fun x => x != slot),
           urgent := l.urgent.filter (fun x => x != slot) }

/-- The changed record keeps its slot and key, which are fixed for its life (R67). -/
def Endpoint.keepKey (old new : Endpoint) : Endpoint := { new with slot := old.slot, line := old.line, addr := old.addr }

/-- The table with the record of a slot replaced. -/
def State.putRecord (slot : Nat) (r : Endpoint) (s : State) : State :=
  { s with records := s.records.map (fun x => if x.slot == slot then r else x) }

/-- A change of state is reported to DWU (R69). -/
def State.reportState (old new : Endpoint) (s : State) : State :=
  if new.state = old.state then s else s.report old.line (some old.state) (some new.state)

/-- The record's line controller is told that the record stopped being pollable (R69). -/
def State.reportPollable (old new : Endpoint) (s : State) : State :=
  if old.pollable && !new.pollable then s.modLine old.line (Line.dropSlot old.slot) else s

/-- The reports of a changed record: a change of state to DWU, and to the line controller that it stopped being
pollable (R69). -/
def State.reportChange (old new : Endpoint) (s : State) : State :=
  (s.reportState old new).reportPollable old new

/-- The one operation that changes a record in the table: the change, then its reports (R69). -/
def State.updateRecord (slot : Nat) (f : Endpoint → Endpoint) (s : State) : State :=
  match s.bySlot slot with
  | none => s
  | some r => (s.putRecord slot (r.keepKey (f r))).reportChange r (r.keepKey (f r))

/-- A record is removed, and the removal reported (R69). -/
def State.removeRecord (slot : Nat) (s : State) : State :=
  match s.bySlot slot with
  | none => s
  | some r =>
    (({ s with records := s.records.filter (fun x => x.slot != slot) }).report r.line (some r.state) none).modLine
      r.line (Line.dropSlot slot)

/-- A record is created, and the creation reported (R69). -/
def State.addRecord (r : Endpoint) (s : State) : State :=
  ({ s with records := insertRecord r s.records }).report r.line none (some r.state)

/-- The lowest free slot from `n` on, looked for `k` times (R67). -/
def lowestFree (used : List Nat) : Nat → Nat → Nat
  | 0, n => n
  | k + 1, n => if used.contains n then lowestFree used k (n + 1) else n

/-- A rule applied to every record of the table that `p` selects, by rising slot. -/
def State.updateAll (p : Endpoint → Bool) (f : Endpoint → Endpoint) (s : State) : State :=
  ((s.records.filter p).map Endpoint.slot).foldl (fun s slot => s.updateRecord slot f) s

/-- The record is the subject of a transaction whose CLOSE is assembled (R62, R108). -/
def State.closeAssembled (s : State) (r : Endpoint) : Bool :=
  (s.line r.line).state == .closing && ((s.line r.line).transaction.map Transaction.slot) == some r.slot

/-- EPT takes a row step (R81). -/
def State.eptStep (s : State) : State := s.updateAll (fun _ => true) (fun r => r.stepRule (s.closeAssembled r))

/-- EPT takes a line fault (R82). -/
def State.eptLineFault (i : Fin 12) (s : State) : State := s.updateAll (fun r => r.line == i) Endpoint.faultRule

/-- EPT takes a MISS (R77), and raises LOST when the miss limit takes the record to LOST. -/
def State.eptMiss (slot limit : Nat) (s : State) : State :=
  match s.bySlot slot with
  | none => s
  | some r =>
    if r.state ≠ .lost ∧ (r.missRule limit).state = .lost then (s.updateRecord slot (Endpoint.missRule limit)).raise .lost
    else s.updateRecord slot (Endpoint.missRule limit)

/-- EPT takes the end of a transaction (R71, R90). -/
def State.eptEnd (slot : Nat) (how : TxnEnd) (s : State) : State :=
  match s.bySlot slot with
  | none => s
  | some r =>
    if r.withdrawal = .retire then s.removeRecord slot else s.updateRecord slot (Endpoint.endRule how)

/-- EPT rebases a rack (R83). -/
def State.eptRebase (i : Fin 12) (s : State) : State :=
  s.updateAll (fun r => r.line == i && r.state == .tracking) (fun r => { r with baseline := some r.freq })

/-! ### The newcomer set (4.4) -/

/-- A good ANNOUNCE from a key without a record (R94). -/
def State.newcomer (i : Fin 12) (addr : Nat) (ident : BitVec 32) (s : State) : State :=
  if s.newcomers.any (fun n => n.line == i && n.addr == addr) then
    { s with newcomers := s.newcomers.map (fun n =>
        if n.line == i && n.addr == addr then { n with identity := ident, timesSeen := satAdd 255 n.timesSeen 1 } else n) }
  else if s.newcomers.length < 16 then
    State.raise .newcomer { s with newcomers := s.newcomers ++ [⟨i, addr, ident, 1, s.clk.row.sec⟩] }
  else { s with overflow := true }

/-- The entry of a key leaves the set (R96). -/
def State.dropNewcomer (i : Fin 12) (addr : Nat) (s : State) : State :=
  { s with newcomers := s.newcomers.filter (fun n => !(n.line == i && n.addr == addr)) }

/-- EPT takes a good ANNOUNCE from an address 1 to 47 (R65, R80, R94). -/
def State.eptAnnounce (i : Fin 12) (addr : Nat) (ident : BitVec 32) (s : State) : State :=
  match s.byKey i addr with
  | some r => s.updateRecord r.slot Endpoint.conflictRule
  | none => s.newcomer i addr ident

end Sys2Proof.Machine
end

