-- ==== Sys2Proof/Machine/Operands.lean ====
section
/-! DEFINITION. The operand forms: follower frames as received (R28, R186, R187), the frames the part assembles (R188),
time-of-day messages (R2, R189), and the fields of request bodies (R190, R191). -/

namespace Sys2Proof.Machine

open Sys2Proof

/-! ### Follower frames (R28, R186, R187) -/

/-- The lengths that R186 allows for a type, be it one the part sends or a follower's; a type that R186 does not have is given
none there. -/
def allowedLengths (type : Byte) : Option (List Byte) :=
  if type = 0x31 ∨ type = 0x34 then some [5]
  else if type = 0x32 then some [26, 28]
  else if type = 0x33 then some [6, 8, 15, 17, 24, 33]
  else if type = 0x35 then some [8]
  else none

/-- The length character is a length allowed for the type (R28, R186). For a type that R186 does not have this is not stated,
and the value is free (assumption 50). -/
def lengthAllowed (type len : Byte) : Bool :=
  match allowedLengths type with
  | some lengths => lengths.contains len
  | none => Config.unlistedTypeLength type len

/-- The characters of a frame in assembly complete the number stated by its length character (R28), be its type a follower's
or not. A frame whose length character is not allowed for its type is never complete: a gap or an address character ends it. -/
def frameComplete : List RxChar → Bool
  | a :: t :: l :: rest => lengthAllowed t.byte l.byte && (a :: t :: l :: rest).length == l.byte.toNat
  | _ => false

/-- The type is one of a follower's frames, REPLY or ANNOUNCE (R28, R186). -/
def followerType (bs : List Byte) : Bool := field bs 1 1 == 0x32 || field bs 1 1 == 0x35

/-- An ended frame as judged: bad, or what a good one carries. -/
inductive FollowerFrame where
  | bad
  | reply (addr : Nat) (p : Reply)
  | announce (addr : Nat) (identity : BitVec 32)
  deriving DecidableEq, Repr

/-- The first character has the mark bit 1 and no other has (R28). -/
def marksGood : List RxChar → Bool
  | [] => false
  | a :: rest => a.marked && rest.all (fun c => !c.marked)

/-- The check over every character after the address character equals the check character (R28, R185). -/
def lineCheckGood (bs : List Byte) : Bool := crc8 (bs.drop 1).dropLast == bs.getLastD 0

/-- A REPLY's fields (R186): flags at offset 4, t2 at 5, t3 at 15, the stamp request at 25. -/
def decodeReply (bs : List Byte) : Reply where
  txn := BitVec.ofNat 8 (field bs 3 1)
  seq := BitVec.ofNat 4 (field bs 4 1 % 16)
  clockValid := flag bs 4 4
  wantPoll := flag bs 4 5
  t2 := timeField bs 5
  t3 := timeField bs 15
  ask := if flag bs 4 6 then some (BitVec.ofNat 8 (field bs 25 1), field bs 26 1) else none

/-- The verdict on an ended frame, and the decoding of a good one (R28, R187). A frame whose type is no follower's is bad, also
where it has ended at the number of characters it states. -/
def judgeFrame (cs : List RxChar) : FollowerFrame :=
  let bs := cs.map RxChar.byte
  if frameComplete cs && followerType bs && marksGood cs && cs.all (fun c => !c.framing) && lineCheckGood bs then
    if field bs 1 1 = 0x35 then .announce (field bs 0 1) (BitVec.ofNat 32 (field bs 3 4))
    else if flag bs 4 6 = (field bs 2 1 == 28) then .reply (field bs 0 1) (decodeReply bs)
    else .bad
  else .bad

/-- Some character of the frame is marked noisy (R28). -/
def noisyFrame (cs : List RxChar) : Bool := cs.any RxChar.noisy

/-! ### Frames the part sends (R186, R188) -/

/-- A frame with its check character, over every character after the address character (R185). -/
def sealFrame (addr : Nat) (rest : List Byte) : List Byte := BitVec.ofNat 8 addr :: rest ++ [crc8 rest]

/-- The eleven bits of a character as sent (R26, 10.2): the start bit at the break level, eight data bits, least
significant first, the mark bit, the stop bit at the idle level; `true` is a bit value of 1, the idle level. -/
def charBits (mark : Bool) (b : Byte) : List Bool :=
  [false, b.getLsbD 0, b.getLsbD 1, b.getLsbD 2, b.getLsbD 3, b.getLsbD 4, b.getLsbD 5, b.getLsbD 6, b.getLsbD 7, mark, true]

/-- Every bit of a frame the part sends, its characters with no gap between them: the address character carries the mark
bit 1, every later one the mark bit 0 (R26, R186). -/
def frameBits : List Byte → List Bool
  | [] => []
  | a :: rest => charBits true a ++ rest.flatMap (charBits false)

/-- A POLL (R186). -/
def pollFrame (addr : Nat) (txn : Byte) : List Byte := sealFrame addr [0x31, 5, txn]

/-- A DISCOVER with its window in us (R186, R188). -/
def discoverFrame (window : Nat) : List Byte := sealFrame 0 [0x34, 5, BitVec.ofNat 8 (window / 100)]

/-- The value of a refusal code in a CLOSE and in a STAMP response (10.5). -/
def RefusalCode.value : RefusalCode → Nat
  | .badCount => 1
  | .noDomain => 2
  | .domainClosed => 3
  | .domainFrozen => 4
  | .notMember => 5
  | .epochChanged => 6
  | .withdrawn => 7
  | .rackFenced => 8
  | .untracked => 9
  | .correcting => 10
  | .uncertain => 11

/-- The correction block (R186): sequence and kind, then the value in 8 bytes. -/
def correctionBlock (c : Correction) : List Byte :=
  BitVec.ofNat 8 (c.seq.toNat + if c.kind = .step then 16 else 0) :: signedBytes 8 c.value

/-- The answer block: a grant's 18 bytes or a refusal's 2 (R186). -/
def answerBlock : Answer → List Byte
  | .grant g => g.domain :: bytesOf 2 g.epoch.toNat ++ timeBytes g.base ++ bytesOf 1 g.count ++ bytesOf 4 g.uncertainty
  | .refusal d c => [d, BitVec.ofNat 8 c.value]

/-- The flags character of a CLOSE (R186, R188). -/
def closeFlags (c : Option Correction) (a : Option Answer) : Nat :=
  (if c.isSome then 1 else 0) + (match a with
    | none => 0
    | some (.refusal _ _) => 2
    | some (.grant g) => if g.clamped then 14 else 6)

/-- The blocks of a CLOSE (R186). -/
def closeBlocks (c : Option Correction) (a : Option Answer) : List Byte :=
  (match c with
    | some c => correctionBlock c
    | none => []) ++ (match a with
    | some a => answerBlock a
    | none => [])

/-- A CLOSE from the subject record as it stands (R62, R188). -/
def closeFrame (addr : Nat) (txn : Byte) (c : Option Correction) (a : Option Answer) : List Byte :=
  sealFrame addr (0x33 :: BitVec.ofNat 8 (6 + (closeBlocks c a).length) :: txn :: BitVec.ofNat 8 (closeFlags c a)
    :: closeBlocks c a)

/-! ### Time-of-day messages (R2, R189) -/

/-- The verdict on ten characters, the start marker first: the held message of a good one, none for a bad one (R2). -/
def judgeTod (cs : List RxChar) : Option HeldMessage :=
  let bs := cs.map RxChar.byte
  if cs.all (fun c => !c.framing && !c.marked) && field bs 1 1 == 0x54 && crc8 ((bs.drop 1).take 8) == bs.getD 9 0 then
    some ⟨field bs 2 6, field bs 8 1 == 0⟩
  else none

/-! ### Request bodies (R190, R191) -/

/-- A line, rack or key's line named by a byte. -/
def lineOf (n : Nat) : Option (Fin 12) := if h : n < 12 then some ⟨n, h⟩ else none

/-- A reference named by a byte: A 1, B 2 (10.5). -/
def chanOf (n : Nat) : Option Chan := if n = 1 then some .a else if n = 2 then some .b else none

/-- A bit rate named by a byte: 1, 2 or 4 Mbit/s. -/
def rateOf (n : Nat) : Option BitRate := if n = 1 then some .m1 else if n = 2 then some .m2 else if n = 4 then some .m4 else none

/-- A cycle period of the list of R30, ms. -/
def periodListed (n : Nat) : Bool := n == 125 || n == 250 || n == 500 || n == 1000 || n == 2000

/-- A fence mode named by a byte (10.5). -/
def fenceOf (n : Nat) : Option FenceMode :=
  if n = 0 then some .off else if n = 1 then some .refuseRack else if n = 2 then some .freezeDomain else none

/-- A value lies in a range. -/
def within (lo hi n : Nat) : Bool := lo ≤ n && n ≤ hi

/-- A carried field passes its check; a field that is not carried is not checked (R191). -/
def carriedOk (presence k : Nat) (ok : Bool) : Bool := !presence.testBit k || ok

/-- A carried field's new value, or the present one (R191). -/
def carried {α : Type} (presence k : Nat) (new old : α) : α := if presence.testBit k then new else old

/-- An address 1 to 47. -/
def addrOk (n : Nat) : Bool := within 1 47 n

/-- The record that a record name names, or the status of the refusal (R84, R191). -/
def State.named (s : State) (body : List Byte) : Except Status Endpoint :=
  if field body 0 1 = 0 then
    match lineOf (field body 1 1) with
    | some i =>
      if addrOk (field body 2 1) then
        match s.byKey i (field body 2 1) with
        | some r => .ok r
        | none => .error .notFound
      else .error .badField
    | none => .error .badField
  else if field body 0 1 = 1 then
    if field body 1 2 ≤ 511 then
      match s.bySlot (field body 1 2) with
      | some r => .ok r
      | none => .error .notFound
    else .error .badField
  else .error .badField

/-- The domain that a body's first byte names, or the status of the refusal (R122). -/
def State.namedDomain (s : State) (body : List Byte) : Except Status Domain :=
  if field body 0 1 = 0 then .error .badField
  else match s.domain (BitVec.ofNat 8 (field body 0 1)) with
    | some d => .ok d
    | none => .error .notFound

end Sys2Proof.Machine
end

