-- ==== Sys2Proof/Machine/Stamps.lean ====
section
/-! DEFINITION. The stamp service's decisions and settlements (07_granting_stamps.md, R116 to R120, R128) and the error
bound they read (R70). Shared operations; the meanings of the domain requests are in Machine/Domains.lean. -/

namespace Sys2Proof.Machine

open Sys2Proof

/-! ### The error bound (R70) -/

/-- The age term of an error bound, about the instant `instant`, from the newest sample's t1 (R70). -/
def ageTerm (drift : Nat) (t1 instant : RowTime) : Nat :=
  if t1.toNs ≤ instant.toNs then (instant.toNs - t1.toNs) / 1000000 * drift / 1000
  else Config.ageTermAcrossWrap t1.toNs instant.toNs

/-- The error bound of a window about an instant (R70). -/
def boundOf (u asymAllow drift : Nat) (w : List Sample) (instant : RowTime) : Nat :=
  match leastDelay w, w.getLast? with
  | some d, some x => min uCap (u + d / 2 + asymAllow + ageTerm drift x.t1 instant)
  | _, _ => uCap

/-- The error bound of a record about an instant, from U and the line's allowances as they stand (R70). -/
def State.errorBound (s : State) (r : Endpoint) (instant : RowTime) : Nat :=
  boundOf s.clk.u (s.line r.line).asymAllow (s.line r.line).driftAllow r.window instant

/-! ### The value of a grant (7.3, 7.4) -/

/-- The greatest row time, as a count of ns (R138). -/
def maxRowNs : Nat := secMod * second - 1

/-- The base stamp as a count of ns: T, or the last issued stamp plus 1 ns (R138). -/
def baseStamp (last : Option RowTime) (t : RowTime) : Nat :=
  match last with
  | none => t.toNs
  | some l => if t.toNs > l.toNs then t.toNs else l.toNs + 1

/-- The uncertainty: a bound about T plus the clamp gap, saturating (R140). -/
def uncertaintyOf (bound : Nat) (last : Option RowTime) (t : RowTime) : Nat :=
  min uCap (bound + (baseStamp last t - t.toNs))

/-- Check 11: the grant, or UNCERTAIN (R138, R141, R142). -/
def Domain.valueGrant (d : Domain) (bound : Nat) (t : Capture) (count : Nat) : Answer :=
  if uncertaintyOf bound d.lastIssued t.time ≤ d.tolerance
      ∧ baseStamp d.lastIssued t.time + count - 1 ≤ maxRowNs then
    .grant ⟨d.id, t.epoch, RowTime.ofNs (baseStamp d.lastIssued t.time), count,
      uncertaintyOf bound d.lastIssued t.time, decide (t.time.toNs < baseStamp d.lastIssued t.time)⟩
  else .refusal d.id .uncertain

/-! ### The order of checks (7.2) -/

/-- Checks 5 to 10, which are made for a line request alone (R134, R135); `epochVoid`: the epoch check of R56 failed. -/
def State.lineChecks (s : State) (d : Domain) (r : Endpoint) (epochVoid : Bool) : Option RefusalCode :=
  if d.members.getLsbD r.line = false then some .notMember
  else if epochVoid then some .epochChanged
  else if r.withdrawal ≠ .no then some .withdrawn
  else if d.fence = .refuseRack ∧ s.inAlarm r.line = true then some .rackFenced
  else if r.state ≠ .tracking then some .untracked
  else if r.inFlight then some .correcting
  else none

/-- Checks 1 to 4, which every request meets: the domain, or the code of the first check that fails (R134). -/
def State.commonChecks (s : State) (id : Byte) (count : Nat) : Except RefusalCode Domain :=
  if count < 1 ∨ count > 16 then .error .badCount
  else if id = 0 then .error .noDomain
  else match s.domain id with
    | none => .error .noDomain
    | some d =>
      match d.state with
      | .retiring => .error .domainClosed
      | .frozen => .error .domainFrozen
      | .opened => .ok d

/-- The decision on a line request (R131, R134): T is t4, and the bound is the record's about T. -/
def State.decideLine (s : State) (r : Endpoint) (epochVoid : Bool) (t4 : Capture) (id : Byte) (count : Nat) : Answer :=
  match s.commonChecks id count with
  | .error c => .refusal id c
  | .ok d =>
    match s.lineChecks d r epochVoid with
    | some c => .refusal id c
    | none => d.valueGrant (s.errorBound r t4.time) t4 count

/-- The decision on a host request (R132, R134): T and the epoch are captured at acceptance, and the bound is U. -/
def State.decideHost (s : State) (id : Byte) (count : Nat) : Answer :=
  match s.commonChecks id count with
  | .error c => .refusal id c
  | .ok d => d.valueGrant s.clk.u ⟨s.clk.row, s.clk.epoch⟩ count

/-! ### Recording a decision (R118, R119, R136, R142) -/

/-- The domain after a decision that names it; `line`: the request came from a line. -/
def Domain.book (line : Bool) (a : Answer) (d : Domain) : Domain :=
  match a with
  | .refusal _ _ => { d with refusals := satAdd 4294967295 d.refusals 1 }
  | .grant g =>
    { d with lastIssued := some (RowTime.ofNs (g.base.toNs + g.count - 1)),
             grants := satAdd 4294967295 d.grants 1,
             stamps := satAdd 281474976710655 d.stamps g.count,
             pendingDel := if line then d.pendingDel + 1 else d.pendingDel }

/-- STS decides a host request and records the decision (R132, R142). -/
def State.stampHost (id : Byte) (count : Nat) (s : State) : State := s.modDomain id (Domain.book false (s.decideHost id count))

/-- STS decides a line request, records the decision, and writes it to the record as its pending grant (R142, R143). -/
def State.stampLine (slot : Nat) (epochVoid : Bool) (t4 : Capture) (id : Byte) (count : Nat) (s : State) : State :=
  match s.bySlot slot with
  | none => s
  | some r =>
    (s.modDomain id (Domain.book true (s.decideLine r epochVoid t4 id count))).updateRecord slot
      (fun x => { x with answer := some (s.decideLine r epochVoid t4 id count) })

/-! ### Settlement (7.6) -/

/-- The domain after the settlement of one of its line grants (R144, R145). -/
def Domain.settled (how : TxnEnd) (count : Nat) (d : Domain) : Domain :=
  { d with pendingDel := d.pendingDel - 1,
           burned := if how = .abandoned then satAdd 4294967295 d.burned count else d.burned }

/-- A RETIRING domain whose pending deliveries are 0 is removed (R128). -/
def State.removeRetired (id : Byte) (s : State) : State :=
  match s.domain id with
  | some d => if d.state = .retiring ∧ d.pendingDel = 0 then s.dropDomain id else s
  | none => s

/-- STS takes the end of a transaction, with the pending grant of its subject record (R144, R145, R146). -/
def State.stsEnd (slot : Nat) (held : Option Answer) (how : TxnEnd) (s : State) : State :=
  match held with
  | none => s
  | some (.refusal _ _) => s.updateRecord slot (fun r => { r with answer := none })
  | some (.grant g) =>
    ((s.modDomain g.domain (Domain.settled how g.count)).removeRetired g.domain).updateRecord slot
      (fun r => { r with answer := none })

end Sys2Proof.Machine
end

