-- ==== Sys2Proof/Machine/Cycle.lean ====
section
/-! DEFINITION. The line controllers' cycle, transaction, discovery, abandonment and receiver (02_rack_lines.md,
03_the_exchange_and_the_poll_cycle.md). Shared operations; the meanings of the line commands are in
Machine/RackLines.lean. -/

namespace Sys2Proof.Machine

open Sys2Proof

/-! ### Sending (R26) -/

/-- When a frame begun now has its first start bit: at once, but after the end of the character that completes a frame
cut off just before, because the pair carries one character at a time (R26, assumption 12). -/
def Line.sendStart (now : Nat) (l : Line) : Nat :=
  match l.tail with
  | some f => max now f.finish
  | none => now

/-- The line begins to send a frame, at the bit rate in force. -/
def Line.send (now : Nat) (bytes : List Byte) (l : Line) : Line :=
  { l with tx := some ⟨bytes, l.sendStart now, l.sendStart now + bytes.length * l.rate.charNs⟩ }

/-- Every bit of the frame, in order (R26). -/
def TxFrame.bits (f : TxFrame) : List Bool := frameBits f.bytes

/-- The frame is going out at the local time `now`. -/
def TxFrame.active (now : Nat) (f : TxFrame) : Bool := decide (f.start ≤ now) && decide (now < f.finish)

/-- The bit that the frame drives at the local time `now`: its bits last equally long. -/
def TxFrame.bitAt (now : Nat) (f : TxFrame) : Bool :=
  f.bits.getD ((now - f.start) * f.bits.length / (f.finish - f.start)) true

/-- The frame that the line is sending at the local time `now`: the one begun last, or the rest of the one cut off. -/
def Line.sending (now : Nat) (l : Line) : Option TxFrame :=
  match l.tx.filter (TxFrame.active now) with
  | some f => some f
  | none => l.tail.filter (TxFrame.active now)

/-- The line's driver enable (R26): asserted from the first start bit of a frame to the end of its last stop bit, or to
the end of the character that completes a frame cut off. -/
def Line.driverEnabled (now : Nat) (l : Line) : Bool := (l.sending now).isSome

/-- What the line drives on its transmit pair: `true` the idle level, `false` the break level; none while its driver is
disabled, when the pair is left to its idle bias (R26). -/
def Line.transmits (now : Nat) (l : Line) : Option Bool := (l.sending now).map (TxFrame.bitAt now)

/-- A frame being sent is cut off: the character in progress is completed and no further one is sent (R26). On the boundary of two
characters, and at the frame's first instant, the one that begins there is in progress, which is the model's choice
(assumption 47). -/
def TxFrame.cut (now charNs : Nat) (f : TxFrame) : Option TxFrame :=
  if now < f.start ∨ f.finish ≤ now then none
  else some ⟨f.bytes.take ((now - f.start) / charNs + 1), f.start, f.start + ((now - f.start) / charNs + 1) * charNs⟩

/-- What stands of a cut-off frame: the rest of the one being sent, or else what stood before. -/
def Line.cutTail (now : Nat) (l : Line) : Option TxFrame := (l.tx.bind (TxFrame.cut now l.rate.charNs)).or l.tail

/-- What abandonment and the closing of a discovery window do to the line's own sending and receiving (R31): a frame
being sent is cut off, a frame in assembly is discarded, and the window is stopped. R31 states the cut-off for a transaction in
flight; that a DISCOVER still being sent is cut off too is the model's choice (assumption 19). -/
def Line.hush (now : Nat) (l : Line) : Line :=
  { l with tx := none, tail := l.cutTail now, rx := [], rxOpen := false, windowEnd := none, windowElapsed := false }

/-- The rest of the running cycle is dropped: poll list, position and cycle period (R32, R36, R37).
R30 gives the field 'period of the running cycle' no absent value: the timer stops, and the field keeps its last value,
which nothing reads until the next cycle start writes it. That is the model's choice (assumption 36). -/
def Line.dropCycle (l : Line) : Line :=
  { l with pollList := [], pollPos := 0, phase := .stopped, periodEnd := none, periodElapsed := false, overrun := false }

/-- The line enters QUIESCED and the quiesce requested flag is cleared (R37, R38). -/
def Line.toQuiesced (l : Line) : Line := { l.dropCycle with state := .quiesced, quiesceReq := false }

/-! ### Transactions (R53) and discovery (R64) -/

/-- What a start at the local time `now` takes from the line (R53, R64). -/
def Line.beginning (now : Nat) (l : Line) : Begun := ⟨now, l.txNumber, l.rate, l.urgent⟩

/-- The line's own part of a transaction's start (R53). -/
def Line.beginPoll (now : Nat) (slot addr : Nat) (l : Line) : Line :=
  Line.send now (pollFrame addr (l.txNumber + 1))
    { l with urgent := l.urgent.filter (fun x => x != slot), txNumber := l.txNumber + 1, rate := l.cfgRate,
             transaction := some ⟨slot, l.replyWindow, false⟩, state := .polling, rx := [], rxOpen := false,
             windowEnd := none, windowElapsed := false, begun := some (l.beginning now) }

/-- t1 and the epoch are captured at the leading edge of the POLL's first start bit (R20, R53): now, or, if that edge is
still to come, when time reaches it. -/
def State.captureT1 (i : Fin 12) (s : State) : State :=
  let e := (s.line i).sendStart s.localNs
  { s with latches := s.latches.set i ⟨if e ≤ s.localNs then none else some e, ⟨s.clk.row, s.clk.epoch⟩⟩ }

/-- The line begins a transaction with a record (R53). -/
def State.beginTransaction (i : Fin 12) (r : Endpoint) (s : State) : State :=
  ((s.captureT1 i).modLine i (Line.beginPoll s.localNs r.slot r.addr)).updateRecord r.slot
    (fun r => { r with inTxn := true })

/-- The discovery phase begins (R64). -/
def Line.beginDiscovery (now : Nat) (l : Line) : Line :=
  Line.send now (discoverFrame l.discWindow)
    { l with rate := l.cfgRate, discLength := l.discWindow, state := .discovering, phase := .discovery, rx := [],
             rxOpen := false, windowEnd := none, windowElapsed := false, begun := some (l.beginning now) }

/-! ### The cycle (R43 to R48, R52) -/

/-- The first slot of a list whose record is pollable, with its record and the number of entries passed (R46, R53). -/
def State.firstPollable (s : State) : List Nat → Nat → Option (Nat × Endpoint)
  | [], _ => none
  | slot :: rest, k =>
    match s.bySlot slot with
    | some r => if r.pollable then some (k + 1, r) else s.firstPollable rest (k + 1)
    | none => s.firstPollable rest (k + 1)

/-- A record put among others, which stand by rising address. -/
def insertByAddr (r : Endpoint) : List Endpoint → List Endpoint
  | [] => [r]
  | x :: xs => if r.addr ≤ x.addr then r :: x :: xs else x :: insertByAddr r xs

/-- Records by rising address. -/
def sortByAddr (rs : List Endpoint) : List Endpoint := rs.foldr insertByAddr []

/-- The record is listed in cycle `c` (R45). -/
def Endpoint.listed (i : Fin 12) (c : Nat) (boost : Bool) (r : Endpoint) : Bool :=
  r.line == i && r.pollable && (c + r.addr) % 2 ^ r.effClass boost == 0

/-- The poll list of line `i` in cycle `c` (R45). -/
def State.buildList (s : State) (i : Fin 12) (c : Nat) (boost : Bool) : List Nat :=
  (sortByAddr (s.records.filter (Endpoint.listed i c boost))).map Endpoint.slot

/-- The cycle base class of every record on the line is taken (R44). -/
def State.takeClasses (i : Fin 12) (s : State) : State :=
  { s with records := s.records.map (fun r => if r.line = i then { r with cycleClass := r.baseClass } else r) }

/-- The line's own part of a cycle start (R43, steps 1 to 3 and 5; the line is IDLE at the start of its list phase). -/
def Line.startCycle (now : Nat) (boost : Bool) (list : List Nat) (l : Line) : Line :=
  { l with cycle := l.cycle + 1, period := l.cfgPeriod, periodEnd := some (now + l.cfgPeriod * 1000000),
           periodElapsed := false, overrun := false, boost := boost, pollList := list, pollPos := 0, phase := .list,
           state := .idle }

/-- A cycle start, up to the beginning of its list phase (R43). -/
def State.cycleStart (i : Fin 12) (s : State) : State :=
  (s.takeClasses i).modLine i (Line.startCycle s.localNs (s.rack i).boosted
    ((s.takeClasses i).buildList i ((s.line i).cycle + 1).toNat (s.rack i).boosted))

/-- All phases are over: the line is IDLE for the rest of the cycle (R48). -/
def Line.rest (l : Line) : Line := { l with phase := .done, state := .idle }

/-- The list phase is finished in an overrun cycle, which has no other phase (R47). -/
def Line.listOver (l : Line) : Line := { l with pollPos := l.pollList.length, phase := .done, state := .idle }

/-- The list phase is finished and the urgent phase begins (R52). -/
def Line.toUrgent (l : Line) : Line := { l with pollPos := l.pollList.length, phase := .urgent }

/-- The entries of the poll list up to position `k` have been reached (R46). -/
def Line.reach (k : Nat) (l : Line) : Line := { l with pollPos := k }

/-- The line stands between transactions (R48, R63, R66). -/
def Line.toIdle (l : Line) : Line := { l with state := .idle }

/-- The urgent phase at its check between transactions, and the decision on discovery that follows it (R52, R48).
The second component says that the next cycle starts at once. -/
def State.urgentPhase (i : Fin 12) (s : State) : State × Bool :=
  match (if (s.line i).periodElapsed then none else s.firstPollable (s.line i).urgent 0) with
  | some (_, r) => (s.beginTransaction i r, false)
  | none =>
    if (s.line i).discEnable && !(s.line i).overrun && !(s.line i).periodElapsed then
      (s.modLine i (Line.beginDiscovery s.localNs), false)
    else (s.modLine i Line.rest, (s.line i).periodElapsed)

/-- The line goes on with its cycle (R46, R47, R48, R52).
The second component says that the next cycle starts at once. -/
def State.goOn (i : Fin 12) (s : State) : State × Bool :=
  match (s.line i).phase with
  | .list =>
    match s.firstPollable ((s.line i).pollList.drop (s.line i).pollPos) (s.line i).pollPos with
    | some (k, r) => ((s.modLine i (Line.reach k)).beginTransaction i r, false)
    | none =>
      if (s.line i).overrun then (s.modLine i Line.listOver, true)
      else (s.modLine i Line.toUrgent).urgentPhase i
  | .urgent => s.urgentPhase i
  | .discovery => (s.modLine i Line.rest, (s.line i).periodElapsed)
  | .done => (s, false)
  | .stopped => (s, false)

/-- A cycle start and the beginning of its list phase (R43). A cycle whose period has just started never gives way to
the next one at once. -/
def State.newCycle (i : Fin 12) (s : State) : State := ((s.cycleStart i).goOn i).1

/-- The line goes on with its cycle, or starts the next one (R46, R47, R48, R52). -/
def State.proceed (i : Fin 12) (s : State) : State :=
  if (s.goOn i).2 then (s.goOn i).1.newCycle i else (s.goOn i).1

/-! ### The end of a transaction (R31, R38, R55, R63) -/

/-- The pending grant of the record in a slot. -/
def State.heldAnswer (s : State) (slot : Nat) : Option Answer := (s.bySlot slot).bind Endpoint.answer

/-- The reply or discovery window is over: the receiver closes, with no frame in assembly (R29). -/
def Line.closeWindow (l : Line) : Line :=
  { l with rx := [], rxOpen := false, windowEnd := none, windowElapsed := false }

/-- The transaction in flight becomes none, and its window is over (R31, R63). -/
def Line.noTransaction (l : Line) : Line := { l.closeWindow with transaction := none }

/-- A MISS is counted (R55). -/
def Line.countMiss (l : Line) : Line := { l with counters := { l.counters with misses := inc16 l.counters.misses } }

/-- The end of the transaction in flight is reported to EPT and then to STS, and the transaction becomes none
(R31 steps 6 and 7, R63 steps 1 to 3). -/
def State.endTransaction (i : Fin 12) (how : TxnEnd) (s : State) : State :=
  match (s.line i).transaction with
  | none => s
  | some t =>
    ((s.eptEnd t.slot how).stsEnd t.slot (s.heldAnswer t.slot) how).modLine i Line.noTransaction

/-- After a transaction's end or a discovery window: QUIESCED if that was asked for, else the cycle goes on (R38). -/
def State.afterEnd (i : Fin 12) (s : State) : State :=
  if (s.line i).quiesceReq then s.modLine i Line.toQuiesced
  else (s.modLine i Line.toIdle).proceed i

/-- The transaction ends as a MISS (R55). -/
def State.miss (i : Fin 12) (s : State) : State :=
  match (s.line i).transaction with
  | none => s
  | some t =>
    (((s.modLine i Line.countMiss).eptMiss t.slot (s.line i).missLimit).endTransaction i .missed).afterEnd i

/-- Abandonment of the transaction in flight, and the closing of an open discovery window (R31). A DISCOVER
still being sent is cut off, whichever event closes its window; that is the model's choice (assumption 19). -/
def State.abandon (i : Fin 12) (s : State) : State :=
  (s.modLine i (Line.hush s.localNs)).endTransaction i .abandoned

/-- The record is the subject of a transaction that no SUSPEND or RETIRE has found since it began (R88, R89). -/
def State.subjectStays (s : State) (slot : Nat) : Bool := (s.bySlot slot).any (fun r => r.withdrawal == .no)

/-- The transaction or discovery phase of line `i` has begun at this very instant (R33, R40). A SUSPEND or RETIRE that found the
record in transaction took the start first (R53), which then stands. -/
def State.startsNow (s : State) (i : Fin 12) : Bool :=
  (s.line i).begun.any (fun b => b.now == s.localNs) &&
    match (s.line i).state with
    | .polling => (s.line i).transaction.any (fun x => s.subjectStays x.slot)
    | .discovering => true
    | .off => false
    | .idle => false
    | .closing => false
    | .quiesced => false
    | .fault => false

/-- The line as it stood before the start `b` at this instant: IDLE, with nothing begun to be sent (R33, R40). Its cycle keeps
its phase, which LINE_RESET and the fault drop; a slot that has left the urgent queue meanwhile stays out of it. -/
def Line.unbegin (b : Begun) (l : Line) : Line :=
  { l.closeWindow with
    state := .idle, transaction := none, tx := none, txNumber := b.txNumber, rate := b.rate
    urgent := b.urgent.filter (fun n => l.urgent.contains n || l.transaction.any (fun x => x.slot == n)) }

/-- A record is not in transaction any more; nothing else of it changes. -/
def State.leaveTxn (slot : Nat) (s : State) : State := s.updateRecord slot (fun r => { r with inTxn := false })

/-- Line `i` as a line fault or LINE_RESET finds it (R33, R40): a transaction or discovery phase that has begun at this very
instant had not begun yet, so the line is IDLE. That this holds of every start of that instant is the model's choice
(assumption 43). -/
def State.foundIdle (i : Fin 12) (s : State) : State :=
  match (s.line i).begun with
  | none => s
  | some b =>
    if s.startsNow i then
      match (s.line i).transaction with
      | none => s.modLine i (Line.unbegin b)
      | some x => (s.modLine i (Line.unbegin b)).leaveTxn x.slot
    else s

/-- The discovery window is over (R66). -/
def State.endDiscovery (i : Fin 12) (s : State) : State :=
  (s.modLine i Line.closeWindow).afterEnd i

/-! ### The hand-off of a REPLY (R50, R56, R62) -/

/-- An urgent drop is counted (R50). -/
def Line.countDrop (l : Line) : Line :=
  { l with counters := { l.counters with urgentDrops := inc16 l.counters.urgentDrops } }

/-- A slot joins the urgent queue (R49, R50). -/
def Line.joinUrgent (slot : Nat) (l : Line) : Line := { l with urgent := l.urgent ++ [slot] }

/-- The line's own part of the CLOSE: it enters CLOSING and sends the frame (R62). -/
def Line.beginClose (now : Nat) (frame : List Byte) (l : Line) : Line :=
  Line.send now frame { l.closeWindow with state := .closing }

/-- A want-poll request of the subject record (R50). -/
def State.wantPoll (i : Fin 12) (slot : Nat) (s : State) : State :=
  match s.bySlot slot with
  | none => s
  | some r =>
    if !r.pollable || (s.line i).urgent.contains slot then s
    else if (s.line i).urgent.length ≥ 8 then s.modLine i Line.countDrop
    else s.modLine i (Line.joinUrgent slot)

/-- The line enters CLOSING and sends a CLOSE assembled from the subject record as it stands (R62). -/
def State.sendClose (i : Fin 12) (slot : Nat) (s : State) : State :=
  match s.bySlot slot with
  | none => s
  | some r =>
    s.modLine i (Line.beginClose s.localNs (closeFrame r.addr (s.line i).txNumber r.toSend r.answer))

/-- The record's frequency and window after steps 1 to 3 decide the correction interval: the running cycle's period in
ms times 2^k (R56). -/
def State.interval (s : State) (i : Fin 12) (r : Endpoint) : Nat :=
  (s.line i).period * 2 ^ r.effClass (s.line i).boost

/-- The report of an accepted sample to DWU, with the record's state after the state rules (R69, R153). -/
def State.reportSample (i : Fin 12) (v : Verdict) (slot : Nat) (s : State) : State :=
  match v, s.bySlot slot with
  | .accepted x, some r => s.modRack i (Rack.sample x.theta r.state)
  | _, _ => s

/-- COR decides and EPT writes the decision (step 4 of R56). -/
def State.decideCorrection (i : Fin 12) (v : Verdict) (slot : Nat) (s : State) : State :=
  match v, s.bySlot slot with
  | .accepted _, some r => s.updateRecord slot (Endpoint.correct true (s.interval i r))
  | _, _ => s

/-- STS decides the stamp request, if the REPLY carries one (step 5 of R56). -/
def State.decideStamp (epochVoid : Bool) (t4 : Capture) (p : Reply) (slot : Nat) (s : State) : State :=
  match p.ask with
  | some (id, count) => s.stampLine slot epochVoid t4 id count
  | none => s

/-- The epoch check of a hand-off fails: the epoch now differs from the epoch at t1 (R56). -/
def State.epochVoid (s : State) (i : Fin 12) : Bool := s.clk.epoch != (s.t1 i).epoch

/-- The verdict on the exchange of the transaction on line `i` with record `r` (R56 to R59). -/
def State.verdict (s : State) (i : Fin 12) (r : Endpoint) (p : Reply) (t4 : Capture) : Verdict :=
  judgeSample (s.epochVoid i || r.withdrawal != .no) (s.line i).delayLimit (s.t1 i).time t4.time p r.asym

/-- Steps 1 to 5 of a hand-off with verdict `v`: EPT, DWU, COR and STS act in order (R56). -/
def State.exchange (i : Fin 12) (v : Verdict) (epochVoid : Bool) (slot : Nat) (p : Reply) (t4 : Capture) (s : State) :
    State :=
  (((s.updateRecord slot (Endpoint.takeReply v p.seq)).reportSample i v slot).decideCorrection i v slot).decideStamp
    epochVoid t4 p slot

/-- The want-poll request, if the REPLY makes one (R50). -/
def State.askPoll (i : Fin 12) (p : Reply) (slot : Nat) (s : State) : State := if p.wantPoll then s.wantPoll i slot else s

/-- A good REPLY of the transaction is taken: EPT, COR and STS act in order, then want-poll and the CLOSE (R56, R62). -/
def State.handoff (i : Fin 12) (p : Reply) (t4 : Capture) (s : State) : State :=
  match (s.line i).transaction with
  | none => s
  | some t =>
    match s.bySlot t.slot with
    | none => s
    | some r => ((s.exchange i (s.verdict i r p t4) (s.epochVoid i) t.slot p t4).askPoll i p t.slot).sendClose i t.slot

/-! ### Receiving (R28, R29, R54, R65) -/

/-- The transaction has failed; a bad frame is counted (R54). -/
def Line.failTxn (bad : Bool) (l : Line) : Line :=
  { l with transaction := l.transaction.map (fun t => { t with failed := true }),
           counters := if bad then { l.counters with badFrames := inc16 l.counters.badFrames } else l.counters }

/-- A character is arriving whose leading edge lay in the open window (R54, R65). -/
def Line.charInWindow (l : Line) : Bool :=
  match l.receiver with
  | .char _ _ w _ => w
  | .waiting => false
  | .held => false

/-- A frame that began in the window is in assembly, be it by the character that is arriving (R29, R54, R65). -/
def Line.receiving (l : Line) : Bool := !l.rx.isEmpty || l.charInWindow

/-- The window has run and no frame that began in it is arriving (R29). -/
def Line.windowOver (l : Line) : Bool := l.windowElapsed && !l.charInWindow

/-- The transaction ends as a MISS if its window has already run (R54). -/
def State.missIfOver (i : Fin 12) (s : State) : State := if (s.line i).windowOver then s.miss i else s

/-- A frame ended in POLLING that is not a good REPLY of the transaction, or comes after the first frame (R54);
the transaction ends here if the window has already run. -/
def State.failFrame (i : Fin 12) (bad : Bool) (s : State) : State := (s.modLine i (Line.failTxn bad)).missIfOver i

/-- The frame is a good REPLY of the transaction, and the first frame of the window (R54). -/
def State.isReplyOf (s : State) (i : Fin 12) (addr : Nat) (p : Reply) : Bool :=
  match (s.line i).transaction with
  | none => false
  | some t => !t.failed && p.txn == (s.line i).txNumber && (s.bySlot t.slot).map Endpoint.addr == some addr

/-- An ended frame of a POLLING line (R54); `edge`: the capture at its first character's leading edge. -/
def State.pollingFrame (i : Fin 12) (f : FollowerFrame) (edge : Capture) (s : State) : State :=
  match f with
  | .bad => s.failFrame i true
  | .announce _ _ => s.failFrame i false
  | .reply addr p => if s.isReplyOf i addr p then s.handoff i p edge else s.failFrame i false

/-- A discovery collision is counted (R65). -/
def Line.countCollision (l : Line) : Line :=
  { l with counters := { l.counters with collisions := inc16 l.counters.collisions } }

/-- What an ended frame of a DISCOVERING line does (R65). -/
def State.takeAnnounce (i : Fin 12) (f : FollowerFrame) (s : State) : State :=
  match f with
  | .bad => s.modLine i Line.countCollision
  | .announce addr ident => if addrOk addr then s.eptAnnounce i addr ident else s
  | .reply _ _ => s

/-- The discovery window ends if its length has already run (R66). -/
def State.endIfOver (i : Fin 12) (s : State) : State := if (s.line i).windowOver then s.endDiscovery i else s

/-- An ended frame of a DISCOVERING line (R65); the window ends here if its length has already run (R66). -/
def State.discoveryFrame (i : Fin 12) (f : FollowerFrame) (s : State) : State := (s.takeAnnounce i f).endIfOver i

/-- No frame is in assembly any more; a noisy one is counted (R28). -/
def Line.frameOver (noisy : Bool) (l : Line) : Line :=
  { l with rx := [], counters := if noisy then { l.counters with noisy := inc16 l.counters.noisy } else l.counters }

/-- A frame is handed to the rules of the line's state (R28); no other state has a frame in assembly (R29). -/
def State.handFrame (i : Fin 12) (f : FollowerFrame) (edge : Capture) (s : State) : State :=
  match (s.line i).state with
  | .polling => s.pollingFrame i f edge
  | .discovering => s.discoveryFrame i f
  | .off => s
  | .idle => s
  | .closing => s
  | .quiesced => s
  | .fault => s

/-- A frame has ended: the noisy count, then the rules of the line's state (R28). -/
def State.frameEnded (i : Fin 12) (cs : List RxChar) (s : State) : State :=
  if cs = [] then s
  else (s.modLine i (Line.frameOver (noisyFrame cs))).handFrame i (judgeFrame cs) (s.line i).rxEdge

/-- A character whose leading edge came at `start` begins the frame in assembly (R28). -/
def Line.begin (start : Nat) (edge : Capture) (c : RxChar) (l : Line) : Line :=
  { l with rx := [c], rxEdge := edge, rxAt := start + l.rate.charNs }

/-- A character whose leading edge came at `start` joins the frame in assembly (R28). -/
def Line.assemble (start : Nat) (c : RxChar) (l : Line) : Line :=
  { l with rx := l.rx ++ [c], rxAt := start + l.rate.charNs }

/-- A stray character is counted (R29). -/
def Line.countStray (l : Line) : Line := { l with counters := { l.counters with stray := inc16 l.counters.stray } }

/-- A character that begins a frame, or is stray because the receiver is not open (R28, R29). -/
def State.firstChar (i : Fin 12) (start : Nat) (edge : Capture) (c : RxChar) (s : State) : State :=
  if (s.line i).rxOpen then s.modLine i (Line.begin start edge c) else s.modLine i Line.countStray

/-- A character that goes on with the frame in assembly, and may end it (R28). -/
def State.nextChar (i : Fin 12) (start : Nat) (c : RxChar) (s : State) : State :=
  if frameComplete ((s.line i).rx ++ [c]) then s.frameEnded i ((s.line i).rx ++ [c])
  else s.modLine i (Line.assemble start c)

/-- The receiver has completed a character, and looks for the next start bit: after a framing error, once it has met a
sample at the idle level (R27). -/
def Line.endChar (c : RxChar) (l : Line) : Line := { l with receiver := .following c }

/-- A character has been completed on the receive pair of line `i`, its leading edge at `start` (R28, R29).
A character with the mark bit 1 ends the frame in assembly while it is itself still arriving, so that a frame it begins
within the window is received although the window has run (R29, R54, R65). One begun after the window's end ends that frame,
and with it the transaction or the discovery phase, and is then stray; that is the model's choice (assumption 42). -/
def State.receiveChar (i : Fin 12) (start : Nat) (edge : Capture) (c : RxChar) (s : State) : State :=
  if (s.line i).rx = [] then (s.modLine i (Line.endChar c)).firstChar i start edge c
  else if c.marked then ((s.frameEnded i (s.line i).rx).firstChar i start edge c).modLine i (Line.endChar c)
  else (s.modLine i (Line.endChar c)).nextChar i start c

/-- A gap of more than two character times ends a frame in assembly as bad (R28). -/
def State.gap (i : Fin 12) (s : State) : State := s.frameEnded i (s.line i).rx

/-! ### Line faults (R32) and RESTART (R41) -/

/-- The line enters FAULT (R32, step 3): a line that was QUIESCED has the quiesce requested flag set. Its receiver and its
fault watch stop, and the recovery watch waits for a sample at the idle level (R27, R34). -/
def Line.toFault (l : Line) : Line :=
  { l.dropCycle with state := .fault, quiesceReq := l.quiesceReq || l.state == .quiesced, receiver := .waiting,
                     faultWatch := none, recoveryWatch := some none }

/-- The line has a fault: the actions of R32 in order, on the line as R33 has the fault find it. -/
def State.lineFault (i : Fin 12) (s : State) : State :=
  (((((s.foundIdle i).abandon i).modLine i Line.toFault).eptLineFault i).rackLineFault i).raise .line

/-! ### The samples of a receive pair (R27, R32, R34) -/

/-- The receiver replaced. -/
def Line.toReceiver (r : Receiver) (l : Line) : Line := { l with receiver := r }

/-- The window that waited for a frame is over, when that frame turns out to have been a false start (R27, R29). Whether a
start bit that lies in the window, and is decided at the idle level after the window's end, puts that end off is not stated:
the model ends the window at the decision, and not before. That is the model's choice (assumption 41). -/
def State.settleWindow (i : Fin 12) (s : State) : State :=
  if (s.line i).rx = [] then
    match (s.line i).state with
    | .polling => s.missIfOver i
    | .discovering => s.endIfOver i
    | .off => s
    | .idle => s
    | .closing => s
    | .quiesced => s
    | .fault => s
  else s

/-- A sample at level `v` reaches the receiver of line `i`, after one at level `was` (R27). -/
def State.listen (i : Fin 12) (was v : Bool) (s : State) : State :=
  match (s.line i).receiver.hear s.localNs ⟨s.clk.row, s.clk.epoch⟩ ((s.line i).rxOpen && !(s.line i).windowElapsed) was v with
  | .going r => s.modLine i (Line.toReceiver r)
  | .falseStart => (s.modLine i (Line.toReceiver .waiting)).settleWindow i
  | .character start edge c => s.receiveChar i start edge c

/-- The recovery watch takes a sample (R34). -/
def Line.watchIdle (now : Nat) (v : Bool) (l : Line) : Line :=
  { l with recoveryWatch := l.recoveryWatch.map (fun w => if v then some (w.getD now) else none) }

/-- The receive pair has been at the break level for 22 bit times of sixteen samples (R32). Each break sample in a row counts a
sixteenth of a bit time, so the 352nd reaches them, which is the model's choice (assumption 46). -/
def Line.faulty (l : Line) : Bool :=
  match l.faultWatch with
  | some n => decide (352 ≤ n)
  | none => false

/-- What a sample at level `v` does, after one at level `was`: nothing in OFF; in FAULT the recovery watch takes it; else
the fault watch, which has measured it already, may find a fault, and the receiver takes it (R27, R32, R34). -/
def State.sampled (i : Fin 12) (was v : Bool) (s : State) : State :=
  if (s.line i).state = .off then s
  else if (s.line i).state = .fault then s.modLine i (Line.watchIdle s.localNs v)
  else if (s.line i).faulty then s.lineFault i
  else s.listen i was v

/-- The pair is read: the fault watch, if it runs, measures the sample (R32). -/
def Line.take (now : Nat) (v : Bool) (l : Line) : Line :=
  { l with sampledAt := now, level := v, faultWatch := l.faultWatch.map (fun n => if v then 0 else n + 1) }

/-- The local time of a line's next sample, at or after `now` (R27). -/
def Line.sampleTime (now : Nat) (l : Line) : Nat := l.rate.sampleFrom (max now (l.sampledAt + 1))

/-- RESTART empties the urgent queue and sets the cycle number to 0 (R41). -/
def Line.emptied (l : Line) : Line := { l with urgent := [], cycle := 0 }

/-- The line goes on after RESTART, according to the state and the quiesce requested flag it had (R41). -/
def State.restartFrom (i : Fin 12) (st : LineState) (quiesce : Bool) (s : State) : State :=
  match st with
  | .off => s
  | .quiesced => s
  | .fault => s
  | .idle => s.newCycle i
  | .discovering => s.newCycle i
  | .polling => if quiesce then s.modLine i Line.toQuiesced else s.newCycle i
  | .closing => if quiesce then s.modLine i Line.toQuiesced else s.newCycle i

/-- The line takes RESTART (R41); the tables are already empty. -/
def State.lineRestart (i : Fin 12) (s : State) : State :=
  ((s.abandon i).modLine i Line.emptied).restartFrom i (s.line i).state (s.line i).quiesceReq

end Sys2Proof.Machine
end

