-- ==== Sys2Proof/Machine/Clock.lean ====
section
/-! DEFINITION. Local time, row time, the reference channels and ROWCLK (01_the_row_clock_and_its_references.md).
Shared operations; the meanings of the clock commands are in Machine/References.lean. -/

namespace Sys2Proof.Machine

open Sys2Proof

/-! ### The passage of time (R7, R9, R10) -/

/-- The signed adjustments made when `x` ns of a local second have elapsed at rate `r`: trunc(f * r) (R9). -/
def spread (r : Int) (x : Nat) : Int := (r * (x : Int)).tdiv 1000000000

/-- The ns that row time gains while `d` ns of local time pass, from `x` ns into a local second run at rate `r`, when
every later local second runs at rate `r'` (R9). -/
def rowGain (r r' : Int) (x d : Nat) : Nat :=
  (if x + d < second then (d : Int) + spread r (x + d) - spread r x
    else (d : Int) + (r - spread r x) + spread r' (x + d - second)).toNat

/-- U grows at a second tick in HOLDOVER, and in ACQUIRING unless from FREERUN (R21). -/
def RowClock.tick (c : RowClock) : RowClock :=
  match c.state, c.origin with
  | .holdover, _ => { c with u := min uCap (c.u + c.holdRate) }
  | .acquiring, .locked => { c with u := min uCap (c.u + c.holdRate) }
  | .acquiring, .holdover => { c with u := min uCap (c.u + c.holdRate) }
  | .acquiring, .freerun => c
  | .freerun, _ => c
  | .locked, _ => c

/-- A second tick: ROWCLK's growth of U and the sweep countdown of every rack (R10, R21, R155). -/
def State.tick (s : State) : State := (s.modClk RowClock.tick).forAll12 (fun i => State.modRack i Rack.tick)

/-- Several second ticks, one after the other. -/
def State.ticks : Nat → State → State
  | 0, s => s
  | n + 1, s => State.ticks n s.tick

/-- The rate at which the next ns of local time runs: a local second that starts now takes the next applied rate (R9). -/
def State.rate (s : State) : Int := if s.due.start then s.clk.next else s.clk.applied

/-- Row time after `d` ns of local time (R9, R10). -/
def State.rowAfter (d : Nat) (s : State) : RowTime :=
  RowTime.ofNs (s.clk.row.toNs + rowGain s.rate s.clk.next (s.localNs % second) d)

/-- The applied rate after `d` ns of local time, at least one: the next applied rate, once a later local second has started
(R9). -/
def State.appliedAfter (d : Nat) (s : State) : Int := if s.localNs % second + d ≤ second then s.rate else s.clk.next

/-- A POLL's first start bit that goes out by the local time `now` is captured, with the row time of its own instant and
the epoch (R20, R53). R20 lets a capture and a row step of one instant be taken in either order: a capture that falls due at
the very instant of a command is made before that command. That is the model's choice (assumption 40). -/
def State.captured (s : State) (now : Nat) (x : Latch) : Latch :=
  match x.due with
  | some e => if e ≤ now then ⟨none, ⟨s.rowAfter (e - s.localNs), s.clk.epoch⟩⟩ else x
  | none => x

/-- The captures of t1 that fall into the time up to `now` are made (R53). -/
def State.captureTo (now : Nat) (s : State) : State := { s with latches := s.latches.map (s.captured now) }

/-- How many times row time's ns count rolls over while `d` ns of local time pass, the last of them included (R10). -/
def State.rollovers (d : Nat) (s : State) : Nat :=
  (s.clk.row.ns + rowGain s.rate s.clk.next (s.localNs % second) d) / second

/-- Local time, row time and the applied rate replaced, and what falls due at the new instant. -/
def State.flowTo (now : Nat) (row : RowTime) (applied : Int) (due : Due) (s : State) : State :=
  { s with localNs := now, clk := { s.clk with row := row, applied := applied }, due := due }

/-- Local time, row time and the applied rate after `d + 1` ns, with the captures of that time and without its ticks
(R7, R9, R53). A rollover and the start of a local second at the new instant itself fall due. -/
def State.flow (d : Nat) (s : State) : State :=
  (s.captureTo (s.localNs + (d + 1))).flowTo (s.localNs + (d + 1)) (s.rowAfter (d + 1)) (s.appliedAfter (d + 1))
    ⟨s.rollovers d != s.rollovers (d + 1), (s.localNs + (d + 1)) % second == 0⟩

/-- The second ticks of the next `d + 1` ns, but for the very instant that they lead to: the one that is due, and one for each
rollover (R10). -/
def State.ticksBefore (d : Nat) (s : State) : Nat := s.due.tick.toNat + s.rollovers d

/-- `d` ns of local time pass: row time advances, local seconds start, and each rollover emits a tick (R7, R9, R10).
A rollover, and the start of a local second, at the very instant of the command that they lead to are left due: SECOND_TICK
and LOCAL_SECOND_START take them there, before the command or after it, and else the next ns does (assumption 35). -/
def State.advance : Nat → State → State
  | 0, s => s
  | d + 1, s => State.ticks (s.ticksBefore d) (s.flow d)

/-- Local time reaches the instant `t`, if it has not already. -/
def State.advanceTo (t : Nat) (s : State) : State := s.advance (t - s.localNs)

/-- The second tick that is due is taken (R10). -/
def State.takeTick (s : State) : State := if s.due.tick then { s with due := { s.due with tick := false } }.tick else s

/-- The applied rate becomes the next applied rate (R9). -/
def RowClock.applyNext (c : RowClock) : RowClock := { c with applied := c.next }

/-- The start of a local second that is due is taken (R9). -/
def State.takeStart (s : State) : State :=
  if s.due.start then { s with due := { s.due with start := false } }.modClk RowClock.applyNext else s

/-- The least y with y + trunc(y * r / 10^9) at or above `m`: how far into a local second at rate `r` row time has gained
`m` ns (R9). -/
def leastElapsed (r : Int) (m : Nat) : Nat :=
  if r ≥ 0 then (m * second + second + r.natAbs - 1) / (second + r.natAbs)
  else (m - 1) * second / (second - r.natAbs) + 1

/-- The local time until row time's next rollover (R9, R10). -/
def State.toRollover (s : State) : Nat :=
  let x := s.localNs % second
  let need := second - s.clk.row.ns
  let y := leastElapsed s.rate ((need : Int) + x + spread s.rate x).toNat
  if y ≤ second then y - x
  else second - x + leastElapsed s.clk.next (need - rowGain s.rate s.clk.next x (second - x))

/-- The local time until the next local second starts (R7, R9). -/
def State.toLocalSecond (s : State) : Nat := second - s.localNs % second

/-- Local time reaches the next second tick: none passes when one is due (R10). -/
def State.reachTick (s : State) : State := if s.due.tick then s else s.advance s.toRollover

/-- Local time reaches the next start of a local second: none passes when one is due (R9). -/
def State.reachStart (s : State) : State := if s.due.start then s else s.advance s.toLocalSecond

/-! ### Row steps (R19) -/

/-- Whether a channel is QUALIFIED. -/
def State.qualified (s : State) (c : Chan) : Bool := (s.chan c).state == .qualified

/-- ROWCLK's own part of a step: row time and the epoch move together, the integral is kept unless the acquisition comes
from FREERUN or the clock is in FREERUN, and the next rate becomes the integral (R19). -/
def RowClock.step (row : RowTime) (c : RowClock) : RowClock :=
  let keep := c.origin != .freerun && c.state != .freerun
  { c with row := row, epoch := c.epoch + 1, integral := if keep then c.integral else 0,
           next := if keep then c.integral else 0 }

/-- A step of row time and its reports to EPT and DWU, with cause STEP (R19). -/
def State.rowStep (row : RowTime) (s : State) : State :=
  (((s.modClk (RowClock.step row)).raise .step).eptStep).walkReset

/-! ### ROWCLK states (1.3) -/

/-- Entry to FREERUN (R12). -/
def RowClock.toFreerun (c : RowClock) : RowClock :=
  { c with state := .freerun, integral := 0, next := 0, u := uCap, selected := none, stepCount := 0, lockCount := 0 }

/-- Entry to HOLDOVER (R18). -/
def RowClock.toHoldover (c : RowClock) : RowClock :=
  let c' := { c with state := .holdover, selected := none, next := c.integral, stepCount := 0, lockCount := 0 }
  if c.state = .locked then { c' with entryValue := max c.u 20, u := max c.u 20, entrySec := c.row.sec } else c'

/-- Entry to ACQUIRING on channel `ch` (R13); `steps`: the step count it begins with. -/
def RowClock.toAcquiring (ch : Chan) (steps : Nat) (c : RowClock) : RowClock :=
  let c' := { c with state := .acquiring, selected := some ch, stepCount := steps, lockCount := 0 }
  match c.state with
  | .freerun => { c' with origin := .freerun }
  | .holdover => { c' with origin := .holdover }
  | .locked => { c' with origin := .locked, entryValue := max c.u 20, entrySec := c.row.sec }
  | .acquiring => c'

/-- The discipline of one measurement (R11). -/
def RowClock.discipline (p : Int) (c : RowClock) : RowClock :=
  let i := clip 100000 (c.integral + (-p).tdiv 16)
  { c with integral := i, next := clip 100000 (i + (-p).tdiv 2) }

/-- The step condition (R14). -/
def RowClock.stepCond (p : Int) (nearest edgeSec : Nat) (c : RowClock) : Bool :=
  edgeSec != nearest || decide (p.natAbs > c.stepLimit)

/-- U after a measurement in LOCKED or at the lock (R14, R16, R21). -/
def lockedU (p : Int) : Nat := min uCap (20 + p.natAbs)

/-- The signed distance from the captured row time to the whole second the edge marks (R19). -/
def stepDistance (p : Int) (nearest edgeSec : Nat) : Int :=
  (BitVec.ofNat 48 nearest - BitVec.ofNat 48 edgeSec).toInt * 1000000000 + p

/-- The step count after a measurement (R14, R16). -/
def RowClock.nextStepCount (p : Int) (nearest edgeSec : Nat) (c : RowClock) : Nat :=
  if c.stepCond p nearest edgeSec then min 4 (c.stepCount + 1) else 0

/-- The lock count after a measurement in ACQUIRING (R14). -/
def RowClock.nextLockCount (p : Int) (c : RowClock) : Nat := if p.natAbs ≤ 100 then min 8 (c.lockCount + 1) else 0

/-- Both counts become 0 (R14). -/
def RowClock.clearCounts (c : RowClock) : RowClock := { c with stepCount := 0, lockCount := 0 }

/-- The clock enters LOCKED on a measurement (R14). -/
def RowClock.lock (p : Int) (c : RowClock) : RowClock :=
  { c with state := .locked, u := lockedU p, hasLocked := true, stepCount := 0, lockCount := 8 }

/-- The counts of a measurement in ACQUIRING (R14). -/
def RowClock.count (p : Int) (nearest edgeSec : Nat) (c : RowClock) : RowClock :=
  { c with stepCount := c.nextStepCount p nearest edgeSec, lockCount := c.nextLockCount p }

/-- What a measurement in LOCKED does to the clock, before its step count is looked at (R16). -/
def RowClock.follow (p : Int) (nearest edgeSec : Nat) (c : RowClock) : RowClock :=
  { c.discipline p with u := lockedU p, stepCount := c.nextStepCount p nearest edgeSec }

/-- A measurement in ACQUIRING (R14). -/
def State.measureAcquiring (p : Int) (nearest edgeSec : Nat) (s : State) : State :=
  if s.clk.nextStepCount p nearest edgeSec = 4 then
    (s.rowStep (s.clk.row.move (-(stepDistance p nearest edgeSec)))).modClk RowClock.clearCounts
  else if s.clk.nextLockCount p = 8 then s.modClk (RowClock.lock p)
  else s.modClk (fun c => (c.count p nearest edgeSec).discipline p)

/-- A measurement in LOCKED (R16). -/
def State.measureLocked (ch : Chan) (p : Int) (nearest edgeSec : Nat) (s : State) : State :=
  if s.clk.nextStepCount p nearest edgeSec = 4 then
    (s.modClk (RowClock.follow p nearest edgeSec)).modClk (RowClock.toAcquiring ch 4)
  else s.modClk (RowClock.follow p nearest edgeSec)

/-- A measurement of the selected channel (R6). In FREERUN and HOLDOVER none arrives. -/
def State.measure (ch : Chan) (p : Int) (nearest edgeSec : Nat) (s : State) : State :=
  match s.clk.state with
  | .acquiring => s.measureAcquiring p nearest edgeSec
  | .locked => s.measureLocked ch p nearest edgeSec
  | .freerun => s
  | .holdover => s

/-- The preferred channel if it is QUALIFIED, the other otherwise (R13). -/
def State.choice (s : State) : Chan := if s.qualified s.clk.preferred then s.clk.preferred else s.clk.preferred.other

/-- A channel reports that it has become QUALIFIED (R12, R15, R17, R18). -/
def State.becameQualified (ch : Chan) (s : State) : State :=
  match s.clk.state with
  | .freerun => s.modClk (RowClock.toAcquiring s.choice 0)
  | .holdover => s.modClk (RowClock.toAcquiring s.choice 0)
  | .acquiring => s
  | .locked =>
    if s.clk.revertive ∧ ch = s.clk.preferred ∧ s.clk.selected ≠ some ch then s.modClk (RowClock.toAcquiring ch 0) else s

/-- A channel reports that it has stopped being QUALIFIED (R15, R17). -/
def State.stoppedQualified (ch : Chan) (s : State) : State :=
  if s.clk.selected ≠ some ch then s
  else match s.clk.state with
    | .acquiring =>
      if s.qualified ch.other then s.modClk (RowClock.toAcquiring ch.other 0)
      else if s.clk.hasLocked then s.modClk RowClock.toHoldover
      else s.modClk RowClock.toFreerun
    | .locked =>
      if s.qualified ch.other then s.modClk (RowClock.toAcquiring ch.other 0) else s.modClk RowClock.toHoldover
    | .freerun => s
    | .holdover => s

/-- Cause REF is raised by a change of clock state, selected reference or channel state between `old` and now (R22). -/
def State.noteRef (old s : State) : State :=
  if s.clk.state ≠ old.clk.state ∨ s.clk.selected ≠ old.clk.selected ∨ s.chanA.state ≠ old.chanA.state
      ∨ s.chanB.state ≠ old.chanB.state then s.raise .ref
  else s

/-! ### Reference channels (1.1) -/

/-- The phase of a captured row time (R3). -/
def phaseOf (t : RowTime) : Int := if t.ns < 500000000 then (t.ns : Int) else (t.ns : Int) - 1000000000

/-- The edge's nearest second (R3). -/
def nearestSecond (t : RowTime) : Nat := if t.ns < 500000000 then t.sec else (t.sec + 1) % secMod

/-- The edge is a good second (R4). -/
def RefChannel.goodSecond (now : Nat) (c : RefChannel) : Bool :=
  match c.prevEdge, c.held, c.edgeSec with
  | some e, some m, some x =>
    within 999950000 1000050000 (now - e) && !c.msgFault && m.sec == (x + 1) % secMod && m.ok
  | _, _, _ => false

/-- The channel's state and good-second count after an edge (R4). -/
def RefChannel.judged (now : Nat) (c : RefChannel) : RefChannel :=
  if c.state = .down then { c with state := .qualifying, good := 0 }
  else if c.goodSecond now then
    { c with good := min 4 (c.good + 1), state := if c.good + 1 ≥ 4 then .qualified else c.state }
  else { c with good := 0, state := .qualifying }

/-- The channel after an edge taken at local time `now`, when row time read `t` (R3, R4). -/
def RefChannel.edge (now : Nat) (t : RowTime) (c : RefChannel) : RefChannel :=
  { c.judged now with
    lastPhase := phaseOf t
    prevEdge := some now
    edgeSec := c.held.map HeldMessage.sec
    held := none
    msgFault := false
    lossDeadline := some (now + 1500000000) }

/-- The fields cleared when a channel is lost, disabled or enabled (R5, R23). -/
def RefChannel.cleared (c : RefChannel) : RefChannel :=
  { c with good := 0, prevEdge := none, edgeSec := none, held := none, msgFault := false, lossDeadline := none }

/-- A channel is lost (R5). -/
def RefChannel.lose (c : RefChannel) : RefChannel := { c.cleared with state := .down }

/-- The message in assembly is complete: a good one is held, a bad one sets the fault flag (R2). -/
def RefChannel.todDone (cs : List RxChar) (c : RefChannel) : RefChannel :=
  match judgeTod cs with
  | some m => { c with tod := [], held := some m }
  | none => { c with tod := [], msgFault := true }

/-- The time from a leading edge on a time-of-day input to the end of the character's stop bit, in whole ns: eleven bit
times at 115,200 bit/s (R2). -/
def todCharNs : Nat := 95486

/-- A character whose leading edge came at `start` is complete on an enabled channel's time-of-day input (R2). The message
fault flag of a message with a framing error, a mark bit, a wrong type or a failed check is set when its tenth character
completes it, and not before: R2 does not say when. That is the model's choice (assumption 37). -/
def RefChannel.todChar (start : Nat) (x : RxChar) (c : RefChannel) : RefChannel :=
  if c.tod = [] then (if x.byte = 0xA5 then { c with tod := [x], todAt := start + todCharNs } else c)
  else if c.tod.length + 1 ≥ 10 then c.todDone (c.tod ++ [x])
  else { c with tod := c.tod ++ [x], todAt := start + todCharNs }

/-- The time-of-day input is read (R27). -/
def RefChannel.todRead (now : Nat) (v : Bool) (c : RefChannel) : RefChannel := { c with todLevel := v, todSampledAt := now }

/-- The receiver of the time-of-day input replaced. -/
def RefChannel.toReceiver (r : Receiver) (c : RefChannel) : RefChannel := { c with todReceiver := r }

/-- A sample at level `v` of a channel's time-of-day input, after one at level `was`, reaches its receiver: that of an enabled
channel, because a DISABLED one ignores its inputs (R1, R2, R27). -/
def RefChannel.todListen (now : Nat) (edge : Capture) (was v : Bool) (c : RefChannel) : RefChannel :=
  if c.enable then
    match c.todReceiver.hear now edge false was v with
    | .going r => c.toReceiver r
    | .falseStart => c.toReceiver .waiting
    | .character start _ x => (c.todChar start x).toReceiver (.following x)
  else c

/-- The local time of the next sample of a channel's time-of-day input, at or after `now` (R2, R27). -/
def RefChannel.todSampleTime (now : Nat) (c : RefChannel) : Nat := todSampleFrom (max now (c.todSampledAt + 1))

/-- Local time reaches the next sample of a channel's time-of-day input (R2, R27). -/
def State.toTodSample (ch : Chan) (s : State) : State := s.advanceTo ((s.chan ch).todSampleTime s.localNs)

/-- What a sample at level `v` that is taken now does to a channel (R2, R27). -/
def RefChannel.todSampled (now : Nat) (edge : Capture) (v : Bool) (c : RefChannel) : RefChannel :=
  (c.todRead now v).todListen now edge c.todLevel v

/-- The next sample of a channel's time-of-day input reads level `v` (R2, R27). -/
def State.todSample (ch : Chan) (s : State) (v : Bool) : State :=
  let t := s.toTodSample ch
  t.setChan ch ((s.chan ch).todSampled t.localNs ⟨t.clk.row, t.clk.epoch⟩ v)

/-- Samples of a channel's time-of-day input, one after the other. -/
def State.todSamples (ch : Chan) (levels : List Bool) (s : State) : State := levels.foldl (State.todSample ch) s

/-- The reports a channel makes when its state has changed from what it was in `old` (R6). -/
def State.reportChan (old : State) (ch : Chan) (s : State) : State :=
  if old.qualified ch = s.qualified ch then s
  else if s.qualified ch then s.becameQualified ch
  else s.stoppedQualified ch

/-- The channel takes an edge (R3, R4). -/
def State.chanEdge (ch : Chan) (s : State) : State := s.setChan ch ((s.chan ch).edge s.localNs s.clk.row)

/-- The channel hands ROWCLK its measurement, if it was selected at the edge and is still QUALIFIED (R6). -/
def State.handMeasure (old : State) (ch : Chan) (s : State) : State :=
  match (s.chan ch).edgeSec with
  | some x =>
    if old.clk.selected = some ch ∧ s.qualified ch = true then
      s.measure ch (phaseOf old.clk.row) (nearestSecond old.clk.row) x
    else s
  | none => s

/-- A PPS edge at an enabled channel, taken as one step (R3, R4, R6). -/
def State.ppsEdge (ch : Chan) (s : State) : State :=
  State.handMeasure s ch (State.reportChan s ch (s.chanEdge ch))

end Sys2Proof.Machine
end

