-- ==== Sys2Proof/Machine/Port.lean ====
section
/-! DEFINITION. The request port (09_the_request_port.md) and the encodings of response frames and bodies
(10_formats.md, R190 to R192). Shared operations; the meanings of the port's commands are in Machine/PortCommands.lean. -/

namespace Sys2Proof.Machine

open Sys2Proof

/-! ### Encodings (10.5, R192) -/

/-- Status values (10.5). -/
def Status.value : Status → Nat
  | .ok => 0x00
  | .accepted => 0x01
  | .badFrame => 0x02
  | .unknownRequest => 0x03
  | .badField => 0x04
  | .notFound => 0x05
  | .exists => 0x06
  | .full => 0x07
  | .wrongState => 0x08

/-- Clock states (10.5). -/
def ClockState.value : ClockState → Nat
  | .freerun => 0
  | .acquiring => 1
  | .locked => 2
  | .holdover => 3

/-- References: none 0, A 1, B 2 (10.5). -/
def refValue : Option Chan → Nat
  | none => 0
  | some .a => 1
  | some .b => 2

/-- Channel states (10.5). -/
def ChanState.value : ChanState → Nat
  | .disabled => 0
  | .down => 1
  | .qualifying => 2
  | .qualified => 3

/-- Line states (10.5). -/
def LineState.value : LineState → Nat
  | .off => 0
  | .idle => 1
  | .polling => 2
  | .closing => 3
  | .discovering => 4
  | .quiesced => 5
  | .fault => 6

/-- Record states (10.5). -/
def RecState.value : RecState → Nat
  | .enrolling => 0
  | .tracking => 1
  | .suspect => 2
  | .lost => 3
  | .suspended => 4
  | .retiring => 5

/-- Withdrawal pending (10.5). -/
def Withdrawal.value : Withdrawal → Nat
  | .no => 0
  | .suspend => 1
  | .retire => 2

/-- Domain states (10.5). -/
def DomState.value : DomState → Nat
  | .opened => 0
  | .frozen => 1
  | .retiring => 2

/-- Fence modes (10.5). -/
def FenceMode.value : FenceMode → Nat
  | .off => 0
  | .refuseRack => 1
  | .freezeDomain => 2

/-- Freeze causes: absent 0, HOST 1, RACK n 0x10 + n (10.5). -/
def freezeValue : Option FreezeCause → Nat
  | none => 0
  | some .host => 1
  | some (.rack n) => 16 + n.val

/-- Watch states (10.5). -/
def WatchState.value : WatchState → Nat
  | .off => 0
  | .quiet => 1
  | .watch => 2
  | .warn => 3
  | .alarm => 4

/-- Alarm causes: absent 0 (10.5). -/
def alarmValue : Option AlarmCause → Nat
  | none => 0
  | some .drift => 1
  | some .lost => 2
  | some .lineFault => 3
  | some .walk => 4

/-- Correction kinds: SLEW 0, STEP 1 (R192). -/
def CorrKind.value : CorrKind → Nat
  | .slew => 0
  | .step => 1

/-- A value of one byte (R192). -/
def byte1 (n : Nat) : List Byte := bytesOf 1 n

/-- Yes or no, on or off, set or clear: one byte (R192). -/
def bool1 (b : Bool) : List Byte := bytesOf 1 b.toNat

/-- An optional field of `n` bytes: 1 and the field, or 0 and `n` bytes of 0 (R192). -/
def optional (n : Nat) : Option (List Byte) → List Byte
  | some bs => byte1 1 ++ bs
  | none => byte1 0 ++ List.replicate n 0

/-! ### Response frames (R190) -/

/-- The bytes of a response frame (R190): code, status, overlap flag, body length, body, CRC-16. -/
def responseBytes (code : Byte) (status : Nat) (overlap : Bool) (body : List Byte) : List Byte :=
  let head := code :: BitVec.ofNat 8 status :: BitVec.ofNat 8 overlap.toNat :: BitVec.ofNat 8 body.length :: body
  head ++ bytesOf 2 (crc16 head).toNat

/-- The bytes of a held response. -/
def Response.bytes (r : Response) : List Byte := responseBytes r.code r.status.value r.overlap r.body

/-- A marker takes the place of the status, with code 0x00 and body length 0 (R175, R190). Its overlap flag is sent as 0,
also while the overlap mark is set: no rule gives it a value. That is the model's choice (assumption 39). -/
def markerBytes (value : Nat) : List Byte := responseBytes 0 value false []

/-- The EMPTY and NOT_READY markers. -/
def emptyMarker : List Byte := markerBytes 0xE0
def notReadyMarker : List Byte := markerBytes 0xE1

/-- The read code (R190). -/
def readCode : Byte := 0xFF

/-- The bytes of a request frame (R190): code, body length, body, CRC-16. -/
def requestBytes (code : Byte) (body : List Byte) : List Byte :=
  let head := code :: BitVec.ofNat 8 body.length :: body
  head ++ bytesOf 2 (crc16 head).toNat

/-! ### The link (R171) -/

/-- The bits of a byte as they travel, in both directions: the most significant first (R171). -/
def msbFirst (b : Byte) : List Bool := (List.range 8).map b.getMsbD

/-- The byte that eight bits bring, the first of them the most significant (R171). -/
def byteOfBits (bits : List Bool) : Byte := BitVec.ofNat 8 (bits.foldl (fun n b => 2 * n + b.toNat) 0)

/-- The bits that bring these bytes, in the order of their travel. -/
def wireBits (bytes : List Byte) : List Bool := bytes.flatMap msbFirst

/-- The byte that data out carries beside byte `n` of a transaction (R171): a fill byte beside the first, then the bytes of
`out`, then fill bytes. A write carries none but fill bytes. `k`: the fill bytes begun before the transaction (assumption 1). -/
def carriedByte (k : Nat) (out : List Byte) : Nat → Byte
  | 0 => Config.fillByte k
  | n + 1 => out.getD n (Config.fillByte (k + n + 1))

/-- What a read carries from its second byte on, by the port state as its first byte completes (R175). -/
def Port.readout (p : Port) : List Byte :=
  match p.state, p.held with
  | .executing, _ => notReadyMarker
  | .responseHeld, some r => r.bytes
  | _, _ => emptyMarker

/-- Data out is driven to the next bit of the byte in progress, the most significant first (R171). -/
def Link.present (k : Nat) (l : Link) : Link :=
  { l with out := some ((carriedByte k (l.reading.getD []) l.bytes.length).getMsbD l.bits.length) }

/-- A bit is clocked in; the eighth completes a byte, and the read code as the first byte begins a read, which carries
`readout` (R171, R175). -/
def Link.take (readout : List Byte) (b : Bool) (l : Link) : Link :=
  if l.bits.length = 7 then
    { l with
      bytes := l.bytes ++ [byteOfBits (l.bits ++ [b])]
      bits := []
      reading := if l.bytes = [] ∧ byteOfBits (l.bits ++ [b]) = readCode then some readout else l.reading }
  else { l with bits := l.bits ++ [b] }

/-- Chip select falls: a transaction begins, and the first bit out is presented (R171). -/
def Port.selectFalls (k : Nat) (p : Port) : Port :=
  { p with link := Link.present k { Link.idle with low := true }, dataOut := [] }

/-- The clock rises: data in is sampled, and the host samples data out (R171). -/
def Port.clockRises (b : Bool) (p : Port) : Port :=
  { p with link := p.link.take p.readout b, dataOut := p.dataOut ++ p.link.out.toList }

/-- The clock falls: data out changes (R171). -/
def Port.clockFalls (k : Nat) (p : Port) : Port := { p with link := p.link.present k }

/-- One bit of a transaction: the clock rises with data in at `b`, and falls. -/
def Port.clock (k : Nat) (p : Port) (b : Bool) : Port := (p.clockRises b).clockFalls k

/-- Chip select rises: the transaction is over, and data out goes to high impedance (R171). -/
def Port.selectRises (p : Port) : Port := { p with link := Link.idle }

/-! ### Transactions (R171 to R176) -/

/-- A transaction under way when the reset was released is ignored to its end, which is the rise of chip select (R184). -/
def State.unlessIgnored (f : State → State) (s : State) : State :=
  if s.port.ignoring then s.modPort (fun p => { p.selectRises with ignoring := false }) else f s

/-- The port just before chip select rises: chip select has fallen, and these bits have been clocked in (R171). -/
def State.clockedPort (bits : List Bool) (s : State) : Port :=
  bits.foldl (Port.clock s.freeCount) (s.port.selectFalls s.freeCount)

/-- Chip select rises on the port `p`; a fill byte was begun beside each whole byte and one after the last (assumption 1). -/
def State.deselect (p : Port) (s : State) : State :=
  { s with port := p.selectRises, freeCount := s.freeCount + p.link.bytes.length + 1 }

/-- A transaction of these bits, from the fall of chip select to its rise (R171); `take`: what the port makes of its whole
bytes, and of whether chip select rose inside a byte. All of it falls at the instant of the command (assumption 24). -/
def State.transfer (bits : List Bool) (take : List Byte → Bool → State → State) (s : State) : State :=
  s.unlessIgnored (fun s =>
    take (s.clockedPort bits).link.bytes (!(s.clockedPort bits).link.bits.isEmpty) (s.deselect (s.clockedPort bits)))

/-- A write in EXECUTING is dropped (R174). -/
def State.dropWrite (s : State) : State :=
  (s.modPort (fun p => { p with overlaps := inc16 p.overlaps, overlapMark := true })).raise .port

/-- A bad frame in READY or RESPONSE_HELD (R174); `first`: the first byte received. -/
def State.holdBadFrame (first : Byte) (s : State) : State :=
  (s.modPort (fun p => { p with state := .responseHeld, held := some ⟨first, .badFrame, false, []⟩,
                                badFrames := inc16 p.badFrames })).raise .port

/-- What an owning block answers: the state after the request, its status and the response body. -/
abbrev Done := State × Status × List Byte

/-- A request refused: nothing changes, and the body is empty (R177, R192). -/
def refuse (st : Status) (s : State) : Done := (s, st, [])

/-- A good frame is accepted: the port enters EXECUTING with the overlap mark clear, discarding a held response (R174). -/
def State.enterExecuting (s : State) : State :=
  s.modPort (fun p => { p with state := .executing, held := none, overlapMark := false })

/-- The response that the port will place in hold when it has been formed (R176). -/
def State.form (code : Byte) (d : Done) : State :=
  d.1.modPort (fun p => { p with forming := some ⟨code, d.2.1, false, d.2.2⟩ })

/-- A good frame with a code that names a request, in READY or RESPONSE_HELD (R176): the port checks the body length, and
the owning block takes the request as one step. -/
def State.carryOut (code : Byte) (lengths : List Nat) (body : List Byte) (block : State → Done) (s : State) : State :=
  State.form code
    (if lengths.contains body.length then block s.enterExecuting else refuse .badField s.enterExecuting)

/-- A request frame is taken according to the port state (R174).
A body of more than 60 bytes makes a frame of more than 64, which is bad (R172). -/
def State.takeRequest (code : Byte) (lengths : List Nat) (body : List Byte) (block : State → Done) (s : State) : State :=
  match s.port.state with
  | .executing => s.dropWrite
  | .ready => if body.length > 60 then s.holdBadFrame code else s.carryOut code lengths body block
  | .responseHeld => if body.length > 60 then s.holdBadFrame code else s.carryOut code lengths body block

/-- A write transaction whose frame is good apart, perhaps, from its size: taken according to the port state (R174). -/
def State.request (code : Byte) (lengths : List Nat) (body : List Byte) (block : State → Done) (s : State) : State :=
  s.transfer (wireBits (requestBytes code body)) (fun _ _ => State.takeRequest code lengths body block)

/-- A read transaction in which `n` whole bytes were clocked out after the read code: the held response has been read, and
leaves hold, if they reach its last CRC byte (R175). -/
def State.endRead (n : Nat) (s : State) : State :=
  match s.port.state, s.port.held with
  | .responseHeld, some r =>
    if n ≥ r.bytes.length then s.modPort (fun p => { p with state := .ready, held := none }) else s
  | _, _ => s

/-- The frame of a write transaction is good (R172); `cut`: chip select rose inside a byte. -/
def frameGood (bytes : List Byte) (cut : Bool) : Bool :=
  !cut && within 4 64 bytes.length && bytes.length == field bytes 1 1 + 4
    && (crc16 (bytes.take (bytes.length - 2))).toNat == field bytes (bytes.length - 2) 2

end Sys2Proof.Machine
end

