-- ==== Sys2Proof/Machine/Domains.lean ====
section
/-! DEFINITION. The meanings of the requests on stamp domains and of STAMP (06_stamp_domains.md 6.4, R132). -/

namespace Sys2Proof.Machine

open Sys2Proof

/-- The member racks of a set that are in ALARM (R120, R129). -/
def State.alarmedOf (s : State) (members : BitVec 12) : List (Fin 12) :=
  all12.filter (fun i => members.getLsbD i && s.inAlarm i)

/-- A set of racks as a number, bit n for rack n (10.5). -/
def rackSet (is : List (Fin 12)) : Nat := (is.map (fun i => 2 ^ i.val)).sum

/-- A domain that must not be OPEN against an alarmed member is frozen by the lowest such rack (R123, R124). -/
def State.fence (s : State) (d : Domain) : Domain :=
  if d.state = .opened ∧ d.fence = .freezeDomain then
    match s.alarmedOf d.members with
    | n :: _ => { d with state := .frozen, cause := some (.rack n) }
    | [] => d
  else d

/-! ### DOMAIN_OPEN (R123) -/

/-- The body of DOMAIN_OPEN is in range (R114, R122, R191). -/
def domainOpenOk (body : List Byte) : Bool :=
  field body 0 1 != 0 && within 100 100000000 (field body 1 4) && (fenceOf (field body 5 1)).isSome
    && decide (field body 6 2 < 4096)

/-- The domain that DOMAIN_OPEN creates, before the fence is looked at (R114). -/
def newDomain (body : List Byte) : Domain where
  id := BitVec.ofNat 8 (field body 0 1)
  state := .opened
  cause := none
  tolerance := field body 1 4
  fence := (fenceOf (field body 5 1)).getD .off
  members := BitVec.ofNat 12 (field body 6 2)
  lastIssued := none
  grants := 0
  stamps := 0
  refusals := 0
  burned := 0
  pendingDel := 0

/-- DOMAIN_OPEN at its owning block (R123). -/
def domainOpenBlock (body : List Byte) (s : State) : Done :=
  if domainOpenOk body then
    if (s.domain (BitVec.ofNat 8 (field body 0 1))).isSome then refuse .exists s
    else if s.domains.length ≥ 64 then refuse .full s
    else ({ s with domains := s.domains ++ [s.fence (newDomain body)] }, .ok,
      byte1 (s.fence (newDomain body)).state.value)
  else refuse .badField s

/-- DOMAIN_OPEN (R123). -/
def execDomainOpen (dt : Nat) (body : List Byte) (s : State) : Host.Outcome State Fault Refusal :=
  .next ((s.advance dt).request 0x30 [8] body (domainOpenBlock body))

/-! ### DOMAIN_AMEND (R124) -/

/-- The body of DOMAIN_AMEND after the id is in range (R122, R191). -/
def domainAmendOk (body : List Byte) : Bool :=
  let p := field body 1 1
  decide (p < 8) && carriedOk p 0 (within 100 100000000 (field body 2 4)) && carriedOk p 1 (fenceOf (field body 6 1)).isSome
    && carriedOk p 2 (decide (field body 7 2 < 4096))

/-- The carried fields of DOMAIN_AMEND are written together (R124). -/
def Domain.amend (body : List Byte) (d : Domain) : Domain :=
  let p := field body 1 1
  { d with tolerance := carried p 0 (field body 2 4) d.tolerance
           fence := carried p 1 ((fenceOf (field body 6 1)).getD d.fence) d.fence
           members := carried p 2 (BitVec.ofNat 12 (field body 7 2)) d.members }

/-- DOMAIN_AMEND at its owning block (R122, R124). -/
def domainAmendBlock (body : List Byte) (s : State) : Done :=
  match s.namedDomain body with
  | .error st => refuse st s
  | .ok d =>
    if domainAmendOk body then
      if d.state = .retiring then refuse .wrongState s
      else (s.modDomain d.id (fun d => s.fence (d.amend body)), .ok, byte1 (s.fence (d.amend body)).state.value)
    else refuse .badField s

/-- DOMAIN_AMEND (R124). -/
def execDomainAmend (dt : Nat) (body : List Byte) (s : State) : Host.Outcome State Fault Refusal :=
  .next ((s.advance dt).request 0x31 [9] body (domainAmendBlock body))

/-! ### DOMAIN_FREEZE, DOMAIN_THAW, DOMAIN_RETIRE (R125 to R127) -/

/-- DOMAIN_FREEZE at its owning block (R122, R125). -/
def domainFreezeBlock (body : List Byte) (s : State) : Done :=
  match s.namedDomain body with
  | .error st => refuse st s
  | .ok d =>
    match d.state with
    | .opened => (s.modDomain d.id (fun d => { d with state := .frozen, cause := some .host }), .ok, [])
    | .frozen => (s, .ok, [])
    | .retiring => refuse .wrongState s

/-- DOMAIN_FREEZE (R125). -/
def execDomainFreeze (dt : Nat) (body : List Byte) (s : State) : Host.Outcome State Fault Refusal :=
  .next ((s.advance dt).request 0x32 [1] body (domainFreezeBlock body))

/-- DOMAIN_THAW at its owning block (R122, R126). -/
def domainThawBlock (body : List Byte) (s : State) : Done :=
  match s.namedDomain body with
  | .error st => refuse st s
  | .ok d =>
    match d.state with
    | .frozen =>
      if d.fence = .freezeDomain ∧ s.alarmedOf d.members ≠ [] then refuse .wrongState s
      else (s.modDomain d.id (fun d => { d with state := .opened, cause := none }), .ok, [])
    | .opened => (s, .ok, [])
    | .retiring => refuse .wrongState s

/-- DOMAIN_THAW (R126). -/
def execDomainThaw (dt : Nat) (body : List Byte) (s : State) : Host.Outcome State Fault Refusal :=
  .next ((s.advance dt).request 0x33 [1] body (domainThawBlock body))

/-- DOMAIN_RETIRE at its owning block (R122, R127). -/
def domainRetireBlock (body : List Byte) (s : State) : Done :=
  match s.namedDomain body with
  | .error st => refuse st s
  | .ok d =>
    if d.state = .retiring then refuse .wrongState s
    else if d.pendingDel = 0 then (s.dropDomain d.id, .ok, [])
    else (s.modDomain d.id (fun d => { d with state := .retiring, cause := none }), .accepted, [])

/-- DOMAIN_RETIRE (R127). -/
def execDomainRetire (dt : Nat) (body : List Byte) (s : State) : Host.Outcome State Fault Refusal :=
  .next ((s.advance dt).request 0x34 [1] body (domainRetireBlock body))

/-! ### DOMAIN_LOOKUP (R129) -/

/-- The DOMAIN_LOOKUP response (R129, R192). -/
def State.domainBody (s : State) (d : Domain) : List Byte :=
  [d.id] ++ byte1 d.state.value ++ byte1 (freezeValue d.cause) ++ bytesOf 4 d.tolerance ++ byte1 d.fence.value
    ++ bytesOf 2 d.members.toNat ++ optional 10 (d.lastIssued.map timeBytes) ++ bytesOf 4 d.grants ++ bytesOf 6 d.stamps
    ++ bytesOf 4 d.refusals ++ bytesOf 4 d.burned ++ byte1 d.pendingDel ++ bytesOf 2 (rackSet (s.alarmedOf d.members))

/-- DOMAIN_LOOKUP at its owning block (R122, R129). -/
def domainLookupBlock (body : List Byte) (s : State) : Done :=
  match s.namedDomain body with
  | .error st => refuse st s
  | .ok d => (s, .ok, s.domainBody d)

/-- DOMAIN_LOOKUP (R129). -/
def execDomainLookup (dt : Nat) (body : List Byte) (s : State) : Host.Outcome State Fault Refusal :=
  .next ((s.advance dt).request 0x35 [1] body (domainLookupBlock body))

/-! ### STAMP (R132) -/

/-- The STAMP response body: the grant, or the refusal code and the domain id as received (R132, 10.5). -/
def Answer.stampBody : Answer → List Byte
  | .grant g =>
    byte1 0 ++ [g.domain] ++ bool1 g.clamped ++ bytesOf 2 g.epoch.toNat ++ timeBytes g.base ++ byte1 g.count
      ++ bytesOf 4 g.uncertainty
  | .refusal d c => byte1 c.value ++ [d]

/-- STAMP at its owning block (R132): status OK whatever the outcome. -/
def stampBlock (body : List Byte) (s : State) : Done :=
  let id := BitVec.ofNat 8 (field body 0 1)
  let count := field body 1 1
  (s.stampHost id count, .ok, (s.decideHost id count).stampBody)

/-- STAMP (R132). -/
def execStamp (dt : Nat) (body : List Byte) (s : State) : Host.Outcome State Fault Refusal :=
  .next ((s.advance dt).request 0x38 [2] body (stampBlock body))

end Sys2Proof.Machine
end

