-- ==== Sys2Proof/Machine/Endpoints.lean ====
section
/-! DEFINITION. The meanings of the requests on endpoint records and the newcomer set (04_endpoint_records.md 4.3, 4.4). -/

namespace Sys2Proof.Machine

open Sys2Proof

/-! ### ENROLL (R85) -/

/-- The body of ENROLL after line and address is in range (R67, R85, R191). -/
def enrollOk (body : List Byte) : Bool :=
  decide (field body 2 1 ≤ 3) && decide (field body 3 1 < 8) && within 1000 1000000000 (field body 4 4)
    && (!flag body 3 1 || decide ((signedField32 body 8).natAbs ≤ 1000000))

/-- The identity that a newcomer entry of the key holds (R85). -/
def State.newcomerIdentity (s : State) (i : Fin 12) (addr : Nat) : Option (BitVec 32) :=
  (s.newcomers.find? (fun n => n.line == i && n.addr == addr)).map Newcomer.identity

/-- The slot that ENROLL takes (R67). -/
def State.freeSlot (s : State) : Nat := lowestFree (s.records.map Endpoint.slot) 512 0

/-- The record that ENROLL creates (R67). -/
def newRecord (body : List Byte) (slot : Nat) (i : Fin 12) (found : Option (BitVec 32)) : Endpoint where
  slot := slot
  line := i
  addr := field body 1 1
  state := .enrolling
  withdrawal := .no
  inTxn := false
  baseClass := field body 2 1
  cycleClass := field body 2 1
  corrEnabled := flag body 3 0
  stepThreshold := field body 4 4
  asym := if flag body 3 1 then some (signedField32 body 8) else none
  identity := if flag body 3 2 then some (BitVec.ofNat 32 (field body 12 4)) else found
  goodCount := 0
  missCount := 0
  window := []
  lastRaw := none
  lastGood := none
  freq := 0
  baseline := none
  cmdSeq := 0
  cmd := none
  toSend := none
  ackSeq := 0
  repSeq := 0
  unack := 0
  answer := none
  goodTotal := 0
  missTotal := 0
  rejected := 0
  voids := 0
  conflicts := 0
  corrFaults := 0

/-- ENROLL of a key in range (R85). -/
def State.enroll (i : Fin 12) (body : List Byte) (s : State) : Done :=
  let addr := field body 1 1
  if (s.byKey i addr).isSome then refuse .exists s
  else if s.records.length ≥ 512 then refuse .full s
  else
    ((s.dropNewcomer i addr).addRecord (newRecord body s.freeSlot i (s.newcomerIdentity i addr)), .ok,
      bytesOf 2 s.freeSlot)

/-- ENROLL at its owning block (R85). -/
def enrollBlock (body : List Byte) (s : State) : Done :=
  match lineOf (field body 0 1) with
  | none => refuse .badField s
  | some i => if addrOk (field body 1 1) && enrollOk body then s.enroll i body else refuse .badField s

/-- ENROLL (R85). -/
def execEnroll (dt : Nat) (body : List Byte) (s : State) : Host.Outcome State Fault Refusal :=
  .next ((s.advance dt).request 0x20 [16] body (enrollBlock body))

/-! ### LOOKUP (R86) -/

/-- A sample: t1, offset, delay (R192). -/
def Sample.bytes (x : Sample) : List Byte := timeBytes x.t1 ++ signedBytes 8 x.theta ++ bytesOf 4 x.delta

/-- A correction to send, or the last command: kind and value (R192). -/
def kindValueBytes (k : CorrKind) (v : Int) : List Byte := byte1 k.value ++ signedBytes 8 v

/-- A pending grant: 0 for absent, 1 and a grant block, or 2 and a refusal block (R192). -/
def answerBytes : Option Answer → List Byte
  | none => byte1 0
  | some (.grant g) => byte1 1 ++ answerBlock (.grant g)
  | some (.refusal d c) => byte1 2 ++ answerBlock (.refusal d c)

/-- The LOOKUP response: the rows of R67 from top to bottom, then the error bound (R86, R192). -/
def Endpoint.body (bound : Nat) (r : Endpoint) : List Byte :=
  bytesOf 2 r.slot ++ byte1 r.line.val ++ byte1 r.addr ++ byte1 r.state.value ++ byte1 r.withdrawal.value ++ bool1 r.inTxn
    ++ byte1 r.baseClass ++ bool1 r.corrEnabled ++ bytesOf 4 r.stepThreshold ++ optional 4 (r.asym.map (signedBytes 4))
    ++ optional 4 (r.identity.map (fun x => bytesOf 4 x.toNat)) ++ byte1 r.goodCount ++ byte1 r.missCount
    ++ byte1 r.window.length ++ r.window.flatMap Sample.bytes
    ++ optional 4 ((leastDelay r.window).map (bytesOf 4)) ++ optional 8 ((filteredOffset r.window).map (signedBytes 8))
    ++ optional 8 (r.lastRaw.map (signedBytes 8)) ++ optional 6 (r.lastGood.map (bytesOf 6))
    ++ signedBytes 4 r.freq ++ optional 4 (r.baseline.map (signedBytes 4))
    ++ byte1 r.cmdSeq.toNat ++ optional 9 (r.cmd.map (fun c => kindValueBytes c.1 c.2))
    ++ optional 10 (r.toSend.map (fun c => byte1 c.seq.toNat ++ kindValueBytes c.kind c.value))
    ++ byte1 r.ackSeq.toNat ++ byte1 r.repSeq.toNat ++ byte1 r.unack ++ answerBytes r.answer
    ++ bytesOf 2 r.goodTotal ++ bytesOf 2 r.missTotal ++ bytesOf 2 r.rejected ++ bytesOf 2 r.voids
    ++ bytesOf 2 r.conflicts ++ bytesOf 2 r.corrFaults ++ bytesOf 4 bound

/-- LOOKUP at its owning block (R84, R86): the bound is about the acceptance. -/
def lookupBlock (body : List Byte) (s : State) : Done :=
  match s.named body with
  | .error st => refuse st s
  | .ok r => (s, .ok, r.body (s.errorBound r s.clk.row))

/-- LOOKUP (R86). -/
def execLookup (dt : Nat) (body : List Byte) (s : State) : Host.Outcome State Fault Refusal :=
  .next ((s.advance dt).request 0x21 [3] body (lookupBlock body))

/-! ### AMEND (R87, R110) -/

/-- The body of AMEND after the record name is in range (R87, R191). A set remove bit makes the asymmetry bytes ignored. -/
def amendOk (body : List Byte) : Bool :=
  let p := field body 3 1
  decide (p < 16) && decide (field body 4 1 < 4) && carriedOk p 0 (decide (field body 5 1 ≤ 3))
    && carriedOk p 2 (within 1000 1000000000 (field body 6 4))
    && (flag body 4 1 || carriedOk p 3 (decide ((signedField32 body 10).natAbs ≤ 1000000)))

/-- The record after AMEND; disabling corrections withdraws a correction in flight (R87, R110). -/
def Endpoint.amend (body : List Byte) (assembled : Bool) (r : Endpoint) : Endpoint :=
  let p := field body 3 1
  let r := { r with
    baseClass := carried p 0 (field body 5 1) r.baseClass
    corrEnabled := carried p 1 (flag body 4 0) r.corrEnabled
    stepThreshold := carried p 2 (field body 6 4) r.stepThreshold
    asym := if flag body 4 1 then none else carried p 3 (some (signedField32 body 10)) r.asym }
  if p.testBit 1 && !flag body 4 0 then r.withdraw assembled else r

/-- AMEND at its owning block (R84, R87). -/
def amendBlock (body : List Byte) (s : State) : Done :=
  match s.named body with
  | .error st => refuse st s
  | .ok r =>
    if amendOk body then
      if r.state = .retiring then refuse .wrongState s
      else (s.updateRecord r.slot (Endpoint.amend body (s.closeAssembled r)), .ok, [])
    else refuse .badField s

/-- AMEND (R87). -/
def execAmend (dt : Nat) (body : List Byte) (s : State) : Host.Outcome State Fault Refusal :=
  .next ((s.advance dt).request 0x22 [14] body (amendBlock body))

/-! ### SUSPEND, RESUME, RETIRE (R88, R89, R91, R111) -/

/-- SUSPEND of a record (R88, R111). -/
def State.suspend (r : Endpoint) (s : State) : Done :=
  match r.state with
  | .retiring => refuse .wrongState s
  | .suspended => (s, .ok, [])
  | .enrolling | .tracking | .suspect | .lost =>
    if r.withdrawal = .suspend then (s, .accepted, [])
    else if r.inTxn then
      (s.updateRecord r.slot (fun x => { (x.withdraw (s.closeAssembled r)) with withdrawal := .suspend }), .accepted, [])
    else (s.updateRecord r.slot (fun x => { (x.withdraw (s.closeAssembled r)) with state := .suspended }), .ok, [])

/-- SUSPEND at its owning block (R84, R88). -/
def suspendBlock (body : List Byte) (s : State) : Done :=
  match s.named body with
  | .error st => refuse st s
  | .ok r => s.suspend r

/-- SUSPEND (R88). -/
def execSuspend (dt : Nat) (body : List Byte) (s : State) : Host.Outcome State Fault Refusal :=
  .next ((s.advance dt).request 0x23 [3] body (suspendBlock body))

/-- The record after RESUME (R91). -/
def Endpoint.resumed (r : Endpoint) : Endpoint := { r with state := .enrolling, goodCount := 0, missCount := 0, window := [] }

/-- RESUME at its owning block (R84, R91). -/
def resumeBlock (body : List Byte) (s : State) : Done :=
  match s.named body with
  | .error st => refuse st s
  | .ok r =>
    if r.state = .suspended then (s.updateRecord r.slot Endpoint.resumed, .ok, []) else refuse .wrongState s

/-- RESUME (R91). -/
def execResume (dt : Nat) (body : List Byte) (s : State) : Host.Outcome State Fault Refusal :=
  .next ((s.advance dt).request 0x24 [3] body (resumeBlock body))

/-- RETIRE of a record (R89, R111). -/
def State.retire (r : Endpoint) (s : State) : Done :=
  if r.state = .retiring then refuse .wrongState s
  else if r.inTxn then
    (s.updateRecord r.slot (fun x =>
      { (x.withdraw (s.closeAssembled r)) with state := .retiring, withdrawal := .retire }), .accepted, [])
  else (s.removeRecord r.slot, .ok, [])

/-- RETIRE at its owning block (R84, R89). -/
def retireBlock (body : List Byte) (s : State) : Done :=
  match s.named body with
  | .error st => refuse st s
  | .ok r => s.retire r

/-- RETIRE (R89). -/
def execRetire (dt : Nat) (body : List Byte) (s : State) : Host.Outcome State Fault Refusal :=
  .next ((s.advance dt).request 0x25 [3] body (retireBlock body))

/-! ### SCAN (R92) -/

/-- The records that SCAN lists, from the start slot on, at most eight (R92). -/
def State.scanned (s : State) (body : List Byte) : List Endpoint :=
  (s.records.filter (fun r =>
    decide (field body 2 2 ≤ r.slot) && (field body 0 1).testBit r.state.value
      && (field body 1 1 == 255 || field body 1 1 == r.line.val))).take 8

/-- The next slot, or end as 0xFFFF (R92, R192). -/
def nextSlot (rs : List Endpoint) : Nat :=
  match rs.getLast? with
  | some r => if rs.length = 8 ∧ r.slot < 511 then r.slot + 1 else 65535
  | none => 65535

/-- SCAN at its owning block (R92). -/
def scanBlock (body : List Byte) (s : State) : Done :=
  if within 1 63 (field body 0 1) && (decide (field body 1 1 < 12) || field body 1 1 == 255)
      && decide (field body 2 2 ≤ 511) then
    (s, .ok, byte1 (s.scanned body).length
      ++ (s.scanned body).flatMap (fun r => bytesOf 2 r.slot ++ byte1 r.line.val ++ byte1 r.addr ++ byte1 r.state.value)
      ++ bytesOf 2 (nextSlot (s.scanned body)))
  else refuse .badField s

/-- SCAN (R92). -/
def execScan (dt : Nat) (body : List Byte) (s : State) : Host.Outcome State Fault Refusal :=
  .next ((s.advance dt).request 0x28 [4] body (scanBlock body))

/-! ### The newcomer set (R95, R96) -/

/-- The NEWCOMERS response (R95, R192). -/
def State.newcomersBody (s : State) : List Byte :=
  byte1 s.newcomers.length
    ++ s.newcomers.flatMap (fun n =>
      byte1 n.line.val ++ byte1 n.addr ++ bytesOf 4 n.identity.toNat ++ byte1 n.timesSeen ++ bytesOf 6 n.firstSeen)
    ++ bool1 s.overflow

/-- NEWCOMERS at its owning block (R95). -/
def newcomersBlock (s : State) : Done := ({ s with overflow := false }, .ok, s.newcomersBody)

/-- NEWCOMERS (R95). -/
def execNewcomers (dt : Nat) (body : List Byte) (s : State) : Host.Outcome State Fault Refusal :=
  .next ((s.advance dt).request 0x29 [0] body newcomersBlock)

/-- DISMISS at its owning block (R96). That its body is the line, then the address, is the model's choice (assumption 45). -/
def dismissBlock (body : List Byte) (s : State) : Done :=
  match lineOf (field body 0 1) with
  | none => refuse .badField s
  | some i =>
    if addrOk (field body 1 1) then
      if s.newcomers.any (fun n => n.line == i && n.addr == field body 1 1) then
        (s.dropNewcomer i (field body 1 1), .ok, [])
      else refuse .notFound s
    else refuse .badField s

/-- DISMISS (R96). -/
def execDismiss (dt : Nat) (body : List Byte) (s : State) : Host.Outcome State Fault Refusal :=
  .next ((s.advance dt).request 0x2A [2] body (dismissBlock body))

end Sys2Proof.Machine
end

