-- ==== Sys2Proof/Machine/RackLines.lean ====
section
/-! DEFINITION. The meanings of the line events and the line requests (02_rack_lines.md,
03_the_exchange_and_the_poll_cycle.md). An event that the state does not hold (a CLOSE's end on a line that is not
sending one) changes nothing (assumption 7). -/

namespace Sys2Proof.Machine

open Sys2Proof

/-! ### Cycle and transaction events -/

/-- The line's own part of its period elapsing (R47). -/
def Line.elapse (l : Line) : Line :=
  { l with periodEnd := none, periodElapsed := true, overrun := l.overrun || l.phase == .list,
           counters := if l.phase = .list then { l.counters with overruns := inc16 l.counters.overruns } else l.counters }

/-- A line that waits for its next cycle start takes it (R48). -/
def State.cycleIfDone (i : Fin 12) (s : State) : State := if (s.line i).phase = .done then s.newCycle i else s

/-- PERIOD_ELAPSED (R47, R48). -/
def execPeriodElapsed (i : Fin 12) (s : State) : Host.Outcome State Fault Refusal :=
  match (s.line i).periodEnd with
  | none => .next s
  | some e =>
    .next (((s.advanceTo e).modLine i Line.elapse).cycleIfDone i)

/-- The frame has been sent, the receiver opens, and a window of `us` microseconds runs (R29, R54, R64). -/
def Line.openWindow (now us : Nat) (l : Line) : Line :=
  { l with tx := none, rxOpen := true, windowEnd := some (now + us * 1000) }

/-- The receiver of line `i` opens now (R29). -/
def State.openWindow (i : Fin 12) (us : Nat) (s : State) : State := s.modLine i (Line.openWindow s.localNs us)

/-- POLL_SENT (R54): the receiver opens, and the reply window in force at the POLL runs. -/
def execPollSent (i : Fin 12) (s : State) : Host.Outcome State Fault Refusal :=
  match (s.line i).state, (s.line i).tx, (s.line i).transaction with
  | .polling, some f, some t =>
    .next ((s.advanceTo f.finish).openWindow i t.window)
  | _, _, _ => .next s

/-- Local time reaches the next sample of line `i` (R27). -/
def State.toSample (i : Fin 12) (s : State) : State := s.advanceTo ((s.line i).sampleTime s.localNs)

/-- The next sample of the receive pair of line `i` reads level `v` (R27, R32, R34). -/
def State.sample (i : Fin 12) (s : State) (v : Bool) : State :=
  ((s.toSample i).modLine i (Line.take (s.toSample i).localNs v)).sampled i (s.line i).level v

/-- Samples of the receive pair of line `i`, one after the other. -/
def State.samples (i : Fin 12) (levels : List Bool) (s : State) : State := levels.foldl (State.sample i) s

/-- REPLY_HANDOFF (R56): samples that complete a good REPLY of the transaction. -/
def execReplyHandoff (i : Fin 12) (dt : Nat) (levels : List Bool) (s : State) : Host.Outcome State Fault Refusal :=
  .next ((s.advance dt).samples i levels)

/-- POLLING_FRAME_FAILED (R54): samples that complete a frame that is not a good REPLY of the transaction. -/
def execPollingFrameFailed (i : Fin 12) (dt : Nat) (levels : List Bool) (s : State) :
    Host.Outcome State Fault Refusal :=
  .next ((s.advance dt).samples i levels)

/-- The window's length has run while a frame is in assembly (R29). -/
def Line.elapseWindow (l : Line) : Line := { l with windowEnd := none, windowElapsed := true }

/-- The reply window's length has run (R29, R54, R55). -/
def State.replyWindowOver (i : Fin 12) (s : State) : State :=
  if (s.line i).receiving then s.modLine i Line.elapseWindow else s.miss i

/-- REPLY_WINDOW_END (R55): a MISS, unless a frame is in assembly, which is received to its end first (R29). -/
def execReplyWindowEnd (i : Fin 12) (s : State) : Host.Outcome State Fault Refusal :=
  match (s.line i).state, (s.line i).windowEnd with
  | .polling, some e => .next ((s.advanceTo e).replyWindowOver i)
  | _, _ => .next s

/-- The frame has been sent (R26). -/
def Line.sent (l : Line) : Line := { l with tx := none }

/-- CLOSE_SENT (R63): the transaction ends completed. -/
def execCloseSent (i : Fin 12) (s : State) : Host.Outcome State Fault Refusal :=
  match (s.line i).state, (s.line i).tx with
  | .closing, some f =>
    .next ((((s.advanceTo f.finish).modLine i Line.sent).endTransaction i .closed).afterEnd i)
  | _, _ => .next s

/-! ### Discovery events -/

/-- DISCOVER_SENT (R64): the discovery window opens for the length taken. -/
def execDiscoverSent (i : Fin 12) (s : State) : Host.Outcome State Fault Refusal :=
  match (s.line i).state, (s.line i).tx with
  | .discovering, some f => .next ((s.advanceTo f.finish).openWindow i (s.line i).discLength)
  | _, _ => .next s

/-- ANNOUNCE (R65): samples that complete a frame in the discovery window. -/
def execAnnounce (i : Fin 12) (dt : Nat) (levels : List Bool) (s : State) : Host.Outcome State Fault Refusal :=
  .next ((s.advance dt).samples i levels)

/-- DISCOVERY_COLLISION (R65): samples that complete a bad frame in the discovery window. -/
def execDiscoveryCollision (i : Fin 12) (dt : Nat) (levels : List Bool) (s : State) :
    Host.Outcome State Fault Refusal :=
  .next ((s.advance dt).samples i levels)

/-- The discovery window's length has run (R29, R66). -/
def State.discoveryWindowOver (i : Fin 12) (s : State) : State :=
  if (s.line i).receiving then s.modLine i Line.elapseWindow else s.endDiscovery i

/-- DISCOVERY_WINDOW_END (R66): the line goes on, unless a frame is in assembly, which is received to its end first. -/
def execDiscoveryWindowEnd (i : Fin 12) (s : State) : Host.Outcome State Fault Refusal :=
  match (s.line i).state, (s.line i).windowEnd with
  | .discovering, some e => .next ((s.advanceTo e).discoveryWindowOver i)
  | _, _ => .next s

/-! ### Receiving -/

/-- FRAME_GAP_TIMEOUT (R28): past two character times after the last stop bit, with no further start bit, the frame in
assembly ends as bad. The gap runs from that stop bit's end whatever the level of the pair, so at the break level too while the
receiver waits for the idle level after a framing error, which is the model's choice (assumption 49); the end in whole ns is
assumption 21. -/
def execFrameGapTimeout (i : Fin 12) (s : State) : Host.Outcome State Fault Refusal :=
  if (s.line i).rx = [] ∨ (s.line i).receiver.busy = true then .next s
  else .next ((s.advanceTo ((s.line i).rxAt + 2 * (s.line i).rate.charNs + 1)).gap i)

/-- STRAY_CHARACTER (R29): samples that complete a character; it is stray when the receiver is not open. -/
def execStrayCharacter (i : Fin 12) (dt : Nat) (levels : List Bool) (s : State) : Host.Outcome State Fault Refusal :=
  .next ((s.advance dt).samples i levels)

/-! ### Fault and recovery -/

/-- LINE_FAULT (R32): samples that bring the pair to 22 bit times at the break level; in FAULT they only restart the
recovery wait (R34), and in OFF no watch runs. -/
def execLineFault (i : Fin 12) (x : Stretch) (s : State) : Host.Outcome State Fault Refusal :=
  .next ((s.advance x.dt).samples i x.levels)

/-- The fault watch runs again, the recovery watch does not, and the receiver watches the pair, which is at the idle
level (R27, R34). -/
def Line.watchFaults (l : Line) : Line :=
  { l with recoveryWatch := none, faultWatch := some 0, receiver := .waiting, level := true }

/-- A line leaves a fault or another stopped state: QUIESCED if that was asked for, else a new cycle (R34). -/
def State.resumeCycle (i : Fin 12) (s : State) : State :=
  if (s.line i).quiesceReq then s.modLine i Line.toQuiesced else s.newCycle i

/-- The line recovers (R34). -/
def State.recover (i : Fin 12) (s : State) : State := ((s.modLine i Line.watchFaults).resumeCycle i).raise .line

/-- LINE_RECOVERY (R34): 1 s after the first sample at the idle level; a watch that has met none yet meets it at the next
sample, because the pair is at the idle level. -/
def execLineRecovery (i : Fin 12) (dt : Nat) (s : State) : Host.Outcome State Fault Refusal :=
  match (s.line i).recoveryWatch with
  | none => .next (s.advance dt)
  | some w =>
    .next (((s.advance dt).advanceTo (w.getD ((s.line i).sampleTime (s.localNs + dt)) + second)).recover i)

/-- RECOVERY_WATCH_RESTART (R34): samples in FAULT, one of them at the break level. -/
def execRecoveryWatchRestart (i : Fin 12) (x : Stretch) (s : State) : Host.Outcome State Fault Refusal :=
  .next ((s.advance x.dt).samples i x.levels)

/-! ### LINE_CONFIG (R35, R36) -/

/-- The fields of LINE_CONFIG after the line number are in range (R30, R35, R191). -/
def lineConfigOk (body : List Byte) : Bool :=
  let p := field body 1 2
  decide (p < 1024) && decide (field body 3 1 < 4) && carriedOk p 1 (rateOf (field body 4 1)).isSome
    && carriedOk p 2 (periodListed (field body 5 2))
    && carriedOk p 3 (within 20 2000 (field body 7 2) && field body 7 2 % 10 == 0)
    && carriedOk p 5 (within 100 5000 (field body 9 2) && field body 9 2 % 100 == 0)
    && carriedOk p 6 (within 2 15 (field body 11 1)) && carriedOk p 7 (within 1 1000000 (field body 12 4))
    && carriedOk p 8 (within 0 100000 (field body 16 4)) && carriedOk p 9 (within 1 1000 (field body 20 2))

/-- All carried fields but the enable are written together (R35). -/
def Line.configure (body : List Byte) (l : Line) : Line :=
  let p := field body 1 2
  { l with cfgRate := carried p 1 ((rateOf (field body 4 1)).getD l.cfgRate) l.cfgRate
           cfgPeriod := carried p 2 (field body 5 2) l.cfgPeriod
           replyWindow := carried p 3 (field body 7 2) l.replyWindow
           discEnable := carried p 4 (flag body 3 1) l.discEnable
           discWindow := carried p 5 (field body 9 2) l.discWindow
           missLimit := carried p 6 (field body 11 1) l.missLimit
           delayLimit := carried p 7 (field body 12 4) l.delayLimit
           asymAllow := carried p 8 (field body 16 4) l.asymAllow
           driftAllow := carried p 9 (field body 20 2) l.driftAllow }

/-- The line's own part of entering OFF (R36). -/
def Line.toOff (l : Line) : Line :=
  { l.dropCycle with enable := false, quiesceReq := false, state := .off, receiver := .waiting, faultWatch := none,
                     recoveryWatch := none }

/-- The line's own part of leaving OFF: enabled, the bit rate in force taken, the fault watch running (R30, R36). -/
def Line.leaveOff (l : Line) : Line := { l with enable := true, rate := l.cfgRate, faultWatch := some 0 }

/-- The line enters OFF by LINE_CONFIG (R36). -/
def State.lineOff (i : Fin 12) (s : State) : State :=
  (s.abandon i).modLine i Line.toOff

/-- The line leaves OFF by LINE_CONFIG (R36). -/
def State.lineOn (i : Fin 12) (s : State) : State :=
  (s.modLine i Line.leaveOff).newCycle i

/-- The enable field acts last, according to the line's state (R36). -/
def State.lineEnable (i : Fin 12) (isCarried on : Bool) (s : State) : State :=
  if isCarried then
    if on then (if (s.line i).state = .off then s.lineOn i else s)
    else (if (s.line i).state = .off then s else s.lineOff i)
  else s

/-- The LINE_CONFIG response (R35, R192). -/
def Line.configBody (l : Line) : List Byte :=
  bool1 l.enable ++ byte1 l.cfgRate.mbit ++ bytesOf 2 l.cfgPeriod ++ bytesOf 2 l.replyWindow ++ bool1 l.discEnable
    ++ bytesOf 2 l.discWindow ++ byte1 l.missLimit ++ bytesOf 4 l.delayLimit ++ bytesOf 4 l.asymAllow
    ++ bytesOf 4 l.driftAllow ++ byte1 l.state.value

/-- The line after LINE_CONFIG's fields (R35, R36). -/
def State.lineConfigured (i : Fin 12) (body : List Byte) (s : State) : State :=
  (s.modLine i (Line.configure body)).lineEnable i ((field body 1 2).testBit 0) (flag body 3 0)

/-- LINE_CONFIG at its owning block (R35). Its response carries the line state after the request's effects (R36): a line that it
enables in OFF shows POLLING or DISCOVERING where its cycle's start has begun to send, not the IDLE it passes through, which is the
model's choice (assumption 44). -/
def lineConfigBlock (body : List Byte) (s : State) : Done :=
  match lineOf (field body 0 1) with
  | none => refuse .badField s
  | some i =>
    if lineConfigOk body then (s.lineConfigured i body, .ok, ((s.lineConfigured i body).line i).configBody)
    else refuse .badField s

/-- LINE_CONFIG (R35). -/
def execLineConfig (dt : Nat) (body : List Byte) (s : State) : Host.Outcome State Fault Refusal :=
  .next ((s.advance dt).request 0x18 [22] body (lineConfigBlock body))

/-! ### LINE_QUIESCE, LINE_RESUME, LINE_RESET (R37, R39, R40) -/

/-- The quiesce requested flag is set or cleared (R37, R39). -/
def Line.setQuiesce (b : Bool) (l : Line) : Line := { l with quiesceReq := b }

/-- LINE_QUIESCE of a line (R37). -/
def State.lineQuiesce (i : Fin 12) (s : State) : Done :=
  match (s.line i).state with
  | .idle => (s.modLine i Line.toQuiesced, .ok, [])
  | .discovering => (s.modLine i (fun l => (l.hush s.localNs).toQuiesced), .ok, [])
  | .polling => (s.modLine i (Line.setQuiesce true), .accepted, [])
  | .closing => (s.modLine i (Line.setQuiesce true), .accepted, [])
  | .fault => (s.modLine i (Line.setQuiesce true), .accepted, [])
  | .quiesced => (s, .ok, [])
  | .off => refuse .wrongState s

/-- LINE_QUIESCE at its owning block (R37). -/
def lineQuiesceBlock (body : List Byte) (s : State) : Done :=
  match lineOf (field body 0 1) with
  | none => refuse .badField s
  | some i => s.lineQuiesce i

/-- LINE_QUIESCE (R37). -/
def execLineQuiesce (dt : Nat) (body : List Byte) (s : State) : Host.Outcome State Fault Refusal :=
  .next ((s.advance dt).request 0x19 [1] body (lineQuiesceBlock body))

/-- LINE_RESUME of a line (R39). -/
def State.lineResume (i : Fin 12) (s : State) : State :=
  if (s.line i).state = .quiesced then s.newCycle i else s.modLine i (Line.setQuiesce false)

/-- LINE_RESUME at its owning block (R39). -/
def lineResumeBlock (body : List Byte) (s : State) : Done :=
  match lineOf (field body 0 1) with
  | none => refuse .badField s
  | some i => (s.lineResume i, .ok, [])

/-- LINE_RESUME (R39). -/
def execLineResume (dt : Nat) (body : List Byte) (s : State) : Host.Outcome State Fault Refusal :=
  .next ((s.advance dt).request 0x1A [1] body (lineResumeBlock body))

/-- The line's own part of LINE_RESET (R40). -/
def Line.wipe (l : Line) : Line :=
  { l.dropCycle with urgent := [], counters := LineCounters.zero, cycle := 0, quiesceReq := false }

/-- The newcomer entries of a line leave the set (R40). -/
def State.dropLineNewcomers (i : Fin 12) (s : State) : State :=
  { s with newcomers := s.newcomers.filter (fun n => n.line != i) }

/-- LINE_RESET, steps 1 to 4, on the line as the request finds it (R40). -/
def State.lineCleared (i : Fin 12) (s : State) : State :=
  (((s.foundIdle i).abandon i).modLine i Line.wipe).dropLineNewcomers i

/-- LINE_RESET of a line (R40): in OFF and FAULT the line stays, otherwise a new cycle starts at once. -/
def State.lineReset (i : Fin 12) (s : State) : State :=
  if (s.line i).state = .off ∨ (s.line i).state = .fault then s.lineCleared i else (s.lineCleared i).newCycle i

/-- LINE_RESET at its owning block (R40). -/
def lineResetBlock (body : List Byte) (s : State) : Done :=
  match lineOf (field body 0 1) with
  | none => refuse .badField s
  | some i => (s.lineReset i, .ok, [])

/-- LINE_RESET (R40). -/
def execLineReset (dt : Nat) (body : List Byte) (s : State) : Host.Outcome State Fault Refusal :=
  .next ((s.advance dt).request 0x1B [1] body (lineResetBlock body))

end Sys2Proof.Machine
end

