-- ==== Sys2Proof/Machine/Racks.lean ====
section
/-! DEFINITION. The meanings of RACK_SWEEP and of the requests on racks (08_rack_drift_watch.md 8.4, 8.7). -/

namespace Sys2Proof.Machine

open Sys2Proof

/-- RACK_SWEEP (R156): the sweep of the tick at which the rack's countdown reached 0 is taken.
A rack in OFF is not swept, and a rack whose countdown has not reached 0 has no sweep to take. -/
def execRackSweep (i : Fin 12) (s : State) : Host.Outcome State Fault Refusal :=
  .next (if (s.rack i).sweepDue = true ∧ (s.rack i).watch ≠ .off then s.sweep i else s)

/-! ### RACK_CONFIG (R165, R166) -/

/-- The thresholds, quantum, limits and flags after RACK_CONFIG's carried fields (R165). -/
def Rack.configure (body : List Byte) (r : Rack) : Rack :=
  let p := field body 1 2
  { r with boost := carried p 1 (flag body 3 1) r.boost
           repeatOn := carried p 2 (flag body 3 2) r.repeatOn
           driftClear := carried p 3 (field body 4 4) r.driftClear
           driftWarn := carried p 4 (field body 8 4) r.driftWarn
           driftAlarm := carried p 5 (field body 12 4) r.driftAlarm
           lostWarn := carried p 6 (field body 16 1) r.lostWarn
           lostAlarm := carried p 7 (field body 17 1) r.lostAlarm
           walkQuantum := carried p 8 (field body 18 4) r.walkQuantum
           walkLimit := carried p 9 (field body 22 2) r.walkLimit
           dwellLimit := carried p 10 (field body 24 1) r.dwellLimit
           sweepExp := carried p 11 (field body 25 1) r.sweepExp }

/-- The carried fields of RACK_CONFIG are each in range (R151, R165, R191). -/
def rackConfigRanges (body : List Byte) : Bool :=
  let p := field body 1 2
  decide (p < 4096) && decide (field body 3 1 < 8) && carriedOk p 3 (within 1 100000 (field body 4 4))
    && carriedOk p 4 (within 1 100000 (field body 8 4)) && carriedOk p 5 (within 1 100000 (field body 12 4))
    && carriedOk p 6 (within 1 47 (field body 16 1)) && carriedOk p 7 (within 1 47 (field body 17 1))
    && carriedOk p 8 (within 10 100000 (field body 18 4)) && carriedOk p 9 (within 4 2047 (field body 22 2))
    && carriedOk p 10 (within 1 255 (field body 24 1)) && carriedOk p 11 (within 0 6 (field body 25 1))

/-- The thresholds stand in order (R165). -/
def Rack.ordered (r : Rack) : Bool :=
  decide (r.driftClear < r.driftWarn) && decide (r.driftWarn < r.driftAlarm) && decide (r.lostWarn ≤ r.lostAlarm)

/-- What every accepted RACK_CONFIG restarts (R165). -/
def Rack.restart (r : Rack) : Rack :=
  { r with walk := 0, latch := none, sweptExcursion := none, dwell := 0, repeats := 0, countdown := 2 ^ r.sweepExp }

/-- The enable field of RACK_CONFIG (R166, and R154 for entry to OFF). -/
def State.rackEnable (i : Fin 12) (isCarried on : Bool) (s : State) : State :=
  if isCarried then
    if on then
      (if (s.rack i).watch = .off then (s.modRack i (fun r => { r with watch := .quiet, dwell := 0 })).rackChanged i else s)
    else
      (if (s.rack i).watch = .off then s
        else (s.modRack i (fun r =>
          { r with watch := .off, cause := none, sweepDue := false, walk := 0, latch := none })).rackChanged i)
  else s

/-- The part after an accepted RACK_CONFIG (R165, R166). -/
def State.rackConfigured (i : Fin 12) (body : List Byte) (s : State) : State :=
  (s.modRack i (fun r => (r.configure body).restart)).rackEnable i ((field body 1 2).testBit 0) (flag body 3 0)

/-- A rack's configuration: boost, repeat, thresholds, quantum, limits, exponent (R165, R192). -/
def Rack.configBody (r : Rack) : List Byte :=
  bool1 r.boost ++ bool1 r.repeatOn ++ bytesOf 4 r.driftClear ++ bytesOf 4 r.driftWarn ++ bytesOf 4 r.driftAlarm
    ++ byte1 r.lostWarn ++ byte1 r.lostAlarm ++ bytesOf 4 r.walkQuantum ++ bytesOf 2 r.walkLimit ++ byte1 r.dwellLimit
    ++ byte1 r.sweepExp

/-- The RACK_CONFIG response: the resulting configuration, its enable first, and the watch state (R165, R192). That the enable, on
unless the watch state is OFF, has a byte here and none in RACK_LOOKUP is the model's choice (assumption 48). -/
def Rack.rackConfigBody (r : Rack) : List Byte := bool1 (r.watch != .off) ++ r.configBody ++ byte1 r.watch.value

/-- RACK_CONFIG at its owning block (R165). -/
def rackConfigBlock (body : List Byte) (s : State) : Done :=
  match lineOf (field body 0 1) with
  | none => refuse .badField s
  | some i =>
    if rackConfigRanges body && ((s.rack i).configure body).ordered then
      (s.rackConfigured i body, .ok, ((s.rackConfigured i body).rack i).rackConfigBody)
    else refuse .badField s

/-- RACK_CONFIG (R165). -/
def execRackConfig (dt : Nat) (body : List Byte) (s : State) : Host.Outcome State Fault Refusal :=
  .next ((s.advance dt).request 0x40 [26] body (rackConfigBlock body))

/-! ### RACK_LOOKUP, RACK_CLEAR, RACK_REBASE (R167 to R169) -/

/-- The six member counts, in the order of R151. -/
def MemberCounts.body (m : MemberCounts) : List Byte :=
  byte1 m.enrolling ++ byte1 m.tracking ++ byte1 m.suspect ++ byte1 m.lost ++ byte1 m.suspended ++ byte1 m.retiring

/-- The RACK_LOOKUP response: the rack id, then the fields in the order of R167 (R192). Its configuration has no enable byte,
since R151 has no such field, which is the model's choice (assumption 48). -/
def Rack.body (i : Fin 12) (r : Rack) : List Byte :=
  byte1 i.val ++ byte1 r.watch.value ++ byte1 (alarmValue r.cause) ++ r.configBody ++ byte1 r.countdown ++ byte1 r.dwell
    ++ byte1 r.repeats ++ signedBytes 2 r.walk ++ [Config.excursionCode r.latch] ++ signedBytes 4 r.sweptD
    ++ byte1 r.sweptTracking ++ byte1 r.sweptLost ++ [Config.excursionCode r.sweptExcursion] ++ r.members.body
    ++ bool1 r.changed

/-- RACK_LOOKUP at its owning block (R167): the changed flag is cleared after the snapshot. -/
def rackLookupBlock (body : List Byte) (s : State) : Done :=
  match lineOf (field body 0 1) with
  | none => refuse .badField s
  | some i => (s.modRack i (fun r => { r with changed := false }), .ok, (s.rack i).body i)

/-- RACK_LOOKUP (R167). -/
def execRackLookup (dt : Nat) (body : List Byte) (s : State) : Host.Outcome State Fault Refusal :=
  .next ((s.advance dt).request 0x41 [1] body (rackLookupBlock body))

/-- The rack enters WATCH from ALARM (R168). -/
def Rack.clearAlarm (r : Rack) : Rack := { r with watch := .watch, cause := none, dwell := 0, repeats := 0 }

/-- RACK_CLEAR at its owning block (R168). -/
def rackClearBlock (body : List Byte) (s : State) : Done :=
  match lineOf (field body 0 1) with
  | none => refuse .badField s
  | some i =>
    if s.inAlarm i then
      ((s.modRack i Rack.clearAlarm).rackChanged i, .ok, [])
    else refuse .wrongState s

/-- RACK_CLEAR (R168). -/
def execRackClear (dt : Nat) (body : List Byte) (s : State) : Host.Outcome State Fault Refusal :=
  .next ((s.advance dt).request 0x42 [1] body (rackClearBlock body))

/-- The number of TRACKING records on a line (R169). -/
def State.trackingOn (s : State) (i : Fin 12) : Nat :=
  (s.records.filter (fun r => r.line == i && r.state == .tracking)).length

/-- RACK_REBASE at its owning block (R83, R169). -/
def rackRebaseBlock (body : List Byte) (s : State) : Done :=
  match lineOf (field body 0 1) with
  | none => refuse .badField s
  | some i => (s.eptRebase i, .ok, byte1 (s.trackingOn i))

/-- RACK_REBASE (R169). -/
def execRackRebase (dt : Nat) (body : List Byte) (s : State) : Host.Outcome State Fault Refusal :=
  .next ((s.advance dt).request 0x43 [1] body (rackRebaseBlock body))

end Sys2Proof.Machine
end

