-- ==== Sys2Proof/Machine/References.lean ====
section
/-! DEFINITION. The meanings of HARD_RESET and of the clock and reference commands
(01_the_row_clock_and_its_references.md, R184). -/

namespace Sys2Proof.Machine

open Sys2Proof

/-- The two-character gap limit of the time-of-day inputs at 115,200 bit/s: the first whole ns past 22 bit times after the end
of a stop bit, which is 33 bit times after its character's leading edge (R2, assumption 21). -/
def todGapNs : Nat := 190973

/-- HARD_RESET (R184): every block holds its reset values; the queue, and the model's counter of fill bytes, stay. -/
def execHardReset (csLow : Bool) (s : State) : Host.Outcome State Fault Refusal :=
  .next { State.reset with
    port := { Port.reset with ignoring := csLow, link := { Link.idle with low := csLow } }
    freeCount := s.freeCount
    pending := s.pending }

/-- An edge at a channel's PPS input: a DISABLED channel ignores it (R1). -/
def State.takeEdge (ch : Chan) (s : State) : State :=
  if (s.chan ch).enable then State.noteRef s (s.ppsEdge ch) else s

/-- PPS_EDGE (R3, R4). -/
def execPpsEdge (ch : Chan) (dt : Nat) (s : State) : Host.Outcome State Fault Refusal :=
  .next ((s.advance dt).takeEdge ch)

/-- TOD_MESSAGE (R2): samples of the time-of-day input that bring characters of a message. -/
def execTodMessage (ch : Chan) (dt : Nat) (levels : List Bool) (s : State) : Host.Outcome State Fault Refusal :=
  .next ((s.advance dt).todSamples ch levels)

/-- The message in assembly is a bad message (R2). -/
def State.todGap (ch : Chan) (s : State) : State := s.setChan ch { s.chan ch with tod := [], msgFault := true }

/-- TOD_GAP_TIMEOUT (R2): past two character times after the last stop bit, with no further start bit, assembly is abandoned
as a bad message. As on a rack line, the gap runs at the break level too while the receiver waits for the idle level after a
framing error, which is the model's choice (assumption 49); the end in whole ns is assumption 21. -/
def execTodGapTimeout (ch : Chan) (s : State) : Host.Outcome State Fault Refusal :=
  if (s.chan ch).enable = true ∧ (s.chan ch).tod ≠ [] ∧ (s.chan ch).todReceiver.busy = false then
    .next ((s.advanceTo ((s.chan ch).todAt + todGapNs)).todGap ch)
  else .next s

/-- A channel is lost: its fields, its report to ROWCLK, and cause REF (R5, R6, R22). -/
def State.loseChan (ch : Chan) (s : State) : State :=
  State.noteRef s (State.reportChan s ch (s.setChan ch (s.chan ch).lose))

/-- LOSS_DEADLINE_EXPIRY (R5): at the deadline the channel is lost; no deadline runs in DOWN or DISABLED. -/
def execLossDeadlineExpiry (ch : Chan) (s : State) : Host.Outcome State Fault Refusal :=
  match (s.chan ch).lossDeadline with
  | none => .next s
  | some t =>
    .next ((s.advanceTo t).loseChan ch)

/-- LOCAL_SECOND_START (R9): the start of a local second that is due, or else the next one, where the next applied rate takes
over. -/
def execLocalSecondStart (s : State) : Host.Outcome State Fault Refusal := .next s.reachStart.takeStart

/-- SECOND_TICK (R10): the tick that is due, or else that of row time's next rollover. -/
def execSecondTick (s : State) : Host.Outcome State Fault Refusal := .next s.reachTick.takeTick

/-! ### REF_CONFIG (R23) -/

/-- The body of REF_CONFIG is in range (R23, R191). -/
def refConfigOk (body : List Byte) : Bool :=
  let p := field body 0 1
  decide (p < 64) && decide (field body 1 1 < 8) && carriedOk p 2 (chanOf (field body 2 1)).isSome
    && carriedOk p 4 (within 100 1000000 (field body 3 4)) && carriedOk p 5 (within 1 10000 (field body 7 2))

/-- The enable field of one channel acts, if carried (R23). -/
def RefChannel.setEnable (isCarried on : Bool) (c : RefChannel) : RefChannel :=
  if isCarried && (on != c.enable) then
    { c.cleared with
      enable := on, state := if on then .down else .disabled, tod := [], todReceiver := .waiting }
  else c

/-- The clock's fields of REF_CONFIG (R23). -/
def RowClock.configure (body : List Byte) (c : RowClock) : RowClock :=
  let p := field body 0 1
  { c with preferred := carried p 2 ((chanOf (field body 2 1)).getD c.preferred) c.preferred
           revertive := carried p 3 (flag body 1 2) c.revertive
           stepLimit := carried p 4 (field body 3 4) c.stepLimit
           holdRate := carried p 5 (field body 7 2) c.holdRate }

/-- The revert test that REF_CONFIG makes at its acceptance (R17, R23). -/
def State.revertTest (s : State) : State :=
  if s.clk.state = .locked ∧ s.clk.revertive = true ∧ s.clk.selected ≠ some s.clk.preferred
      ∧ s.qualified s.clk.preferred = true then
    s.modClk (RowClock.toAcquiring s.clk.preferred 0)
  else s

/-- The enable fields of both channels act, as carried (R23). -/
def State.setEnables (body : List Byte) (s : State) : State :=
  { s with chanA := s.chanA.setEnable ((field body 0 1).testBit 0) (flag body 1 0)
           chanB := s.chanB.setEnable ((field body 0 1).testBit 1) (flag body 1 1) }

/-- The revert test is made when the preferred reference or the revertive flag is carried (R23, assumption 38). -/
def State.revertIfCarried (body : List Byte) (s : State) : State :=
  if (field body 0 1).testBit 2 || (field body 0 1).testBit 3 then s.revertTest else s

/-- The fields of REF_CONFIG take effect together: the channels, their reports, the clock's fields, the revert test (R23). -/
def State.refConfigured (body : List Byte) (s : State) : State :=
  State.noteRef s
    (((State.reportChan s .b (State.reportChan s .a (s.setEnables body))).modClk
      (RowClock.configure body)).revertIfCarried body)

/-- A channel in a REF_CONFIG response: state, good-second count, last phase, edge seconds (R23, R192). -/
def RefChannel.body (c : RefChannel) : List Byte :=
  byte1 c.state.value ++ byte1 c.good ++ signedBytes 4 c.lastPhase ++ optional 6 (c.edgeSec.map (bytesOf 6))

/-- The REF_CONFIG response (R23, R192). -/
def State.refConfigBody (s : State) : List Byte :=
  bool1 s.chanA.enable ++ bool1 s.chanB.enable ++ byte1 (refValue (some s.clk.preferred)) ++ bool1 s.clk.revertive
    ++ bytesOf 4 s.clk.stepLimit ++ bytesOf 4 s.clk.holdRate ++ s.chanA.body ++ s.chanB.body

/-- REF_CONFIG at its owning block (R23). -/
def refConfigBlock (body : List Byte) (s : State) : Done :=
  if refConfigOk body then (s.refConfigured body, .ok, (s.refConfigured body).refConfigBody) else refuse .badField s

/-- REF_CONFIG (R23). -/
def execRefConfig (dt : Nat) (body : List Byte) (s : State) : Host.Outcome State Fault Refusal :=
  .next ((s.advance dt).request 0x10 [9] body (refConfigBlock body))

/-! ### SET_TIME and READ_TIME (R24, R25) -/

/-- SET_TIME at its owning block (R24). -/
def setTimeBlock (body : List Byte) (s : State) : Done :=
  if s.clk.state = .freerun then
    (s.rowStep ⟨field body 0 6, 0⟩, .ok, bytesOf 2 (s.clk.epoch + 1).toNat)
  else refuse .wrongState s

/-- SET_TIME (R24). -/
def execSetTime (dt : Nat) (body : List Byte) (s : State) : Host.Outcome State Fault Refusal :=
  .next ((s.advance dt).request 0x11 [6] body (setTimeBlock body))

/-- The READ_TIME response (R25, 10.5). -/
def RowClock.body (c : RowClock) : List Byte :=
  timeBytes c.row ++ bytesOf 2 c.epoch.toNat ++ byte1 c.state.value ++ byte1 (refValue c.selected) ++ bytesOf 4 c.u
    ++ signedBytes 4 c.integral ++ signedBytes 4 c.applied ++ bytesOf 4 c.entryValue ++ bytesOf 6 c.entrySec

/-- READ_TIME at its owning block (R25). -/
def readTimeBlock (s : State) : Done := (s, .ok, s.clk.body)

/-- READ_TIME (R25). -/
def execReadTime (dt : Nat) (body : List Byte) (s : State) : Host.Outcome State Fault Refusal :=
  .next ((s.advance dt).request 0x12 [0] body readTimeBlock)

end Sys2Proof.Machine
end

