-- ==== Sys2Proof/Machine/PortCommands.lean ====
section
/-! DEFINITION. The meanings of the request port's own requests (STATUS, ACK, MASK, RESTART) and of its transactions
(09_the_request_port.md). -/

namespace Sys2Proof.Machine

open Sys2Proof

/-! ### STATUS (R182) -/

/-- The set of racks whose changed flag is set, bit n for rack n (R163, R182). -/
def State.changedSet (s : State) : Nat := (all12.map (fun i => if (s.rack i).changed then 2 ^ i.val else 0)).sum

/-- The STATUS response without a line number (R182, 10.5). -/
def State.statusBody (s : State) : List Byte :=
  byte1 s.clk.state.value ++ byte1 (refValue s.clk.selected) ++ bytesOf 2 s.clk.epoch.toNat ++ bytesOf 4 s.clk.u
    ++ [s.port.causes] ++ byte1 s.port.firstCause ++ [s.port.mask] ++ bytesOf 2 s.changedSet
    ++ byte1 s.newcomers.length ++ bool1 s.overflow ++ bytesOf 2 s.records.length ++ byte1 s.domains.length
    ++ bytesOf 2 s.port.badFrames ++ bytesOf 2 s.port.overlaps

/-- The STATUS response with a line number (R182, 10.5). -/
def Line.statusBody (i : Fin 12) (l : Line) : List Byte :=
  byte1 i.val ++ byte1 l.state.value ++ byte1 (l.enable.toNat + 2 * l.quiesceReq.toNat) ++ bytesOf 4 l.cycle.toNat
    ++ bytesOf 2 l.counters.noisy ++ bytesOf 2 l.counters.badFrames ++ bytesOf 2 l.counters.stray
    ++ bytesOf 2 l.counters.misses ++ bytesOf 2 l.counters.overruns ++ bytesOf 2 l.counters.urgentDrops
    ++ bytesOf 2 l.counters.collisions

/-- STATUS at its owning block (R182). -/
def statusBlock (body : List Byte) (s : State) : Done :=
  if body = [] then (s, .ok, s.statusBody)
  else match lineOf (field body 0 1) with
    | none => refuse .badField s
    | some i => (s, .ok, (s.line i).statusBody i)

/-- STATUS (R182). -/
def execStatus (dt : Nat) (body : List Byte) (s : State) : Host.Outcome State Fault Refusal :=
  .next ((s.advance dt).request 0x48 [0, 1] body (statusBlock body))

/-! ### ACK and MASK (R180, R181) -/

/-- The ACK and MASK response: pending causes, first cause, mask (10.5). -/
def Port.causesBody (p : Port) : List Byte := [p.causes] ++ byte1 p.firstCause ++ [p.mask]

/-- ACK at its owning block (R180). -/
def ackBlock (body : List Byte) (s : State) : Done :=
  (s.clearCauses (BitVec.ofNat 8 (field body 0 1)), .ok,
    (s.clearCauses (BitVec.ofNat 8 (field body 0 1))).port.causesBody)

/-- ACK (R180). -/
def execAck (dt : Nat) (body : List Byte) (s : State) : Host.Outcome State Fault Refusal :=
  .next ((s.advance dt).request 0x49 [1] body (ackBlock body))

/-- The set becomes the attention mask (R181). -/
def State.setMask (set : Byte) (s : State) : State := s.modPort (fun p => { p with mask := set })

/-- MASK at its owning block (R181). -/
def maskBlock (body : List Byte) (s : State) : Done :=
  (s.setMask (BitVec.ofNat 8 (field body 0 1)), .ok, (s.setMask (BitVec.ofNat 8 (field body 0 1))).port.causesBody)

/-- MASK (R181). -/
def execMask (dt : Nat) (body : List Byte) (s : State) : Host.Outcome State Fault Refusal :=
  .next ((s.advance dt).request 0x4A [1] body (maskBlock body))

/-! ### RESTART (R183) -/

/-- RESTART, steps 1 to 3: the tables are emptied and every rack record is reset (R68, R93, R115, R151, R183). -/
def State.emptyTables (s : State) : State :=
  { s with records := [], newcomers := [], overflow := false, domains := [], racks := Vector.replicate 12 Rack.reset }

/-- RESTART at its owning block (R183). -/
def restartBlock (s : State) : Done :=
  ((s.emptyTables.forAll12 State.lineRestart).modPort (fun p => { p with causes := 0, mask := 0 }), .ok, [])

/-- RESTART (R183). -/
def execRestart (dt : Nat) (body : List Byte) (s : State) : Host.Outcome State Fault Refusal :=
  .next ((s.advance dt).request 0x4B [0] body restartBlock)

/-! ### The port's transactions (R174 to R176) -/

/-- The body lengths a request allows and what its owning block does, by request code (10.5); none for a code that names
no request. -/
def requestOf (code : Nat) (body : List Byte) : Option (List Nat × (State → Done)) :=
  match code with
  | 0x10 => some ([9], refConfigBlock body)
  | 0x11 => some ([6], setTimeBlock body)
  | 0x12 => some ([0], readTimeBlock)
  | 0x18 => some ([22], lineConfigBlock body)
  | 0x19 => some ([1], lineQuiesceBlock body)
  | 0x1A => some ([1], lineResumeBlock body)
  | 0x1B => some ([1], lineResetBlock body)
  | 0x20 => some ([16], enrollBlock body)
  | 0x21 => some ([3], lookupBlock body)
  | 0x22 => some ([14], amendBlock body)
  | 0x23 => some ([3], suspendBlock body)
  | 0x24 => some ([3], resumeBlock body)
  | 0x25 => some ([3], retireBlock body)
  | 0x28 => some ([4], scanBlock body)
  | 0x29 => some ([0], newcomersBlock)
  | 0x2A => some ([2], dismissBlock body)
  | 0x30 => some ([8], domainOpenBlock body)
  | 0x31 => some ([9], domainAmendBlock body)
  | 0x32 => some ([1], domainFreezeBlock body)
  | 0x33 => some ([1], domainThawBlock body)
  | 0x34 => some ([1], domainRetireBlock body)
  | 0x35 => some ([1], domainLookupBlock body)
  | 0x38 => some ([2], stampBlock body)
  | 0x40 => some ([26], rackConfigBlock body)
  | 0x41 => some ([1], rackLookupBlock body)
  | 0x42 => some ([1], rackClearBlock body)
  | 0x43 => some ([1], rackRebaseBlock body)
  | 0x48 => some ([0, 1], statusBlock body)
  | 0x49 => some ([1], ackBlock body)
  | 0x4A => some ([1], maskBlock body)
  | 0x4B => some ([0], restartBlock)
  | _ => none

/-- A good frame in READY or RESPONSE_HELD (R174, R176). -/
def State.acceptFrame (code : Byte) (body : List Byte) (s : State) : State :=
  match requestOf code.toNat body with
  | some (lengths, block) => s.carryOut code lengths body block
  | none => State.form code (refuse .unknownRequest s.enterExecuting)

/-- A write transaction is taken according to the port state (R174). -/
def State.takeWrite (first : Byte) (bytes : List Byte) (cut : Bool) (s : State) : State :=
  match s.port.state with
  | .executing => s.dropWrite
  | .ready | .responseHeld =>
    if frameGood bytes cut then s.acceptFrame first ((bytes.drop 2).take (bytes.length - 4)) else s.holdBadFrame first

/-- What the port makes of a transaction's whole bytes (R171, R174, R175): of none of them nothing, of a read or a write by
the first. -/
def State.takeBytes (bytes : List Byte) (cut : Bool) (s : State) : State :=
  match bytes with
  | [] => s
  | first :: rest => if first = readCode then s.endRead rest.length else s.takeWrite first bytes cut

/-- A whole SPI transaction of these bits (R171): empty, a read, or a write. -/
def State.transaction (bits : List Bool) (s : State) : State := s.transfer bits State.takeBytes

/-- BAD_FRAME (R174): a write transaction whose frame is bad. -/
def execBadFrame (dt : Nat) (bytes : List Byte) (rest : List Bool) (s : State) : Host.Outcome State Fault Refusal :=
  .next ((s.advance dt).transaction (wireBits bytes ++ rest))

/-- OVERLAP (R174): a write transaction while EXECUTING. -/
def execOverlap (dt : Nat) (bytes : List Byte) (rest : List Bool) (s : State) : Host.Outcome State Fault Refusal :=
  .next ((s.advance dt).transaction (wireBits bytes ++ rest))

/-- UNKNOWN_REQUEST (R176): a good frame with a code; one that names no request is answered UNKNOWN_REQUEST. -/
def execUnknownRequest (dt : Nat) (code : Byte) (body : List Byte) (s : State) : Host.Outcome State Fault Refusal :=
  .next ((s.advance dt).transaction (wireBits (requestBytes code body)))

/-- The response that has been formed goes into hold (R176). -/
def State.holdResponse (s : State) : State :=
  match s.port.state, s.port.forming with
  | .executing, some r =>
    s.modPort (fun p =>
      { p with state := .responseHeld, held := some { r with overlap := p.overlapMark }, forming := none, overlapMark := false })
  | _, _ => s

/-- RESPONSE_FORMED (R176): the response goes into hold with the overlap flag copied from the mark, which is cleared. -/
def execResponseFormed (dt : Nat) (s : State) : Host.Outcome State Fault Refusal :=
  .next ((s.advance dt).holdResponse)

/-- RESPONSE_READ (R175): the read code, and then `clocked` bits, of which the port ignores what the host sends. -/
def execResponseRead (dt : Nat) (clocked : Nat) (s : State) : Host.Outcome State Fault Refusal :=
  .next ((s.advance dt).transfer (msbFirst readCode ++ List.replicate clocked false)
    (fun bytes _ => State.endRead (bytes.length - 1)))

end Sys2Proof.Machine
end

