-- ==== Sys2Proof/Machine/Dispatch.lean ====
section
/-! DEFINITION. Every command's meaning, one arm per constructor. -/

namespace Sys2Proof.Machine

open Sys2Proof

/-- A command's effect on everything but the queue. -/
def exec (i : Instr) (s : State) : Host.Outcome State Fault Refusal :=
  match i with
  | .hardReset csLow => Sys2Proof.Machine.execHardReset csLow s
  | .ppsEdge ch dt => Sys2Proof.Machine.execPpsEdge ch dt s
  | .todMessage ch dt levels => Sys2Proof.Machine.execTodMessage ch dt levels s
  | .todGapTimeout ch => Sys2Proof.Machine.execTodGapTimeout ch s
  | .lossDeadlineExpiry ch => Sys2Proof.Machine.execLossDeadlineExpiry ch s
  | .localSecondStart => Sys2Proof.Machine.execLocalSecondStart s
  | .secondTick => Sys2Proof.Machine.execSecondTick s
  | .rackSweep rack => Sys2Proof.Machine.execRackSweep rack s
  | .periodElapsed line => Sys2Proof.Machine.execPeriodElapsed line s
  | .pollSent line => Sys2Proof.Machine.execPollSent line s
  | .replyHandoff line dt levels => Sys2Proof.Machine.execReplyHandoff line dt levels s
  | .pollingFrameFailed line dt levels => Sys2Proof.Machine.execPollingFrameFailed line dt levels s
  | .replyWindowEnd line => Sys2Proof.Machine.execReplyWindowEnd line s
  | .closeSent line => Sys2Proof.Machine.execCloseSent line s
  | .discoverSent line => Sys2Proof.Machine.execDiscoverSent line s
  | .announce line dt levels => Sys2Proof.Machine.execAnnounce line dt levels s
  | .discoveryCollision line dt levels => Sys2Proof.Machine.execDiscoveryCollision line dt levels s
  | .discoveryWindowEnd line => Sys2Proof.Machine.execDiscoveryWindowEnd line s
  | .frameGapTimeout line => Sys2Proof.Machine.execFrameGapTimeout line s
  | .strayCharacter line dt levels => Sys2Proof.Machine.execStrayCharacter line dt levels s
  | .lineFault line stretch => Sys2Proof.Machine.execLineFault line stretch s
  | .lineRecovery line dt => Sys2Proof.Machine.execLineRecovery line dt s
  | .badFrame dt bytes rest => Sys2Proof.Machine.execBadFrame dt bytes rest s
  | .overlap dt bytes rest => Sys2Proof.Machine.execOverlap dt bytes rest s
  | .unknownRequest dt code body => Sys2Proof.Machine.execUnknownRequest dt code body s
  | .responseFormed dt => Sys2Proof.Machine.execResponseFormed dt s
  | .responseRead dt clocked => Sys2Proof.Machine.execResponseRead dt clocked s
  | .refConfig dt body => Sys2Proof.Machine.execRefConfig dt body s
  | .setTime dt body => Sys2Proof.Machine.execSetTime dt body s
  | .readTime dt body => Sys2Proof.Machine.execReadTime dt body s
  | .lineConfig dt body => Sys2Proof.Machine.execLineConfig dt body s
  | .lineQuiesce dt body => Sys2Proof.Machine.execLineQuiesce dt body s
  | .lineResume dt body => Sys2Proof.Machine.execLineResume dt body s
  | .lineReset dt body => Sys2Proof.Machine.execLineReset dt body s
  | .enroll dt body => Sys2Proof.Machine.execEnroll dt body s
  | .lookup dt body => Sys2Proof.Machine.execLookup dt body s
  | .amend dt body => Sys2Proof.Machine.execAmend dt body s
  | .suspend dt body => Sys2Proof.Machine.execSuspend dt body s
  | .resume dt body => Sys2Proof.Machine.execResume dt body s
  | .retire dt body => Sys2Proof.Machine.execRetire dt body s
  | .scan dt body => Sys2Proof.Machine.execScan dt body s
  | .newcomers dt body => Sys2Proof.Machine.execNewcomers dt body s
  | .dismiss dt body => Sys2Proof.Machine.execDismiss dt body s
  | .domainOpen dt body => Sys2Proof.Machine.execDomainOpen dt body s
  | .domainAmend dt body => Sys2Proof.Machine.execDomainAmend dt body s
  | .domainFreeze dt body => Sys2Proof.Machine.execDomainFreeze dt body s
  | .domainThaw dt body => Sys2Proof.Machine.execDomainThaw dt body s
  | .domainRetire dt body => Sys2Proof.Machine.execDomainRetire dt body s
  | .domainLookup dt body => Sys2Proof.Machine.execDomainLookup dt body s
  | .stamp dt body => Sys2Proof.Machine.execStamp dt body s
  | .rackConfig dt body => Sys2Proof.Machine.execRackConfig dt body s
  | .rackLookup dt body => Sys2Proof.Machine.execRackLookup dt body s
  | .rackClear dt body => Sys2Proof.Machine.execRackClear dt body s
  | .rackRebase dt body => Sys2Proof.Machine.execRackRebase dt body s
  | .status dt body => Sys2Proof.Machine.execStatus dt body s
  | .ack dt body => Sys2Proof.Machine.execAck dt body s
  | .mask dt body => Sys2Proof.Machine.execMask dt body s
  | .restart dt body => Sys2Proof.Machine.execRestart dt body s
  | .recoveryWatchRestart line stretch => Sys2Proof.Machine.execRecoveryWatchRestart line stretch s

end Sys2Proof.Machine
end

