-- ==== Sys2Proof/Machine/Step.lean ====
section
/-! DEFINITION. One step of the part: the command at the front of the queue is taken. -/

namespace Sys2Proof.Machine

open Sys2Proof

/-- One step. On an empty queue the part idles (assumption 5). -/
def step (s : State) : Host.Outcome State Fault Refusal :=
  match s.pending with
  | [] => .next s
  | c :: rest => exec c { s with pending := rest }

/-- The state with a command put at the front of its queue. -/
def State.withCommand (c : Instr) (s : State) : State := { s with pending := c :: s.pending }

/-- The state with the command that a word spells at the front of its queue; unchanged where the word spells none. -/
def State.withFetchWord (s : State) (nbits w : Nat) : State :=
  match decodeTableWord nbits w with
  | some c => s.withCommand c
  | none => s

end Sys2Proof.Machine
end

