-- ==== Sys2Proof/Safety.lean ====
section
/-! DEFINITION. What the spec says holds of the part at every moment, in the terms the statements use: the invariants that
its rules state, and the ranges of its fields. -/

namespace Sys2Proof

/-- What the receiver does once it has completed a character (R27): after a framing error it waits for the idle level. -/
def RxChar.after (c : RxChar) : Machine.Receiver := if c.framing then .held else .waiting

end Sys2Proof

namespace Sys2Proof.Machine

open Sys2Proof

/-- A row time that the part can hold (R8): seconds 0 to 2^48 - 1 and nanoseconds 0 to 999,999,999. -/
def RowTime.inRange (t : RowTime) : Prop := t.sec < secMod ∧ t.ns < second

/-- ROWCLK's fields lie in the ranges of R8. -/
structure RowClock.InRange (c : RowClock) : Prop where
  row : RowTime.inRange c.row
  integral : c.integral.natAbs ≤ 100000
  applied : c.applied.natAbs ≤ 100000
  next : c.next.natAbs ≤ 100000
  floor : 20 ≤ c.u
  cap : c.u ≤ 4294967295
  stepCount : c.stepCount ≤ 4
  lockCount : c.lockCount ≤ 8
  stepLimit : 100 ≤ c.stepLimit ∧ c.stepLimit ≤ 1000000
  holdRate : 1 ≤ c.holdRate ∧ c.holdRate ≤ 10000

/-- A channel's good-second count lies in its range and is 4 while the channel is QUALIFIED (R1, R4); the channel is DISABLED
exactly while its enable flag is off, and no loss deadline runs then (R5, R23). -/
structure RefChannel.InRange (c : RefChannel) : Prop where
  good : c.good ≤ 4
  qualified : c.state = .qualified → c.good = 4
  disabled : c.state = .disabled ↔ c.enable = false
  quiet : c.enable = false → c.lossDeadline = none

/-- The row clock and the two channels lie in their ranges. -/
structure State.ClockInRange (s : State) : Prop where
  clk : s.clk.InRange
  chanA : s.chanA.InRange
  chanB : s.chanB.InRange

/-- In FREERUN and HOLDOVER no reference is selected and no channel is QUALIFIED; in ACQUIRING and LOCKED the selected
reference names a channel that is QUALIFIED (R8). -/
structure State.RefHeld (s : State) : Prop where
  resting : s.clk.state = .freerun ∨ s.clk.state = .holdover →
    s.clk.selected = none ∧ s.qualified .a = false ∧ s.qualified .b = false
  running : s.clk.state = .acquiring ∨ s.clk.state = .locked → ∃ ch, s.clk.selected = some ch ∧ s.qualified ch = true

/-- For every record, the commanded sequence equals the acknowledged sequence or is one greater modulo 16 (R97). -/
def State.SequencesClose (s : State) : Prop := ∀ r ∈ s.records, r.cmdSeq = r.ackSeq ∨ r.cmdSeq = r.ackSeq + 1

/-- The records stand by rising slot, so no two records share a slot; every slot is 0 to 511 (R67, R68). -/
def State.SlotsRise (s : State) : Prop := s.records.Pairwise (fun a b => a.slot < b.slot) ∧ ∀ r ∈ s.records, r.slot ≤ 511

/-- No two records share a line and an address (R68). -/
def State.KeysDiffer (s : State) : Prop := s.records.Pairwise (fun a b => ¬(a.line = b.line ∧ a.addr = b.addr))

/-- The newcomer set holds at most 16 entries, no key twice, and none of a key that a record holds (R93). -/
def State.NewcomersApart (s : State) : Prop :=
  s.newcomers.length ≤ 16 ∧ s.newcomers.Pairwise (fun a b => ¬(a.line = b.line ∧ a.addr = b.addr)) ∧
    ∀ n ∈ s.newcomers, ∀ r ∈ s.records, ¬(r.line = n.line ∧ r.addr = n.addr)

/-- The number of records on line `i` in state `st`. -/
def State.countOf (s : State) (i : Fin 12) (st : RecState) : Nat :=
  (s.records.filter (fun r => r.line == i && r.state == st)).length

/-- Each rack's member counts equal the numbers of records on its line in each state (R152). -/
def State.CountsAgree (s : State) : Prop := ∀ i st, (s.rack i).members.get st = s.countOf i st

/-- Each rack's walk counter lies strictly between minus and plus its walk limit (R152). -/
def State.WalkInside (s : State) : Prop := ∀ i, (s.rack i).walk.natAbs < (s.rack i).walkLimit

/-- At most one domain per domain id (R115). -/
def State.IdsDiffer (s : State) : Prop := s.domains.Pairwise (fun a b => a.id ≠ b.id)

/-- A domain whose fence mode is FREEZE_DOMAIN is not OPEN while any of its member racks is in ALARM (R121). -/
def State.FenceHolds (s : State) : Prop :=
  ∀ d ∈ s.domains, d.fence = .freezeDomain → d.state = .opened →
    ∀ i : Fin 12, d.members.getLsbD i = true → s.inAlarm i = false

/-- The record's pending grant is a grant of the domain `id` (R119). -/
def Endpoint.holdsGrant (id : Byte) (r : Endpoint) : Bool :=
  match r.answer with
  | some (.grant g) => g.domain == id
  | some (.refusal _ _) => false
  | none => false

/-- For every domain, its pending-delivery count equals the number of records whose pending grant names it (R119). -/
def State.DeliveriesAgree (s : State) : Prop :=
  ∀ d ∈ s.domains, d.pendingDel = (s.records.filter (Endpoint.holdsGrant d.id)).length

/-- What lies behind R119, on every line: a transaction in flight is the subject record's own, on a line in POLLING or CLOSING
(R53, R63, R71); the entries still to be served are records of the line (R46, R49, R51); a line out of its cycle has none
(R32, R36, R37); and the recovery watch runs in FAULT alone (R34). -/
structure State.SubjectHeld (s : State) (i : Fin 12) : Prop where
  subject : ∀ x, (s.line i).transaction = some x → ((s.line i).state = .polling ∨ (s.line i).state = .closing) ∧
    (s.line i).phase ≠ .done ∧ ∃ r ∈ s.records, r.slot = x.slot ∧ r.line = i ∧ r.inTxn = true
  entries : ∀ n, n ∈ (s.line i).pollList.drop (s.line i).pollPos ∨ n ∈ (s.line i).urgent →
    ∃ r ∈ s.records, r.slot = n ∧ r.line = i
  resting : (s.line i).state = .off ∨ (s.line i).state = .quiesced ∨ (s.line i).state = .fault → (s.line i).pollList = []
  recovery : (s.line i).recoveryWatch ≠ none → (s.line i).state = .fault

/-- A record holds a pending grant only while it is the subject of a transaction whose line is in CLOSING, and a grant names
a domain in the table (R71, R119, R143). -/
structure State.AnswersHeld (s : State) : Prop where
  closing : ∀ r ∈ s.records, r.answer ≠ none →
    r.inTxn = true ∧ (s.line r.line).state = .closing ∧ (s.line r.line).transaction.map Transaction.slot = some r.slot
  named : ∀ r ∈ s.records, ∀ g, r.answer = some (.grant g) → ∃ d ∈ s.domains, d.id = g.domain

/-- The port holds a response exactly in RESPONSE_HELD, and one is being formed exactly in EXECUTING (R173, R176). Between two
commands no transaction that is taken is under way, and data out is at high impedance (R171); chip select is then low only in
the transaction that a reset found under way (R184). -/
def State.PortHolds (s : State) : Prop :=
  (s.port.state = .responseHeld ↔ s.port.held.isSome = true) ∧
  (s.port.state = .executing ↔ s.port.forming.isSome = true) ∧
  s.port.link = { Link.idle with low := s.port.ignoring }

/-! ### What the statements about one command speak of -/

/-- The port takes a frame: no transaction under way is ignored, and the port is not EXECUTING (R174, R184). -/
structure State.TakesFrames (s : State) : Prop where
  heeded : s.port.ignoring = false
  waiting : s.port.state ≠ .executing

/-- A transaction of `bits` bits is over: data out carried `out` from its second byte on, with a fill byte beside the first and
fill bytes after `out`, each byte the most significant bit first, and is at high impedance again (R171). -/
def State.drive (out : List Byte) (bits : Nat) (s : State) : State :=
  { s with
    port := { s.port with
      dataOut := (List.range bits).map (fun m => (carriedByte s.freeCount out (m / 8)).getMsbD (m % 8))
      link := Link.idle }
    freeCount := s.freeCount + bits / 8 + 1 }

/-- The part at the acceptance of a frame with `n` body bytes, `dt` ns after the last command: time has passed, data out
carries fill bytes, and the port has entered EXECUTING with no response held and the overlap mark clear (R171, R174). -/
def State.accepting (dt n : Nat) (s : State) : State := ((s.advance dt).drive [] (8 * (n + 4))).enterExecuting

/-- The port has this response to form, and nothing else is changed (R176, R177). -/
def State.answering (code : Byte) (st : Status) (body : List Byte) (s : State) : State :=
  s.modPort (fun p => { p with forming := some ⟨code, st, false, body⟩ })

/-- The request that a command carries: its code, the body lengths it allows (10.5), the time before it, and its body. -/
def Instr.asRequest : Instr → Option (Byte × List Nat × Nat × List Byte)
  | .refConfig dt body => some (0x10, [9], dt, body)
  | .setTime dt body => some (0x11, [6], dt, body)
  | .readTime dt body => some (0x12, [0], dt, body)
  | .lineConfig dt body => some (0x18, [22], dt, body)
  | .lineQuiesce dt body => some (0x19, [1], dt, body)
  | .lineResume dt body => some (0x1A, [1], dt, body)
  | .lineReset dt body => some (0x1B, [1], dt, body)
  | .enroll dt body => some (0x20, [16], dt, body)
  | .lookup dt body => some (0x21, [3], dt, body)
  | .amend dt body => some (0x22, [14], dt, body)
  | .suspend dt body => some (0x23, [3], dt, body)
  | .resume dt body => some (0x24, [3], dt, body)
  | .retire dt body => some (0x25, [3], dt, body)
  | .scan dt body => some (0x28, [4], dt, body)
  | .newcomers dt body => some (0x29, [0], dt, body)
  | .dismiss dt body => some (0x2A, [2], dt, body)
  | .domainOpen dt body => some (0x30, [8], dt, body)
  | .domainAmend dt body => some (0x31, [9], dt, body)
  | .domainFreeze dt body => some (0x32, [1], dt, body)
  | .domainThaw dt body => some (0x33, [1], dt, body)
  | .domainRetire dt body => some (0x34, [1], dt, body)
  | .domainLookup dt body => some (0x35, [1], dt, body)
  | .stamp dt body => some (0x38, [2], dt, body)
  | .rackConfig dt body => some (0x40, [26], dt, body)
  | .rackLookup dt body => some (0x41, [1], dt, body)
  | .rackClear dt body => some (0x42, [1], dt, body)
  | .rackRebase dt body => some (0x43, [1], dt, body)
  | .status dt body => some (0x48, [0, 1], dt, body)
  | .ack dt body => some (0x49, [1], dt, body)
  | .mask dt body => some (0x4A, [1], dt, body)
  | .restart dt body => some (0x4B, [0], dt, body)
  | _ => none

/-- What a cycle start leaves of its line: the cycle number has advanced, the configured period has been taken and its timer
started, the elapsed and overrun marks are clear, and the line is idle or has begun to send (R43). -/
structure Line.CycleBegun (now : Nat) (old new : Line) : Prop where
  cycle : new.cycle = old.cycle + 1
  period : new.period = old.cfgPeriod
  timer : new.periodEnd = some (now + old.cfgPeriod * 1000000)
  marks : new.periodElapsed = false ∧ new.overrun = false
  state : new.state = .idle ∨ new.state = .polling ∨ new.state = .discovering
  enable : new.enable = old.enable
  quiesce : new.quiesceReq = old.quiesceReq
  counters : new.counters = old.counters
  watches : new.faultWatch = old.faultWatch ∧ new.recoveryWatch = old.recoveryWatch
  config : new.cfgRate = old.cfgRate ∧ new.cfgPeriod = old.cfgPeriod ∧ new.replyWindow = old.replyWindow ∧
    new.discEnable = old.discEnable ∧ new.discWindow = old.discWindow ∧ new.missLimit = old.missLimit ∧
    new.delayLimit = old.delayLimit ∧ new.asymAllow = old.asymAllow ∧ new.driftAllow = old.driftAllow

/-- Nothing but lines, and the in-transaction marks and cycle base classes of records, differs (R43, R44, R53). -/
structure State.CycleKept (s t : State) : Prop where
  now : t.localNs = s.localNs ∧ t.due = s.due
  chans : t.chanA = s.chanA ∧ t.chanB = s.chanB
  clk : t.clk = s.clk
  records : s.SlotsRise → t.records.map (fun r => { r with inTxn := false, cycleClass := 0 }) =
    s.records.map (fun r => { r with inTxn := false, cycleClass := 0 })
  newcomers : t.newcomers = s.newcomers ∧ t.overflow = s.overflow
  domains : t.domains = s.domains
  racks : t.racks = s.racks
  port : t.port = s.port
  queue : t.pending = s.pending ∧ t.freeCount = s.freeCount

/-- What a transaction's start takes on its line, in order (R51, R53): its record's slot leaves the urgent queue, the
transaction number advances, the configured bit rate is taken, the record is the subject with the reply window in force, and
a POLL to its address with the new number is sent, five characters of eleven bit times. The line notes what it had before, which
is the model's own field (assumption 43). -/
structure Line.PollBegun (now : Nat) (r : Endpoint) (old new : Line) : Prop where
  urgent : new.urgent = old.urgent.filter (fun n => n != r.slot)
  number : new.txNumber = old.txNumber + 1
  rate : new.rate = old.cfgRate
  subject : new.transaction = some ⟨r.slot, old.replyWindow, false⟩
  frame : new.tx = some ⟨[BitVec.ofNat 8 r.addr, 0x31, 5, old.txNumber + 1, crc8 [0x31, 5, old.txNumber + 1]],
    old.sendStart now, old.sendStart now + 5 * (11 * old.cfgRate.bitNs)⟩
  state : new.state = .polling
  closed : new.rxOpen = false ∧ new.rx = [] ∧ new.windowEnd = none
  noted : new.begun = some ⟨now, old.txNumber, old.rate, old.urgent⟩

/-- Line `i` begins a transaction with record `r` (R53): t1 and the epoch at t1 are captured at the leading edge of the POLL's
first start bit, now or when that edge comes (R20). -/
structure State.PollStarts (i : Fin 12) (r : Endpoint) (s t : State) : Prop where
  line : Line.PollBegun s.localNs r (s.line i) (t.line i)
  atOnce : (s.line i).sendStart s.localNs ≤ s.localNs → t.latches[i] = ⟨none, ⟨s.clk.row, s.clk.epoch⟩⟩
  later : s.localNs < (s.line i).sendStart s.localNs → t.latches[i].due = some ((s.line i).sendStart s.localNs)

/-- A record after a row step (R81, R108, R109); `assembled`: the CLOSE that carries its correction to send is assembled. -/
def Endpoint.atRowStep (assembled : Bool) (r : Endpoint) : Endpoint :=
  { r with
    window := [], ackSeq := r.cmdSeq
    unack := if r.ackSeq = r.cmdSeq then r.unack else 0
    toSend := if r.ackSeq = r.cmdSeq ∨ assembled = true then r.toSend else none
    state := if r.state = .tracking ∨ r.state = .suspect then .enrolling else r.state
    goodCount := if r.state = .tracking ∨ r.state = .suspect ∨ r.state = .enrolling then 0 else r.goodCount }

/-- The effective class that a pollable record has at a cycle start with this boost condition (R44): that of its state, and
for a TRACKING record of an unboosted rack its base class, which the cycle start takes. -/
def Endpoint.startClass (boost : Bool) (r : Endpoint) : Nat :=
  match r.state with
  | .enrolling => 0
  | .suspect => 0
  | .lost => 3
  | .tracking => if boost then 0 else r.baseClass
  | .suspended => 0
  | .retiring => 0

/-- The record is polled in a cycle of this number and boost condition (R45). -/
def Endpoint.DueIn (i : Fin 12) (cycle : BitVec 32) (boost : Bool) (r : Endpoint) : Prop :=
  r.line = i ∧ r.pollable = true ∧ (cycle.toNat + r.addr) % 2 ^ r.startClass boost = 0

/-- The discovery phase begins (R64): the line takes the configured bit rate and the discovery window's length, and sends a
DISCOVER with the length in units of 100 us; its urgent queue and transaction number stay. The line notes what it had before,
which is the model's own field (assumption 43). -/
structure Line.DiscoverBegun (now : Nat) (old new : Line) : Prop where
  state : new.state = .discovering ∧ new.phase = .discovery
  rate : new.rate = old.cfgRate
  length : new.discLength = old.discWindow
  frame : new.tx = some ⟨[0, 0x34, 5, BitVec.ofNat 8 (old.discWindow / 100),
      crc8 [0x34, 5, BitVec.ofNat 8 (old.discWindow / 100)]],
    old.sendStart now, old.sendStart now + 5 * (11 * old.cfgRate.bitNs)⟩
  closed : new.rxOpen = false ∧ new.rx = [] ∧ new.windowEnd = none
  queue : new.urgent = old.urgent ∧ new.txNumber = old.txNumber
  noted : new.begun = some ⟨now, old.txNumber, old.rate, old.urgent⟩

/-- A cycle starts on line `i` (R43): the cycle's values and poll list are taken (R44, R45, R164), and the list phase begins
(R46). With an empty list the urgent phase begins at once, then the discovery phase (R48, R52, R64). -/
structure State.CycleStarts (i : Fin 12) (s t : State) : Prop where
  line : Line.CycleBegun s.localNs (s.line i) (t.line i)
  kept : s.CycleKept t
  other : ∀ j, j ≠ i → t.line j = s.line j ∧ t.latches[j] = s.latches[j]
  boost : (t.line i).boost = true ↔
    (s.rack i).boost = true ∧ ((s.rack i).watch = .warn ∨ (s.rack i).watch = .alarm)
  records : s.SlotsRise → t.records = s.records.map (fun r => { r with
    cycleClass := if r.line = i then r.baseClass else r.cycleClass
    inTxn := r.inTxn || ((t.line i).state == .polling && (t.line i).transaction.map Transaction.slot == some r.slot) })
  list : ∃ rs : List Endpoint, (t.line i).pollList = rs.map Endpoint.slot ∧
    rs.Pairwise (fun a b => a.addr ≤ b.addr) ∧ (s.KeysDiffer → rs.Pairwise (fun a b => a.addr < b.addr)) ∧
    ∀ r, r ∈ rs ↔ r ∈ s.records ∧ r.DueIn i (t.line i).cycle (t.line i).boost
  polls : ∀ r ∈ s.records, s.SlotsRise → (t.line i).pollList.head? = some r.slot →
    s.PollStarts i r t ∧ (t.line i).phase = .list ∧ (t.line i).pollPos = 1
  urgent : ∀ r ∈ s.records, s.SlotsRise → (t.line i).pollList = [] → (s.line i).urgent.head? = some r.slot →
    r.pollable = true → s.PollStarts i r t ∧ (t.line i).phase = .urgent ∧ (t.line i).pollPos = 0
  discovers : (t.line i).pollList = [] → (s.line i).urgent = [] → (s.line i).discEnable = true →
    Line.DiscoverBegun s.localNs (s.line i) (t.line i)
  queue : (t.line i).state ≠ .polling → (t.line i).urgent = (s.line i).urgent
  rests : (t.line i).pollList = [] → (s.line i).urgent = [] → (s.line i).discEnable = false →
    (t.line i).state = .idle ∧ (t.line i).phase = .done ∧ (t.line i).rate = (s.line i).rate

/-! ### How a line goes on after a transaction (R46, R47, R48, R52) -/

/-- What the going on of a cycle, from one transaction to the next frame or to rest, leaves of its line. -/
structure Line.GoneOn (old new : Line) : Prop where
  cycle : new.cycle = old.cycle
  period : new.period = old.period
  list : new.pollList = old.pollList
  timer : new.periodEnd = old.periodEnd
  marks : new.periodElapsed = old.periodElapsed ∧ new.overrun = old.overrun
  state : new.state = .idle ∨ new.state = .polling ∨ new.state = .discovering ∨ new.state = old.state
  enable : new.enable = old.enable
  quiesce : new.quiesceReq = old.quiesceReq
  counters : new.counters = old.counters
  watches : new.faultWatch = old.faultWatch ∧ new.recoveryWatch = old.recoveryWatch
  config : new.cfgRate = old.cfgRate ∧ new.cfgPeriod = old.cfgPeriod ∧ new.replyWindow = old.replyWindow ∧
    new.discEnable = old.discEnable ∧ new.discWindow = old.discWindow ∧ new.missLimit = old.missLimit ∧
    new.delayLimit = old.delayLimit ∧ new.asymAllow = old.asymAllow ∧ new.driftAllow = old.driftAllow

/-- None of these slots holds a pollable record (R46, R52). -/
def State.NonePollable (s : State) (slots : List Nat) : Prop :=
  ∀ n ∈ slots, ∀ r, s.bySlot n = some r → r.pollable = false

/-- The record `r` is the first pollable one of these slots, its slot the `k`th (R46, R52). -/
structure State.FirstOf (s : State) (slots : List Nat) (k : Nat) (r : Endpoint) : Prop where
  found : s.bySlot r.slot = some r
  pollable : r.pollable = true
  first : ∃ before after, slots = before ++ r.slot :: after ∧ s.NonePollable before ∧ k = before.length + 1

/-- The entries of the poll list that have not been reached (R46). -/
def Line.unreached (l : Line) : List Nat := l.pollList.drop l.pollPos

/-- The line goes on by a transaction with record `r` (R46, R52, R53): nothing but the line, its t1 and the record's
in-transaction mark differs. -/
structure State.PollsNext (i : Fin 12) (r : Endpoint) (s t : State) : Prop where
  starts : s.PollStarts i r t
  line : Line.GoneOn (s.line i) (t.line i)
  records : s.SlotsRise → t.records = s.records.map (fun q => { q with inTxn := q.inTxn || q.slot == r.slot })

/-- The list phase is over and the urgent phase's check is made: an overrun cycle has no urgent phase (R47, R52). -/
def State.UrgentCheck (s : State) (i : Fin 12) : Prop :=
  (s.line i).phase = .urgent ∨
    (s.line i).phase = .list ∧ s.NonePollable (s.line i).unreached ∧ (s.line i).overrun = false

/-- Line `i`, which stands between transactions, goes on: with the next entry of its list (R46); in an overrun cycle whose
list is finished, with the next cycle (R47); in the urgent phase with the next cycle once the period has elapsed, else with
the first pollable record of its urgent queue, or with the discovery phase, or it rests (R48, R52, R64). -/
structure State.GoesOn (i : Fin 12) (s t : State) : Prop where
  kept : s.CycleKept t
  other : ∀ j, j ≠ i → t.line j = s.line j ∧ t.latches[j] = s.latches[j]
  lists : ∀ k r, (s.line i).phase = .list → s.FirstOf (s.line i).unreached k r →
    s.PollsNext i r t ∧ (t.line i).phase = .list ∧ (t.line i).pollPos = (s.line i).pollPos + k
  overran : (s.line i).phase = .list → s.NonePollable (s.line i).unreached → (s.line i).overrun = true → s.CycleStarts i t
  elapsed : s.UrgentCheck i → (s.line i).periodElapsed = true → s.CycleStarts i t
  urgent : ∀ k r, s.UrgentCheck i → (s.line i).periodElapsed = false → s.FirstOf (s.line i).urgent k r →
    s.PollsNext i r t ∧ (t.line i).phase = .urgent
  discovers : s.UrgentCheck i → (s.line i).periodElapsed = false → s.NonePollable (s.line i).urgent →
    (s.line i).discEnable = true → (s.line i).overrun = false →
    Line.DiscoverBegun s.localNs (s.line i) (t.line i) ∧ Line.GoneOn (s.line i) (t.line i) ∧ t.records = s.records
  rests : s.UrgentCheck i → (s.line i).periodElapsed = false → s.NonePollable (s.line i).urgent →
    (s.line i).discEnable = false ∨ (s.line i).overrun = true →
    t = s.modLine i (fun l => { l with phase := .done, state := .idle, pollPos := (t.line i).pollPos })

/-! ### What the end of a transaction does (R31, R63, R71, R90, R102, R144, R145) -/

/-- Member counts at a record's change of state, or at its removal where `new` is none: the old state's count falls by 1 and
the new one's advances; no other field of a rack changes (R69, R152). -/
def State.MembersMoved (line : Fin 12) (old : RecState) (new : Option RecState) (s t : State) : Prop :=
  ∀ j, t.rack j = { s.rack j with members := (t.rack j).members } ∧ ∀ st, (t.rack j).members.get st =
    if j = line ∧ new ≠ some old then
      (if st = old then (s.rack j).members.get st - 1
        else if new = some st then (s.rack j).members.get st + 1 else (s.rack j).members.get st)
    else (s.rack j).members.get st

/-- The subject record after its transaction's end, where it stays in the table: a SUSPEND that was pending is completed (R90),
and the correction to send is settled (R102): gone after a CLOSE, kept at a MISS, withdrawn by an abandonment. -/
def Endpoint.atEnd (how : TxnEnd) (r : Endpoint) : Endpoint :=
  { r with
    inTxn := false, answer := none, withdrawal := .no
    state := if r.withdrawal = .suspend then .suspended else r.state
    toSend := if how = .missed then r.toSend else none
    ackSeq := if how = .abandoned ∧ r.toSend ≠ none then r.cmdSeq else r.ackSeq
    unack := if how = .abandoned ∧ r.toSend ≠ none ∧ r.ackSeq ≠ r.cmdSeq then 0 else r.unack }

/-- The transaction `x` of line `i`, with subject record `r`, ends: the record is settled, or removed where a RETIRE was
pending, its slot then leaving the line's lists (R63, R69, R71, R90, R102), and a grant it held is settled with its domain,
its stamps burned by an abandonment (R144, R145); a RETIRING domain goes with its last pending delivery (R128). -/
structure State.TxnEnds (i : Fin 12) (how : TxnEnd) (x : Transaction) (r : Endpoint) (s t : State) : Prop where
  rest : t = { s with lines := t.lines, records := t.records, domains := t.domains, racks := t.racks }
  line : t.line i = { s.line i with
    transaction := none, rx := [], rxOpen := false, windowEnd := none, windowElapsed := false
    pollList := if r.withdrawal = .retire
      then (s.line i).pollList.take (s.line i).pollPos ++ (s.line i).unreached.filter (fun n => n != x.slot)
      else (s.line i).pollList
    urgent := if r.withdrawal = .retire then (s.line i).urgent.filter (fun n => n != x.slot) else (s.line i).urgent }
  other : ∀ j, j ≠ i → t.line j = s.line j
  removed : r.withdrawal = .retire → t.records = s.records.filter (fun q => q.slot != x.slot)
  settled : r.withdrawal ≠ .retire → t.records = s.records.map (fun q => if q.slot = x.slot then r.atEnd how else q)
  members : s.MembersMoved i r.state (if r.withdrawal = .retire then none else some (r.atEnd how).state) t
  ungranted : (∀ g, r.answer ≠ some (.grant g)) → t.domains = s.domains
  granted : ∀ g d, r.answer = some (.grant g) → s.domain g.domain = some d →
    t.domain g.domain = if d.state = .retiring ∧ d.pendingDel ≤ 1 then none
      else some { d with
        pendingDel := d.pendingDel - 1
        burned := if how = .abandoned then min 4294967295 (d.burned + g.count) else d.burned }
  others : ∀ id, (∀ g, r.answer = some (.grant g) → g.domain ≠ id) → t.domain id = s.domain id

/-- A record after a MISS, against the line's miss limit (R77). A good count of 0 for an ENROLLING record whose SUSPEND is pending
is the model's reading (assumption 17). -/
structure Endpoint.Missed (limit : Nat) (r m : Endpoint) : Prop where
  lost : r.withdrawal = .no → r.state = .enrolling ∨ r.state = .tracking ∨ r.state = .suspect →
    limit ≤ min 15 (r.missCount + 1) →
    m = { r with
      missCount := min 15 (r.missCount + 1), missTotal := min 65535 (r.missTotal + 1), state := .lost, goodCount := 0 }
  kept : ¬(r.withdrawal = .no ∧ (r.state = .enrolling ∨ r.state = .tracking ∨ r.state = .suspect) ∧
      limit ≤ min 15 (r.missCount + 1)) →
    m = { r with
      missCount := min 15 (r.missCount + 1), missTotal := min 65535 (r.missTotal + 1)
      state := if r.withdrawal = .no ∧ r.state = .tracking then .suspect else r.state
      goodCount := if r.state = .enrolling then 0 else r.goodCount }

/-- The transaction of line `i` ends as a MISS, now: the line counts it, EPT takes the miss rule, LOST is raised when the miss
limit takes the record to LOST, and the transaction ends (R55, R63, R77); then the line is QUIESCED if that was asked for (R38),
and else goes on with its cycle (R46, R47, R48, R52). -/
def State.Misses (i : Fin 12) (s t : State) : Prop :=
  ∀ x r, (s.line i).transaction = some x → s.bySlot x.slot = some r → r.line = i → ∃ (m : Endpoint) (v w : State),
    r.Missed (s.line i).missLimit m ∧
    v = { s.modLine i (fun l => { l with
            counters := { l.counters with misses := min 65535 (l.counters.misses + 1) } }) with
          records := s.records.map (fun q => if q.slot = x.slot then m else q), racks := v.racks, port := v.port } ∧
    s.MembersMoved i r.state (some m.state) v ∧
    (m.state = .lost ∧ r.state ≠ .lost → v.port = (s.raise .lost).port) ∧
    (¬(m.state = .lost ∧ r.state ≠ .lost) → v.port = s.port) ∧
    v.TxnEnds i .missed x m w ∧
    ((s.line i).quiesceReq = true → t = w.modLine i (fun l => { l with
      pollList := [], pollPos := 0, phase := .stopped, periodEnd := none, periodElapsed := false, overrun := false,
      state := .quiesced, quiesceReq := false })) ∧
    ((s.line i).quiesceReq = false → (w.modLine i (fun l => { l with state := .idle })).GoesOn i t)

/-- The discovery window of line `i` ends, now: the receiver closes, and the line is QUIESCED if that was asked for (R38); else it
is IDLE for the rest of the cycle, or starts the next cycle if the period has elapsed (R48, R66). -/
structure State.DiscoveryEnds (i : Fin 12) (s t : State) : Prop where
  quiesced : (s.line i).quiesceReq = true → t = s.modLine i (fun l => { l with
    rx := [], rxOpen := false, windowEnd := none, windowElapsed := false, pollList := [], pollPos := 0, phase := .stopped
    periodEnd := none, periodElapsed := false, overrun := false, state := .quiesced, quiesceReq := false })
  rests : (s.line i).quiesceReq = false → (s.line i).phase = .discovery → (s.line i).periodElapsed = false →
    t = s.modLine i (fun l => { l with
      rx := [], rxOpen := false, windowEnd := none, windowElapsed := false, state := .idle, phase := .done })
  next : (s.line i).quiesceReq = false → (s.line i).phase = .discovery → (s.line i).periodElapsed = true →
    (s.modLine i (fun l => { l with
      rx := [], rxOpen := false, windowEnd := none, windowElapsed := false, state := .idle, phase := .done })).CycleStarts i t

/-- The line's own part of an abandonment (R26, R31): the frame being sent is cut off, a frame in assembly is discarded and the
window is stopped. `tail` is what still goes out of a frame cut off. -/
def Line.silenced (tail : Option TxFrame) (l : Line) : Line :=
  { l with tx := none, tail := tail, rx := [], rxOpen := false, windowEnd := none, windowElapsed := false }

/-- What still goes out of a line's frame that is cut off at the local time `now` (R26): of one that is being sent, its characters
to the end of the one then in progress; else what stood before. That on the boundary of two characters the one that begins there is
in progress is the model's choice (assumption 47). -/
structure Line.CutOff (now : Nat) (l : Line) (tail : Option TxFrame) : Prop where
  cut : ∀ f, l.tx = some f → f.start ≤ now → now < f.finish → ∃ m,
    m = (now - f.start) / (11 * l.rate.bitNs) + 1 ∧
    tail = some ⟨f.bytes.take m, f.start, f.start + m * (11 * l.rate.bitNs)⟩
  uncut : (∀ f, l.tx = some f → now < f.start ∨ f.finish ≤ now) → tail = l.tail

/-- Abandonment on line `i` (R31): it falls silent after the character in progress (R26), and its transaction, if it has one,
ends abandoned. That a DISCOVER is cut off in the same way is the model's choice (assumption 19), and so is it that on the boundary
of two characters the one that begins there is completed (assumption 47). -/
structure State.Abandons (i : Fin 12) (s t : State) : Prop where
  idle : (s.line i).transaction = none → t = s.modLine i (Line.silenced (t.line i).tail)
  ends : ∀ x r, (s.line i).transaction = some x → s.bySlot x.slot = some r → r.line = i →
    (s.modLine i (Line.silenced (t.line i).tail)).TxnEnds i .abandoned x r t
  cut : (s.line i).CutOff s.localNs (t.line i).tail

/-! ### What RESTART does to a line (R41) -/

/-- A line after RESTART's actions on it, before it goes on from its state (R31, R41): it falls silent, its transaction is
gone, its urgent queue is empty and its cycle number is 0. `tail` is what still goes out of a frame cut off. -/
def Line.restarted (tail : Option TxFrame) (l : Line) : Line :=
  { l.silenced tail with transaction := none, urgent := [], cycle := 0 }

/-- A cycle start with nothing to poll, neither on the list nor in the urgent queue, and no boost condition (R43, R44, R48, R52): the
line runs its discovery phase, if discovery is enabled, and else is IDLE for the rest of the cycle. -/
structure Line.EmptyCycle (now : Nat) (old new : Line) : Prop where
  begun : Line.CycleBegun now old new
  discovers : old.discEnable = true → Line.DiscoverBegun now old new
  line : new = { old with
    cycle := old.cycle + 1, period := old.cfgPeriod, periodEnd := some (now + old.cfgPeriod * 1000000)
    periodElapsed := false, overrun := false, boost := false, pollList := [], pollPos := 0
    state := if old.discEnable = true then .discovering else .idle
    phase := if old.discEnable = true then .discovery else .done
    rate := if old.discEnable = true then old.cfgRate else old.rate
    discLength := if old.discEnable = true then old.discWindow else old.discLength
    tx := if old.discEnable = true then new.tx else old.tx
    begun := if old.discEnable = true then new.begun else old.begun }

/-! ### What a row step does to the member counts (R69, R81, R152) -/

/-- Every TRACKING and SUSPECT record of a rack's line has entered ENROLLING (R81), and the rack's member counts have followed
(R152). -/
def State.MembersAtStep (s t : State) : Prop :=
  ∀ i st, (t.rack i).members.get st = match st with
    | .enrolling => (s.rack i).members.enrolling + s.countOf i .tracking + s.countOf i .suspect
    | .tracking => (s.rack i).members.tracking - s.countOf i .tracking
    | .suspect => (s.rack i).members.suspect - s.countOf i .suspect
    | .lost => (s.rack i).members.lost
    | .suspended => (s.rack i).members.suspended
    | .retiring => (s.rack i).members.retiring

/-- What line `i` notes of its last start was noted at this very instant, and the start still stands: it is DISCOVERING, or it
is POLLING and its transaction's record has met no SUSPEND and no RETIRE, which would have found it in transaction (R53). -/
def State.BegunNow (i : Fin 12) (b : Begun) (s : State) : Prop :=
  (s.line i).begun = some b ∧ b.now = s.localNs ∧
    ((s.line i).state = .discovering ∨
      (s.line i).state = .polling ∧ ∃ x r, (s.line i).transaction = some x ∧ s.bySlot x.slot = some r ∧ r.withdrawal = .no)

/-- Line `i` as a line fault or a LINE_RESET finds it (R33, R40). A transaction or discovery phase of this very instant has not
begun: the line is IDLE, sends nothing, and has the transaction number, the bit rate and the urgent queue of before, but for
slots that have left the queue since, and the record is not in transaction. That this is so of every start of that instant is
the model's choice (assumption 43). Else the line is found as it stands. -/
structure State.FoundIdle (i : Fin 12) (s t : State) : Prop where
  asItStands : (∀ b, ¬s.BegunNow i b) → t = s
  line : ∀ b, s.BegunNow i b → t.line i = { s.line i with
    state := .idle, transaction := none, tx := none, txNumber := b.txNumber, rate := b.rate
    urgent := b.urgent.filter (fun n =>
      decide (n ∈ (s.line i).urgent ∨ (s.line i).transaction.map Transaction.slot = some n))
    rx := [], rxOpen := false, windowEnd := none, windowElapsed := false }
  rest : t = { s with lines := t.lines, records := t.records }
  other : ∀ j, j ≠ i → t.line j = s.line j
  records : ∀ b, s.BegunNow i b → s.SlotsRise → t.records = s.records.map (fun r =>
    if (s.line i).transaction.map Transaction.slot = some r.slot then { r with inTxn := false } else r)

/-! ### Frames as received and as sent (R28, R185 to R188) -/

/-- The length is one that R186 allows for the type. For a type that R186 does not have it gives none, and whether the frame's
length is then allowed is a free value (assumption 50). -/
def LengthAllowed (type len : Byte) : Prop :=
  type = 0x31 ∧ len = 5 ∨ type = 0x32 ∧ (len = 26 ∨ len = 28) ∨
    type = 0x33 ∧ (len = 6 ∨ len = 8 ∨ len = 15 ∨ len = 17 ∨ len = 24 ∨ len = 33) ∨ type = 0x34 ∧ len = 5 ∨
    type = 0x35 ∧ len = 8 ∨
    type ≠ 0x31 ∧ type ≠ 0x32 ∧ type ≠ 0x33 ∧ type ≠ 0x34 ∧ type ≠ 0x35 ∧ Config.unlistedTypeLength type len = true

/-- The frame has the number of characters that its length character states, and that length is allowed for its type, which need
be no follower's (R28, R186): a frame that is bad by its type alone ends where it says. -/
def FrameFull (cs : List RxChar) : Prop :=
  ∃ type len : Byte, (cs.map RxChar.byte)[1]? = some type ∧ (cs.map RxChar.byte)[2]? = some len ∧ cs.length = len.toNat ∧
    LengthAllowed type len

/-- A frame that none of R28's tests makes bad: it has the number of characters that its length character states, its length is
allowed for its type, and the type is REPLY or ANNOUNCE (R186), it was not cut short, its first character alone has the mark
bit 1, no character has a framing error, and its last character is the check over every character between the address character
and it (R185). -/
structure FrameSound (cs : List RxChar) : Prop where
  full : FrameFull cs
  type : (cs.map RxChar.byte)[1]? = some 0x32 ∨ (cs.map RxChar.byte)[1]? = some 0x35
  marks : ∃ a rest, cs = a :: rest ∧ a.marked = true ∧ ∀ c ∈ rest, c.marked = false
  framing : ∀ c ∈ cs, c.framing = false
  check : ∃ (address check : Byte) (covered : List Byte),
    cs.map RxChar.byte = address :: covered ++ [check] ∧ crc8 covered = check

/-- A bad frame: one that a test of R28 makes bad, or a REPLY whose stamp request present bit does not go with its length
(R28, R187). -/
def BadFrame (cs : List RxChar) : Prop :=
  ¬FrameSound cs ∨ ∃ (bs : List Byte) (flags : Byte), bs = cs.map RxChar.byte ∧ bs[1]? = some 0x32 ∧ bs[4]? = some flags ∧
    (flags.getLsbD 6 = true ↔ cs.length ≠ 28)

/-- A good REPLY from the address `addr`, with the fields of `p` in the places that R186 gives them (R187): every value is handed
on as received, and a stamp request is carried where its present bit is 1. -/
structure GoodReply (addr : Nat) (p : Reply) (cs : List RxChar) : Prop where
  sound : FrameSound cs
  fields : ∃ flags check : Byte,
    cs.map RxChar.byte = [BitVec.ofNat 8 addr, 0x32, if p.ask.isSome then 28 else 26, p.txn, flags]
      ++ bytesOf 6 p.t2.sec ++ bytesOf 4 p.t2.ns ++ bytesOf 6 p.t3.sec ++ bytesOf 4 p.t3.ns
      ++ (match p.ask with
        | none => []
        | some (id, count) => [id, BitVec.ofNat 8 count]) ++ [check] ∧
    (∀ k, k < 4 → p.seq.getLsbD k = flags.getLsbD k) ∧ p.clockValid = flags.getLsbD 4 ∧ p.wantPoll = flags.getLsbD 5 ∧
    p.ask.isSome = flags.getLsbD 6
  address : addr < 256
  times : p.t2.sec < 2 ^ 48 ∧ p.t2.ns < 2 ^ 32 ∧ p.t3.sec < 2 ^ 48 ∧ p.t3.ns < 2 ^ 32
  count : ∀ x, p.ask = some x → x.2 < 256

/-- A good ANNOUNCE from the address `addr` with an identity (R186, R187). -/
structure GoodAnnounce (addr : Nat) (identity : BitVec 32) (cs : List RxChar) : Prop where
  sound : FrameSound cs
  fields : ∃ check : Byte, cs.map RxChar.byte = [BitVec.ofNat 8 addr, 0x35, 8] ++ bytesOf 4 identity.toNat ++ [check]
  address : addr < 256

/-- The frame is a good REPLY of the transaction in flight on line `i`, and the first frame of its window (R54). -/
def State.ReplyOf (i : Fin 12) (cs : List RxChar) (s : State) : Prop :=
  ∃ (x : Transaction) (r : Endpoint) (p : Reply), (s.line i).transaction = some x ∧ x.failed = false ∧
    s.bySlot x.slot = some r ∧ p.txn = (s.line i).txNumber ∧ GoodReply r.addr p cs

/-- The bytes of a CLOSE to the address `addr` with a correction and an answer, each if there is one (R62, R186, R188). -/
structure CloseCarries (addr : Nat) (txn : Byte) (c : Option Correction) (a : Option Answer) (bs : List Byte) : Prop where
  bytes : ∃ (flags : Byte) (correction answer covered : List Byte),
    bs = BitVec.ofNat 8 addr :: covered ++ [crc8 covered] ∧
    covered = [0x33, BitVec.ofNat 8 bs.length, txn, flags] ++ correction ++ answer ∧
    (∀ k, flags.getLsbD k = true ↔ k = 0 ∧ c ≠ none ∨ k = 1 ∧ a ≠ none ∨ k = 2 ∧ (∃ g, a = some (.grant g)) ∨
      k = 3 ∧ ∃ g, a = some (.grant g) ∧ g.clamped = true) ∧
    (c = none → correction = []) ∧
    (∀ x, c = some x → correction =
      [BitVec.ofNat 8 (x.seq.toNat + match x.kind with | .slew => 0 | .step => 16)] ++ signedBytes 8 x.value) ∧
    (a = none → answer = []) ∧
    (∀ g, a = some (.grant g) → answer = [g.domain] ++ bytesOf 2 g.epoch.toNat ++ bytesOf 6 g.base.sec
      ++ bytesOf 4 g.base.ns ++ bytesOf 1 g.count ++ bytesOf 4 g.uncertainty) ∧
    ∀ d code, a = some (.refusal d code) → answer = [d, match code with
      | .badCount => 1 | .noDomain => 2 | .domainClosed => 3 | .domainFrozen => 4 | .notMember => 5
      | .epochChanged => 6 | .withdrawn => 7 | .rackFenced => 8 | .untracked => 9 | .correcting => 10
      | .uncertain => 11]

/-! ### What the statements about received samples speak of -/

/-- The part as the next sample of line `i` reads level `v`, `dt` ns after the last command or at the sample's instant after
that: time has passed, the level is noted, and a fault watch that runs has measured the sample (R27, R32). -/
def State.heard (i : Fin 12) (dt : Nat) (v : Bool) (s : State) : State :=
  ((s.advance dt).toSample i).modLine i (Line.take ((s.advance dt).toSample i).localNs v)

/-- The next sample at level `v` brings no fault of the line (R32): the line is watched, and the fault watch does not reach 22
bit times, which are 352 samples in a row (assumption 46). -/
structure Line.Undisturbed (v : Bool) (l : Line) : Prop where
  watched : l.state ≠ .off ∧ l.state ≠ .fault
  calm : ∀ n, l.faultWatch = some n → v = false → n + 1 < 352

/-- The next sample, at level `v`, completes the character `c`, whose leading edge came at `start` with the capture `edge`: it
is the ninth of the stop bit's sixteen, the 169th since that edge, and decides the stop bit (R27, assumption 34). -/
structure Line.Completes (start : Nat) (edge : Capture) (c : RxChar) (v : Bool) (l : Line) : Prop where
  calm : l.Undisturbed v
  arriving : ∃ inWindow taken, l.receiver = .char start edge inWindow taken ∧ taken.length = 168 ∧
    c = RxChar.ofSamples (taken ++ [v])

/-- The part as the next sample of a channel's time-of-day input reads level `v`, `dt` ns after the last command or at the
sample's instant after that: time has passed, and the level is noted (R2, R27). -/
def State.todHeard (ch : Chan) (dt : Nat) (v : Bool) (s : State) : State :=
  ((s.advance dt).toTodSample ch).setChan ch
    { s.chan ch with todLevel := v, todSampledAt := ((s.advance dt).toTodSample ch).localNs }

/-- The next sample of a time-of-day input, at level `v`, completes the character `c`, whose leading edge came at `start`: it
is the 169th since that edge, as on a line (R2, R27, assumption 34). -/
def RefChannel.Completes (start : Nat) (c : RxChar) (v : Bool) (x : RefChannel) : Prop :=
  ∃ edge inWindow taken, x.todReceiver = .char start edge inWindow taken ∧ taken.length = 168 ∧
    c = RxChar.ofSamples (taken ++ [v])

/-- The next sample completes a frame `cs`: it completes the last character, which has the mark bit 0, and the number of
characters is the one that the frame's length character states (R28). -/
structure Line.CompletesFrame (cs : List RxChar) (v : Bool) (l : Line) : Prop where
  begun : l.rx ≠ []
  last : ∃ start edge c, l.Completes start edge c v ∧ c.marked = false ∧ cs = l.rx ++ [c]
  full : FrameFull cs

/-! ### What the statement about a hand-off speaks of (R58 to R61, R72 to R76, R98 to R107, R134 to R142) -/

/-- The acknowledgement judgement on a REPLY that reports `seq` (R79, R103 to R107). -/
structure Endpoint.Acknowledged (seq : BitVec 4) (r a : Endpoint) : Prop where
  nothing : r.ackSeq = r.cmdSeq → a = { r with repSeq := seq }
  slew : ∀ v, r.ackSeq ≠ r.cmdSeq → seq = r.cmdSeq → r.cmd = some (.slew, v) →
    a = { r with repSeq := seq, ackSeq := r.cmdSeq, unack := 0, freq := max (-1000000) (min 1000000 (r.freq + v)) }
  step : ∀ v, r.ackSeq ≠ r.cmdSeq → seq = r.cmdSeq → r.cmd = some (.step, v) →
    a = { r with repSeq := seq, ackSeq := r.cmdSeq, unack := 0, window := [] }
  counted : r.ackSeq ≠ r.cmdSeq → seq ≠ r.cmdSeq → r.unack + 1 < 3 → a = { r with repSeq := seq, unack := r.unack + 1 }
  abandoned : r.ackSeq ≠ r.cmdSeq → seq ≠ r.cmdSeq → 3 ≤ r.unack + 1 →
    a = { r with repSeq := seq, ackSeq := r.cmdSeq, unack := 0, corrFaults := min 65535 (r.corrFaults + 1),
                 state := if r.state = .tracking then .suspect else r.state }

/-- `f` is the filtered offset of a window: the offset of its newest sample among those of the least delay (R61). -/
def Filtered (f : Int) (d : Nat) (w : List Sample) : Prop :=
  ∃ older x newer, w = older ++ x :: newer ∧ x.theta = f ∧ x.delta = d ∧ (∀ y ∈ older, d ≤ y.delta) ∧
    ∀ y ∈ newer, d < y.delta

/-- An accepted sample `x` of a record `a` whose acknowledgement has been judged, with `f` the filtered offset of its window
with the sample in it (R60, R61, R72 to R75); `faulted`: the record became SUSPECT on this REPLY by a correction fault. -/
structure Endpoint.Accepted (x : Sample) (f : Int) (faulted : Bool) (a c b : Endpoint) : Prop where
  base : c = { a with
    window := if 4 < (a.window ++ [x]).length then (a.window ++ [x]).tail else a.window ++ [x]
    lastRaw := some x.theta, lastGood := some x.t1.sec, goodTotal := min 65535 (a.goodTotal + 1), missCount := 0 }
  enrollingOver : a.state = .enrolling → a.corrEnabled = true ∧ a.stepThreshold ≤ f.natAbs → b = { c with goodCount := 0 }
  enrollingWaits : a.state = .enrolling → ¬(a.corrEnabled = true ∧ a.stepThreshold ≤ f.natAbs) → a.ackSeq ≠ a.cmdSeq → b = c
  enrollingCounts : a.state = .enrolling → ¬(a.corrEnabled = true ∧ a.stepThreshold ≤ f.natAbs) → a.ackSeq = a.cmdSeq →
    a.goodCount + 1 < 3 → b = { c with goodCount := a.goodCount + 1 }
  entersTracking : a.state = .enrolling → ¬(a.corrEnabled = true ∧ a.stepThreshold ≤ f.natAbs) → a.ackSeq = a.cmdSeq →
    3 ≤ a.goodCount + 1 → b = { c with goodCount := 3, state := .tracking, baseline := some (a.baseline.getD a.freq) }
  tracking : a.state = .tracking → b = c
  suspectReturns : a.state = .suspect → a.ackSeq = a.cmdSeq → faulted = false → b = { c with state := .tracking }
  suspectStays : a.state = .suspect → a.ackSeq ≠ a.cmdSeq ∨ faulted = true → b = c
  lost : a.state = .lost → b = { c with
    state := .enrolling, window := [x]
    goodCount := if a.corrEnabled = true ∧ a.stepThreshold ≤ x.theta.natAbs ∨ a.ackSeq ≠ a.cmdSeq then 0 else 1 }

/-- A rejected sample (R76). -/
structure Endpoint.Rejected (a b : Endpoint) : Prop where
  tracking : a.state = .tracking → b = { a with rejected := min 65535 (a.rejected + 1), state := .suspect }
  enrolling : a.state = .enrolling → b = { a with rejected := min 65535 (a.rejected + 1), goodCount := 0 }
  other : a.state ≠ .tracking → a.state ≠ .enrolling → b = { a with rejected := min 65535 (a.rejected + 1) }

/-- A command to the record (R101). -/
def Endpoint.Commanded (k : CorrKind) (v : Int) (b c : Endpoint) : Prop :=
  c = { b with cmdSeq := b.cmdSeq + 1, cmd := some (k, v), toSend := some ⟨b.cmdSeq + 1, k, v⟩, unack := 0 }

/-- COR's decision on an accepted sample for a record with filtered offset `f` and correction interval `n` in ms
(R98 to R101). -/
structure Endpoint.Corrected (f : Int) (n : Nat) (b c : Endpoint) : Prop where
  nothing : b.corrEnabled = false ∨ b.ackSeq ≠ b.cmdSeq ∨ (b.state ≠ .enrolling ∧ b.state ≠ .tracking) → c = b
  steps : b.corrEnabled = true → b.ackSeq = b.cmdSeq → b.state = .enrolling ∨ b.state = .tracking →
    b.stepThreshold ≤ f.natAbs → b.Commanded .step (-f) c
  waits : b.state = .enrolling → f.natAbs < b.stepThreshold → c = b
  slews : ∀ d, b.corrEnabled = true → b.ackSeq = b.cmdSeq → b.state = .tracking → f.natAbs < b.stepThreshold →
    d = max (-500) (min 500 ((-f * 1000).tdiv (4 * n))) → (d ≠ 0 → b.Commanded .slew d c) ∧ (d = 0 → c = b)

/-- The effective class of a record in the running cycle (R44). -/
def Endpoint.ClassIs (boost : Bool) (k : Nat) (r : Endpoint) : Prop :=
  match r.state with
  | .enrolling => k = 0
  | .suspect => k = 0
  | .lost => k = 3
  | .tracking => k = if boost then 0 else r.cycleClass
  | .suspended => k = 0
  | .retiring => k = 0

/-- The domain that a stamp request names, past checks 1 and 2 (R134). -/
structure State.Names (s : State) (id : Byte) (n : Nat) (d : Domain) : Prop where
  count : 1 ≤ n ∧ n ≤ 16
  domain : id ≠ 0 ∧ s.domain id = some d

/-- The first check that fails for a line request for `n` stamps of the domain `id` (R134, R135); `r` is the record as COR
has left it. -/
inductive State.LineRefused (s : State) (r : Endpoint) (epochVoid : Bool) (id : Byte) (n : Nat) : RefusalCode → Prop where
  | badCount (h : ¬(1 ≤ n ∧ n ≤ 16)) : s.LineRefused r epochVoid id n .badCount
  | noDomain (h : 1 ≤ n ∧ n ≤ 16) (none : id = 0 ∨ s.domain id = none) : s.LineRefused r epochVoid id n .noDomain
  | domainClosed (d : Domain) (h : s.Names id n d) (st : d.state = .retiring) :
    s.LineRefused r epochVoid id n .domainClosed
  | domainFrozen (d : Domain) (h : s.Names id n d) (st : d.state = .frozen) : s.LineRefused r epochVoid id n .domainFrozen
  | notMember (d : Domain) (h : s.Names id n d) (st : d.state = .opened) (mem : d.members.getLsbD r.line = false) :
    s.LineRefused r epochVoid id n .notMember
  | epochChanged (d : Domain) (h : s.Names id n d) (st : d.state = .opened) (mem : d.members.getLsbD r.line = true)
    (ep : epochVoid = true) : s.LineRefused r epochVoid id n .epochChanged
  | withdrawn (d : Domain) (h : s.Names id n d) (st : d.state = .opened) (mem : d.members.getLsbD r.line = true)
    (ep : epochVoid = false) (wd : r.withdrawal ≠ .no) : s.LineRefused r epochVoid id n .withdrawn
  | rackFenced (d : Domain) (h : s.Names id n d) (st : d.state = .opened) (mem : d.members.getLsbD r.line = true)
    (ep : epochVoid = false) (wd : r.withdrawal = .no)
    (fence : d.fence = .refuseRack ∧ (s.rack r.line).watch = .alarm) : s.LineRefused r epochVoid id n .rackFenced
  | untracked (d : Domain) (h : s.Names id n d) (st : d.state = .opened) (mem : d.members.getLsbD r.line = true)
    (ep : epochVoid = false) (wd : r.withdrawal = .no)
    (fence : ¬(d.fence = .refuseRack ∧ (s.rack r.line).watch = .alarm)) (tr : r.state ≠ .tracking) :
    s.LineRefused r epochVoid id n .untracked
  | correcting (d : Domain) (h : s.Names id n d) (st : d.state = .opened) (mem : d.members.getLsbD r.line = true)
    (ep : epochVoid = false) (wd : r.withdrawal = .no)
    (fence : ¬(d.fence = .refuseRack ∧ (s.rack r.line).watch = .alarm)) (tr : r.state = .tracking)
    (fl : r.ackSeq ≠ r.cmdSeq) : s.LineRefused r epochVoid id n .correcting

/-- A line request that passes checks 1 to 10 of R134, on the domain `d`. -/
structure State.LinePasses (s : State) (r : Endpoint) (epochVoid : Bool) (id : Byte) (n : Nat) (d : Domain) : Prop where
  names : s.Names id n d
  opened : d.state = .opened
  member : d.members.getLsbD r.line = true
  epoch : epochVoid = false
  staying : r.withdrawal = .no
  fence : ¬(d.fence = .refuseRack ∧ (s.rack r.line).watch = .alarm)
  tracked : r.state = .tracking
  settled : r.ackSeq = r.cmdSeq

/-! ### What the statements about references speak of -/

/-- The clock's moves when its selected channel stops being QUALIFIED; `other` is the other channel, if that is QUALIFIED
(R12, R13, R15, R17, R18). -/
structure RowClock.Lost (other : Option Chan) (c d : RowClock) : Prop where
  acquiringOther : ∀ o, c.state = .acquiring → other = some o →
    d = { c with selected := some o, stepCount := 0, lockCount := 0 }
  acquiringHeld : c.state = .acquiring → other = none → c.hasLocked = true →
    d = { c with state := .holdover, selected := none, next := c.integral, stepCount := 0, lockCount := 0 }
  acquiringFree : c.state = .acquiring → other = none → c.hasLocked = false →
    d = { c with state := .freerun, selected := none, integral := 0, next := 0, u := 4294967295, stepCount := 0,
                 lockCount := 0 }
  lockedOther : ∀ o, c.state = .locked → other = some o →
    d = { c with state := .acquiring, selected := some o, origin := .locked, stepCount := 0, lockCount := 0,
                 entryValue := max c.u 20, entrySec := c.row.sec }
  lockedHeld : c.state = .locked → other = none →
    d = { c with state := .holdover, selected := none, next := c.integral, u := max c.u 20, stepCount := 0, lockCount := 0,
                 entryValue := max c.u 20, entrySec := c.row.sec }

/-- A LOCKED clock goes over to channel `ch` (R13, R17). -/
def RowClock.Reverted (ch : Chan) (c d : RowClock) : Prop :=
  d = { c with state := .acquiring, selected := some ch, origin := .locked, stepCount := 0, lockCount := 0,
               entryValue := max c.u 20, entrySec := c.row.sec }

/-- The clock's moves when channel `ch` becomes QUALIFIED (R12, R13, R15, R17, R18). -/
structure RowClock.Gained (ch : Chan) (c d : RowClock) : Prop where
  freerun : c.state = .freerun →
    d = { c with state := .acquiring, selected := some ch, origin := .freerun, stepCount := 0, lockCount := 0 }
  holdover : c.state = .holdover →
    d = { c with state := .acquiring, selected := some ch, origin := .holdover, stepCount := 0, lockCount := 0 }
  acquiring : c.state = .acquiring → d = c
  reverts : c.state = .locked → c.revertive = true → c.preferred = ch → c.selected ≠ some ch → c.Reverted ch d
  stays : c.state = .locked → c.revertive = false ∨ c.preferred ≠ ch → d = c

/-- The clock state, the selected reference or a channel's state differs (R22). -/
def State.RefChanged (s t : State) : Prop :=
  t.clk.state ≠ s.clk.state ∨ t.clk.selected ≠ s.clk.selected ∨ t.chanA.state ≠ s.chanA.state ∨ t.chanB.state ≠ s.chanB.state

/-- The edge of a channel is a good second (R4): it lies 1 s after the previous edge, give or take 50,000 ns, and the
message held is good and marked for it, with no fault since the previous edge. -/
def RefChannel.GoodSecond (now : Nat) (c : RefChannel) : Prop :=
  ∃ e m x, c.prevEdge = some e ∧ c.held = some m ∧ c.edgeSec = some x ∧ 999950000 ≤ now - e ∧ now - e ≤ 1000050000
    ∧ c.msgFault = false ∧ m.sec = (x + 1) % 281474976710656 ∧ m.ok = true

end Sys2Proof.Machine
end

