-- ==== Sys2Proof/Certificates/Slice0/Obligations.lean ====
section
/-! DEFINITION. The statements for the provers: what the rules of spec/ say that each command does, the frames, and the
invariants that every step keeps. A statement that speaks of a value or a behaviour the model chose says so. -/

open Sys2Proof Sys2Proof.Machine

/-! ### The queue, reset and time -/

/-- A step takes the command at the front of the queue and runs it on the state with the queue's rest; on an empty queue
the part idles, which is the model's choice (assumption 5). -/
def Obligations.StepRunsTheFrontCommand : Prop :=
  (∀ (c : Instr) (q : List Instr) (s : State), step { s with pending := c :: q } = exec c { s with pending := q }) ∧
  ∀ s : State, step { s with pending := [] } = .next { s with pending := [] }

/-- Every command answers a next state in every state, whatever its operands, and leaves the queue alone. -/
def Obligations.EveryCommandCompletes : Prop :=
  ∀ (c : Instr) (s : State), ∃ t, exec c s = .next t ∧ t.pending = s.pending

/-- HARD_RESET leaves the state after reset, but for the queue and the model's own counter of fill bytes, and a transaction
under way is ignored (R184), for which data out is left at high impedance (assumption 22); and the state after reset holds the
values that R1, R8, R30, R42, R151 and R173 give. -/
def Obligations.HardResetLeavesTheResetValues : Prop :=
  (∀ (csLow : Bool) (s : State), exec (.hardReset csLow) s = .next { State.reset with
    port := { State.reset.port with ignoring := csLow, link := { Link.idle with low := csLow } }
    freeCount := s.freeCount
    pending := s.pending }) ∧
  (∀ ch, (State.reset.chan ch).enable = true ∧ (State.reset.chan ch).state = .down ∧ (State.reset.chan ch).good = 0 ∧
    (State.reset.chan ch).prevEdge = none ∧ (State.reset.chan ch).edgeSec = none ∧ (State.reset.chan ch).held = none ∧
    (State.reset.chan ch).msgFault = false ∧ (State.reset.chan ch).lastPhase = 0 ∧
    (State.reset.chan ch).lossDeadline = none ∧ (State.reset.chan ch).tod = []) ∧
  State.reset.localNs = 0 ∧
  State.reset.clk = ⟨.freerun, ⟨0, 0⟩, 0, none, .a, false, 0, 0, 0, 4294967295, 0, 0, 1000, 50, .freerun, false, 0, 0⟩ ∧
  (∀ i, (State.reset.line i).enable = false ∧ (State.reset.line i).state = .off ∧ (State.reset.line i).quiesceReq = false ∧
    (State.reset.line i).rate = .m1 ∧ (State.reset.line i).cfgRate = .m1 ∧ (State.reset.line i).cfgPeriod = 1000 ∧
    (State.reset.line i).period = 1000 ∧ (State.reset.line i).replyWindow = 200 ∧ (State.reset.line i).discEnable = true ∧
    (State.reset.line i).discWindow = 1000 ∧ (State.reset.line i).missLimit = 4 ∧ (State.reset.line i).delayLimit = 50000 ∧
    (State.reset.line i).asymAllow = 500 ∧ (State.reset.line i).driftAllow = 20 ∧ (State.reset.line i).cycle = 0 ∧
    (State.reset.line i).txNumber = 0 ∧ (State.reset.line i).pollList = [] ∧ (State.reset.line i).pollPos = 0 ∧
    (State.reset.line i).transaction = none ∧ (State.reset.line i).urgent = [] ∧ (State.reset.line i).faultWatch = none ∧
    (State.reset.line i).recoveryWatch = none ∧ (State.reset.line i).counters = ⟨0, 0, 0, 0, 0, 0, 0⟩ ∧
    (∀ now, (State.reset.line i).driverEnabled now = false)) ∧
  State.reset.records = [] ∧ State.reset.newcomers = [] ∧ State.reset.overflow = false ∧ State.reset.domains = [] ∧
  (∀ i, (State.reset.rack i).watch = .off ∧ (State.reset.rack i).cause = none ∧ (State.reset.rack i).boost = true ∧
    (State.reset.rack i).repeatOn = false ∧ (State.reset.rack i).driftClear = 50 ∧ (State.reset.rack i).driftWarn = 200 ∧
    (State.reset.rack i).driftAlarm = 1000 ∧ (State.reset.rack i).lostWarn = 2 ∧ (State.reset.rack i).lostAlarm = 8 ∧
    (State.reset.rack i).walkQuantum = 1000 ∧ (State.reset.rack i).walkLimit = 64 ∧ (State.reset.rack i).dwellLimit = 3 ∧
    (State.reset.rack i).sweepExp = 4 ∧ (State.reset.rack i).countdown = 16 ∧ (State.reset.rack i).dwell = 0 ∧
    (State.reset.rack i).repeats = 0 ∧ (State.reset.rack i).walk = 0 ∧ (State.reset.rack i).latch = none ∧
    (State.reset.rack i).sweptD = 0 ∧ (State.reset.rack i).sweptTracking = 0 ∧ (State.reset.rack i).sweptLost = 0 ∧
    (State.reset.rack i).sweptExcursion = none ∧
    (State.reset.rack i).members = ⟨0, 0, 0, 0, 0, 0⟩ ∧ (State.reset.rack i).changed = false) ∧
  State.reset.port.state = .ready ∧ State.reset.port.held = none ∧ State.reset.port.overlapMark = false ∧
  State.reset.port.badFrames = 0 ∧ State.reset.port.overlaps = 0 ∧ State.reset.port.causes = 0 ∧
  State.reset.port.mask = 0 ∧ State.reset.port.attention = false ∧ State.reset.port.link = ⟨false, [], [], none, none⟩

/-- The state after reset has every property that the invariants below keep, and the words of R119 and R173. -/
def Obligations.ResetHasEveryInvariant : Prop :=
  State.reset.SequencesClose ∧ State.reset.ClockInRange ∧ State.reset.RefHeld ∧ State.reset.SlotsRise ∧
  State.reset.KeysDiffer ∧ State.reset.NewcomersApart ∧ State.reset.CountsAgree ∧ State.reset.WalkInside ∧ State.reset.IdsDiffer ∧
  State.reset.FenceHolds ∧ State.reset.DeliveriesAgree ∧ (∀ i, State.reset.SubjectHeld i) ∧ State.reset.AnswersHeld ∧
  State.reset.PortHolds

/-- The passage of time changes local time, row time, the applied rate, U and the sweep countdowns, makes the captures of t1
that are due, notes what falls due at the instant it leads to, and changes nothing else; U and the countdowns change only at
second ticks (R7, R9, R10, R20, R21, R155). A tick, and the start of a local second, at the very instant of a command are left
due, and are taken before the command by SECOND_TICK or LOCAL_SECOND_START or else after it, so that either comes first
(assumption 35); a capture of t1 that is due at that instant is made before the command (assumption 40). The flag sweepDue
that a countdown's end leaves is the model's own (assumption 16). -/
def Obligations.TimePassesAlone : Prop :=
  ∀ (d : Nat) (s : State),
    s.advance 0 = s ∧
    (s.advance d).localNs = s.localNs + d ∧
    (s.advance d).clk = { s.clk with row := (s.advance d).clk.row, applied := (s.advance d).clk.applied,
                                     u := (s.advance d).clk.u } ∧
    (∀ i, (s.advance d).rack i = { s.rack i with countdown := ((s.advance d).rack i).countdown,
                                                 sweepDue := ((s.advance d).rack i).sweepDue }) ∧
    (s.due.tick = false → s.rollovers (d - 1) = 0 →
      (s.advance d).clk.u = s.clk.u ∧ ∀ i, (s.advance d).rack i = s.rack i) ∧
    (∀ n, s.clk.u ≤ 4294967295 → 0 < d → n = (if s.due.tick = true then 1 else 0) + s.rollovers (d - 1) →
      (s.advance d).clk.u = if s.clk.state = .holdover ∨ s.clk.state = .acquiring ∧ s.clk.origin ≠ .freerun
        then min 4294967295 (s.clk.u + n * s.clk.holdRate) else s.clk.u) ∧
    (0 < d → (s.advance d).due =
      ⟨decide (s.rollovers (d - 1) ≠ s.rollovers d), decide ((s.localNs + d) % 1000000000 = 0)⟩) ∧
    (∀ i : Fin 12, (∀ e, s.latches[i].due = some e → s.localNs + d < e) → (s.advance d).latches[i] = s.latches[i]) ∧
    (∀ (i : Fin 12) (e : Nat), s.latches[i].due = some e → s.localNs < e → e ≤ s.localNs + d →
      (s.advance d).latches[i] = ⟨none, ⟨(s.advance (e - s.localNs)).clk.row, s.clk.epoch⟩⟩) ∧
    (s.advance d).chanA = s.chanA ∧ (s.advance d).chanB = s.chanB ∧ (s.advance d).lines = s.lines ∧
    (s.advance d).records = s.records ∧ (s.advance d).newcomers = s.newcomers ∧ (s.advance d).overflow = s.overflow ∧
    (s.advance d).domains = s.domains ∧ (s.advance d).port = s.port ∧ (s.advance d).freeCount = s.freeCount ∧
    (s.advance d).pending = s.pending

/-- From the start of a local second run at rate r, row time has advanced by d + trunc(d * r / 10^9) ns after d ns, and by
10^9 + r ns after the whole second (R9); row seconds wrap at 2^48 (R10). A local second whose start is due takes the next
applied rate, which LOCAL_SECOND_START does too; the next start is due after a whole second, and takes the next applied rate
from then on, or at LOCAL_SECOND_START (R9; that a command of that very instant may come first is assumption 35). -/
def Obligations.RowTimeFollowsTheAppliedRate : Prop :=
  ∀ (r : Int) (s : State), s.localNs % 1000000000 = 0 → s.clk.applied.natAbs ≤ 100000 → s.clk.next.natAbs ≤ 100000 →
    r = (if s.due.start = true then s.clk.next else s.clk.applied) →
    (∀ d : Nat, 0 < d → d ≤ 1000000000 →
      ((s.advance d).clk.row.toNs : Int) =
        ((s.clk.row.toNs : Int) + d + (r * d).tdiv 1000000000) % (281474976710656 * 1000000000) ∧
      (s.advance d).clk.applied = r ∧ ((s.advance d).due.start = true ↔ d = 1000000000)) ∧
    ((s.advance 1000000000).clk.row.toNs : Int) =
      ((s.clk.row.toNs : Int) + 1000000000 + r) % (281474976710656 * 1000000000) ∧
    ∀ d : Nat, 0 < d → d ≤ 1000000000 →
      ((s.advance (1000000000 + d)).clk.row.toNs : Int) =
        ((s.clk.row.toNs : Int) + 1000000000 + r + d + (s.clk.next * d).tdiv 1000000000) % (281474976710656 * 1000000000) ∧
      (s.advance (1000000000 + d)).clk.applied = s.clk.next

/-- LOCAL_SECOND_START takes local time to the next whole second, unless the start of one is due, and the next applied rate
takes over there (R9). SECOND_TICK takes it to the first instant at which row time's ns count rolls over, unless a tick is due
(R10): U grows by the holdover rate in HOLDOVER, and in ACQUIRING from LOCKED or HOLDOVER (R21), and the countdown of every
rack not in OFF falls by 1 and is reloaded when it reaches 0 (R155). A command that stands before either at its very instant
comes first, one that stands after it comes second (R150; both are queues: assumption 35). The flag sweepDue that the reload
sets, for the sweep of that instant (R156), is the model's own (assumption 16), and that the two commands bring time to the
start or tick is its reading (assumption 6). -/
def Obligations.LocalSecondsStartAndSecondsTick : Prop :=
  ∀ s : State,
    (∃ t u, exec .localSecondStart s = .next t ∧
      (s.due.start = true → u = s) ∧
      (s.due.start = false → u = s.advance (1000000000 - s.localNs % 1000000000) ∧
        t.localNs = (s.localNs / 1000000000 + 1) * 1000000000 ∧ u.due.start = true) ∧
      t = { u with clk := { u.clk with applied := s.clk.next }, due := { u.due with start := false } }) ∧
    (s.ClockInRange → ∃ t u, exec .secondTick s = .next t ∧
      (s.due.tick = true → u = s) ∧
      (s.due.tick = false → u.due.tick = true ∧ u.clk.u = s.clk.u ∧ (∀ i, u.rack i = s.rack i) ∧
        ∃ d, u = s.advance d ∧ s.rollovers d = 1 ∧ ∀ e, e < d → s.rollovers e = 0) ∧
      t = { u with clk := { u.clk with u := t.clk.u }, due := { u.due with tick := false }, racks := t.racks } ∧
      t.clk.u = (if s.clk.state = .holdover ∨ s.clk.state = .acquiring ∧ s.clk.origin ≠ .freerun
        then min 4294967295 (s.clk.u + s.clk.holdRate) else s.clk.u) ∧
      ∀ i, t.rack i =
        if (s.rack i).watch = .off then s.rack i
        else if (s.rack i).countdown ≤ 1 then { s.rack i with countdown := 2 ^ (s.rack i).sweepExp, sweepDue := true }
        else { s.rack i with countdown := (s.rack i).countdown - 1 })

/-! ### The references and the row clock -/

/-- PPS_EDGE at an enabled channel takes the edge, judges the second, and restarts the loss deadline (R3, R4); a disabled
channel ignores it (R1). A channel that this makes QUALIFIED takes a clock in FREERUN or HOLDOVER to ACQUIRING on it, and a
LOCKED one if it is preferred and the clock reverts (R12, R13, R17). A selected channel that stops being QUALIFIED sends the
clock to the other channel, to HOLDOVER or to FREERUN (R15, R17). No other report moves the clock, and an edge of a channel
that is QUALIFIED before and after it but not selected leaves the clock as the passage of time does (R6). A change of clock
state, selected reference or channel state raises REF (R22). Without a step, records, racks and the rest of the port stay
(R19). That a good second's message names the edge seconds plus 1 modulo 2^48 is the model's reading of R4 (assumption 26). -/
def Obligations.PpsEdgeJudgesTheSecond : Prop :=
  ∀ (ch : Chan) (dt : Nat) (s : State),
    ((s.chan ch).enable = true → ∃ t, exec (.ppsEdge ch dt) s = .next t ∧ t.localNs = s.localNs + dt ∧
      t.chan ch.other = s.chan ch.other ∧
      (t.chan ch).enable = true ∧ (t.chan ch).prevEdge = some (s.localNs + dt) ∧
      (t.chan ch).edgeSec = (s.chan ch).held.map HeldMessage.sec ∧ (t.chan ch).held = none ∧
      (t.chan ch).msgFault = false ∧ (t.chan ch).lossDeadline = some (s.localNs + dt + 1500000000) ∧
      (t.chan ch).lastPhase = (if (s.advance dt).clk.row.ns < 500000000 then ((s.advance dt).clk.row.ns : Int)
        else ((s.advance dt).clk.row.ns : Int) - 1000000000) ∧
      ((s.chan ch).state = .down → (t.chan ch).state = .qualifying ∧ (t.chan ch).good = 0) ∧
      ((s.chan ch).state ≠ .down → (s.chan ch).GoodSecond (s.localNs + dt) →
        (t.chan ch).good = min 4 ((s.chan ch).good + 1) ∧
        (t.chan ch).state = if (s.chan ch).good + 1 ≥ 4 then .qualified else (s.chan ch).state) ∧
      ((s.chan ch).state ≠ .down → ¬(s.chan ch).GoodSecond (s.localNs + dt) →
        (t.chan ch).good = 0 ∧ (t.chan ch).state = .qualifying) ∧
      (s.RefHeld →
        ((s.chan ch).state ≠ .qualified → (t.chan ch).state = .qualified → (s.advance dt).clk.Gained ch t.clk) ∧
        ((s.chan ch).state = .qualified → (t.chan ch).state ≠ .qualified →
          (s.clk.selected = some ch → (s.advance dt).clk.Lost
            (if (s.chan ch.other).state = .qualified then some ch.other else none) t.clk) ∧
          (s.clk.selected ≠ some ch → t.clk = (s.advance dt).clk)) ∧
        ((s.chan ch).state ≠ .qualified → (t.chan ch).state ≠ .qualified → t.clk = (s.advance dt).clk)) ∧
      ((s.chan ch).state = .qualified → (t.chan ch).state = .qualified → s.clk.selected ≠ some ch →
        t.clk = (s.advance dt).clk) ∧
      (t.port.isPending .ref = true ↔ s.port.isPending .ref = true ∨ s.RefChanged t) ∧
      (t.clk.epoch = s.clk.epoch → t.records = s.records ∧ t.racks = (s.advance dt).racks ∧
        (s.RefChanged t → t.port = (s.raise .ref).port) ∧ (¬s.RefChanged t → t.port = s.port)) ∧
      t = { s.advance dt with chanA := t.chanA, chanB := t.chanB, clk := t.clk, records := t.records, racks := t.racks
                              port := t.port } ∧
      t.lines = s.lines ∧ t.newcomers = s.newcomers ∧ t.overflow = s.overflow ∧ t.domains = s.domains ∧
      t.pending = s.pending) ∧
    ((s.chan ch).enable = false → exec (.ppsEdge ch dt) s = .next (s.advance dt))

/-- A measurement of the selected channel in LOCKED: the discipline runs, U becomes 20 + |p|, the step count follows the step
condition, and at 4 the clock enters ACQUIRING on the same channel with origin LOCKED and a step count of 4 (R11, R14, R16;
what entry to ACQUIRING from LOCKED keeps is R13's). That a good second's message names the edge seconds plus 1 modulo 2^48 is
the model's reading of R4 (assumption 26). -/
def Obligations.MeasurementInLocked : Prop :=
  ∀ (ch : Chan) (dt x : Nat) (p : Int) (near n : Nat) (s : State),
    (s.chan ch).enable = true → (s.chan ch).state = .qualified → (s.chan ch).GoodSecond (s.localNs + dt) →
    (s.chan ch).held.map HeldMessage.sec = some x → s.clk.state = .locked → s.clk.selected = some ch →
    p = phaseOf (s.advance dt).clk.row → near = nearestSecond (s.advance dt).clk.row →
    n = (if x ≠ near ∨ p.natAbs > s.clk.stepLimit then min 4 (s.clk.stepCount + 1) else 0) →
    ∃ t, exec (.ppsEdge ch dt) s = .next t ∧
      (n ≠ 4 → t.clk = { (s.advance dt).clk with
        integral := clip 100000 (s.clk.integral + (-p).tdiv 16)
        next := clip 100000 (clip 100000 (s.clk.integral + (-p).tdiv 16) + (-p).tdiv 2)
        u := min 4294967295 (20 + p.natAbs)
        stepCount := n }) ∧
      (n = 4 → t.clk = { (s.advance dt).clk with
        state := .acquiring, origin := .locked, stepCount := 4, lockCount := 0
        integral := clip 100000 (s.clk.integral + (-p).tdiv 16)
        next := clip 100000 (clip 100000 (s.clk.integral + (-p).tdiv 16) + (-p).tdiv 2)
        u := min 4294967295 (20 + p.natAbs)
        entryValue := min 4294967295 (20 + p.natAbs)
        entrySec := (s.advance dt).clk.row.sec })

/-- A measurement of the selected channel in ACQUIRING: a fourth step condition in a row steps the clock; else a lock count of
8 locks it; else the discipline runs (R11, R14, R19). At the step U, the applied rate in force, the selected reference and
every other field of the clock stay, STEP alone is raised, and of every rack the walk counter is 0 and the member counts
follow the records; its latch stays (R9, R19, R21, R152, R154). Every record stays in the table: its window is emptied, a
correction in flight is withdrawn, a TRACKING or SUSPECT record enters ENROLLING, with good count 0, and an ENROLLING one
begins its good count again (R81, R108, R109). That a good second's message names the edge seconds plus 1 modulo 2^48 is the
model's reading of R4, and so is it that the lock count stays 8 in LOCKED (R14; both assumption 26). -/
def Obligations.MeasurementInAcquiring : Prop :=
  ∀ (ch : Chan) (dt x : Nat) (p : Int) (near n k : Nat) (s : State),
    (s.chan ch).enable = true → (s.chan ch).state = .qualified → (s.chan ch).GoodSecond (s.localNs + dt) →
    (s.chan ch).held.map HeldMessage.sec = some x → s.clk.state = .acquiring → s.clk.selected = some ch →
    p = phaseOf (s.advance dt).clk.row → near = nearestSecond (s.advance dt).clk.row →
    n = (if x ≠ near ∨ p.natAbs > s.clk.stepLimit then min 4 (s.clk.stepCount + 1) else 0) →
    k = (if p.natAbs ≤ 100 then min 8 (s.clk.lockCount + 1) else 0) →
    ∃ t, exec (.ppsEdge ch dt) s = .next t ∧
      (n = 4 → t.clk = { (s.advance dt).clk with
          row := (s.advance dt).clk.row.move (-((BitVec.ofNat 48 near - BitVec.ofNat 48 x).toInt * 1000000000 + p))
          epoch := s.clk.epoch + 1, stepCount := 0, lockCount := 0
          integral := if s.clk.origin = .freerun then 0 else s.clk.integral
          next := if s.clk.origin = .freerun then 0 else s.clk.integral } ∧
        t.port = (s.raise .step).port ∧ (∀ r ∈ t.records, r.window = [] ∧ r.ackSeq = r.cmdSeq) ∧
        (s.SlotsRise → t.records = s.records.map (fun r => r.atRowStep (s.closeAssembled r)) ∧ s.MembersAtStep t) ∧
        ∀ i, t.rack i = { (s.advance dt).rack i with walk := 0, members := (t.rack i).members }) ∧
      (n ≠ 4 → t.records = s.records) ∧
      (n ≠ 4 → k = 8 → t.clk = { (s.advance dt).clk with
        state := .locked, u := min 4294967295 (20 + p.natAbs), hasLocked := true, stepCount := 0, lockCount := 8 }) ∧
      (n ≠ 4 → k ≠ 8 → t.clk = { (s.advance dt).clk with
        integral := clip 100000 (s.clk.integral + (-p).tdiv 16)
        next := clip 100000 (clip 100000 (s.clk.integral + (-p).tdiv 16) + (-p).tdiv 2)
        stepCount := n, lockCount := k })

/-- The time-of-day inputs. Samples are taken in turn, sixteen to a bit time of 115,200 bit/s, whichever commands bring them,
so that one message may come in several; a DISABLED channel ignores them (R1, R2, R27). The receiver is the lines' own (R27).
A character other than the start marker 0xA5, while no message is in assembly, is ignored. The tenth character completes the
message: a good one is held with its seconds and status, a bad one sets the message fault flag (R2, R189). A gap past the
limit abandons the assembly as a bad message; while a start bit or a character is arriving there is none (R2). The gap's end
in whole ns (assumption 21), the gap running on at the break level after a framing error, while the receiver waits for the
idle level (assumption 49), the samples' places and the ninth as the instant of a decision (assumption 34), and a bad
message's fault coming with its tenth character (assumption 37) are the model's choice. -/
def Obligations.TimeOfDayMessageIsHeld : Prop :=
  (∀ (ch : Chan) (dt : Nat) (vs ws : List Bool) (s : State),
    exec (.todMessage ch dt []) s = .next (s.advance dt) ∧
    ∃ t, exec (.todMessage ch dt vs) s = .next t ∧
      exec (.todMessage ch dt (vs ++ ws)) s = exec (.todMessage ch 0 ws) t) ∧
  (∀ (ch : Chan) (dt : Nat) (v : Bool) (s : State),
    (∃ k, (s.todHeard ch dt v).localNs = k * 1000000000 / 1843200 ∧
      max (s.localNs + dt) ((s.chan ch).todSampledAt + 1) ≤ (s.todHeard ch dt v).localNs ∧
      ∀ j, j < k → j * 1000000000 / 1843200 < max (s.localNs + dt) ((s.chan ch).todSampledAt + 1)) ∧
    ((s.chan ch).enable = false → exec (.todMessage ch dt [v]) s = .next (s.todHeard ch dt v))) ∧
  (∀ (ch : Chan) (dt : Nat) (v : Bool) (u s : State) (c : RefChannel), (s.chan ch).enable = true →
    u = s.todHeard ch dt v → c = u.chan ch →
    ((s.chan ch).todReceiver = .waiting →
      exec (.todMessage ch dt [v]) s = .next (if (s.chan ch).todLevel = true ∧ v = false
        then u.setChan ch { c with todReceiver := .char u.localNs ⟨u.clk.row, s.clk.epoch⟩ false [false] } else u)) ∧
    ((s.chan ch).todReceiver = .held →
      exec (.todMessage ch dt [v]) s = .next (u.setChan ch { c with todReceiver := if v then .waiting else .held })) ∧
    (∀ start edge w taken, (s.chan ch).todReceiver = .char start edge w taken → taken.length ≠ 8 → taken.length < 168 →
      exec (.todMessage ch dt [v]) s = .next (u.setChan ch { c with todReceiver := .char start edge w (taken ++ [v]) })) ∧
    (∀ start edge w taken x y, (s.chan ch).todReceiver = .char start edge w taken → taken.length = 8 →
      taken.drop 6 = [x, y] →
      exec (.todMessage ch dt [v]) s = .next (u.setChan ch { c with
        todReceiver := if (x && y || x && v || y && v) = true then .waiting else .char start edge w (taken ++ [v]) })) ∧
    ∀ (start : Nat) (x : RxChar), (s.chan ch).Completes start x v →
      (c.tod = [] → x.byte ≠ 0xA5 →
        exec (.todMessage ch dt [v]) s = .next (u.setChan ch { c with todReceiver := x.after })) ∧
      (c.tod = [] → x.byte = 0xA5 → exec (.todMessage ch dt [v]) s = .next (u.setChan ch { c with
        todReceiver := x.after, tod := [x], todAt := start + 95486 })) ∧
      (c.tod ≠ [] → c.tod.length < 9 → exec (.todMessage ch dt [v]) s = .next (u.setChan ch { c with
        todReceiver := x.after, tod := c.tod ++ [x], todAt := start + 95486 })) ∧
      ∀ (cs : List RxChar) (bs : List Byte), c.tod.length = 9 → cs = c.tod ++ [x] → bs = cs.map RxChar.byte →
        (((∀ c ∈ cs, c.framing = false ∧ c.marked = false) ∧ field bs 1 1 = 0x54 ∧ crc8 ((bs.drop 1).take 8) = bs.getD 9 0) →
          exec (.todMessage ch dt [v]) s = .next (u.setChan ch { c with
            todReceiver := x.after, tod := [], held := some ⟨field bs 2 6, field bs 8 1 == 0⟩ })) ∧
        (¬((∀ c ∈ cs, c.framing = false ∧ c.marked = false) ∧ field bs 1 1 = 0x54 ∧
            crc8 ((bs.drop 1).take 8) = bs.getD 9 0) →
          exec (.todMessage ch dt [v]) s = .next (u.setChan ch { c with
            todReceiver := x.after, tod := [], msgFault := true }))) ∧
  ∀ (ch : Chan) (s : State), (s.chan ch).enable = true → (s.chan ch).tod ≠ [] →
    ((s.chan ch).todReceiver = .waiting ∨ (s.chan ch).todReceiver = .held →
      exec (.todGapTimeout ch) s = .next ((s.advanceTo ((s.chan ch).todAt + 190973)).setChan ch
        { s.chan ch with tod := [], msgFault := true })) ∧
    ∀ start edge w taken, (s.chan ch).todReceiver = .char start edge w taken → exec (.todGapTimeout ch) s = .next s

/-- LOSS_DEADLINE_EXPIRY takes the channel to DOWN at its deadline and clears what R5 names; a change of its state raises
REF (R22). If the channel was QUALIFIED and selected, the clock goes to ACQUIRING on the other channel, or where that is not
QUALIFIED to HOLDOVER, or to FREERUN from an acquisition that never locked (R15, R17); else the clock does not move. -/
def Obligations.LossDeadlineTakesTheChannelDown : Prop :=
  ∀ (ch : Chan) (d : Nat) (s : State), (s.chan ch).lossDeadline = some d →
    ∃ t, exec (.lossDeadlineExpiry ch) s = .next t ∧ t.localNs = max s.localNs d ∧
      t.chan ch = { s.chan ch with state := .down, good := 0, prevEdge := none, edgeSec := none, held := none,
                                   msgFault := false, lossDeadline := none } ∧
      t.chan ch.other = s.chan ch.other ∧
      ((s.chan ch).state ≠ .down → t.port.isPending .ref = true) ∧
      (s.clk.selected = some ch → (s.chan ch).state = .qualified → (s.advanceTo d).clk.Lost
        (if (s.chan ch.other).state = .qualified then some ch.other else none) t.clk) ∧
      (s.clk.selected ≠ some ch ∨ (s.chan ch).state ≠ .qualified → t.clk = (s.advanceTo d).clk) ∧
      t.lines = s.lines ∧ t.records = s.records ∧ t.newcomers = s.newcomers ∧ t.overflow = s.overflow ∧
      t.domains = s.domains ∧ t.pending = s.pending

/-- REF_CONFIG in range writes the fields it carries and keeps the others, takes a channel it disables to DISABLED and one it
enables to DOWN, and answers OK with the resulting configuration (R23); out of range it is refused BAD_FIELD. One that carries
no field changes nothing. Disabling the selected channel moves the clock as its loss does (R15, R17). Else, where the
preferred reference or the revertive flag is carried, which is how the model reads R23 (assumption 38), a LOCKED clock that is
revertive goes over to the preferred channel if that is QUALIFIED and not selected (R17). REF is raised by a change of clock
state, selected reference or channel state, and by nothing else; no other cause, nor the mask, changes (R22). The order of
effects where several fields are carried, both enables first, then the reports of A and B, then the clock's fields and the
revert test, is the model's reading of R23 (assumption 23). The response carries the two enables, the preferred reference, the
revertive flag, the step limit and the holdover rate, and then for A and for B the state, the good-second count, the last
phase and the edge seconds or their absence; that order, R23's, is assumption 14, and the widths that R192 does not give are
assumption 13. -/
def Obligations.RefConfigWritesTheCarriedFields : Prop :=
  ∀ (dt : Nat) (body : List Byte) (answer : State → List Byte) (s : State), s.TakesFrames → body.length = 9 →
    answer = (fun t => bytesOf 1 t.chanA.enable.toNat ++ bytesOf 1 t.chanB.enable.toNat
      ++ bytesOf 1 (match t.clk.preferred with | .a => 1 | .b => 2) ++ bytesOf 1 t.clk.revertive.toNat
      ++ bytesOf 4 t.clk.stepLimit ++ bytesOf 4 t.clk.holdRate
      ++ [t.chanA, t.chanB].flatMap (fun c =>
        bytesOf 1 (match c.state with | .disabled => 0 | .down => 1 | .qualifying => 2 | .qualified => 3) ++ bytesOf 1 c.good
          ++ signedBytes 4 c.lastPhase ++ (match c.edgeSec with
            | none => List.replicate 7 0
            | some x => [1] ++ bytesOf 6 x))) →
    (refConfigOk body = false →
      exec (.refConfig dt body) s = .next ((s.accepting dt 9).answering 0x10 .badField [])) ∧
    (field body 0 1 = 0 → refConfigOk body = true →
      exec (.refConfig dt body) s = .next ((s.accepting dt 9).answering 0x10 .ok (answer (s.accepting dt 9)))) ∧
    (refConfigOk body = true → ∃ t : State, exec (.refConfig dt body) s = .next (t.answering 0x10 .ok (answer t)) ∧
      (∀ ch, chanOf (field body 2 1) = some ch → (field body 0 1).testBit 2 = true → t.clk.preferred = ch) ∧
      ((field body 0 1).testBit 2 = false → t.clk.preferred = s.clk.preferred) ∧
      t.clk.revertive = (if (field body 0 1).testBit 3 then flag body 1 2 else s.clk.revertive) ∧
      t.clk.stepLimit = (if (field body 0 1).testBit 4 then field body 3 4 else s.clk.stepLimit) ∧
      t.clk.holdRate = (if (field body 0 1).testBit 5 then field body 7 2 else s.clk.holdRate) ∧
      t.chanA.enable = (if (field body 0 1).testBit 0 then flag body 1 0 else s.chanA.enable) ∧
      t.chanB.enable = (if (field body 0 1).testBit 1 then flag body 1 1 else s.chanB.enable) ∧
      (t.chanA.enable ≠ s.chanA.enable → t.chanA.state = if t.chanA.enable then .down else .disabled) ∧
      (t.chanB.enable ≠ s.chanB.enable → t.chanB.state = if t.chanB.enable then .down else .disabled) ∧
      (∀ ch, (t.chan ch).enable ≠ (s.chan ch).enable → (t.chan ch).good = 0 ∧ (t.chan ch).prevEdge = none ∧
        (t.chan ch).edgeSec = none ∧ (t.chan ch).held = none ∧ (t.chan ch).msgFault = false ∧
        (t.chan ch).lossDeadline = none ∧ (s.ClockInRange → t.port.isPending .ref = true)) ∧
      (∀ ch, (t.chan ch).enable = (s.chan ch).enable → t.chan ch = s.chan ch) ∧
      (∀ (ch : Chan) (c : RowClock), s.RefHeld → s.clk.selected = some ch → (t.chan ch).state ≠ .qualified →
        c = { (s.advance dt).clk with preferred := t.clk.preferred, revertive := t.clk.revertive,
                                      stepLimit := t.clk.stepLimit, holdRate := t.clk.holdRate } →
        c.Lost (if (t.chan ch.other).state = .qualified then some ch.other else none) t.clk) ∧
      (∀ c : RowClock, s.RefHeld → (∀ ch, s.clk.selected = some ch → (t.chan ch).state = .qualified) →
        c = { (s.advance dt).clk with preferred := t.clk.preferred, revertive := t.clk.revertive,
                                      stepLimit := t.clk.stepLimit, holdRate := t.clk.holdRate } →
        (((field body 0 1).testBit 2 = true ∨ (field body 0 1).testBit 3 = true) ∧ c.state = .locked ∧
            c.revertive = true ∧ c.selected ≠ some c.preferred ∧ (t.chan c.preferred).state = .qualified →
          c.Reverted c.preferred t.clk) ∧
        (¬(((field body 0 1).testBit 2 = true ∨ (field body 0 1).testBit 3 = true) ∧ c.state = .locked ∧
            c.revertive = true ∧ c.selected ≠ some c.preferred ∧ (t.chan c.preferred).state = .qualified) →
          t.clk = c)) ∧
      (t.port.isPending .ref = true ↔ s.port.isPending .ref = true ∨ s.RefChanged t) ∧
      (s.RefChanged t → t.port = ((s.accepting dt 9).raise .ref).port) ∧
      (¬s.RefChanged t → t.port = (s.accepting dt 9).port) ∧
      t = { s.accepting dt 9 with chanA := t.chanA, chanB := t.chanB, clk := t.clk, port := t.port } ∧
      t.localNs = s.localNs + dt ∧ t.lines = s.lines ∧ t.records = s.records ∧ t.newcomers = s.newcomers ∧
      t.overflow = s.overflow ∧ t.domains = s.domains ∧ ∀ i, t.rack i = (s.advance dt).rack i)

/-- SET_TIME in FREERUN steps row time to the seconds it carries and answers OK with the new epoch: the epoch advances, the
integral and the next rate become 0, STEP alone is raised, and U, the applied rate in force and every other field of the clock
stay (R9, R21). Of every rack the walk counter is 0 and the member counts follow the records; its latch stays. Every record
stays in the table: its window is emptied, a correction in flight is withdrawn, a TRACKING or SUSPECT record enters ENROLLING,
with good count 0, and an ENROLLING one begins its good count again (R19, R24, R81, R108, R109, R152, R154). In every other
clock state SET_TIME is refused WRONG_STATE (R24). -/
def Obligations.SetTimeStepsInFreerun : Prop :=
  ∀ (dt : Nat) (body : List Byte) (s : State), s.TakesFrames → body.length = 6 →
    (s.clk.state ≠ .freerun →
      exec (.setTime dt body) s = .next ((s.accepting dt 6).answering 0x11 .wrongState [])) ∧
    (s.clk.state = .freerun →
      ∃ t : State, exec (.setTime dt body) s = .next (t.answering 0x11 .ok (bytesOf 2 (s.clk.epoch + 1).toNat)) ∧
        t = { s.accepting dt 6 with
          clk := { (s.advance dt).clk with row := ⟨natOf body, 0⟩, epoch := s.clk.epoch + 1, integral := 0, next := 0 }
          records := t.records, racks := t.racks, port := ((s.accepting dt 6).raise .step).port } ∧
        (∀ r ∈ t.records, r.window = [] ∧ r.ackSeq = r.cmdSeq) ∧
        (s.SlotsRise → t.records = s.records.map (fun r => r.atRowStep (s.closeAssembled r)) ∧ s.MembersAtStep t) ∧
        (∀ i, t.rack i = { (s.advance dt).rack i with walk := 0, members := (t.rack i).members }) ∧
        t.clk.state = .freerun ∧ t.localNs = s.localNs + dt ∧ t.chanA = s.chanA ∧ t.chanB = s.chanB ∧
        t.lines = s.lines ∧ t.newcomers = s.newcomers ∧ t.overflow = s.overflow ∧ t.domains = s.domains)

/-- READ_TIME answers OK with row time, epoch, clock state, selected reference, U, integral, applied rate, holdover entry
value and holdover entry seconds as they stand at its acceptance, and changes nothing (R25, R192). -/
def Obligations.ReadTimeAnswersTheClock : Prop :=
  ∀ (dt : Nat) (s : State), s.TakesFrames →
    exec (.readTime dt []) s = .next ((s.accepting dt 0).answering 0x12 .ok
      (bytesOf 6 (s.advance dt).clk.row.sec ++ bytesOf 4 (s.advance dt).clk.row.ns ++ bytesOf 2 s.clk.epoch.toNat
        ++ bytesOf 1 (match s.clk.state with | .freerun => 0 | .acquiring => 1 | .locked => 2 | .holdover => 3)
        ++ bytesOf 1 (match s.clk.selected with | none => 0 | some .a => 1 | some .b => 2)
        ++ bytesOf 4 (s.advance dt).clk.u ++ signedBytes 4 s.clk.integral ++ signedBytes 4 (s.advance dt).clk.applied
        ++ bytesOf 4 s.clk.entryValue ++ bytesOf 6 s.clk.entrySec))

/-! ### The drift watch -/

/-- A sweep of a rack in QUIET: hot, the rack enters WATCH with dwell count 1; cool or mild, it stays QUIET with dwell count
0. The indicators are those of R156, and the sweep writes them and clears the latch (R156, R157); the change of watch state
raises RACK (R163). The flag sweepDue, which the tick of R155 sets for this sweep and the sweep clears, is the model's own
(assumption 16). -/
def Obligations.SweepOfAQuietRack : Prop :=
  (∀ (i : Fin 12) (rs : List Endpoint) (s : State),
    rs = s.records.filter (fun r => r.line == i && r.state == .tracking && r.baseline.isSome) →
    s.indicators i =
      ⟨if rs.length = 0 then 0 else (rs.map (fun r : Endpoint => r.freq - r.baseline.getD 0)).sum.tdiv rs.length, rs.length,
        (s.rack i).members.lost, (s.rack i).latch⟩) ∧
  ∀ (i : Fin 12) (x : Indicators) (s : State), (s.rack i).sweepDue = true → (s.rack i).watch = .quiet →
    x = s.indicators i →
    (x.d.natAbs ≥ (s.rack i).driftWarn ∨ x.lost ≥ (s.rack i).lostWarn ∨ x.excursion ≠ none →
      exec (.rackSweep i) s = .next ((s.modRack i (fun r => { r with
        watch := .watch, dwell := 1, changed := true, sweptD := x.d, sweptTracking := x.tracking, sweptLost := x.lost,
        sweptExcursion := x.excursion, latch := none, sweepDue := false })).raise .rack)) ∧
    (¬(x.d.natAbs ≥ (s.rack i).driftWarn ∨ x.lost ≥ (s.rack i).lostWarn ∨ x.excursion ≠ none) →
      exec (.rackSweep i) s = .next (s.modRack i (fun r => { r with
        dwell := 0, sweptD := x.d, sweptTracking := x.tracking, sweptLost := x.lost, sweptExcursion := x.excursion,
        latch := none, sweepDue := false })))

/-- A sweep of a rack in WATCH: hot, the dwell count advances, and at the dwell limit the rack enters WARN; cool, it enters
QUIET; mild, the dwell count is kept (R156, R158, R163). Hot and cool are those of R156: |D| at or above the drift warn limit,
the lost count at or above its warn limit, or an excursion; and |D| at or below the drift clear limit, the lost count below
its warn limit, and no excursion. The flag sweepDue, which the tick of R155 sets for this sweep and the sweep clears, is the
model's own (assumption 16). -/
def Obligations.SweepOfAWatchedRack : Prop :=
  ∀ (i : Fin 12) (x : Indicators) (f : Rack → Rack) (hot cool : Prop) (s : State), (s.rack i).sweepDue = true →
    (s.rack i).watch = .watch → x = s.indicators i →
    f = (fun r => { r with sweptD := x.d, sweptTracking := x.tracking, sweptLost := x.lost,
                           sweptExcursion := x.excursion, latch := none, sweepDue := false }) →
    (hot ↔ x.d.natAbs ≥ (s.rack i).driftWarn ∨ x.lost ≥ (s.rack i).lostWarn ∨ x.excursion ≠ none) →
    (cool ↔ x.d.natAbs ≤ (s.rack i).driftClear ∧ x.lost < (s.rack i).lostWarn ∧ x.excursion = none) →
    (hot → (s.rack i).dwell + 1 ≥ (s.rack i).dwellLimit →
      exec (.rackSweep i) s = .next ((s.modRack i (fun r => f { r with
        watch := .warn, dwell := 0, repeats := 0, changed := true })).raise .rack)) ∧
    (hot → (s.rack i).dwell + 1 < (s.rack i).dwellLimit →
      exec (.rackSweep i) s = .next (s.modRack i (fun r => f { r with dwell := r.dwell + 1 }))) ∧
    (¬hot → cool →
      exec (.rackSweep i) s = .next ((s.modRack i (fun r => f { r with
        watch := .quiet, dwell := 0, changed := true })).raise .rack)) ∧
    (¬hot → ¬cool →
      exec (.rackSweep i) s = .next (s.modRack i f))

/-- A sweep of a rack in WARN: the first alarm test that holds, DRIFT, LOST, WALK in this order, puts the rack in ALARM, and
every OPEN domain with fence mode FREEZE_DOMAIN that has the rack among its members becomes FROZEN with that rack as its cause
(R121, R159, R161). Where none holds, cool sweeps in number of the dwell limit lead to QUIET and a hot sweep starts the count
again (R160, R163). In ALARM a sweep records its indicators alone (R156). Hot and cool are those of R156: |D| at or above the
drift warn limit, the lost count at or above its warn limit, or an excursion; and |D| at or below the drift clear limit, the
lost count below its warn limit, and no excursion. The flag sweepDue, which the tick of R155 sets for this sweep and the sweep
clears, is the model's own (assumption 16). -/
def Obligations.SweepOfAWarningRack : Prop :=
  ∀ (i : Fin 12) (x : Indicators) (f : Rack → Rack) (hot cool calm : Prop) (s : State), (s.rack i).sweepDue = true →
    x = s.indicators i →
    f = (fun r => { r with sweptD := x.d, sweptTracking := x.tracking, sweptLost := x.lost,
                           sweptExcursion := x.excursion, latch := none, sweepDue := false }) →
    (hot ↔ x.d.natAbs ≥ (s.rack i).driftWarn ∨ x.lost ≥ (s.rack i).lostWarn ∨ x.excursion ≠ none) →
    (cool ↔ x.d.natAbs ≤ (s.rack i).driftClear ∧ x.lost < (s.rack i).lostWarn ∧ x.excursion = none) →
    (calm ↔ x.d.natAbs < (s.rack i).driftAlarm ∧ x.lost < (s.rack i).lostAlarm ∧
      (x.excursion = none ∨ x.excursion ≠ (s.rack i).sweptExcursion)) →
    (∀ c, (s.rack i).watch = .warn →
      (c = .drift ∧ x.d.natAbs ≥ (s.rack i).driftAlarm ∨
        c = .lost ∧ x.d.natAbs < (s.rack i).driftAlarm ∧ x.lost ≥ (s.rack i).lostAlarm ∨
        c = .walk ∧ x.d.natAbs < (s.rack i).driftAlarm ∧ x.lost < (s.rack i).lostAlarm ∧ x.excursion ≠ none ∧
          x.excursion = (s.rack i).sweptExcursion) →
      ∃ t, exec (.rackSweep i) s = .next t ∧
        t.rack i = f { s.rack i with watch := .alarm, cause := some c, dwell := 0, repeats := 0, changed := true } ∧
        (∀ j, j ≠ i → t.rack j = s.rack j) ∧
        t.domains = s.domains.map (fun d =>
          if d.state = .opened ∧ d.fence = .freezeDomain ∧ d.members.getLsbD i = true then
            { d with state := .frozen, cause := some (.rack i) } else d) ∧
        t.port.isPending .rack = true ∧
        (t.port.isPending .domain = true ↔ s.port.isPending .domain = true ∨
          ∃ d ∈ s.domains, d.state = .opened ∧ d.fence = .freezeDomain ∧ d.members.getLsbD i = true) ∧
        t.records = s.records ∧ t.lines = s.lines ∧ t.newcomers = s.newcomers ∧ t.clk = s.clk) ∧
    ((s.rack i).watch = .warn → calm → cool →
      (s.rack i).dwell + 1 ≥ (s.rack i).dwellLimit →
      exec (.rackSweep i) s = .next ((s.modRack i (fun r => f { r with
        watch := .quiet, dwell := 0, repeats := 0, changed := true })).raise .rack)) ∧
    ((s.rack i).watch = .warn → calm → cool →
      (s.rack i).dwell + 1 < (s.rack i).dwellLimit →
      exec (.rackSweep i) s = .next (s.modRack i (fun r => f { r with dwell := r.dwell + 1, repeats := 0 }))) ∧
    ((s.rack i).watch = .warn → calm → ¬cool → hot →
      (s.rack i).repeatOn = false →
      exec (.rackSweep i) s = .next (s.modRack i (fun r => f { r with dwell := 0, repeats := 0 }))) ∧
    ((s.rack i).watch = .warn → calm → ¬cool → hot →
      (s.rack i).repeatOn = true → (s.rack i).repeats + 1 < (s.rack i).dwellLimit →
      exec (.rackSweep i) s = .next (s.modRack i (fun r => f { r with dwell := 0, repeats := r.repeats + 1 }))) ∧
    ((s.rack i).watch = .warn → calm → ¬cool → hot →
      (s.rack i).repeatOn = true → (s.rack i).repeats + 1 ≥ (s.rack i).dwellLimit →
      exec (.rackSweep i) s = .next ((s.modRack i (fun r => f { r with
        dwell := 0, repeats := 0, changed := true })).raise .rack)) ∧
    ((s.rack i).watch = .warn → calm → ¬cool → ¬hot →
      exec (.rackSweep i) s = .next (s.modRack i f)) ∧
    ((s.rack i).watch = .alarm → exec (.rackSweep i) s = .next (s.modRack i f))

/-! ### The rack lines -/

/-- PERIOD_ELAPSED marks the period elapsed, and an unfinished list phase makes the cycle an overrun, which is counted (R47);
a line whose phases are all over starts its next cycle (R43, R48). At that start it takes the rack's boost condition and the
records' base classes, and builds the poll list by rising address (R44, R45, R164); its first record is polled (R46, R53), or
with an empty list the head of the urgent queue (R52); else the discovery phase begins, or the line rests (R64). That the POLL
or DISCOVER goes out at that very instant, or at the end of a character cut off, with t1 captured at its leading edge, is the
model's choice (assumption 12). What a line notes of a start is the model's own field (assumption 43). -/
def Obligations.PeriodElapsedMarksTheCycle : Prop :=
  ∀ (i : Fin 12) (e : Nat) (s : State), (s.line i).periodEnd = some e →
    ((s.line i).phase = .list →
      exec (.periodElapsed i) s = .next ((s.advanceTo e).modLine i (fun l => { l with
        periodEnd := none, periodElapsed := true, overrun := true,
        counters := { l.counters with overruns := min 65535 (l.counters.overruns + 1) } }))) ∧
    ((s.line i).phase ≠ .list → (s.line i).phase ≠ .done →
      exec (.periodElapsed i) s = .next ((s.advanceTo e).modLine i (fun l => { l with
        periodEnd := none, periodElapsed := true }))) ∧
    ((s.line i).phase = .done → ∃ t, exec (.periodElapsed i) s = .next t ∧
      Line.CycleBegun (max s.localNs e) (s.line i) (t.line i) ∧
      ((s.advanceTo e).modLine i (fun l => { l with periodEnd := none, periodElapsed := true })).CycleStarts i t)

/-- POLL_SENT and DISCOVER_SENT come at the end of the frame's last stop bit: the receiver opens, and the reply window in
force at the POLL, or the discovery window taken at the DISCOVER, runs (R29, R54, R64). A frame that the part sends is a run
of characters: a start bit, eight data bits, the least significant first, the mark bit, 1 on the address character and 0 on
every later one, and a stop bit. The line drives them, and asserts its driver enable, from the first start bit to the end of
the last stop bit, and no bit outside a frame (R26, R186). Of a frame that is cut off the character in progress is completed,
as it would have been, no further one is sent, and the driver enable is released at the end of that character's stop bit
(R26); which character that is on the boundary of two, the one that begins there, is the model's choice (assumption 47). -/
def Obligations.SentFrameOpensTheReceiver : Prop :=
  (∀ (i : Fin 12) (f : TxFrame) (s : State), (s.line i).tx = some f →
    (∀ x, (s.line i).state = .polling → (s.line i).transaction = some x →
      exec (.pollSent i) s = .next ((s.advanceTo f.finish).modLine i (fun l => { l with
        tx := none, rxOpen := true, windowEnd := some (max s.localNs f.finish + x.window * 1000) }))) ∧
    ((s.line i).state = .discovering →
      exec (.discoverSent i) s = .next ((s.advanceTo f.finish).modLine i (fun l => { l with
        tx := none, rxOpen := true, windowEnd := some (max s.localNs f.finish + (s.line i).discLength * 1000) })))) ∧
  (∀ (f : TxFrame), f.bits.length = 11 * f.bytes.length ∧
    ∀ (k : Nat) (b : Byte), f.bytes[k]? = some b →
      (f.bits.drop (11 * k)).take 11 =
        [false] ++ (List.range 8).map (fun n => b.getLsbD n) ++ [decide (k = 0), true]) ∧
  (∀ (l : Line) (now : Nat) (rate : BitRate),
    (∀ f, l.tx = some f → f.finish = f.start + f.bytes.length * (11 * rate.bitNs) → f.start ≤ now → now < f.finish →
      l.driverEnabled now = true ∧ l.transmits now = f.bits[(now - f.start) / rate.bitNs]?) ∧
    (∀ g, l.tail = some g → (∀ f, l.tx = some f → now < f.start ∨ f.finish ≤ now) →
      g.finish = g.start + g.bytes.length * (11 * rate.bitNs) → g.start ≤ now → now < g.finish →
      l.driverEnabled now = true ∧ l.transmits now = g.bits[(now - g.start) / rate.bitNs]?) ∧
    ((∀ f, l.tx = some f ∨ l.tail = some f → now < f.start ∨ f.finish ≤ now) →
      l.driverEnabled now = false ∧ l.transmits now = none)) ∧
  ∀ (l n : Line) (f : TxFrame) (at' stop now : Nat), l.tx = some f →
    f.finish = f.start + f.bytes.length * (11 * l.rate.bitNs) → f.start ≤ at' → at' < f.finish →
    n.tx = none → l.CutOff at' n.tail →
    stop = f.start + ((at' - f.start) / (11 * l.rate.bitNs) + 1) * (11 * l.rate.bitNs) →
    at' < stop ∧ stop ≤ f.finish ∧
    (at' ≤ now → now < stop → n.driverEnabled now = true ∧ n.transmits now = l.transmits now) ∧
    (stop ≤ now → n.driverEnabled now = false ∧ n.transmits now = none)

/-- A good REPLY of the transaction, whose characters pass R28's tests and carry the fields of R186 and R187, in the window or
ending after it, is taken in order (R54, R56). EPT judges the acknowledgement (R103 to R107), then the exchange: VOID,
rejected or accepted by its offset and delay (R57 to R61, R78), with the state rules (R72 to R76); an accepted sample moves
the rack's walk counter (R153); COR decides a correction (R98 to R101); STS decides the stamp request with the checks of R134
in order, and values a grant from t4 (R137 to R143). A want-poll request joins the urgent queue or is dropped (R50). Then the
line sends a CLOSE assembled from the record: its address, type and length, the transaction number, the flags, a correction
block where the record has a correction to send, an answer block where it holds an answer, and the check (R62, R186, R188).
The CLOSE begins at the instant of the hand-off, which is the model's choice (assumption 12), as is the instant at which a
character is complete (assumption 34). An age across the wrap of row time is a free value (assumption 3). -/
def Obligations.ReplyHandoffSendsTheClose : Prop :=
  ∀ (i : Fin 12) (dt : Nat) (v : Bool) (cs : List RxChar) (z : RxChar) (p : Reply) (x : Transaction) (r : Endpoint)
    (t1 t4 : RowTime) (epochVoid void : Bool) (th de : Int) (good : Prop) (u s : State),
    (s.line i).state = .polling → (s.line i).transaction = some x → x.failed = false → s.bySlot x.slot = some r →
    (s.line i).CompletesFrame cs v → cs.getLast? = some z → GoodReply r.addr p cs →
    p.txn = (s.line i).txNumber → u = s.heard i dt v → t1 = (u.t1 i).time → t4 = (s.line i).rxEdge.time →
    epochVoid = decide (s.clk.epoch ≠ (u.t1 i).epoch) → void = (epochVoid || decide (r.withdrawal ≠ .no)) →
    th = max (-4611686018427387903) (min 4611686018427387903
      ((((p.t2.toNs : Int) - t1.toNs) + ((p.t3.toNs : Int) - t4.toNs)).tdiv 2 - r.asym.getD 0)) →
    de = ((t4.toNs : Int) - t1.toNs) - ((p.t3.toNs : Int) - p.t2.toNs) →
    (good ↔ p.t2.ns < 1000000000 ∧ p.t3.ns < 1000000000 ∧ 0 ≤ de ∧ de ≤ (s.line i).delayLimit ∧ p.clockValid = true) →
    ∃ (t : State) (a b c e q : Endpoint), exec (.replyHandoff i dt [v]) s = .next t ∧
      r.Acknowledged p.seq a ∧
      (void = true → b = { a with voids := min 65535 (a.voids + 1) } ∧ e = b) ∧
      (void = false → ¬good → a.Rejected b ∧ e = b) ∧
      (void = false → good →
        (∃ f d, Filtered f d c.window ∧
          a.Accepted ⟨t1, th, de.toNat⟩ f (decide (r.state = .tracking ∧ a.state = .suspect)) c b) ∧
        ∃ f d k, Filtered f d b.window ∧ b.ClassIs (s.line i).boost k ∧
          b.Corrected f ((s.line i).period * 2 ^ k) e) ∧
      t.bySlot x.slot = some q ∧ q = { e with answer := q.answer } ∧
      (p.ask = none → q.answer = r.answer ∧ t.domains = s.domains) ∧
      (∀ id n code, p.ask = some (id, n) → s.LineRefused e epochVoid id n code →
        q.answer = some (.refusal id code) ∧ t.domains = s.domains.map (fun d =>
          if d.id = id then { d with refusals := min 4294967295 (d.refusals + 1) } else d)) ∧
      (∀ id n d, p.ask = some (id, n) → s.LinePasses e epochVoid id n d → ∃ bound base gap : Nat,
        (e.window = [] → bound = 4294967295) ∧
        (∀ y f m, e.window.getLast? = some y → Filtered f m e.window → y.t1.toNs ≤ t4.toNs →
          bound = min 4294967295 (u.clk.u + m / 2 + (s.line r.line).asymAllow +
            (t4.toNs - y.t1.toNs) / 1000000 * (s.line r.line).driftAllow / 1000)) ∧
        (d.lastIssued = none → base = t4.toNs) ∧ (∀ l, d.lastIssued = some l → base = max t4.toNs (l.toNs + 1)) ∧
        gap = min 4294967295 (bound + (base - t4.toNs)) ∧
        (d.tolerance < gap ∨ 281474976710656 * 1000000000 < base + n →
          q.answer = some (.refusal id .uncertain) ∧ t.domains = s.domains.map (fun d =>
            if d.id = id then { d with refusals := min 4294967295 (d.refusals + 1) } else d)) ∧
        (gap ≤ d.tolerance → base + n ≤ 281474976710656 * 1000000000 →
          q.answer = some (.grant ⟨id, (s.line i).rxEdge.epoch, RowTime.ofNs base, n, gap, decide (t4.toNs < base)⟩) ∧
          t.domains = s.domains.map (fun d => if d.id = id then { d with
            lastIssued := some (RowTime.ofNs (base + n - 1)), grants := min 4294967295 (d.grants + 1)
            stamps := min 281474976710655 (d.stamps + n), pendingDel := d.pendingDel + 1 } else d))) ∧
      t.line i = { u.line i with
        receiver := z.after, rx := [], rxOpen := false, windowEnd := none, windowElapsed := false, state := .closing
        tx := (t.line i).tx
        urgent := if p.wantPoll = true ∧ q.pollable = true ∧ x.slot ∉ (s.line i).urgent ∧ (s.line i).urgent.length < 8
          then (s.line i).urgent ++ [x.slot] else (s.line i).urgent
        counters := { (s.line i).counters with
          noisy := if cs.any RxChar.noisy then min 65535 ((s.line i).counters.noisy + 1) else (s.line i).counters.noisy
          urgentDrops := if p.wantPoll = true ∧ q.pollable = true ∧ x.slot ∉ (s.line i).urgent ∧ 8 ≤ (s.line i).urgent.length
            then min 65535 ((s.line i).counters.urgentDrops + 1) else (s.line i).counters.urgentDrops } } ∧
      (∃ bs, CloseCarries r.addr (s.line i).txNumber q.toSend q.answer bs ∧
        (t.line i).tx = some ⟨bs, (s.line i).sendStart u.localNs,
          (s.line i).sendStart u.localNs + bs.length * (11 * (s.line i).rate.bitNs)⟩) ∧
      (∀ j, j ≠ i → t.line j = s.line j) ∧ (∀ n, n ≠ x.slot → t.bySlot n = s.bySlot n) ∧
      (∀ j st, (t.rack j).members.get st =
        if j = r.line ∧ q.state ≠ r.state then
          (if st = r.state then (s.rack j).members.get st - 1
            else if st = q.state then (s.rack j).members.get st + 1 else (s.rack j).members.get st)
        else (s.rack j).members.get st) ∧
      (∀ j, t.rack j = { u.rack j with
        members := (t.rack j).members, walk := (t.rack j).walk, latch := (t.rack j).latch }) ∧
      (∀ j, j ≠ i ∨ void = true ∨ ¬good ∨ b.state ≠ .tracking ∨ (s.rack j).watch = .off →
        (t.rack j).walk = (s.rack j).walk ∧ (t.rack j).latch = (s.rack j).latch) ∧
      (∀ w : Int, void = false → good → b.state = .tracking → (s.rack i).watch ≠ .off →
        w = (if th > (s.rack i).walkQuantum then (s.rack i).walk + 1
          else if th < -((s.rack i).walkQuantum : Int) then (s.rack i).walk - 1 else (s.rack i).walk) →
        (w ≥ (s.rack i).walkLimit → (t.rack i).walk = 0 ∧ (t.rack i).latch = some .leading) ∧
        (w < (s.rack i).walkLimit → w ≤ -((s.rack i).walkLimit : Int) →
          (t.rack i).walk = 0 ∧ (t.rack i).latch = some .lagging) ∧
        (w < (s.rack i).walkLimit → -((s.rack i).walkLimit : Int) < w →
          (t.rack i).walk = w ∧ (t.rack i).latch = (s.rack i).latch)) ∧
      t.newcomers = s.newcomers ∧ t.overflow = s.overflow ∧ t.port = s.port ∧ t.clk = u.clk ∧ t.chanA = s.chanA ∧
      t.chanB = s.chanB ∧ t.localNs = u.localNs

/-- A frame that ends in the reply window and is not a good REPLY of the transaction, or not its first frame, fails the
transaction; a bad one, which a test of R28 or the stamp request bit of R187 makes bad, is counted as a bad frame, and a noisy
one as noisy (R28, R54). If the window's length had run already, the transaction then ends as a MISS, as at REPLY_WINDOW_END
(R54, R55). A character with the mark bit 1 ends the frame in assembly as bad, and begins the next frame (R28), where it came
before the window's end. One whose leading edge came after that end ends the transaction as a MISS with the frame, and is then
stray, which is the model's choice (assumption 42). The instant at which a character is complete is the model's choice
(assumption 34). What a MISS does is as at REPLY_WINDOW_END, on the model's choices 12 (the next frame goes out at once), 17
(the good count of an ENROLLING record with a SUSPEND pending) and 43 (what a line notes of a start). Whether a frame of a
type that R186 does not have ends at the length it states is a free value (assumption 50), and where the type and length of a
frame begun with the mark bit 0 stand is the model's reading of R28 (assumption 18). -/
def Obligations.FailedFrameFailsTheTransaction : Prop :=
  ∀ (i : Fin 12) (dt : Nat) (v : Bool) (s : State), (s.line i).state = .polling →
    (∀ (cs : List RxChar) (z : RxChar) (n : Nat) (u : State), (s.line i).CompletesFrame cs v → cs.getLast? = some z →
      ¬s.ReplyOf i cs →
      (BadFrame cs → n = min 65535 ((s.line i).counters.badFrames + 1)) →
      (¬BadFrame cs → n = (s.line i).counters.badFrames) →
      u = (s.heard i dt v).modLine i (fun l => { l with
        receiver := z.after, rx := []
        transaction := l.transaction.map (fun x => { x with failed := true })
        counters := { l.counters with
          noisy := if cs.any RxChar.noisy then min 65535 (l.counters.noisy + 1) else l.counters.noisy
          badFrames := n } }) →
      ∃ t, exec (.pollingFrameFailed i dt [v]) s = .next t ∧ ((s.line i).windowElapsed = false → t = u) ∧
        ((s.line i).windowElapsed = true → u.Misses i t)) ∧
    (∀ (start : Nat) (edge : Capture) (z : RxChar) (u : State), (s.line i).Completes start edge z v → z.marked = true →
      (s.line i).rx ≠ [] → ¬FrameFull (s.line i).rx → (s.line i).rxOpen = true →
      u = (s.heard i dt v).modLine i (fun l => { l with
        rx := []
        transaction := l.transaction.map (fun x => { x with failed := true })
        counters := { l.counters with
          noisy := if l.rx.any RxChar.noisy then min 65535 (l.counters.noisy + 1) else l.counters.noisy
          badFrames := min 65535 (l.counters.badFrames + 1) } }) →
      ((s.line i).windowElapsed = false ∨ (s.line i).charInWindow = true →
        exec (.pollingFrameFailed i dt [v]) s = .next (u.modLine i (fun l => { l with
          receiver := z.after, rx := [z], rxEdge := edge, rxAt := start + 11 * l.rate.bitNs }))) ∧
      ((s.line i).windowElapsed = true → (s.line i).charInWindow = false → (s.line i).transaction ≠ none →
        ∃ w : State, u.Misses i w ∧ exec (.pollingFrameFailed i dt [v]) s = .next (w.modLine i (fun l => { l with
          receiver := z.after, counters := { l.counters with stray := min 65535 (l.counters.stray + 1) } }))))

/-- REPLY_WINDOW_END with no frame in assembly, and none beginning with a character that is still arriving, ends the
transaction as a MISS: the line counts it, the record takes the miss rule, LOST is raised when the miss limit takes the record
to LOST, and a pending withdrawal is completed (R55, R63, R71, R77); a line that was asked to quiesce is QUIESCED (R38). Else
it goes on: with its list, its urgent queue, its discovery phase or its next cycle (R46, R47, R48, R52); that the next frame
goes out at that very instant is the model's choice (assumption 12). A frame that began in the window is received to its end
first (R29, R54); that a start bit which may prove false waits too is the model's choice (assumption 41). That a MISS sets the
good count of an ENROLLING record to 0 though its SUSPEND is pending is its reading of R77 (assumption 17). What a line notes
of a start is the model's own field (assumption 43). -/
def Obligations.ReplyWindowEndIsAMiss : Prop :=
  ∀ (i : Fin 12) (e : Nat) (s : State), (s.line i).state = .polling → (s.line i).windowEnd = some e →
    ((s.line i).rx ≠ [] ∨ (s.line i).charInWindow = true →
      exec (.replyWindowEnd i) s = .next ((s.advanceTo e).modLine i (fun l => { l with
        windowEnd := none, windowElapsed := true }))) ∧
    (∀ (x : Transaction) (r : Endpoint), (s.line i).rx = [] → (s.line i).charInWindow = false →
      (s.line i).transaction = some x → s.bySlot x.slot = some r → s.SlotsRise →
      ∃ t, exec (.replyWindowEnd i) s = .next t ∧
        (t.line i).counters = { (s.line i).counters with misses := min 65535 ((s.line i).counters.misses + 1) } ∧
        ((s.line i).quiesceReq = true → (t.line i).state = .quiesced ∧ (t.line i).transaction = none ∧
          (t.line i).quiesceReq = false) ∧
        (r.withdrawal = .retire → t.bySlot x.slot = none) ∧
        (r.withdrawal = .suspend → ∃ q, t.bySlot x.slot = some q ∧ q.state = .suspended ∧ q.withdrawal = .no ∧
          q = { r with
            missCount := min 15 (r.missCount + 1), missTotal := min 65535 (r.missTotal + 1)
            goodCount := if r.state = .enrolling then 0 else r.goodCount
            state := .suspended, withdrawal := .no, answer := none, inTxn := q.inTxn, cycleClass := q.cycleClass }) ∧
        (r.withdrawal = .no → ∃ q, t.bySlot x.slot = some q ∧ q.missCount = min 15 (r.missCount + 1) ∧
          q.missTotal = min 65535 (r.missTotal + 1) ∧
          q.state = (match r.state with
            | .enrolling => if min 15 (r.missCount + 1) ≥ (s.line i).missLimit then .lost else .enrolling
            | .tracking => if min 15 (r.missCount + 1) ≥ (s.line i).missLimit then .lost else .suspect
            | .suspect => if min 15 (r.missCount + 1) ≥ (s.line i).missLimit then .lost else .suspect
            | other => other) ∧
          q = { r with
            missCount := min 15 (r.missCount + 1), missTotal := min 65535 (r.missTotal + 1), state := q.state
            goodCount := if r.state = .enrolling ∨ q.state = .lost ∧ r.state ≠ .lost then 0 else r.goodCount
            answer := none, inTxn := q.inTxn, cycleClass := q.cycleClass } ∧
          (q.state = .lost → r.state ≠ .lost → t.port.isPending .lost = true)) ∧
        (r.answer = none → t.domains = s.domains) ∧
        (∀ n, n ≠ x.slot → (t.bySlot n).map (fun q => { q with inTxn := false, cycleClass := 0 }) =
          (s.bySlot n).map (fun q => { q with inTxn := false, cycleClass := 0 })) ∧
        t.newcomers = s.newcomers ∧ t.overflow = s.overflow ∧ t.clk = (s.advanceTo e).clk ∧ t.chanA = s.chanA ∧
        t.chanB = s.chanB) ∧
    ((s.line i).rx = [] → (s.line i).charInWindow = false → (s.line i).transaction ≠ none →
      ∃ t, exec (.replyWindowEnd i) s = .next t ∧ (s.advanceTo e).Misses i t)

/-- CLOSE_SENT ends the transaction completed: the correction to send and the pending grant leave the record, a pending
withdrawal is completed, the grant's domain has one pending delivery less and is removed when it is RETIRING and the last is
settled, and a line that was asked to quiesce is QUIESCED (R38, R63, R90, R102, R128, R144). Else it goes on: with its list,
its urgent queue, its discovery phase or its next cycle (R46, R47, R48, R52); that the next frame goes out at that very
instant is the model's choice (assumption 12). What a line notes of a start is the model's own field (assumption 43). -/
def Obligations.CloseSentCompletesTheTransaction : Prop :=
  ∀ (i : Fin 12) (f : TxFrame) (x : Transaction) (r : Endpoint) (s : State), (s.line i).state = .closing →
    (s.line i).tx = some f → (s.line i).transaction = some x → s.bySlot x.slot = some r → s.SlotsRise →
    ∃ t, exec (.closeSent i) s = .next t ∧ t.localNs = max s.localNs f.finish ∧
      (r.withdrawal = .retire → t.bySlot x.slot = none) ∧
      (r.withdrawal ≠ .retire → ∃ q, t.bySlot x.slot = some q ∧ q.toSend = none ∧ q.answer = none ∧
        q.withdrawal = .no ∧ q.state = (if r.withdrawal = .suspend then .suspended else r.state) ∧
        q.cmdSeq = r.cmdSeq ∧ q.ackSeq = r.ackSeq ∧ q.window = r.window ∧ q.freq = r.freq ∧
        q = { r with
          toSend := none, answer := none, withdrawal := .no, inTxn := q.inTxn, cycleClass := q.cycleClass
          state := if r.withdrawal = .suspend then .suspended else r.state }) ∧
      (∀ g d, r.answer = some (.grant g) → s.domain g.domain = some d →
        t.domain g.domain = if d.state = .retiring ∧ d.pendingDel ≤ 1 then none
          else some { d with pendingDel := d.pendingDel - 1 }) ∧
      ((∀ g, r.answer ≠ some (.grant g)) → t.domains = s.domains) ∧
      (∀ n, n ≠ x.slot → (t.bySlot n).map (fun q => { q with inTxn := false, cycleClass := 0 }) =
        (s.bySlot n).map (fun q => { q with inTxn := false, cycleClass := 0 })) ∧
      (t.line i).counters = (s.line i).counters ∧ t.newcomers = s.newcomers ∧ t.overflow = s.overflow ∧
      t.port = s.port ∧ t.clk = (s.advanceTo f.finish).clk ∧ t.chanA = s.chanA ∧ t.chanB = s.chanB ∧
      ((s.line i).quiesceReq = true → (t.line i).state = .quiesced ∧ (t.line i).transaction = none ∧
        (t.line i).quiesceReq = false) ∧
      (r.line = i → ∃ w, ((s.advanceTo f.finish).modLine i (fun l => { l with tx := none })).TxnEnds i .closed x r w ∧
        ((s.line i).quiesceReq = true → t = w.modLine i (fun l => { l with
          pollList := [], pollPos := 0, phase := .stopped, periodEnd := none, periodElapsed := false, overrun := false,
          state := .quiesced, quiesceReq := false })) ∧
        ((s.line i).quiesceReq = false → (w.modLine i (fun l => { l with state := .idle })).GoesOn i t))

/-- A good ANNOUNCE, whose characters pass R28's tests and carry the address and identity of R186, received in the discovery
window (R65, R187): from a key with a record it is a conflict; from a key in the newcomer set it replaces the identity and is
seen once more; else it is added at the newest end with NEWCOMER raised, or dropped with the overflow flag set when the set is
full; from an address outside 1 to 47 it does nothing (R65, R80, R94). If the window's length had run already, the window then
ends, as at DISCOVERY_WINDOW_END (R66). The instant at which a character is complete is the model's choice (assumption 34).
That the next cycle's first frame then goes out at once is its choice too (assumption 12). What a line notes of a start is the
model's own field (assumption 43). -/
def Obligations.AnnounceReachesTheTables : Prop :=
  ∀ (i : Fin 12) (dt : Nat) (v : Bool) (cs : List RxChar) (z : RxChar) (addr : Nat) (ident : BitVec 32) (u s : State),
    (s.line i).state = .discovering → (s.line i).CompletesFrame cs v → cs.getLast? = some z →
    GoodAnnounce addr ident cs →
    u = (s.heard i dt v).modLine i (fun l => { l with
      receiver := z.after, rx := []
      counters := { l.counters with
        noisy := if cs.any RxChar.noisy then min 65535 (l.counters.noisy + 1) else l.counters.noisy } }) →
    ∃ t w : State, exec (.announce i dt [v]) s = .next t ∧
      ((s.line i).windowElapsed = false → t = w) ∧ ((s.line i).windowElapsed = true → w.DiscoveryEnds i t) ∧
      (¬(1 ≤ addr ∧ addr ≤ 47) → w = u) ∧
      (∀ r, 1 ≤ addr → addr ≤ 47 → s.byKey i addr = some r →
        w = u.updateRecord r.slot (fun q => { q with
          conflicts := min 65535 (q.conflicts + 1), state := if q.state = .tracking then .suspect else q.state })) ∧
      (1 ≤ addr → addr ≤ 47 → s.byKey i addr = none → (∃ n ∈ s.newcomers, n.line = i ∧ n.addr = addr) →
        w = { u with newcomers := s.newcomers.map (fun n =>
          if n.line = i ∧ n.addr = addr then { n with identity := ident, timesSeen := min 255 (n.timesSeen + 1) } else n) }) ∧
      (1 ≤ addr → addr ≤ 47 → s.byKey i addr = none → (¬∃ n ∈ s.newcomers, n.line = i ∧ n.addr = addr) →
        s.newcomers.length < 16 →
        w = State.raise .newcomer { u with newcomers := s.newcomers ++ [⟨i, addr, ident, 1, u.clk.row.sec⟩] }) ∧
      (1 ≤ addr → addr ≤ 47 → s.byKey i addr = none → (¬∃ n ∈ s.newcomers, n.line = i ∧ n.addr = addr) →
        16 ≤ s.newcomers.length → w = { u with overflow := true })

/-- A frame in the discovery window that is no good ANNOUNCE reports nothing; a bad one, which a test of R28 or the stamp
request bit of R187 makes bad, is a collision and counted (R65); if the window's length had run already, the window then ends,
as at DISCOVERY_WINDOW_END (R66). A character with the mark bit 1 ends the frame in assembly as bad, and begins the next frame
(R28), where it came before the window's end. One whose leading edge came after that end ends the discovery phase with the
frame, and is then stray, which is the model's choice (assumption 42). The instant at which a character is complete is the
model's choice (assumption 34). That the next cycle's first frame then goes out at once is its choice too (assumption 12).
What a line notes of a start is the model's own field (assumption 43). Whether a frame of a type that R186 does not have ends
at the length it states is a free value (assumption 50), and where the type and length of a frame begun with the mark bit 0
stand is the model's reading of R28 (assumption 18). -/
def Obligations.DiscoveryCollisionIsCounted : Prop :=
  ∀ (i : Fin 12) (dt : Nat) (v : Bool) (s : State), (s.line i).state = .discovering →
    (∀ (cs : List RxChar) (z : RxChar) (n : Nat) (u : State), (s.line i).CompletesFrame cs v → cs.getLast? = some z →
      (BadFrame cs → n = min 65535 ((s.line i).counters.collisions + 1)) →
      (¬BadFrame cs → n = (s.line i).counters.collisions) →
      u = (s.heard i dt v).modLine i (fun l => { l with
        receiver := z.after, rx := []
        counters := { l.counters with
          noisy := if cs.any RxChar.noisy then min 65535 (l.counters.noisy + 1) else l.counters.noisy
          collisions := n } }) →
      (∀ addr ident, ¬GoodAnnounce addr ident cs) →
      ∃ t, exec (.discoveryCollision i dt [v]) s = .next t ∧ ((s.line i).windowElapsed = false → t = u) ∧
        ((s.line i).windowElapsed = true → u.DiscoveryEnds i t)) ∧
    (∀ (start : Nat) (edge : Capture) (z : RxChar) (u : State), (s.line i).Completes start edge z v → z.marked = true →
      (s.line i).rx ≠ [] → ¬FrameFull (s.line i).rx → (s.line i).rxOpen = true →
      u = (s.heard i dt v).modLine i (fun l => { l with
        rx := []
        counters := { l.counters with
          noisy := if l.rx.any RxChar.noisy then min 65535 (l.counters.noisy + 1) else l.counters.noisy
          collisions := min 65535 (l.counters.collisions + 1) } }) →
      ((s.line i).windowElapsed = false ∨ (s.line i).charInWindow = true →
        exec (.discoveryCollision i dt [v]) s = .next (u.modLine i (fun l => { l with
          receiver := z.after, rx := [z], rxEdge := edge, rxAt := start + 11 * l.rate.bitNs }))) ∧
      ((s.line i).windowElapsed = true → (s.line i).charInWindow = false →
        ∃ w : State, u.DiscoveryEnds i w ∧ exec (.discoveryCollision i dt [v]) s = .next (w.modLine i (fun l => { l with
          receiver := z.after, counters := { l.counters with stray := min 65535 (l.counters.stray + 1) } }))))

/-- DISCOVERY_WINDOW_END with no frame in assembly, and none beginning with a character that is still arriving, closes the
receiver: the line is QUIESCED if that was asked for; else it is IDLE for the rest of the cycle, or starts the next cycle if
the period has elapsed (R38, R48, R66). A frame that began in the window is received to its end first (R29, R65); that a start
bit which may prove false waits too is the model's choice (assumption 41). That the next cycle's POLL or DISCOVER goes out at
that very instant, with t1 captured at its leading edge, is its choice too (assumption 12). What a line notes of a start is
the model's own field (assumption 43). -/
def Obligations.DiscoveryWindowEndGoesOn : Prop :=
  ∀ (i : Fin 12) (e : Nat) (s : State), (s.line i).state = .discovering → (s.line i).windowEnd = some e →
    ((s.line i).rx ≠ [] ∨ (s.line i).charInWindow = true →
      exec (.discoveryWindowEnd i) s = .next ((s.advanceTo e).modLine i (fun l => { l with
        windowEnd := none, windowElapsed := true }))) ∧
    ((s.line i).rx = [] → (s.line i).charInWindow = false →
      ∃ t, exec (.discoveryWindowEnd i) s = .next t ∧ (s.advanceTo e).DiscoveryEnds i t ∧
        ((s.line i).quiesceReq = false → (s.line i).phase = .discovery → (s.line i).periodElapsed = true →
          Line.CycleBegun (max s.localNs e) (s.line i) (t.line i)))

/-- FRAME_GAP_TIMEOUT past two character times after the last stop bit, with no further start bit, ends the frame in assembly
as bad: in POLLING it fails the transaction and is counted as a bad frame, in DISCOVERING it is counted as a collision (R28,
R54, R65). If the window's length had run already, the transaction then ends as a MISS, or the discovery window ends (R54,
R66). While a character is arriving there is no gap (R28). The gap's end in whole ns is the model's choice (assumption 21),
and so is it that the gap runs from the stop bit's end at the break level too, which the pair may still be at after a framing
error, while the receiver waits for the idle level (assumption 49). What a MISS or the discovery phase's end does is as at the
window's end, on the model's choices 12 (the next frame goes out at once), 17 (the good count of an ENROLLING record with a
SUSPEND pending) and 43 (what a line notes of a start). Whether a frame of a type that R186 does not have ends at the length
it states is a free value (assumption 50), and where the type and length of a frame begun with the mark bit 0 stand is the
model's reading of R28 (assumption 18). -/
def Obligations.FrameGapEndsTheFrameAsBad : Prop :=
  ∀ (i : Fin 12) (s : State), (s.line i).rx ≠ [] → ¬FrameFull (s.line i).rx →
    (∀ start edge w taken, (s.line i).receiver = .char start edge w taken → exec (.frameGapTimeout i) s = .next s) ∧
    ((s.line i).receiver = .waiting ∨ (s.line i).receiver = .held →
      (∀ u, (s.line i).state = .polling →
        u = (s.advanceTo ((s.line i).rxAt + 2 * (11 * (s.line i).rate.bitNs) + 1)).modLine i (fun l => { l with
          rx := []
          transaction := l.transaction.map (fun x => { x with failed := true })
          counters := { l.counters with
            noisy := if l.rx.any RxChar.noisy then min 65535 (l.counters.noisy + 1) else l.counters.noisy
            badFrames := min 65535 (l.counters.badFrames + 1) } }) →
        ∃ t, exec (.frameGapTimeout i) s = .next t ∧ ((s.line i).windowElapsed = false → t = u) ∧
          ((s.line i).windowElapsed = true → u.Misses i t)) ∧
      (∀ u, (s.line i).state = .discovering →
        u = (s.advanceTo ((s.line i).rxAt + 2 * (11 * (s.line i).rate.bitNs) + 1)).modLine i (fun l => { l with
          rx := []
          counters := { l.counters with
            noisy := if l.rx.any RxChar.noisy then min 65535 (l.counters.noisy + 1) else l.counters.noisy
            collisions := min 65535 (l.counters.collisions + 1) } }) →
        ∃ t, exec (.frameGapTimeout i) s = .next t ∧ ((s.line i).windowElapsed = false → t = u) ∧
          ((s.line i).windowElapsed = true → u.DiscoveryEnds i t)))

/-- The receiver (R27), to which every row that brings samples hands them, whatever the row is called, which is the model's
choice (assumption 9). Samples are taken in turn, each at its own instant of the sixteen to a bit time, whatever command
brings them. A transition to the break level is a leading edge, captured there (R20). A start bit that the majority decides at
the idle level was no character. After a framing error the idle level is waited for. A completed character is stray, and
counted, while the receiver is not open; else it begins a frame or joins the one in assembly (R28, R29). In OFF no sample has
an effect. The places of the samples, the ninth sample as the instant of a decision, and samples not brought having no effect
are the model's choice (assumption 34), and so is a window past its length ending where a false start is decided (assumption
41). What a MISS then does rests on the choices 12, 17 and 43 as at REPLY_WINDOW_END. That a fault comes with the 352nd break
sample in a row is its choice too (assumption 46). Whether a frame of a type that R186 does not have ends at the length it
states is a free value (assumption 50), and where the type and length of a frame begun with the mark bit 0 stand is the
model's reading of R28 (assumption 18). -/
def Obligations.StrayCharacterIsCounted : Prop :=
  (∀ (i : Fin 12) (dt : Nat) (vs : List Bool) (v : Bool) (s : State) (c : List Bool → Instr),
    c ∈ [Instr.replyHandoff i dt, .pollingFrameFailed i dt, .announce i dt, .discoveryCollision i dt, .strayCharacter i dt,
      fun vs => .lineFault i ⟨dt, vs⟩, fun vs => .recoveryWatchRestart i ⟨dt, vs⟩] →
    exec (c []) s = .next (s.advance dt) ∧ exec (c vs) s = exec (.strayCharacter i dt vs) s ∧
    ∃ t, exec (c vs) s = .next t ∧ exec (c (vs ++ [v])) s = .next (t.sample i v)) ∧
  (∀ (i : Fin 12) (dt : Nat) (v : Bool) (s : State),
    (∃ k, (s.heard i dt v).localNs = k * (s.line i).rate.bitNs / 16 ∧
      max (s.localNs + dt) ((s.line i).sampledAt + 1) ≤ (s.heard i dt v).localNs ∧
      ∀ j, j < k → j * (s.line i).rate.bitNs / 16 < max (s.localNs + dt) ((s.line i).sampledAt + 1)) ∧
    (s.heard i dt v).line i = { s.line i with
      sampledAt := (s.heard i dt v).localNs, level := v
      faultWatch := (s.line i).faultWatch.map (fun n => if v then 0 else n + 1) } ∧
    ((s.line i).state = .off → exec (.strayCharacter i dt [v]) s = .next (s.heard i dt v))) ∧
  ∀ (i : Fin 12) (dt : Nat) (v : Bool) (s : State), (s.line i).Undisturbed v →
    ((s.line i).receiver = .waiting →
      exec (.strayCharacter i dt [v]) s = .next (if (s.line i).level = true ∧ v = false
        then (s.heard i dt v).modLine i (fun l => { l with
          receiver := .char (s.heard i dt v).localNs ⟨(s.heard i dt v).clk.row, s.clk.epoch⟩
            (l.rxOpen && !l.windowElapsed) [false] })
        else s.heard i dt v)) ∧
    ((s.line i).receiver = .held →
      exec (.strayCharacter i dt [v]) s = .next ((s.heard i dt v).modLine i (fun l => { l with
        receiver := if v then .waiting else .held }))) ∧
    (∀ start edge w taken, (s.line i).receiver = .char start edge w taken → taken.length ≠ 8 → taken.length < 168 →
      exec (.strayCharacter i dt [v]) s = .next ((s.heard i dt v).modLine i (fun l => { l with
        receiver := .char start edge w (taken ++ [v]) }))) ∧
    (∀ start edge w taken a b, (s.line i).receiver = .char start edge w taken → taken.length = 8 →
      taken.drop 6 = [a, b] →
      ((a && b || a && v || b && v) = false →
        exec (.strayCharacter i dt [v]) s = .next ((s.heard i dt v).modLine i (fun l => { l with
          receiver := .char start edge w (taken ++ [v]) }))) ∧
      ((a && b || a && v || b && v) = true → (s.line i).rx ≠ [] ∨ (s.line i).windowElapsed = false →
        exec (.strayCharacter i dt [v]) s = .next ((s.heard i dt v).modLine i (fun l => { l with receiver := .waiting }))) ∧
      ((a && b || a && v || b && v) = true → (s.line i).rx = [] → (s.line i).windowElapsed = true →
        ((s.line i).state = .polling → ∃ t, exec (.strayCharacter i dt [v]) s = .next t ∧
          ((s.heard i dt v).modLine i (fun l => { l with receiver := .waiting })).Misses i t) ∧
        ((s.line i).state = .discovering → ∃ t, exec (.strayCharacter i dt [v]) s = .next t ∧
          ((s.heard i dt v).modLine i (fun l => { l with receiver := .waiting })).DiscoveryEnds i t))) ∧
    (∀ start edge z, (s.line i).Completes start edge z v →
      ((s.line i).rxOpen = false → (s.line i).rx = [] →
        exec (.strayCharacter i dt [v]) s = .next ((s.heard i dt v).modLine i (fun l => { l with
          receiver := z.after, counters := { l.counters with stray := min 65535 (l.counters.stray + 1) } }))) ∧
      ((s.line i).rxOpen = true → (s.line i).rx = [] →
        exec (.strayCharacter i dt [v]) s = .next ((s.heard i dt v).modLine i (fun l => { l with
          receiver := z.after, rx := [z], rxEdge := edge, rxAt := start + 11 * l.rate.bitNs }))) ∧
      ((s.line i).rx ≠ [] → z.marked = false → ¬FrameFull ((s.line i).rx ++ [z]) →
        exec (.strayCharacter i dt [v]) s = .next ((s.heard i dt v).modLine i (fun l => { l with
          receiver := z.after, rx := l.rx ++ [z], rxAt := start + 11 * l.rate.bitNs }))))

/-- LINE_FAULT: while the fault watch runs, each sample at the break level adds to the time measured and each at the idle
level sets it back to 0, and the sample that makes it 22 bit times is a fault (R32): that it is the 352nd in a row, each
counting a sixteenth, is the model's choice (assumption 46). The line is then in FAULT with its transaction and cycle gone,
what it was sending cut off after the character in progress (R26, R31), and its recovery watch running, with no idle level yet
(R34). Its ENROLLING, TRACKING and SUSPECT records are LOST with good count 0, and no other record moves (R82), but for the
subject of the abandoned transaction, which is settled and whose pending withdrawal is completed (R31, R90, R102). A grant
that it held is settled and burned (R145). Its rack is in ALARM with cause LINE_FAULT unless it was OFF or in ALARM, and LINE
is raised (R162); every OPEN domain of fence mode FREEZE_DOMAIN with that rack among its members is then FROZEN (R121, R161).
No other line or rack changes. A transaction or discovery phase that has begun at that very instant is found not begun, and
the line IDLE, as R33 has it after a LINE_RESET; for every other start that is the model's choice, and what a line notes of a
start is its own field (assumption 43). The samples' grid, and a sample being measured before a receiver takes it, are the
model's choice (assumption 34), and so is it that a DISCOVER is cut off as a frame of a transaction is (assumption 19). Which
character a cut-off on the boundary of two completes, the one that begins there, is the model's choice (assumption 47). -/
def Obligations.LineFaultStopsTheLine : Prop :=
  (∀ (i : Fin 12) (dt n : Nat) (v : Bool) (s : State), (s.line i).state ≠ .off → (s.line i).state ≠ .fault →
    (s.line i).faultWatch = some n → v = true ∨ n + 1 < 352 →
    ∃ t, exec (.lineFault i ⟨dt, [v]⟩) s = .next t ∧
      ((s.line i).Undisturbed v → (s.line i).receiver = .held → v = false → t = s.heard i dt v) ∧
      ((s.line i).receiver = .held → (t.line i).faultWatch = some (if v then 0 else n + 1) ∧
        (t.line i).state = (s.line i).state)) ∧
  ∀ (i : Fin 12) (dt n : Nat) (u s : State), (s.line i).state ≠ .off → (s.line i).state ≠ .fault →
    (s.line i).faultWatch = some n → 352 ≤ n + 1 → u = s.heard i dt false →
    ∃ t, exec (.lineFault i ⟨dt, [false]⟩) s = .next t ∧ t.localNs = u.localNs ∧
      (t.line i).state = .fault ∧ (t.line i).transaction = none ∧ (t.line i).pollList = [] ∧ (t.line i).pollPos = 0 ∧
      (t.line i).periodEnd = none ∧ (t.line i).rxOpen = false ∧ (t.line i).rx = [] ∧ (t.line i).receiver = .waiting ∧
      (t.line i).faultWatch = none ∧ (t.line i).recoveryWatch = some none ∧ (t.line i).tx = none ∧
      (∀ f, (∀ b, ¬u.BegunNow i b) → (s.line i).tx = some f → f.start ≤ u.localNs → u.localNs < f.finish → ∃ m,
        m = (u.localNs - f.start) / (11 * (s.line i).rate.bitNs) + 1 ∧
        (t.line i).tail = some ⟨f.bytes.take m, f.start, f.start + m * (11 * (s.line i).rate.bitNs)⟩) ∧
      (∀ b, u.BegunNow i b → (t.line i).txNumber = b.txNumber ∧ (t.line i).tail = (s.line i).tail) ∧
      (t.line i).quiesceReq = ((s.line i).quiesceReq || (s.line i).state == .quiesced) ∧
      (t.line i).counters = (s.line i).counters ∧ (t.line i).cycle = (s.line i).cycle ∧
      ((∀ b, ¬u.BegunNow i b) →
        (∀ x r, (s.line i).transaction = some x → s.bySlot x.slot = some r → r.withdrawal = .no) →
        (t.line i).urgent = (s.line i).urgent) ∧
      t.port.isPending .line = true ∧
      (s.SlotsRise →
        (∀ r ∈ s.records, (∀ x, (s.line i).transaction = some x → x.slot ≠ r.slot) →
          (if r.line = i ∧ (r.state = .enrolling ∨ r.state = .tracking ∨ r.state = .suspect)
            then { r with state := .lost, goodCount := 0 } else r) ∈ t.records) ∧
        (∀ x r, (s.line i).transaction = some x → s.bySlot x.slot = some r → r.line = i →
          (r.withdrawal = .retire → (∀ b, ¬u.BegunNow i b) → t.bySlot x.slot = none) ∧
          (r.withdrawal = .suspend → (∀ b, ¬u.BegunNow i b) → ∃ q, t.bySlot x.slot = some q ∧ q.state = .suspended ∧
            q.withdrawal = .no ∧ q.inTxn = false ∧ q.answer = none) ∧
          (r.withdrawal = .no → (∀ b, ¬u.BegunNow i b) → ∃ q, t.bySlot x.slot = some q ∧ q = { r with
            state := if r.state = .enrolling ∨ r.state = .tracking ∨ r.state = .suspect then .lost else r.state
            goodCount := if r.state = .enrolling ∨ r.state = .tracking ∨ r.state = .suspect then 0 else r.goodCount
            inTxn := false, toSend := none, answer := none
            ackSeq := if r.toSend = none then r.ackSeq else r.cmdSeq
            unack := if r.toSend = none ∨ r.ackSeq = r.cmdSeq then r.unack else 0 }) ∧
          (∀ b, u.BegunNow i b → ∃ q, t.bySlot x.slot = some q ∧ q = { r with
            state := if r.state = .enrolling ∨ r.state = .tracking ∨ r.state = .suspect then .lost else r.state
            goodCount := if r.state = .enrolling ∨ r.state = .tracking ∨ r.state = .suspect then 0 else r.goodCount
            inTxn := false })) ∧
        ∀ q ∈ t.records, ∃ r ∈ s.records, r.slot = q.slot) ∧
      ((s.rack i).watch = .quiet ∨ (s.rack i).watch = .watch ∨ (s.rack i).watch = .warn →
        (t.rack i).watch = .alarm ∧ (t.rack i).cause = some .lineFault ∧ (t.rack i).changed = true ∧
        t.port.isPending .rack = true) ∧
      ((s.rack i).watch = .off ∨ (s.rack i).watch = .alarm →
        (t.rack i).watch = (s.rack i).watch ∧ (t.rack i).cause = (s.rack i).cause) ∧
      t.newcomers = s.newcomers ∧ t.overflow = s.overflow ∧ t.clk = u.clk ∧ t.chanA = s.chanA ∧
      t.chanB = s.chanB ∧
      ∃ (z w : State) (alarm : Prop), u.FoundIdle i z ∧ z.Abandons i w ∧
        (alarm ↔ (s.rack i).watch = .quiet ∨ (s.rack i).watch = .watch ∨ (s.rack i).watch = .warn) ∧
        t.line i = { w.line i with
          pollList := [], pollPos := 0, phase := .stopped, periodEnd := none, periodElapsed := false, overrun := false
          state := .fault, quiesceReq := (s.line i).quiesceReq || (s.line i).state == .quiesced, receiver := .waiting
          faultWatch := none, recoveryWatch := some none } ∧
        (∀ j, j ≠ i → t.line j = w.line j) ∧
        (s.SlotsRise → (∀ j, j ≠ i → t.rack j = w.rack j) ∧ t.records = w.records.map (fun r =>
          if r.line = i ∧ (r.state = .enrolling ∨ r.state = .tracking ∨ r.state = .suspect)
            then { r with state := .lost, goodCount := 0 } else r)) ∧
        (alarm → t.rack i = { w.rack i with
            members := (t.rack i).members, watch := .alarm, cause := some .lineFault, dwell := 0, repeats := 0
            changed := true } ∧
          t.domains = w.domains.map (fun d =>
            if d.state = .opened ∧ d.fence = .freezeDomain ∧ d.members.getLsbD i = true then
              { d with state := .frozen, cause := some (.rack i) } else d)) ∧
        (¬alarm → t.rack i = { w.rack i with members := (t.rack i).members } ∧ t.domains = w.domains) ∧
        (t.port.isPending .domain = true ↔ s.port.isPending .domain = true ∨
          alarm ∧ ∃ d ∈ w.domains, d.state = .opened ∧ d.fence = .freezeDomain ∧ d.members.getLsbD i = true)

/-- The recovery watch runs in FAULT: a sample at the break level, of a second fault or a stray start bit, sets the time at
the idle level back, and the first sample at the idle level after that begins it anew; nothing else happens (R34, and so
RECOVERY_WATCH_RESTART). LINE_RECOVERY comes 1 s after that sample, or, where none has come yet, after the next one, at which
the pair is then at the idle level (assumption 29): the fault watch runs again, LINE is raised, and the line is QUIESCED if
that was asked for, else it starts a cycle (R34). The times of samples rest on the model's grid (assumption 34), and that the
cycle's first frame goes out at that very instant, with t1 captured at its leading edge, is its choice too (assumption 12).
What a line notes of a start is the model's own field (assumption 43). -/
def Obligations.RecoveryWatchBringsTheLineBack : Prop :=
  (∀ (i : Fin 12) (dt : Nat) (v : Bool) (w : Option Nat) (s : State), (s.line i).state = .fault →
    (s.line i).recoveryWatch = some w →
    exec (.recoveryWatchRestart i ⟨dt, [v]⟩) s = .next ((s.heard i dt v).modLine i (fun l => { l with
      recoveryWatch := some (if v then some (w.getD (s.heard i dt v).localNs) else none) }))) ∧
  ∀ (i : Fin 12) (dt e : Nat) (w : Option Nat) (s : State), (s.line i).recoveryWatch = some w →
    (w = none → e = (s.heard i dt true).localNs + 1000000000) → (∀ n, w = some n → e = n + 1000000000) →
    ((s.line i).quiesceReq = true →
      exec (.lineRecovery i dt) s = .next (State.raise .line (((s.advance dt).advanceTo e).modLine i
        (fun l => { l with
          faultWatch := some 0, recoveryWatch := none, receiver := .waiting, level := true, pollList := [], pollPos := 0,
          phase := .stopped, periodEnd := none, periodElapsed := false, overrun := false, state := .quiesced,
          quiesceReq := false })))) ∧
    ((s.line i).quiesceReq = false → ∃ t, exec (.lineRecovery i dt) s = .next (t.raise .line) ∧
      t.localNs = max (s.localNs + dt) e ∧
      Line.CycleBegun (max (s.localNs + dt) e)
        { s.line i with faultWatch := some 0, recoveryWatch := none } (t.line i) ∧
      (((s.advance dt).advanceTo e).modLine i (fun l => { l with
        faultWatch := some 0, recoveryWatch := none, receiver := .waiting, level := true })).CycleStarts i t)

/-- LINE_CONFIG in range writes the fields it carries and keeps the others, and then its enable acts: a line that it enables
in OFF takes the configured bit rate, runs its fault watch and starts a cycle; a line that it disables is OFF with its
transaction abandoned and its cycle gone. Where the enable is not carried, or is what the line has, nothing but the carried
fields changes. It answers OK with the resulting configuration (R35, R36); out of range, with a line number above 11 among
that, it is refused BAD_FIELD. That the cycle's first frame goes out at that very instant, with t1 captured at its leading
edge, is the model's choice (assumption 12), and so is it that the line which is disabled cuts a DISCOVER off in the way of
R26 (assumption 19). The response's configuration stands in R35's order with the line state last (assumption 14), in widths
that R192 does not all give (assumption 13); where the request enables a line in OFF, that state is the one after the cycle's
first transaction or discovery phase has begun, not the IDLE passed through, which is the model's choice (assumption 44). What
a line notes of a start is the model's own field (assumption 43). Which character a cut-off on the boundary of two completes,
the one that begins there, is the model's choice (assumption 47). -/
def Obligations.LineConfigWritesTheCarriedFields : Prop :=
  (∀ (dt : Nat) (body : List Byte) (s : State), s.TakesFrames → body.length = 22 → 11 < field body 0 1 →
    exec (.lineConfig dt body) s = .next ((s.accepting dt 22).answering 0x18 .badField [])) ∧
  ∀ (dt : Nat) (body : List Byte) (i : Fin 12) (answer : Line → List Byte) (s : State), s.TakesFrames → body.length = 22 →
    field body 0 1 = i.val →
    answer = (fun l => bytesOf 1 l.enable.toNat ++ bytesOf 1 (match l.cfgRate with | .m1 => 1 | .m2 => 2 | .m4 => 4)
      ++ bytesOf 2 l.cfgPeriod ++ bytesOf 2 l.replyWindow ++ bytesOf 1 l.discEnable.toNat ++ bytesOf 2 l.discWindow
      ++ bytesOf 1 l.missLimit ++ bytesOf 4 l.delayLimit ++ bytesOf 4 l.asymAllow ++ bytesOf 4 l.driftAllow
      ++ bytesOf 1 (match l.state with
        | .off => 0 | .idle => 1 | .polling => 2 | .closing => 3 | .discovering => 4 | .quiesced => 5 | .fault => 6)) →
    (lineConfigOk body = false →
      exec (.lineConfig dt body) s = .next ((s.accepting dt 22).answering 0x18 .badField [])) ∧
    (lineConfigOk body = true →
      ∃ t : State, exec (.lineConfig dt body) s = .next (t.answering 0x18 .ok (answer (t.line i))) ∧
      (t.line i).cfgRate = (if (field body 1 2).testBit 1 then (rateOf (field body 4 1)).getD (s.line i).cfgRate
        else (s.line i).cfgRate) ∧
      (t.line i).cfgPeriod = (if (field body 1 2).testBit 2 then field body 5 2 else (s.line i).cfgPeriod) ∧
      (t.line i).replyWindow = (if (field body 1 2).testBit 3 then field body 7 2 else (s.line i).replyWindow) ∧
      (t.line i).discEnable = (if (field body 1 2).testBit 4 then flag body 3 1 else (s.line i).discEnable) ∧
      (t.line i).discWindow = (if (field body 1 2).testBit 5 then field body 9 2 else (s.line i).discWindow) ∧
      (t.line i).missLimit = (if (field body 1 2).testBit 6 then field body 11 1 else (s.line i).missLimit) ∧
      (t.line i).delayLimit = (if (field body 1 2).testBit 7 then field body 12 4 else (s.line i).delayLimit) ∧
      (t.line i).asymAllow = (if (field body 1 2).testBit 8 then field body 16 4 else (s.line i).asymAllow) ∧
      (t.line i).driftAllow = (if (field body 1 2).testBit 9 then field body 20 2 else (s.line i).driftAllow) ∧
      ((field body 1 2).testBit 0 = true → flag body 3 0 = true → (s.line i).state = .off →
        (t.line i).enable = true ∧ (t.line i).rate = (t.line i).cfgRate ∧ (t.line i).faultWatch = some 0 ∧
        (t.line i).cycle = (s.line i).cycle + 1 ∧ (t.line i).period = (t.line i).cfgPeriod ∧
        ((t.line i).state = .idle ∨ (t.line i).state = .polling ∨ (t.line i).state = .discovering) ∧
        ∃ u : State, u.CycleStarts i t ∧ u = (s.accepting dt 22).modLine i (fun l => { l with
          cfgRate := (t.line i).cfgRate, cfgPeriod := (t.line i).cfgPeriod, replyWindow := (t.line i).replyWindow
          discEnable := (t.line i).discEnable, discWindow := (t.line i).discWindow, missLimit := (t.line i).missLimit
          delayLimit := (t.line i).delayLimit, asymAllow := (t.line i).asymAllow, driftAllow := (t.line i).driftAllow
          enable := true, rate := (t.line i).cfgRate, faultWatch := some 0 })) ∧
      ((field body 1 2).testBit 0 = true → flag body 3 0 = false → (s.line i).state ≠ .off →
        (t.line i).enable = false ∧ (t.line i).state = .off ∧ (t.line i).quiesceReq = false ∧
        (t.line i).transaction = none ∧ (t.line i).pollList = [] ∧ (t.line i).periodEnd = none ∧
        (t.line i).receiver = .waiting ∧ (t.line i).tx = none ∧ (t.line i).rxOpen = false ∧
        (t.line i).faultWatch = none ∧ (t.line i).recoveryWatch = none ∧ (t.line i).cycle = (s.line i).cycle ∧
        ∃ w : State, ((s.accepting dt 22).modLine i (fun l => { l with
            cfgRate := (t.line i).cfgRate, cfgPeriod := (t.line i).cfgPeriod, replyWindow := (t.line i).replyWindow
            discEnable := (t.line i).discEnable, discWindow := (t.line i).discWindow, missLimit := (t.line i).missLimit
            delayLimit := (t.line i).delayLimit, asymAllow := (t.line i).asymAllow
            driftAllow := (t.line i).driftAllow })).Abandons i w ∧
          t = w.modLine i (fun l => { l with
            pollList := [], pollPos := 0, phase := .stopped, periodEnd := none, periodElapsed := false, overrun := false
            enable := false, quiesceReq := false, state := .off, receiver := .waiting, faultWatch := none
            recoveryWatch := none })) ∧
      ((field body 1 2).testBit 0 = false ∨ (flag body 3 0 = true ↔ (s.line i).state ≠ .off) →
        t = (s.accepting dt 22).modLine i (fun l => { l with
          cfgRate := (t.line i).cfgRate, cfgPeriod := (t.line i).cfgPeriod, replyWindow := (t.line i).replyWindow
          discEnable := (t.line i).discEnable, discWindow := (t.line i).discWindow, missLimit := (t.line i).missLimit
          delayLimit := (t.line i).delayLimit, asymAllow := (t.line i).asymAllow, driftAllow := (t.line i).driftAllow }) ∧
        (t.line i).state = (s.line i).state ∧ (t.line i).enable = (s.line i).enable ∧
        (t.line i).rate = (s.line i).rate ∧
        (t.line i).transaction = (s.line i).transaction ∧ t.records = s.records) ∧
      t.newcomers = s.newcomers ∧ t.overflow = s.overflow ∧ t.port.causes = s.port.causes ∧
      t.clk = (s.advance dt).clk ∧ t.chanA = s.chanA ∧ t.chanB = s.chanB)

/-- LINE_QUIESCE: an IDLE or DISCOVERING line is QUIESCED at once, and a DISCOVER being sent is cut off after the character in
progress; in POLLING, CLOSING and FAULT the quiesce requested flag is set; QUIESCED does not change; OFF refuses (R26, R31,
R37). A line number above 11 is refused BAD_FIELD. That a DISCOVER is cut off in the way of R26 is the model's choice
(assumption 19). Which character a cut-off on the boundary of two completes, the one that begins there, is the model's choice
(assumption 47). -/
def Obligations.LineQuiesceFollowsTheLineState : Prop :=
  ∀ (dt : Nat) (b : Byte) (s : State), s.TakesFrames →
    (11 < b.toNat → exec (.lineQuiesce dt [b]) s = .next ((s.accepting dt 1).answering 0x19 .badField [])) ∧
    ∀ i : Fin 12, b.toNat = i.val →
    ((s.line i).state = .idle →
      exec (.lineQuiesce dt [b]) s = .next (((s.accepting dt 1).modLine i (fun l => { l with
        pollList := [], pollPos := 0, phase := .stopped, periodEnd := none, periodElapsed := false, overrun := false,
        state := .quiesced, quiesceReq := false })).answering 0x19 .ok [])) ∧
    ((s.line i).state = .discovering →
      ∃ t : State, exec (.lineQuiesce dt [b]) s = .next (t.answering 0x19 .ok []) ∧
        t = (s.accepting dt 1).modLine i (fun l => { l with
          tx := none, tail := (t.line i).tail, rx := [], rxOpen := false, windowEnd := none, windowElapsed := false,
          pollList := [], pollPos := 0, phase := .stopped, periodEnd := none, periodElapsed := false, overrun := false,
          state := .quiesced, quiesceReq := false }) ∧
        (s.line i).CutOff (s.localNs + dt) (t.line i).tail) ∧
    ((s.line i).state = .polling ∨ (s.line i).state = .closing ∨ (s.line i).state = .fault →
      exec (.lineQuiesce dt [b]) s = .next (((s.accepting dt 1).modLine i (fun l => { l with
        quiesceReq := true })).answering 0x19 .accepted [])) ∧
    ((s.line i).state = .quiesced →
      exec (.lineQuiesce dt [b]) s = .next ((s.accepting dt 1).answering 0x19 .ok [])) ∧
    ((s.line i).state = .off →
      exec (.lineQuiesce dt [b]) s = .next ((s.accepting dt 1).answering 0x19 .wrongState []))

/-- LINE_RESUME: a QUIESCED line starts a new cycle at once; in every other state the quiesce requested flag is cleared and
the line state stays; the status is OK (R39). LINE_RESET: the urgent queue, the newcomers of the line, the counters, the cycle
number and the quiesce requested flag are cleared; in OFF and FAULT the line stays, elsewhere a cycle starts (R40). A
transaction or discovery phase that has begun at that very instant is found not begun, and the line IDLE, as R40 has it after
a reply window's end; for every other start that is the model's choice, and what a line notes of a start is its own field
(assumption 43). Its abandonment burns a grant of the transaction's record: the domain has one pending delivery less and the
grant's count more of burned stamps (R31, R118, R145). A line number above 11 is refused BAD_FIELD by both. That the cycle's
first frame goes out at that very instant, with t1 captured at its leading edge, is the model's choice (assumption 12), and so
is it that a DISCOVER which LINE_RESET stops is cut off in the way of R26 (assumption 19). Which character a cut-off on the
boundary of two completes, the one that begins there, is the model's choice (assumption 47). -/
def Obligations.LineResumeAndResetStartACycle : Prop :=
  ∀ (dt : Nat) (b : Byte) (s : State), s.TakesFrames →
    (11 < b.toNat →
      exec (.lineResume dt [b]) s = .next ((s.accepting dt 1).answering 0x1A .badField []) ∧
      exec (.lineReset dt [b]) s = .next ((s.accepting dt 1).answering 0x1B .badField [])) ∧
    ∀ i : Fin 12, b.toNat = i.val →
    ((s.line i).state = .quiesced →
      ∃ t : State, exec (.lineResume dt [b]) s = .next (t.answering 0x1A .ok []) ∧
        Line.CycleBegun (s.localNs + dt) (s.line i) (t.line i) ∧ (s.accepting dt 1).CycleStarts i t) ∧
    ((s.line i).state ≠ .quiesced →
      exec (.lineResume dt [b]) s = .next (((s.accepting dt 1).modLine i (fun l => { l with
        quiesceReq := false })).answering 0x1A .ok [])) ∧
    ((s.line i).state = .off ∨ (s.line i).state = .fault →
      ∃ t : State, exec (.lineReset dt [b]) s = .next (t.answering 0x1B .ok []) ∧
        (t.line i).state = (s.line i).state ∧ (t.line i).urgent = [] ∧ (t.line i).counters = ⟨0, 0, 0, 0, 0, 0, 0⟩ ∧
        (t.line i).cycle = 0 ∧ (t.line i).quiesceReq = false ∧ (t.line i).transaction = none ∧
        (t.line i).recoveryWatch = (s.line i).recoveryWatch ∧
        (∃ w : State, (s.accepting dt 1).Abandons i w ∧
          t = State.modLine i (fun l => { l with
            pollList := [], pollPos := 0, phase := .stopped, periodEnd := none, periodElapsed := false, overrun := false
            urgent := [], counters := ⟨0, 0, 0, 0, 0, 0, 0⟩, cycle := 0, quiesceReq := false })
            { w with newcomers := s.newcomers.filter (fun n => n.line != i) }) ∧
        t.newcomers = s.newcomers.filter (fun n => n.line != i) ∧ t.overflow = s.overflow ∧
        t.port.causes = s.port.causes ∧ t.clk = (s.advance dt).clk ∧ t.chanA = s.chanA ∧ t.chanB = s.chanB) ∧
    ((s.line i).state ≠ .off → (s.line i).state ≠ .fault →
      ∃ t : State, exec (.lineReset dt [b]) s = .next (t.answering 0x1B .ok []) ∧
        Line.CycleBegun (s.localNs + dt)
          { s.line i with cycle := 0, quiesceReq := false, counters := ⟨0, 0, 0, 0, 0, 0, 0⟩ } (t.line i) ∧
        (t.line i).urgent = [] ∧ (t.line i).cycle = 1 ∧
        (∃ z w u : State, (s.accepting dt 1).FoundIdle i z ∧ z.Abandons i w ∧
          u = State.modLine i (fun l => { l with
            pollList := [], pollPos := 0, phase := .stopped, periodEnd := none, periodElapsed := false, overrun := false
            urgent := [], counters := ⟨0, 0, 0, 0, 0, 0, 0⟩, cycle := 0, quiesceReq := false })
            { w with newcomers := s.newcomers.filter (fun n => n.line != i) } ∧ u.CycleStarts i t) ∧
        t.newcomers = s.newcomers.filter (fun n => n.line != i) ∧ t.overflow = s.overflow ∧
        t.port.causes = s.port.causes ∧ t.clk = (s.advance dt).clk ∧ t.chanA = s.chanA ∧ t.chanB = s.chanB) ∧
    ∀ (x : Transaction) (r : Endpoint) (g : Grant) (d : Domain), (s.line i).transaction = some x →
      s.bySlot x.slot = some r → r.answer = some (.grant g) → s.domain g.domain = some d →
      (∀ b, ¬(s.accepting dt 1).BegunNow i b) →
      ∃ t : State, exec (.lineReset dt [b]) s = .next (t.answering 0x1B .ok []) ∧
        t.domain g.domain = if d.state = .retiring ∧ d.pendingDel ≤ 1 then none
          else some { d with pendingDel := d.pendingDel - 1, burned := min 4294967295 (d.burned + g.count) }

/-! ### Every request at the port -/

/-- Every request frame: a transaction that a reset found under way is ignored (R184); while EXECUTING the frame is dropped,
counted and marked, and PORT is raised (R174); a body of more than 60 bytes makes a bad frame (R172); a body length that the
request does not allow is answered BAD_FIELD and changes nothing else (R176); else the port is EXECUTING with no response
held, the overlap mark clear, and one response to form, which carries the request's code (R174, R176). Beside the frame data
out carries fill bytes (R171), and in an ignored transaction nothing, which is the model's choice (assumption 22). -/
def Obligations.RequestsAreTakenByThePortState : Prop :=
  ∀ (c : Instr) (code : Byte) (lengths : List Nat) (dt : Nat) (body : List Byte) (s : State),
    Instr.asRequest c = some (code, lengths, dt, body) →
    (s.port.ignoring = true →
      exec c s = .next ((s.advance dt).modPort (fun p => { p with link := Link.idle, ignoring := false }))) ∧
    (s.port.ignoring = false → s.port.state = .executing →
      exec c s = .next (State.raise .port (((s.advance dt).drive [] (8 * (body.length + 4))).modPort (fun p => { p with
        overlaps := min 65535 (p.overlaps + 1), overlapMark := true })))) ∧
    (s.TakesFrames → 60 < body.length →
      exec c s = .next (State.raise .port (((s.advance dt).drive [] (8 * (body.length + 4))).modPort (fun p => { p with
        state := .responseHeld, held := some ⟨code, .badFrame, false, []⟩,
        badFrames := min 65535 (p.badFrames + 1) })))) ∧
    (s.TakesFrames → body.length ≤ 60 → body.length ∉ lengths →
      exec c s = .next ((s.accepting dt body.length).answering code .badField [])) ∧
    (s.TakesFrames → body.length ∈ lengths → ∃ (t : State) (st : Status) (answer : List Byte),
      exec c s = .next (t.answering code st answer) ∧ t.port.state = .executing ∧ t.port.held = none ∧
      t.port.overlapMark = false ∧ t.pending = s.pending ∧ t.localNs = s.localNs + dt)

/-- BAD_FRAME and OVERLAP, two names of one effect, which is the model's choice (assumption 10), bring a write transaction,
whose first byte is not the read code, of bits that travel with the most significant of each byte first. While EXECUTING it is
dropped, counted and marked; else a bad frame, one cut inside a byte, of a wrong number of bytes, or with a failing CRC-16,
leaves a BAD_FRAME response in hold, is counted, and raises PORT (R172, R174). A transaction that ends before its first byte
is complete counts nowhere (R171), and one that a reset found under way is ignored (R184), with data out at high impedance to
its end, which is the model's choice (assumption 22). A good frame whose code names no request is answered UNKNOWN_REQUEST
(R176), and one whose code names a request is that request, whose row puts the good frame of R190 around its body (assumption
32). Data out is driven from the fall of chip select, which presents the first bit, to its rise, changes at falling edges of
the clock, and data in is taken at rising ones (R171). -/
def Obligations.WriteTransactionsAreJudged : Prop :=
  (∀ (dt : Nat) (first : Byte) (tail bytes : List Byte) (rest : List Bool) (s : State), first ≠ 0xFF → bytes = first :: tail →
    rest.length < 8 →
    (s.port.ignoring = false → s.port.state = .executing →
      exec (.overlap dt bytes rest) s = .next (State.raise .port (((s.advance dt).drive []
        (8 * bytes.length + rest.length)).modPort (fun p => { p with
          overlaps := min 65535 (p.overlaps + 1), overlapMark := true })))) ∧
    (s.TakesFrames →
      (rest ≠ [] ∨ bytes.length < 4 ∨ 64 < bytes.length ∨ bytes.length ≠ field bytes 1 1 + 4 ∨
        (crc16 (bytes.take (bytes.length - 2))).toNat ≠ field bytes (bytes.length - 2) 2) →
      exec (.badFrame dt bytes rest) s = .next (State.raise .port (((s.advance dt).drive []
        (8 * bytes.length + rest.length)).modPort (fun p => { p with
          state := .responseHeld, held := some ⟨first, .badFrame, false, []⟩,
          badFrames := min 65535 (p.badFrames + 1) }))))) ∧
  (∀ (dt : Nat) (bytes : List Byte) (rest : List Bool) (s : State),
    exec (.overlap dt bytes rest) s = exec (.badFrame dt bytes rest) s ∧
    exec (.badFrame dt [] (bytes.flatMap (fun b => [b.getLsbD 7, b.getLsbD 6, b.getLsbD 5, b.getLsbD 4, b.getLsbD 3,
      b.getLsbD 2, b.getLsbD 1, b.getLsbD 0]) ++ rest)) s = exec (.badFrame dt bytes rest) s ∧
    (s.port.ignoring = true → exec (.badFrame dt bytes rest) s =
      .next ((s.advance dt).modPort (fun p => { p with link := Link.idle, ignoring := false }))) ∧
    (s.port.ignoring = false → rest.length < 8 →
      exec (.badFrame dt [] rest) s = .next ((s.advance dt).drive [] rest.length))) ∧
  (∀ (dt : Nat) (code : Byte) (body : List Byte) (s : State), s.TakesFrames → code ≠ 0xFF → body.length ≤ 60 →
    (∀ c x, Instr.asRequest c = some x → x.1 ≠ code) →
    exec (.unknownRequest dt code body) s = .next ((s.accepting dt body.length).answering code .unknownRequest [])) ∧
  (∀ (c : Instr) (code : Byte) (lengths : List Nat) (dt : Nat) (body : List Byte) (s : State),
    Instr.asRequest c = some (code, lengths, dt, body) → exec (.unknownRequest dt code body) s = exec c s ∧
      exec (.badFrame dt (requestBytes code body) []) s = exec c s) ∧
  ∀ (k : Nat) (b : Bool) (p : Port), (p.selectFalls k).link.out = some ((Config.fillByte k).getLsbD 7) ∧
    (p.clockRises b).link.out = p.link.out ∧ (p.clockFalls k).link.out ≠ none ∧ p.selectRises.link.out = none ∧
    (p.link.bits.length < 7 → (p.clockRises b).link.bits = p.link.bits ++ [b]) ∧
    (p.clockFalls k).link.bits = p.link.bits ∧ (p.clockFalls k).link.bytes = p.link.bytes

/-- RESPONSE_FORMED puts the response that was formed in hold, its overlap flag copied from the mark, which is cleared (R176);
outside EXECUTING no response is being formed, and it changes nothing, which is the model's choice (assumption 7).
RESPONSE_READ answers EMPTY in READY, NOT_READY in EXECUTING and the held response in RESPONSE_HELD, after one fill byte, each
byte the most significant bit first; a response clocked out through its last bit leaves hold, and one clocked out in part, be
it but for one bit, stays held (R171, R175). The overlap flag of EMPTY and NOT_READY is sent as 0, which is the model's choice
(assumption 39), and data out stays at high impedance in a transaction that is ignored, which is too (assumption 22). -/
def Obligations.ResponsesAreHeldUntilRead : Prop :=
  (∀ (dt : Nat) (s : State),
    (∀ r, s.port.state = .executing → s.port.forming = some r →
      exec (.responseFormed dt) s = .next ((s.advance dt).modPort (fun p => { p with
        state := .responseHeld, held := some ⟨r.code, r.status, s.port.overlapMark, r.body⟩, forming := none,
        overlapMark := false }))) ∧
    (s.port.state ≠ .executing → exec (.responseFormed dt) s = .next (s.advance dt))) ∧
  (∀ (dt n : Nat) (s : State), s.port.ignoring = true →
    exec (.responseRead dt n) s = .next ((s.advance dt).modPort (fun p => { p with
      link := Link.idle, ignoring := false }))) ∧
  ∀ (dt n : Nat) (out : List Byte) (s : State), s.port.ignoring = false →
    (s.port.state = .ready ∧ out = responseBytes 0 0xE0 false [] ∨
      s.port.state = .executing ∧ out = responseBytes 0 0xE1 false [] ∨
      s.port.state = .responseHeld ∧ ∃ r, s.port.held = some r ∧
        out = responseBytes r.code r.status.value r.overlap r.body) →
    ∃ t, exec (.responseRead dt n) s = .next t ∧ t.port.dataOut.length = 8 + n ∧
      (t.port.dataOut.drop 8).take (8 * out.length) = (out.flatMap (fun b => [b.getLsbD 7, b.getLsbD 6, b.getLsbD 5,
        b.getLsbD 4, b.getLsbD 3, b.getLsbD 2, b.getLsbD 1, b.getLsbD 0])).take n ∧
      (s.port.state ≠ .responseHeld ∨ n < 8 * out.length → t = { s.advance dt with
        port := { s.port with link := Link.idle, dataOut := t.port.dataOut }
        freeCount := t.freeCount }) ∧
      (s.port.state = .responseHeld → 8 * out.length ≤ n → t = { s.advance dt with
        port := { s.port with state := .ready, held := none, link := Link.idle, dataOut := t.port.dataOut }
        freeCount := t.freeCount })

/-- STATUS without a line number answers the state of the part, and with one the state of that line, and changes nothing; a
line number above 11 is refused BAD_FIELD (R182, 10.5). -/
def Obligations.StatusReportsAndChangesNothing : Prop :=
  (∀ (dt f : Nat) (s : State), s.TakesFrames →
    (∀ k, k < 8 → s.port.causes.getLsbD k = true → (∀ j, j < k → s.port.causes.getLsbD j = false) → f = k) →
    (s.port.causes = 0 → f = 255) →
    exec (.status dt []) s = .next ((s.accepting dt 0).answering 0x48 .ok
      (bytesOf 1 (match s.clk.state with | .freerun => 0 | .acquiring => 1 | .locked => 2 | .holdover => 3)
        ++ bytesOf 1 (match s.clk.selected with | none => 0 | some .a => 1 | some .b => 2) ++ bytesOf 2 s.clk.epoch.toNat
        ++ bytesOf 4 (s.advance dt).clk.u ++ [s.port.causes] ++ bytesOf 1 f ++ [s.port.mask]
        ++ bytesOf 2 (all12.map (fun i => if (s.rack i).changed = true then 2 ^ i.val else 0)).sum
        ++ bytesOf 1 s.newcomers.length ++ bytesOf 1 s.overflow.toNat ++ bytesOf 2 s.records.length
        ++ bytesOf 1 s.domains.length ++ bytesOf 2 s.port.badFrames ++ bytesOf 2 s.port.overlaps))) ∧
  (∀ (dt : Nat) (b : Byte) (s : State), s.TakesFrames → 11 < b.toNat →
    exec (.status dt [b]) s = .next ((s.accepting dt 1).answering 0x48 .badField [])) ∧
  ∀ (dt : Nat) (b : Byte) (i : Fin 12) (s : State), s.TakesFrames → b.toNat = i.val →
    exec (.status dt [b]) s = .next ((s.accepting dt 1).answering 0x48 .ok
      (bytesOf 1 i.val ++ bytesOf 1 (match (s.line i).state with
        | .off => 0 | .idle => 1 | .polling => 2 | .closing => 3 | .discovering => 4 | .quiesced => 5 | .fault => 6)
        ++ bytesOf 1 ((s.line i).enable.toNat + 2 * (s.line i).quiesceReq.toNat) ++ bytesOf 4 (s.line i).cycle.toNat
        ++ bytesOf 2 (s.line i).counters.noisy ++ bytesOf 2 (s.line i).counters.badFrames
        ++ bytesOf 2 (s.line i).counters.stray ++ bytesOf 2 (s.line i).counters.misses
        ++ bytesOf 2 (s.line i).counters.overruns ++ bytesOf 2 (s.line i).counters.urgentDrops
        ++ bytesOf 2 (s.line i).counters.collisions))

/-- ACK clears each cause named in its set and keeps the others; MASK replaces the attention mask whole and keeps the pending
set. Each answers OK with the pending set, the first cause and the mask after the change, whatever the set. The attention
line is asserted while some cause is both pending and in the mask. A cause raised before an ACK that names it is cleared,
one raised after it is pending, and a raise and a MASK give one pending set and mask in either order. -/
def Obligations.AckClearsAndMaskReplaces : Prop :=
  (∀ (dt f : Nat) (b : Byte) (s : State), s.TakesFrames →
    (∀ k, k < 8 → (s.port.causes &&& ~~~b).getLsbD k = true →
      (∀ j, j < k → (s.port.causes &&& ~~~b).getLsbD j = false) → f = k) →
    (s.port.causes &&& ~~~b = 0 → f = 255) →
    exec (.ack dt [b]) s = .next (((s.accepting dt 1).modPort (fun p => { p with
      causes := s.port.causes &&& ~~~b })).answering 0x49 .ok
        [s.port.causes &&& ~~~b, BitVec.ofNat 8 f, s.port.mask])) ∧
  (∀ (dt f : Nat) (b : Byte) (s : State), s.TakesFrames →
    (∀ k, k < 8 → s.port.causes.getLsbD k = true → (∀ j, j < k → s.port.causes.getLsbD j = false) → f = k) →
    (s.port.causes = 0 → f = 255) →
    exec (.mask dt [b]) s = .next (((s.accepting dt 1).modPort (fun p => { p with mask := b })).answering 0x4A .ok
      [s.port.causes, BitVec.ofNat 8 f, b])) ∧
  (∀ p : Port, p.attention = true ↔ ∃ k, p.causes.getLsbD k = true ∧ p.mask.getLsbD k = true) ∧
  (∀ (c : Cause) (s : State), (s.raise c).port.isPending c = true ∧ (s.raise c).port.mask = s.port.mask ∧
    ∀ k, k ≠ c.bit → (s.raise c).port.causes.getLsbD k = s.port.causes.getLsbD k) ∧
  (∀ (dt : Nat) (b : Byte) (c : Cause) (s : State), s.TakesFrames → b.getLsbD c.bit = true →
    ∃ t, exec (.ack dt [b]) (s.raise c) = .next t ∧ t.port.isPending c = false) ∧
  ∀ (dt : Nat) (b : Byte) (c : Cause) (s : State), s.TakesFrames → ∃ t u,
    exec (.mask dt [b]) (s.raise c) = .next t ∧ exec (.mask dt [b]) s = .next u ∧
    t.port.causes = (u.raise c).port.causes ∧ t.port.mask = (u.raise c).port.mask ∧
    t.port.attention = (u.raise c).port.attention

/-- RESTART empties the tables and the newcomer set, resets every rack record, clears the pending causes and the mask, keeps
the clock, the references, the configuration and counters of the lines and the port counts, and takes each line where the
table of R41 takes it (R183). On every line the urgent queue is emptied, the cycle number is 0, and a transaction or discovery
window ends, its frame cut off after the character in progress (R26, R31, R41). A line in OFF, QUIESCED or FAULT stays there;
one in POLLING or CLOSING whose quiesce is requested is QUIESCED; every other one starts a cycle with an empty list: it runs
the discovery phase if discovery is enabled, and else is IDLE for the rest of the cycle, with its transaction number kept
(R41, R43, R48, R53, R64). That the DISCOVER goes out at that very instant, or after a character that is still going out, is
the model's choice (assumption 12), and so is it that a DISCOVER is cut off in the way of R26 (assumption 19), and which
character a cut-off on the boundary of two completes, the one that begins there (assumption 47). What a line notes of a start
is the model's own field (assumption 43). -/
def Obligations.RestartEmptiesTheTables : Prop :=
  ∀ (dt : Nat) (s : State), s.TakesFrames → ∃ t : State,
    exec (.restart dt []) s = .next (t.answering 0x4B .ok []) ∧
    t = { s.accepting dt 0 with
      lines := t.lines, records := [], newcomers := [], overflow := false, domains := [], racks := t.racks
      port := { (s.accepting dt 0).port with causes := 0, mask := 0 } } ∧
    (∀ i, t.rack i = Rack.reset) ∧ t.port.attention = false ∧ t.port.badFrames = s.port.badFrames ∧
    t.port.overlaps = s.port.overlaps ∧ t.clk = (s.advance dt).clk ∧ t.chanA = s.chanA ∧ t.chanB = s.chanB ∧
    ∀ i, (t.line i).counters = (s.line i).counters ∧ (t.line i).enable = (s.line i).enable ∧ ∃ m : Line,
      m = (s.line i).restarted m.tail ∧ (s.line i).CutOff (s.localNs + dt) m.tail ∧
      ((s.line i).state = .off ∨ (s.line i).state = .quiesced ∨ (s.line i).state = .fault → t.line i = m) ∧
      ((s.line i).state = .idle ∨ (s.line i).state = .discovering ∨
        ((s.line i).state = .polling ∨ (s.line i).state = .closing) ∧ (s.line i).quiesceReq = false →
        Line.EmptyCycle (s.localNs + dt) m (t.line i)) ∧
      ((s.line i).state = .polling ∨ (s.line i).state = .closing → (s.line i).quiesceReq = true →
        t.line i = { m with
          pollList := [], pollPos := 0, phase := .stopped, periodEnd := none, periodElapsed := false, overrun := false
          state := .quiesced, quiesceReq := false })

/-! ### Requests on records -/

/-- A record name out of range is refused BAD_FIELD, and one in range that no record has NOT_FOUND (R84); LOOKUP, AMEND,
SUSPEND, RESUME and RETIRE answer so, and nothing else changes. LOOKUP of a record answers its fields and its error bound
about the acceptance (R70, R84, R86). The bound of a window whose newest t1 lies after row time, as happens when row time has
wrapped, is a free value (assumption 3). The response gives the fields of R67 in its order; that an optional pair or pending
grant which is absent stands so is assumption 14, and the widths that R192 does not give are assumption 13. -/
def Obligations.RecordNamesAreCheckedAndLookedUp : Prop :=
  (∀ (body : List Byte) (s : State),
    (s.named body = .error .badField ↔
      field body 0 1 = 0 ∧ ¬(field body 1 1 ≤ 11 ∧ 1 ≤ field body 2 1 ∧ field body 2 1 ≤ 47) ∨
      field body 0 1 = 1 ∧ 511 < field body 1 2 ∨ 1 < field body 0 1) ∧
    (s.named body = .error .notFound ↔
      field body 0 1 = 0 ∧ (field body 1 1 ≤ 11 ∧ 1 ≤ field body 2 1 ∧ field body 2 1 ≤ 47) ∧
        (∀ r ∈ s.records, ¬(r.line.val = field body 1 1 ∧ r.addr = field body 2 1)) ∨
      field body 0 1 = 1 ∧ field body 1 2 ≤ 511 ∧ ∀ r ∈ s.records, r.slot ≠ field body 1 2) ∧
    (∀ r, s.named body = .ok r → r ∈ s.records ∧
      (field body 0 1 = 0 ∧ r.line.val = field body 1 1 ∧ r.addr = field body 2 1 ∨
        field body 0 1 = 1 ∧ r.slot = field body 1 2))) ∧
  (∀ (dt : Nat) (body : List Byte) (st : Status) (s : State), s.TakesFrames → s.named body = .error st →
    (body.length = 3 →
      exec (.lookup dt body) s = .next ((s.accepting dt 3).answering 0x21 st []) ∧
      exec (.suspend dt body) s = .next ((s.accepting dt 3).answering 0x23 st []) ∧
      exec (.resume dt body) s = .next ((s.accepting dt 3).answering 0x24 st []) ∧
      exec (.retire dt body) s = .next ((s.accepting dt 3).answering 0x25 st [])) ∧
    (body.length = 14 → exec (.amend dt body) s = .next ((s.accepting dt 14).answering 0x22 st []))) ∧
  ∀ (dt : Nat) (body : List Byte) (r : Endpoint) (s : State), s.TakesFrames → body.length = 3 → s.named body = .ok r →
    ∃ (bound : Nat) (derived : List Byte), exec (.lookup dt body) s = .next ((s.accepting dt 3).answering 0x21 .ok
        (bytesOf 2 r.slot ++ bytesOf 1 r.line.val ++ bytesOf 1 r.addr
          ++ bytesOf 1 (match r.state with
            | .enrolling => 0 | .tracking => 1 | .suspect => 2 | .lost => 3 | .suspended => 4 | .retiring => 5)
          ++ bytesOf 1 (match r.withdrawal with | .no => 0 | .suspend => 1 | .retire => 2) ++ bytesOf 1 r.inTxn.toNat
          ++ bytesOf 1 r.baseClass ++ bytesOf 1 r.corrEnabled.toNat ++ bytesOf 4 r.stepThreshold
          ++ (match r.asym with | none => List.replicate 5 0 | some a => [1] ++ signedBytes 4 a)
          ++ (match r.identity with | none => List.replicate 5 0 | some d => [1] ++ bytesOf 4 d.toNat)
          ++ bytesOf 1 r.goodCount ++ bytesOf 1 r.missCount ++ bytesOf 1 r.window.length
          ++ r.window.flatMap (fun x =>
            bytesOf 6 x.t1.sec ++ bytesOf 4 x.t1.ns ++ signedBytes 8 x.theta ++ bytesOf 4 x.delta)
          ++ derived ++ (match r.lastRaw with | none => List.replicate 9 0 | some y => [1] ++ signedBytes 8 y)
          ++ (match r.lastGood with | none => List.replicate 7 0 | some y => [1] ++ bytesOf 6 y)
          ++ signedBytes 4 r.freq ++ (match r.baseline with | none => List.replicate 5 0 | some y => [1] ++ signedBytes 4 y)
          ++ bytesOf 1 r.cmdSeq.toNat
          ++ (match r.cmd with
            | none => List.replicate 10 0
            | some (k, y) => bytesOf 1 1 ++ bytesOf 1 (match k with | .slew => 0 | .step => 1) ++ signedBytes 8 y)
          ++ (match r.toSend with
            | none => List.replicate 11 0
            | some c => bytesOf 1 1 ++ bytesOf 1 c.seq.toNat ++ bytesOf 1 (match c.kind with | .slew => 0 | .step => 1)
              ++ signedBytes 8 c.value)
          ++ bytesOf 1 r.ackSeq.toNat ++ bytesOf 1 r.repSeq.toNat ++ bytesOf 1 r.unack
          ++ (match r.answer with
            | none => [0]
            | some (.grant g) => [1, g.domain] ++ bytesOf 2 g.epoch.toNat ++ bytesOf 6 g.base.sec ++ bytesOf 4 g.base.ns
              ++ bytesOf 1 g.count ++ bytesOf 4 g.uncertainty
            | some (.refusal d code) => [2, d, match code with
              | .badCount => 1 | .noDomain => 2 | .domainClosed => 3 | .domainFrozen => 4 | .notMember => 5
              | .epochChanged => 6 | .withdrawn => 7 | .rackFenced => 8 | .untracked => 9 | .correcting => 10
              | .uncertain => 11])
          ++ bytesOf 2 r.goodTotal ++ bytesOf 2 r.missTotal ++ bytesOf 2 r.rejected ++ bytesOf 2 r.voids
          ++ bytesOf 2 r.conflicts ++ bytesOf 2 r.corrFaults ++ bytesOf 4 bound)) ∧
      (r.window = [] → derived = List.replicate 14 0) ∧
      (∀ f d, Filtered f d r.window → derived = [1] ++ bytesOf 4 d ++ [1] ++ signedBytes 8 f) ∧
      (r.window = [] → bound = 4294967295) ∧
      ∀ x f d, r.window.getLast? = some x → Filtered f d r.window → x.t1.toNs ≤ (s.advance dt).clk.row.toNs →
        bound = min 4294967295 ((s.advance dt).clk.u + d / 2 + (s.line r.line).asymAllow +
          ((s.advance dt).clk.row.toNs - x.t1.toNs) / 1000000 * (s.line r.line).driftAllow / 1000)

/-- ENROLL out of range is refused BAD_FIELD, of a key in use EXISTS, and with 512 records FULL. Else a record with the values
of R67 stands in the lowest free slot, the key's newcomer entry leaves the set and gives its identity if the request carries
none, and the rack's enrolling count advances (R67, R69, R85, R96). In the running cycle the record has its base class, as R44
gives it; that this value stands in the record is the model's reading (assumption 30). -/
def Obligations.EnrollCreatesTheRecord : Prop :=
  ∀ (dt : Nat) (body : List Byte) (s : State), s.TakesFrames → body.length = 16 →
    (11 < field body 0 1 ∨ addrOk (field body 1 1) = false ∨ enrollOk body = false →
      exec (.enroll dt body) s = .next ((s.accepting dt 16).answering 0x20 .badField [])) ∧
    ∀ i : Fin 12, field body 0 1 = i.val → addrOk (field body 1 1) = true → enrollOk body = true →
      ((∃ r ∈ s.records, r.line = i ∧ r.addr = field body 1 1) →
        exec (.enroll dt body) s = .next ((s.accepting dt 16).answering 0x20 .exists [])) ∧
      ((¬∃ r ∈ s.records, r.line = i ∧ r.addr = field body 1 1) → 512 ≤ s.records.length →
        exec (.enroll dt body) s = .next ((s.accepting dt 16).answering 0x20 .full [])) ∧
      ((¬∃ r ∈ s.records, r.line = i ∧ r.addr = field body 1 1) → s.records.length < 512 →
        ∃ (t : State) (n : Nat) (q : Endpoint), exec (.enroll dt body) s = .next (t.answering 0x20 .ok (bytesOf 2 n)) ∧
          n ≤ 511 ∧ (∀ r ∈ s.records, r.slot ≠ n) ∧ (∀ m, m < n → ∃ r ∈ s.records, r.slot = m) ∧
          (∀ r, r ∈ t.records ↔ r ∈ s.records ∨ r = q) ∧ t.records.length = s.records.length + 1 ∧
          q.slot = n ∧ q.line = i ∧ q.addr = field body 1 1 ∧ q.state = .enrolling ∧ q.withdrawal = .no ∧
          q.inTxn = false ∧ q.baseClass = field body 2 1 ∧ q.cycleClass = field body 2 1 ∧ q.corrEnabled = flag body 3 0 ∧
          q.stepThreshold = field body 4 4 ∧ q.asym = (if flag body 3 1 then some (signedField32 body 8) else none) ∧
          q.identity = (if flag body 3 2 then some (BitVec.ofNat 32 (field body 12 4))
            else (s.newcomers.find? (fun n => n.line == i && n.addr == field body 1 1)).map Newcomer.identity) ∧
          q.goodCount = 0 ∧ q.missCount = 0 ∧ q.window = [] ∧ q.lastRaw = none ∧ q.lastGood = none ∧ q.freq = 0 ∧
          q.baseline = none ∧ q.cmdSeq = 0 ∧ q.cmd = none ∧ q.toSend = none ∧ q.ackSeq = 0 ∧ q.repSeq = 0 ∧ q.unack = 0 ∧
          q.answer = none ∧ q.goodTotal = 0 ∧ q.missTotal = 0 ∧ q.rejected = 0 ∧ q.voids = 0 ∧ q.conflicts = 0 ∧
          q.corrFaults = 0 ∧
          t.newcomers = s.newcomers.filter (fun n => !(n.line == i && n.addr == field body 1 1)) ∧
          t.rack i = { (s.advance dt).rack i with
            members := { (s.rack i).members with enrolling := (s.rack i).members.enrolling + 1 } } ∧
          (∀ j, j ≠ i → t.rack j = (s.advance dt).rack j) ∧ t.lines = s.lines ∧ t.domains = s.domains ∧
          t.clk = (s.advance dt).clk ∧ t.overflow = s.overflow ∧ t.port.causes = s.port.causes)

/-- AMEND of a record: out of range BAD_FIELD; RETIRING WRONG_STATE; else the carried fields are written together and nothing
else of the record changes, but that disabling corrections withdraws a correction in flight (R87, R108, R110).
A remove-asymmetry bit acts whether or not the asymmetry is carried, which is read from R191 (assumption 15). -/
def Obligations.AmendWritesTheCarriedFields : Prop :=
  ∀ (dt : Nat) (body : List Byte) (r : Endpoint) (s : State), s.TakesFrames → body.length = 14 → s.named body = .ok r →
    s.SlotsRise →
    (amendOk body = false → exec (.amend dt body) s = .next ((s.accepting dt 14).answering 0x22 .badField [])) ∧
    (amendOk body = true → r.state = .retiring →
      exec (.amend dt body) s = .next ((s.accepting dt 14).answering 0x22 .wrongState [])) ∧
    (amendOk body = true → r.state ≠ .retiring →
      ∃ (t : State) (q : Endpoint), exec (.amend dt body) s = .next (t.answering 0x22 .ok []) ∧
        t = { s.accepting dt 14 with records := s.records.map (fun x => if x.slot = r.slot then q else x) } ∧
        q = { r with
          baseClass := if (field body 3 1).testBit 0 then field body 5 1 else r.baseClass
          corrEnabled := if (field body 3 1).testBit 1 then flag body 4 0 else r.corrEnabled
          stepThreshold := if (field body 3 1).testBit 2 then field body 6 4 else r.stepThreshold
          asym := if flag body 4 1 then none
            else if (field body 3 1).testBit 3 then some (signedField32 body 10) else r.asym
          ackSeq := q.ackSeq, unack := q.unack, toSend := q.toSend } ∧
        ((field body 3 1).testBit 1 = true → flag body 4 0 = false → r.ackSeq ≠ r.cmdSeq →
          q.ackSeq = r.cmdSeq ∧ q.unack = 0 ∧ q.toSend = if s.closeAssembled r then r.toSend else none) ∧
        ((field body 3 1).testBit 1 = false ∨ flag body 4 0 = true ∨ r.ackSeq = r.cmdSeq →
          q.ackSeq = r.ackSeq ∧ q.unack = r.unack ∧ q.toSend = r.toSend))

/-- SUSPEND by the rows of R88: a record in service that is not in transaction enters SUSPENDED; in transaction its suspension
is pending, and it keeps its state. In both a correction in flight is withdrawn, and the slot leaves the rest of the poll list
and the urgent queue (R69, R88, R108, R111). The member counts follow the record's state, and nothing else of the line, of a
rack or of the part changes (R69, R152). The other rows change nothing. -/
def Obligations.SuspendTakesTheRecordOut : Prop :=
  ∀ (dt : Nat) (body : List Byte) (r : Endpoint) (s : State), s.TakesFrames → body.length = 3 → s.named body = .ok r →
    s.SlotsRise →
    (r.state = .retiring → exec (.suspend dt body) s = .next ((s.accepting dt 3).answering 0x23 .wrongState [])) ∧
    (r.state = .suspended → exec (.suspend dt body) s = .next ((s.accepting dt 3).answering 0x23 .ok [])) ∧
    (r.state ≠ .retiring → r.state ≠ .suspended → r.withdrawal = .suspend →
      exec (.suspend dt body) s = .next ((s.accepting dt 3).answering 0x23 .accepted [])) ∧
    (r.state ≠ .retiring → r.state ≠ .suspended → r.withdrawal = .no →
      ∃ (t : State) (q : Endpoint),
        exec (.suspend dt body) s = .next (t.answering 0x23 (if r.inTxn then .accepted else .ok) []) ∧
        t.records = s.records.map (fun x => if x.slot = r.slot then q else x) ∧
        q = { r with
          state := if r.inTxn then r.state else .suspended
          withdrawal := if r.inTxn then .suspend else .no
          ackSeq := r.cmdSeq
          unack := if r.ackSeq = r.cmdSeq then r.unack else 0
          toSend := if r.ackSeq = r.cmdSeq ∨ s.closeAssembled r = true then r.toSend else none } ∧
        t.line r.line = { s.line r.line with pollList := (t.line r.line).pollList, urgent := (t.line r.line).urgent } ∧
        (t.line r.line).urgent = (s.line r.line).urgent.filter (fun x => x != r.slot) ∧
        (t.line r.line).pollList.drop (s.line r.line).pollPos =
          ((s.line r.line).pollList.drop (s.line r.line).pollPos).filter (fun x => x != r.slot) ∧
        (∀ j, j ≠ r.line → t.line j = s.line j ∧ t.rack j = (s.advance dt).rack j) ∧
        (s.accepting dt 3).MembersMoved r.line r.state (some q.state) t ∧
        (r.inTxn = true → t.rack r.line = (s.advance dt).rack r.line) ∧
        t = { s.accepting dt 3 with lines := t.lines, records := t.records, racks := t.racks } ∧
        t.domains = s.domains ∧ t.newcomers = s.newcomers ∧ t.clk = (s.advance dt).clk)

/-- RESUME brings a SUSPENDED record back to ENROLLING with its good and miss counts 0 and its window empty, and is refused
WRONG_STATE in every other state (R91). RETIRE removes a record that is not in transaction at once, and takes one in
transaction to RETIRING with RETIRE pending, a correction in flight withdrawn; in both its slot leaves the rest of the poll
list and the urgent queue, where it had not already stopped being pollable under a pending SUSPEND (R69, R89, R108); RETIRING
is refused WRONG_STATE (R89). The member counts follow the record's state or its removal, and nothing else of the line, of a
rack or of the part changes (R69, R152). -/
def Obligations.ResumeAndRetireFollowTheRecord : Prop :=
  ∀ (dt : Nat) (body : List Byte) (r : Endpoint) (s : State), s.TakesFrames → body.length = 3 → s.named body = .ok r →
    s.SlotsRise →
    (r.state = .suspended → ∃ t : State, exec (.resume dt body) s = .next (t.answering 0x24 .ok []) ∧
      t.records = s.records.map (fun x => if x.slot = r.slot then
        { r with state := .enrolling, goodCount := 0, missCount := 0, window := [] } else x) ∧
      (s.accepting dt 3).MembersMoved r.line .suspended (some .enrolling) t ∧
      t = { s.accepting dt 3 with records := t.records, racks := t.racks } ∧
      t.lines = s.lines ∧ t.domains = s.domains ∧ t.newcomers = s.newcomers ∧ t.clk = (s.advance dt).clk) ∧
    (r.state ≠ .suspended → exec (.resume dt body) s = .next ((s.accepting dt 3).answering 0x24 .wrongState [])) ∧
    (r.state = .retiring → exec (.retire dt body) s = .next ((s.accepting dt 3).answering 0x25 .wrongState [])) ∧
    (r.state ≠ .retiring → r.inTxn = false → ∃ t : State, exec (.retire dt body) s = .next (t.answering 0x25 .ok []) ∧
      t.records = s.records.filter (fun x => x.slot != r.slot) ∧
      (s.accepting dt 3).MembersMoved r.line r.state none t ∧
      (∀ j, j ≠ r.line → t.line j = s.line j ∧ t.rack j = (s.advance dt).rack j) ∧
      t = { s.accepting dt 3 with lines := t.lines, records := t.records, racks := t.racks } ∧
      t.line r.line = { s.line r.line with pollList := (t.line r.line).pollList, urgent := (t.line r.line).urgent } ∧
      (t.line r.line).urgent = (s.line r.line).urgent.filter (fun x => x != r.slot) ∧
      (t.line r.line).pollList.drop (s.line r.line).pollPos =
        ((s.line r.line).pollList.drop (s.line r.line).pollPos).filter (fun x => x != r.slot) ∧
      t.domains = s.domains ∧ t.newcomers = s.newcomers ∧ t.clk = (s.advance dt).clk) ∧
    (r.state ≠ .retiring → r.inTxn = true → ∃ (t : State) (q : Endpoint),
      exec (.retire dt body) s = .next (t.answering 0x25 .accepted []) ∧
      t.records = s.records.map (fun x => if x.slot = r.slot then q else x) ∧
      q = { r with
        state := .retiring, withdrawal := .retire, ackSeq := r.cmdSeq
        unack := if r.ackSeq = r.cmdSeq then r.unack else 0
        toSend := if r.ackSeq = r.cmdSeq ∨ s.closeAssembled r = true then r.toSend else none } ∧
      t.line r.line = { s.line r.line with pollList := (t.line r.line).pollList, urgent := (t.line r.line).urgent } ∧
      (r.withdrawal = .no → r.state ≠ .suspended →
        (t.line r.line).urgent = (s.line r.line).urgent.filter (fun x => x != r.slot) ∧
        (t.line r.line).pollList.drop (s.line r.line).pollPos =
          ((s.line r.line).pollList.drop (s.line r.line).pollPos).filter (fun x => x != r.slot)) ∧
      (r.withdrawal ≠ .no ∨ r.state = .suspended → t.line r.line = s.line r.line) ∧
      (∀ j, j ≠ r.line → t.line j = s.line j ∧ t.rack j = (s.advance dt).rack j) ∧
      (s.accepting dt 3).MembersMoved r.line r.state (some .retiring) t ∧
      t = { s.accepting dt 3 with lines := t.lines, records := t.records, racks := t.racks } ∧
      t.domains = s.domains ∧ t.newcomers = s.newcomers ∧ t.clk = (s.advance dt).clk)

/-- SCAN lists the records of its state set and line from its start slot on, at most eight, by rising slot, and the next slot
or end; it changes nothing, and is refused BAD_FIELD out of range (R92, R191, R192). -/
def Obligations.ScanListsBySlot : Prop :=
  ∀ (dt : Nat) (body : List Byte) (s : State), s.TakesFrames → body.length = 4 →
    (field body 0 1 = 0 ∨ 63 < field body 0 1 ∨ 11 < field body 1 1 ∧ field body 1 1 ≠ 255 ∨ 511 < field body 2 2 →
      exec (.scan dt body) s = .next ((s.accepting dt 4).answering 0x28 .badField [])) ∧
    ∀ rs : List Endpoint, ¬(field body 0 1 = 0 ∨ 63 < field body 0 1) → field body 1 1 ≤ 11 ∨ field body 1 1 = 255 →
      field body 2 2 ≤ 511 →
      rs = (s.records.filter (fun r => decide (field body 2 2 ≤ r.slot ∧ (field body 0 1).testBit r.state.value = true ∧
        (field body 1 1 = 255 ∨ field body 1 1 = r.line.val)))).take 8 →
      (s.SlotsRise → rs.Pairwise (fun a b => a.slot < b.slot)) ∧
      exec (.scan dt body) s = .next ((s.accepting dt 4).answering 0x28 .ok
        (bytesOf 1 rs.length
          ++ rs.flatMap (fun r => bytesOf 2 r.slot ++ bytesOf 1 r.line.val ++ bytesOf 1 r.addr ++ bytesOf 1 r.state.value)
          ++ bytesOf 2 (match rs[7]? with
            | some r => if r.slot < 511 then r.slot + 1 else 65535
            | none => 65535)))

/-- NEWCOMERS answers every entry, oldest first, and the overflow flag as it stood, and clears the flag alone (R95). DISMISS
removes the entry of its key, and is refused BAD_FIELD out of range and NOT_FOUND where no entry has the key (R96); that its
body is the line, then the address, is the model's choice (assumption 45). -/
def Obligations.NewcomersAreListedAndDismissed : Prop :=
  (∀ (dt : Nat) (s : State), s.TakesFrames →
    exec (.newcomers dt []) s = .next (State.answering 0x29 .ok
      (bytesOf 1 s.newcomers.length ++ s.newcomers.flatMap (fun n => bytesOf 1 n.line.val ++ bytesOf 1 n.addr
        ++ bytesOf 4 n.identity.toNat ++ bytesOf 1 n.timesSeen ++ bytesOf 6 n.firstSeen) ++ bytesOf 1 s.overflow.toNat)
      { s.accepting dt 0 with overflow := false })) ∧
  ∀ (dt : Nat) (l a : Byte) (s : State), s.TakesFrames →
    (11 < l.toNat ∨ a.toNat = 0 ∨ 47 < a.toNat →
      exec (.dismiss dt [l, a]) s = .next ((s.accepting dt 2).answering 0x2A .badField [])) ∧
    (l.toNat ≤ 11 → 1 ≤ a.toNat → a.toNat ≤ 47 → (∀ n ∈ s.newcomers, ¬(n.line.val = l.toNat ∧ n.addr = a.toNat)) →
      exec (.dismiss dt [l, a]) s = .next ((s.accepting dt 2).answering 0x2A .notFound [])) ∧
    (l.toNat ≤ 11 → 1 ≤ a.toNat → a.toNat ≤ 47 → (∃ n ∈ s.newcomers, n.line.val = l.toNat ∧ n.addr = a.toNat) →
      exec (.dismiss dt [l, a]) s = .next (State.answering 0x2A .ok [] { s.accepting dt 2 with
        newcomers := s.newcomers.filter (fun n => decide (¬(n.line.val = l.toNat ∧ n.addr = a.toNat))) }))

/-! ### Stamp domains -/

/-- DOMAIN_OPEN is refused BAD_FIELD out of range, EXISTS when the id is in the table, and FULL with 64 domains. Else the
domain is created with the values of R114: FROZEN by the lowest member rack in ALARM under FREEZE_DOMAIN, OPEN otherwise,
which the response carries; no cause is raised (R114, R122, R123). -/
def Obligations.DomainOpenCreatesTheDomain : Prop :=
  ∀ (dt : Nat) (body : List Byte) (id : Byte) (s : State), s.TakesFrames → body.length = 8 →
    id = BitVec.ofNat 8 (field body 0 1) →
    (field body 0 1 = 0 ∨ field body 1 4 < 100 ∨ 100000000 < field body 1 4 ∨ 2 < field body 5 1 ∨ 4096 ≤ field body 6 2 →
      exec (.domainOpen dt body) s = .next ((s.accepting dt 8).answering 0x30 .badField [])) ∧
    (¬(field body 0 1 = 0 ∨ field body 1 4 < 100 ∨ 100000000 < field body 1 4 ∨ 2 < field body 5 1 ∨
        4096 ≤ field body 6 2) →
      ((∃ d ∈ s.domains, d.id = id) →
        exec (.domainOpen dt body) s = .next ((s.accepting dt 8).answering 0x30 .exists [])) ∧
      ((¬∃ d ∈ s.domains, d.id = id) → 64 ≤ s.domains.length →
        exec (.domainOpen dt body) s = .next ((s.accepting dt 8).answering 0x30 .full [])) ∧
      ((¬∃ d ∈ s.domains, d.id = id) → s.domains.length < 64 →
        ∃ d : Domain, exec (.domainOpen dt body) s =
            .next (State.answering 0x30 .ok [if d.state = .frozen then 1 else 0]
              { s.accepting dt 8 with domains := s.domains ++ [d] }) ∧
          d.id = id ∧ d.tolerance = field body 1 4 ∧ d.fence.value = field body 5 1 ∧
          d.members = BitVec.ofNat 12 (field body 6 2) ∧ d.lastIssued = none ∧ d.grants = 0 ∧ d.stamps = 0 ∧
          d.refusals = 0 ∧ d.burned = 0 ∧ d.pendingDel = 0 ∧
          (∀ n : Fin 12, d.fence = .freezeDomain → d.members.getLsbD n = true → s.inAlarm n = true →
            (∀ m : Fin 12, m < n → d.members.getLsbD m = true → s.inAlarm m = false) →
            d.state = .frozen ∧ d.cause = some (.rack n)) ∧
          (d.fence ≠ .freezeDomain ∨ (∀ n : Fin 12, d.members.getLsbD n = true → s.inAlarm n = false) →
            d.state = .opened ∧ d.cause = none)))

/-- DOMAIN_AMEND of a domain: out of range BAD_FIELD; RETIRING WRONG_STATE; else the carried fields are written together, and
an OPEN domain that is then FREEZE_DOMAIN with a member in ALARM becomes FROZEN by the lowest such rack. A FROZEN domain
keeps its state and cause. The response carries the resulting state (R122, R124). -/
def Obligations.DomainAmendWritesAndFences : Prop :=
  ∀ (dt : Nat) (body : List Byte) (d : Domain) (s : State), s.TakesFrames → body.length = 9 → field body 0 1 ≠ 0 →
    s.domain (BitVec.ofNat 8 (field body 0 1)) = some d →
    (domainAmendOk body = false →
      exec (.domainAmend dt body) s = .next ((s.accepting dt 9).answering 0x31 .badField [])) ∧
    (domainAmendOk body = true → d.state = .retiring →
      exec (.domainAmend dt body) s = .next ((s.accepting dt 9).answering 0x31 .wrongState [])) ∧
    (domainAmendOk body = true → d.state ≠ .retiring →
      ∃ (t : State) (q : Domain), exec (.domainAmend dt body) s =
          .next (t.answering 0x31 .ok [if q.state = .frozen then 1 else 0]) ∧
        t.domain d.id = some q ∧ (∀ id, id ≠ d.id → t.domain id = s.domain id) ∧
        t = { s.accepting dt 9 with domains := t.domains } ∧
        q = { d with
          tolerance := if (field body 1 1).testBit 0 then field body 2 4 else d.tolerance
          members := if (field body 1 1).testBit 2 then BitVec.ofNat 12 (field body 7 2) else d.members
          fence := q.fence, state := q.state, cause := q.cause } ∧
        q.fence.value = (if (field body 1 1).testBit 1 then field body 6 1 else d.fence.value) ∧
        (d.state = .frozen → q.state = .frozen ∧ q.cause = d.cause) ∧
        (∀ n : Fin 12, d.state = .opened → q.fence = .freezeDomain → q.members.getLsbD n = true → s.inAlarm n = true →
          (∀ m : Fin 12, m < n → q.members.getLsbD m = true → s.inAlarm m = false) →
          q.state = .frozen ∧ q.cause = some (.rack n)) ∧
        (d.state = .opened → q.fence ≠ .freezeDomain ∨
          (∀ n : Fin 12, q.members.getLsbD n = true → s.inAlarm n = false) → q.state = .opened ∧ q.cause = d.cause))

/-- DOMAIN_FREEZE, DOMAIN_THAW and DOMAIN_RETIRE by the rows of R125, R126 and R127. FREEZE of an OPEN domain gives FROZEN
with cause HOST. THAW of a FROZEN domain gives OPEN with no cause, but is refused under FREEZE_DOMAIN while a member rack is
in ALARM. RETIRE removes a domain with no pending delivery, and takes one with some to RETIRING. -/
def Obligations.DomainStatesFollowTheHost : Prop :=
  ∀ (dt : Nat) (b : Byte) (d : Domain) (s : State), s.TakesFrames → b ≠ 0 → s.domain b = some d →
    (d.state = .opened →
      exec (.domainFreeze dt [b]) s = .next (((s.accepting dt 1).modDomain b (fun d => { d with
        state := .frozen, cause := some .host })).answering 0x32 .ok [])) ∧
    (d.state = .frozen → exec (.domainFreeze dt [b]) s = .next ((s.accepting dt 1).answering 0x32 .ok [])) ∧
    (d.state = .retiring → exec (.domainFreeze dt [b]) s = .next ((s.accepting dt 1).answering 0x32 .wrongState [])) ∧
    (d.state = .frozen → d.fence = .freezeDomain ∧ (∃ n : Fin 12, d.members.getLsbD n = true ∧ s.inAlarm n = true) →
      exec (.domainThaw dt [b]) s = .next ((s.accepting dt 1).answering 0x33 .wrongState [])) ∧
    (d.state = .frozen → ¬(d.fence = .freezeDomain ∧ ∃ n : Fin 12, d.members.getLsbD n = true ∧ s.inAlarm n = true) →
      exec (.domainThaw dt [b]) s = .next (((s.accepting dt 1).modDomain b (fun d => { d with
        state := .opened, cause := none })).answering 0x33 .ok [])) ∧
    (d.state = .opened → exec (.domainThaw dt [b]) s = .next ((s.accepting dt 1).answering 0x33 .ok [])) ∧
    (d.state = .retiring → exec (.domainThaw dt [b]) s = .next ((s.accepting dt 1).answering 0x33 .wrongState [])) ∧
    (d.state ≠ .retiring → d.pendingDel = 0 →
      exec (.domainRetire dt [b]) s = .next (State.answering 0x34 .ok [] { s.accepting dt 1 with
        domains := s.domains.filter (fun x => x.id != b) })) ∧
    (d.state ≠ .retiring → d.pendingDel ≠ 0 →
      exec (.domainRetire dt [b]) s = .next (((s.accepting dt 1).modDomain b (fun d => { d with
        state := .retiring, cause := none })).answering 0x34 .accepted [])) ∧
    (d.state = .retiring → exec (.domainRetire dt [b]) s = .next ((s.accepting dt 1).answering 0x34 .wrongState []))

/-- A domain id of 0 refuses DOMAIN_AMEND, DOMAIN_FREEZE, DOMAIN_THAW, DOMAIN_RETIRE and DOMAIN_LOOKUP BAD_FIELD, and an id
that no domain has refuses them NOT_FOUND (R122). DOMAIN_LOOKUP answers the fields of R114 and the members in ALARM, and
changes nothing (R129, R192). -/
def Obligations.DomainIdsAreCheckedAndLookedUp : Prop :=
  (∀ (dt : Nat) (b : Byte) (rest : List Byte) (st : Status) (s : State), s.TakesFrames → rest.length = 8 →
    b = 0 ∧ st = .badField ∨ b ≠ 0 ∧ (∀ d ∈ s.domains, d.id ≠ b) ∧ st = .notFound →
    exec (.domainAmend dt (b :: rest)) s = .next ((s.accepting dt 9).answering 0x31 st []) ∧
    exec (.domainFreeze dt [b]) s = .next ((s.accepting dt 1).answering 0x32 st []) ∧
    exec (.domainThaw dt [b]) s = .next ((s.accepting dt 1).answering 0x33 st []) ∧
    exec (.domainRetire dt [b]) s = .next ((s.accepting dt 1).answering 0x34 st []) ∧
    exec (.domainLookup dt [b]) s = .next ((s.accepting dt 1).answering 0x35 st [])) ∧
  ∀ (dt : Nat) (b : Byte) (d : Domain) (s : State), s.TakesFrames → b ≠ 0 → s.domain b = some d →
    exec (.domainLookup dt [b]) s = .next ((s.accepting dt 1).answering 0x35 .ok
      ([d.id] ++ bytesOf 1 (match d.state with | .opened => 0 | .frozen => 1 | .retiring => 2)
        ++ bytesOf 1 (match d.cause with | none => 0 | some .host => 1 | some (.rack n) => 16 + n.val)
        ++ bytesOf 4 d.tolerance ++ bytesOf 1 (match d.fence with | .off => 0 | .refuseRack => 1 | .freezeDomain => 2)
        ++ bytesOf 2 d.members.toNat
        ++ (match d.lastIssued with
          | none => List.replicate 11 0
          | some l => [1] ++ bytesOf 6 l.sec ++ bytesOf 4 l.ns)
        ++ bytesOf 4 d.grants ++ bytesOf 6 d.stamps ++ bytesOf 4 d.refusals ++ bytesOf 4 d.burned
        ++ bytesOf 1 d.pendingDel
        ++ bytesOf 2 (all12.map (fun i : Fin 12 => if d.members.getLsbD i && s.inAlarm i then 2 ^ i.val else 0)).sum))

/-- STAMP from the host. The checks BAD_COUNT, NO_DOMAIN, DOMAIN_CLOSED, DOMAIN_FROZEN and UNCERTAIN are made in this order;
the first that fails is answered, and counts as a refusal of the domain that the id names. A request that passes them is
granted a run from the base stamp, row time or the last issued stamp plus 1 ns, which becomes the last issued stamp with its
last value; its uncertainty is U plus the clamp gap, within the tolerance (R118, R132, R134, R136, R138, R140 to R142). -/
def Obligations.HostStampIsDecidedInOrder : Prop :=
  ∀ (dt : Nat) (b n : Byte) (s : State), s.TakesFrames →
    (∀ code : Byte,
      code = 1 ∧ (n.toNat = 0 ∨ 16 < n.toNat) ∨
      code = 2 ∧ 1 ≤ n.toNat ∧ n.toNat ≤ 16 ∧ (b = 0 ∨ ∀ d ∈ s.domains, d.id ≠ b) ∨
      (∃ d, code = 3 ∧ 1 ≤ n.toNat ∧ n.toNat ≤ 16 ∧ b ≠ 0 ∧ s.domain b = some d ∧ d.state = .retiring) ∨
      (∃ d, code = 4 ∧ 1 ≤ n.toNat ∧ n.toNat ≤ 16 ∧ b ≠ 0 ∧ s.domain b = some d ∧ d.state = .frozen) →
      exec (.stamp dt [b, n]) s = .next (((s.accepting dt 2).modDomain b (fun d => { d with
        refusals := min 4294967295 (d.refusals + 1) })).answering 0x38 .ok [code, b])) ∧
    ∀ (d : Domain) (now base gap : Nat), 1 ≤ n.toNat → n.toNat ≤ 16 → b ≠ 0 → s.domain b = some d → d.state = .opened →
      now = (s.advance dt).clk.row.toNs →
      (d.lastIssued = none → base = now) → (∀ l, d.lastIssued = some l → base = max now (l.toNs + 1)) →
      gap = min 4294967295 ((s.advance dt).clk.u + (base - now)) →
      (d.tolerance < gap ∨ 281474976710656 * 1000000000 < base + n.toNat →
        exec (.stamp dt [b, n]) s = .next (((s.accepting dt 2).modDomain b (fun d => { d with
          refusals := min 4294967295 (d.refusals + 1) })).answering 0x38 .ok [11, b])) ∧
      (gap ≤ d.tolerance → base + n.toNat ≤ 281474976710656 * 1000000000 →
        exec (.stamp dt [b, n]) s = .next (((s.accepting dt 2).modDomain b (fun d => { d with
          lastIssued := some (RowTime.ofNs (base + n.toNat - 1))
          grants := min 4294967295 (d.grants + 1)
          stamps := min 281474976710655 (d.stamps + n.toNat) })).answering 0x38 .ok
            ([0, b, if now < base then 1 else 0] ++ bytesOf 2 s.clk.epoch.toNat
              ++ bytesOf 6 (base / 1000000000) ++ bytesOf 4 (base % 1000000000) ++ [n] ++ bytesOf 4 gap)))

/-! ### Requests on racks -/

/-- RACK_CONFIG out of range or out of order is refused BAD_FIELD. Else the carried fields are written together, the walk
counter, latch, swept excursion, dwell and repeat counts are set back and the countdown restarts; then the enable field takes
the rack out of OFF to QUIET, or to OFF with its alarm dropped, each a change that raises RACK. It answers OK with the
resulting configuration, and no domain changes (R154, R163, R165, R166). The response's configuration stands in R165's order
with the watch state last (assumption 14), an enable byte first (assumption 48), in widths that R192 does not all give
(assumption 13). The flag sweepDue, which entry to OFF clears, is the model's own (assumption 16). -/
def Obligations.RackConfigWritesTheCarriedFields : Prop :=
  ∀ (dt : Nat) (body : List Byte) (s : State), s.TakesFrames → body.length = 26 →
    (11 < field body 0 1 → exec (.rackConfig dt body) s = .next ((s.accepting dt 26).answering 0x40 .badField [])) ∧
    ∀ (i : Fin 12) (r q : Rack) (answer : Rack → List Byte), field body 0 1 = i.val → r = (s.advance dt).rack i →
      answer = (fun r => bytesOf 1 (if r.watch = .off then 0 else 1) ++ bytesOf 1 r.boost.toNat ++ bytesOf 1 r.repeatOn.toNat
        ++ bytesOf 4 r.driftClear ++ bytesOf 4 r.driftWarn ++ bytesOf 4 r.driftAlarm ++ bytesOf 1 r.lostWarn
        ++ bytesOf 1 r.lostAlarm ++ bytesOf 4 r.walkQuantum ++ bytesOf 2 r.walkLimit ++ bytesOf 1 r.dwellLimit
        ++ bytesOf 1 r.sweepExp
        ++ bytesOf 1 (match r.watch with | .off => 0 | .quiet => 1 | .watch => 2 | .warn => 3 | .alarm => 4)) →
      q = { r with
        boost := if (field body 1 2).testBit 1 then flag body 3 1 else r.boost
        repeatOn := if (field body 1 2).testBit 2 then flag body 3 2 else r.repeatOn
        driftClear := if (field body 1 2).testBit 3 then field body 4 4 else r.driftClear
        driftWarn := if (field body 1 2).testBit 4 then field body 8 4 else r.driftWarn
        driftAlarm := if (field body 1 2).testBit 5 then field body 12 4 else r.driftAlarm
        lostWarn := if (field body 1 2).testBit 6 then field body 16 1 else r.lostWarn
        lostAlarm := if (field body 1 2).testBit 7 then field body 17 1 else r.lostAlarm
        walkQuantum := if (field body 1 2).testBit 8 then field body 18 4 else r.walkQuantum
        walkLimit := if (field body 1 2).testBit 9 then field body 22 2 else r.walkLimit
        dwellLimit := if (field body 1 2).testBit 10 then field body 24 1 else r.dwellLimit
        sweepExp := if (field body 1 2).testBit 11 then field body 25 1 else r.sweepExp
        walk := 0, latch := none, sweptExcursion := none, dwell := 0, repeats := 0
        countdown := 2 ^ (if (field body 1 2).testBit 11 then field body 25 1 else r.sweepExp) } →
      (rackConfigRanges body = false ∨ q.driftWarn ≤ q.driftClear ∨ q.driftAlarm ≤ q.driftWarn ∨ q.lostAlarm < q.lostWarn →
        exec (.rackConfig dt body) s = .next ((s.accepting dt 26).answering 0x40 .badField [])) ∧
      (rackConfigRanges body = true → q.driftClear < q.driftWarn → q.driftWarn < q.driftAlarm → q.lostWarn ≤ q.lostAlarm →
        ((field body 1 2).testBit 0 = true → flag body 3 0 = true → r.watch = .off →
          exec (.rackConfig dt body) s = .next (State.answering 0x40 .ok (answer { q with watch := .quiet })
            (State.raise .rack ((s.accepting dt 26).setRack i { q with watch := .quiet, changed := true })))) ∧
        ((field body 1 2).testBit 0 = true → flag body 3 0 = false → r.watch ≠ .off →
          exec (.rackConfig dt body) s = .next (State.answering 0x40 .ok (answer { q with watch := .off })
            (State.raise .rack ((s.accepting dt 26).setRack i { q with
              watch := .off, cause := none, sweepDue := false, changed := true })))) ∧
        ((field body 1 2).testBit 0 = false ∨ (flag body 3 0 = true ↔ r.watch ≠ .off) →
          exec (.rackConfig dt body) s = .next (((s.accepting dt 26).setRack i q).answering 0x40 .ok (answer q))))

/-- RACK_LOOKUP clears the changed flag alone, and answers the rack as it stood (R167): the rack's number and the fields in
R167's order (assumption 14), the configuration without an enable byte (assumption 48), in widths that R192 does not all give
(assumption 13), with an excursion as one byte of free value (assumption 2). RACK_CLEAR takes a rack from ALARM to WATCH with
its dwell and repeat counts 0 and its cause gone, which raises RACK, and is refused WRONG_STATE in every other watch state
(R163, R168). RACK_REBASE sets the baseline of every TRACKING record of the line to its frequency estimate and answers their
number (R83, R169). A rack number above 11 refuses each BAD_FIELD. -/
def Obligations.RackRequestsFollowTheWatch : Prop :=
  ∀ (dt : Nat) (b : Byte) (answer : Fin 12 → Rack → List Byte) (s : State), s.TakesFrames →
    answer = (fun i r => bytesOf 1 i.val
      ++ bytesOf 1 (match r.watch with | .off => 0 | .quiet => 1 | .watch => 2 | .warn => 3 | .alarm => 4)
      ++ bytesOf 1 (match r.cause with | none => 0 | some .drift => 1 | some .lost => 2 | some .lineFault => 3 | some .walk => 4)
      ++ bytesOf 1 r.boost.toNat ++ bytesOf 1 r.repeatOn.toNat ++ bytesOf 4 r.driftClear ++ bytesOf 4 r.driftWarn
      ++ bytesOf 4 r.driftAlarm ++ bytesOf 1 r.lostWarn ++ bytesOf 1 r.lostAlarm ++ bytesOf 4 r.walkQuantum
      ++ bytesOf 2 r.walkLimit ++ bytesOf 1 r.dwellLimit ++ bytesOf 1 r.sweepExp ++ bytesOf 1 r.countdown
      ++ bytesOf 1 r.dwell ++ bytesOf 1 r.repeats ++ signedBytes 2 r.walk ++ [Config.excursionCode r.latch]
      ++ signedBytes 4 r.sweptD ++ bytesOf 1 r.sweptTracking ++ bytesOf 1 r.sweptLost
      ++ [Config.excursionCode r.sweptExcursion] ++ bytesOf 1 r.members.enrolling ++ bytesOf 1 r.members.tracking
      ++ bytesOf 1 r.members.suspect ++ bytesOf 1 r.members.lost ++ bytesOf 1 r.members.suspended
      ++ bytesOf 1 r.members.retiring ++ bytesOf 1 r.changed.toNat) →
    (11 < b.toNat →
      exec (.rackLookup dt [b]) s = .next ((s.accepting dt 1).answering 0x41 .badField []) ∧
      exec (.rackClear dt [b]) s = .next ((s.accepting dt 1).answering 0x42 .badField []) ∧
      exec (.rackRebase dt [b]) s = .next ((s.accepting dt 1).answering 0x43 .badField [])) ∧
    ∀ i : Fin 12, b.toNat = i.val →
      exec (.rackLookup dt [b]) s = .next (((s.accepting dt 1).modRack i (fun r => { r with changed := false })).answering
        0x41 .ok (answer i ((s.advance dt).rack i))) ∧
      ((s.rack i).watch = .alarm →
        exec (.rackClear dt [b]) s = .next (State.answering 0x42 .ok [] (State.raise .rack
          ((s.accepting dt 1).modRack i (fun r => { r with
            watch := .watch, cause := none, dwell := 0, repeats := 0, changed := true }))))) ∧
      ((s.rack i).watch ≠ .alarm →
        exec (.rackClear dt [b]) s = .next ((s.accepting dt 1).answering 0x42 .wrongState [])) ∧
      (s.SlotsRise →
        exec (.rackRebase dt [b]) s = .next (State.answering 0x43 .ok
          (bytesOf 1 (s.records.filter (fun r => r.line == i && r.state == .tracking)).length)
          { s.accepting dt 1 with records := s.records.map (fun r =>
              if r.line = i ∧ r.state = .tracking then { r with baseline := some r.freq } else r) }))

/-! ### Invariants that every step keeps -/

/-- For every record the commanded sequence equals the acknowledged sequence or is one greater modulo 16 (R97). -/
def Obligations.SequencesStayClose : Prop :=
  ∀ s t : State, s.SequencesClose → step s = .next t → t.SequencesClose

/-- The tables stay in order: records stand by rising slot with no key twice (R68), the newcomer set holds at most 16 entries,
none of a key twice or of a key that a record holds (R93), each rack's member counts are the numbers of records of its line
in each state, and its walk counter stays inside its limit (R152). -/
def Obligations.TablesStayInOrder : Prop :=
  ∀ s t : State, s.SlotsRise ∧ s.KeysDiffer ∧ s.NewcomersApart ∧ s.CountsAgree ∧ s.WalkInside → step s = .next t →
    t.SlotsRise ∧ t.KeysDiffer ∧ t.NewcomersApart ∧ t.CountsAgree ∧ t.WalkInside

/-- No two domains share an id (R115), and no domain whose fence mode is FREEZE_DOMAIN is OPEN while one of its member racks
is in ALARM (R121). For every domain the pending-delivery count stays the number of records whose pending grant names it
(R119), together with what that rests on: the subject of a transaction is a record of the line that is in transaction, while
the line is in POLLING or CLOSING; a pending grant is held by the subject of a line in CLOSING alone, and names a domain of the
table; and the slots that a line still has to serve name records of that line. -/
def Obligations.FencesHold : Prop :=
  (∀ s t : State, s.IdsDiffer ∧ s.FenceHolds → step s = .next t → t.IdsDiffer ∧ t.FenceHolds) ∧
  ∀ s t : State, s.SlotsRise ∧ s.IdsDiffer ∧ (∀ i, s.SubjectHeld i) ∧ s.AnswersHeld ∧ s.DeliveriesAgree →
    step s = .next t → (∀ i, t.SubjectHeld i) ∧ t.AnswersHeld ∧ t.DeliveriesAgree

/-- Within the life of a domain its last issued stamp never falls and is never lost (R117, R139), and its counters of grants,
stamps, refusals and burned stamps never fall (R118). A RESTART or a reset ends every domain's life, and no domain is in the
table both before and after one. -/
def Obligations.StampsNeverFall : Prop :=
  ∀ (s t : State) (id : Byte) (d e : Domain), step s = .next t → s.domain id = some d →
    t.domain id = some e →
    (∀ l, d.lastIssued = some l → ∃ m, e.lastIssued = some m ∧ l.toNs ≤ m.toNs) ∧
    (d.grants ≤ 4294967295 → d.grants ≤ e.grants) ∧ (d.stamps ≤ 281474976710655 → d.stamps ≤ e.stamps) ∧
    (d.refusals ≤ 4294967295 → d.refusals ≤ e.refusals) ∧ (d.burned ≤ 4294967295 → d.burned ≤ e.burned)

/-- The clock and the channels stay in their ranges (R1, R8), no reference is selected and no channel QUALIFIED in FREERUN and
HOLDOVER, and the selected reference is QUALIFIED in ACQUIRING and LOCKED (R8). -/
def Obligations.ReferencesStayHeld : Prop :=
  ∀ s t : State, s.ClockInRange ∧ s.RefHeld → step s = .next t → t.ClockInRange ∧ t.RefHeld

/-- A response is held exactly in RESPONSE_HELD, and one is being formed exactly in EXECUTING (R173, R176). Between two commands
data out is at high impedance and nothing is clocked in (R171), and chip select is low only in the transaction that a reset
found under way (R184). -/
def Obligations.PortStaysConsistent : Prop :=
  ∀ s t : State, s.PortHolds → step s = .next t → t.PortHolds
end

