-- ==== Sys2Proof/Laws/State.lean ====
section
/-! SUPPORT. Small lemmas of the state's updates: one per field an update leaves alone, and what reading an updated line,
rack, port or clock gives. -/

namespace Sys2Proof.Machine

open Sys2Proof

variable (s : State)

/-! ### modPort -/

@[simp] theorem modPort_localNs (f : Port → Port) : (s.modPort f).localNs = s.localNs := rfl
@[simp] theorem modPort_due (f : Port → Port) : (s.modPort f).due = s.due := rfl
@[simp] theorem modPort_chanA (f : Port → Port) : (s.modPort f).chanA = s.chanA := rfl
@[simp] theorem modPort_chanB (f : Port → Port) : (s.modPort f).chanB = s.chanB := rfl
@[simp] theorem modPort_clk (f : Port → Port) : (s.modPort f).clk = s.clk := rfl
@[simp] theorem modPort_lines (f : Port → Port) : (s.modPort f).lines = s.lines := rfl
@[simp] theorem modPort_latches (f : Port → Port) : (s.modPort f).latches = s.latches := rfl
@[simp] theorem modPort_t1 (f : Port → Port) (j : Fin 12) : (s.modPort f).t1 j = s.t1 j := rfl
@[simp] theorem modPort_records (f : Port → Port) : (s.modPort f).records = s.records := rfl
@[simp] theorem modPort_newcomers (f : Port → Port) : (s.modPort f).newcomers = s.newcomers := rfl
@[simp] theorem modPort_overflow (f : Port → Port) : (s.modPort f).overflow = s.overflow := rfl
@[simp] theorem modPort_domains (f : Port → Port) : (s.modPort f).domains = s.domains := rfl
@[simp] theorem modPort_racks (f : Port → Port) : (s.modPort f).racks = s.racks := rfl
@[simp] theorem modPort_freeCount (f : Port → Port) : (s.modPort f).freeCount = s.freeCount := rfl
@[simp] theorem modPort_pending (f : Port → Port) : (s.modPort f).pending = s.pending := rfl
@[simp] theorem modPort_line (f : Port → Port) (j : Fin 12) : (s.modPort f).line j = s.line j := rfl
@[simp] theorem modPort_rack (f : Port → Port) (j : Fin 12) : (s.modPort f).rack j = s.rack j := rfl
@[simp] theorem modPort_chan (f : Port → Port) (j : Chan) : (s.modPort f).chan j = s.chan j := by cases j <;> rfl
@[simp] theorem modPort_bySlot (f : Port → Port) (j : Nat) : (s.modPort f).bySlot j = s.bySlot j := rfl
@[simp] theorem modPort_byKey (f : Port → Port) (j : Fin 12) (k : Nat) : (s.modPort f).byKey j k = s.byKey j k := rfl
@[simp] theorem modPort_domain (f : Port → Port) (j : Byte) : (s.modPort f).domain j = s.domain j := rfl

/-! ### raise -/

@[simp] theorem raise_localNs (c : Cause) : (s.raise c).localNs = s.localNs := rfl
@[simp] theorem raise_due (c : Cause) : (s.raise c).due = s.due := rfl
@[simp] theorem raise_chanA (c : Cause) : (s.raise c).chanA = s.chanA := rfl
@[simp] theorem raise_chanB (c : Cause) : (s.raise c).chanB = s.chanB := rfl
@[simp] theorem raise_clk (c : Cause) : (s.raise c).clk = s.clk := rfl
@[simp] theorem raise_lines (c : Cause) : (s.raise c).lines = s.lines := rfl
@[simp] theorem raise_latches (c : Cause) : (s.raise c).latches = s.latches := rfl
@[simp] theorem raise_t1 (c : Cause) (j : Fin 12) : (s.raise c).t1 j = s.t1 j := rfl
@[simp] theorem raise_records (c : Cause) : (s.raise c).records = s.records := rfl
@[simp] theorem raise_newcomers (c : Cause) : (s.raise c).newcomers = s.newcomers := rfl
@[simp] theorem raise_overflow (c : Cause) : (s.raise c).overflow = s.overflow := rfl
@[simp] theorem raise_domains (c : Cause) : (s.raise c).domains = s.domains := rfl
@[simp] theorem raise_racks (c : Cause) : (s.raise c).racks = s.racks := rfl
@[simp] theorem raise_freeCount (c : Cause) : (s.raise c).freeCount = s.freeCount := rfl
@[simp] theorem raise_pending (c : Cause) : (s.raise c).pending = s.pending := rfl
@[simp] theorem raise_line (c : Cause) (j : Fin 12) : (s.raise c).line j = s.line j := rfl
@[simp] theorem raise_rack (c : Cause) (j : Fin 12) : (s.raise c).rack j = s.rack j := rfl
@[simp] theorem raise_chan (c : Cause) (j : Chan) : (s.raise c).chan j = s.chan j := by cases j <;> rfl
@[simp] theorem raise_bySlot (c : Cause) (j : Nat) : (s.raise c).bySlot j = s.bySlot j := rfl
@[simp] theorem raise_byKey (c : Cause) (j : Fin 12) (k : Nat) : (s.raise c).byKey j k = s.byKey j k := rfl
@[simp] theorem raise_domain (c : Cause) (j : Byte) : (s.raise c).domain j = s.domain j := rfl

/-! ### clearCauses -/

@[simp] theorem clearCauses_localNs (c : Byte) : (s.clearCauses c).localNs = s.localNs := rfl
@[simp] theorem clearCauses_due (c : Byte) : (s.clearCauses c).due = s.due := rfl
@[simp] theorem clearCauses_chanA (c : Byte) : (s.clearCauses c).chanA = s.chanA := rfl
@[simp] theorem clearCauses_chanB (c : Byte) : (s.clearCauses c).chanB = s.chanB := rfl
@[simp] theorem clearCauses_clk (c : Byte) : (s.clearCauses c).clk = s.clk := rfl
@[simp] theorem clearCauses_lines (c : Byte) : (s.clearCauses c).lines = s.lines := rfl
@[simp] theorem clearCauses_latches (c : Byte) : (s.clearCauses c).latches = s.latches := rfl
@[simp] theorem clearCauses_t1 (c : Byte) (j : Fin 12) : (s.clearCauses c).t1 j = s.t1 j := rfl
@[simp] theorem clearCauses_records (c : Byte) : (s.clearCauses c).records = s.records := rfl
@[simp] theorem clearCauses_newcomers (c : Byte) : (s.clearCauses c).newcomers = s.newcomers := rfl
@[simp] theorem clearCauses_overflow (c : Byte) : (s.clearCauses c).overflow = s.overflow := rfl
@[simp] theorem clearCauses_domains (c : Byte) : (s.clearCauses c).domains = s.domains := rfl
@[simp] theorem clearCauses_racks (c : Byte) : (s.clearCauses c).racks = s.racks := rfl
@[simp] theorem clearCauses_freeCount (c : Byte) : (s.clearCauses c).freeCount = s.freeCount := rfl
@[simp] theorem clearCauses_pending (c : Byte) : (s.clearCauses c).pending = s.pending := rfl
@[simp] theorem clearCauses_line (c : Byte) (j : Fin 12) : (s.clearCauses c).line j = s.line j := rfl
@[simp] theorem clearCauses_rack (c : Byte) (j : Fin 12) : (s.clearCauses c).rack j = s.rack j := rfl
@[simp] theorem clearCauses_chan (c : Byte) (j : Chan) : (s.clearCauses c).chan j = s.chan j := by cases j <;> rfl
@[simp] theorem clearCauses_bySlot (c : Byte) (j : Nat) : (s.clearCauses c).bySlot j = s.bySlot j := rfl
@[simp] theorem clearCauses_byKey (c : Byte) (j : Fin 12) (k : Nat) : (s.clearCauses c).byKey j k = s.byKey j k := rfl
@[simp] theorem clearCauses_domain (c : Byte) (j : Byte) : (s.clearCauses c).domain j = s.domain j := rfl

/-! ### modClk -/

@[simp] theorem modClk_localNs (f : RowClock → RowClock) : (s.modClk f).localNs = s.localNs := rfl
@[simp] theorem modClk_due (f : RowClock → RowClock) : (s.modClk f).due = s.due := rfl
@[simp] theorem modClk_chanA (f : RowClock → RowClock) : (s.modClk f).chanA = s.chanA := rfl
@[simp] theorem modClk_chanB (f : RowClock → RowClock) : (s.modClk f).chanB = s.chanB := rfl
@[simp] theorem modClk_lines (f : RowClock → RowClock) : (s.modClk f).lines = s.lines := rfl
@[simp] theorem modClk_latches (f : RowClock → RowClock) : (s.modClk f).latches = s.latches := rfl
@[simp] theorem modClk_t1 (f : RowClock → RowClock) (j : Fin 12) : (s.modClk f).t1 j = s.t1 j := rfl
@[simp] theorem modClk_records (f : RowClock → RowClock) : (s.modClk f).records = s.records := rfl
@[simp] theorem modClk_newcomers (f : RowClock → RowClock) : (s.modClk f).newcomers = s.newcomers := rfl
@[simp] theorem modClk_overflow (f : RowClock → RowClock) : (s.modClk f).overflow = s.overflow := rfl
@[simp] theorem modClk_domains (f : RowClock → RowClock) : (s.modClk f).domains = s.domains := rfl
@[simp] theorem modClk_racks (f : RowClock → RowClock) : (s.modClk f).racks = s.racks := rfl
@[simp] theorem modClk_port (f : RowClock → RowClock) : (s.modClk f).port = s.port := rfl
@[simp] theorem modClk_freeCount (f : RowClock → RowClock) : (s.modClk f).freeCount = s.freeCount := rfl
@[simp] theorem modClk_pending (f : RowClock → RowClock) : (s.modClk f).pending = s.pending := rfl
@[simp] theorem modClk_line (f : RowClock → RowClock) (j : Fin 12) : (s.modClk f).line j = s.line j := rfl
@[simp] theorem modClk_rack (f : RowClock → RowClock) (j : Fin 12) : (s.modClk f).rack j = s.rack j := rfl
@[simp] theorem modClk_chan (f : RowClock → RowClock) (j : Chan) : (s.modClk f).chan j = s.chan j := by cases j <;> rfl
@[simp] theorem modClk_bySlot (f : RowClock → RowClock) (j : Nat) : (s.modClk f).bySlot j = s.bySlot j := rfl
@[simp] theorem modClk_byKey (f : RowClock → RowClock) (j : Fin 12) (k : Nat) : (s.modClk f).byKey j k = s.byKey j k := rfl
@[simp] theorem modClk_domain (f : RowClock → RowClock) (j : Byte) : (s.modClk f).domain j = s.domain j := rfl

/-! ### setLine -/

@[simp] theorem setLine_localNs (i : Fin 12) (l : Line) : (s.setLine i l).localNs = s.localNs := rfl
@[simp] theorem setLine_due (i : Fin 12) (l : Line) : (s.setLine i l).due = s.due := rfl
@[simp] theorem setLine_chanA (i : Fin 12) (l : Line) : (s.setLine i l).chanA = s.chanA := rfl
@[simp] theorem setLine_chanB (i : Fin 12) (l : Line) : (s.setLine i l).chanB = s.chanB := rfl
@[simp] theorem setLine_clk (i : Fin 12) (l : Line) : (s.setLine i l).clk = s.clk := rfl
@[simp] theorem setLine_records (i : Fin 12) (l : Line) : (s.setLine i l).records = s.records := rfl
@[simp] theorem setLine_latches (i : Fin 12) (l : Line) : (s.setLine i l).latches = s.latches := rfl
@[simp] theorem setLine_t1 (i : Fin 12) (l : Line) (j : Fin 12) : (s.setLine i l).t1 j = s.t1 j := rfl
@[simp] theorem setLine_newcomers (i : Fin 12) (l : Line) : (s.setLine i l).newcomers = s.newcomers := rfl
@[simp] theorem setLine_overflow (i : Fin 12) (l : Line) : (s.setLine i l).overflow = s.overflow := rfl
@[simp] theorem setLine_domains (i : Fin 12) (l : Line) : (s.setLine i l).domains = s.domains := rfl
@[simp] theorem setLine_racks (i : Fin 12) (l : Line) : (s.setLine i l).racks = s.racks := rfl
@[simp] theorem setLine_port (i : Fin 12) (l : Line) : (s.setLine i l).port = s.port := rfl
@[simp] theorem setLine_freeCount (i : Fin 12) (l : Line) : (s.setLine i l).freeCount = s.freeCount := rfl
@[simp] theorem setLine_pending (i : Fin 12) (l : Line) : (s.setLine i l).pending = s.pending := rfl
@[simp] theorem setLine_rack (i : Fin 12) (l : Line) (j : Fin 12) : (s.setLine i l).rack j = s.rack j := rfl
@[simp] theorem setLine_chan (i : Fin 12) (l : Line) (j : Chan) : (s.setLine i l).chan j = s.chan j := by cases j <;> rfl
@[simp] theorem setLine_bySlot (i : Fin 12) (l : Line) (j : Nat) : (s.setLine i l).bySlot j = s.bySlot j := rfl
@[simp] theorem setLine_byKey (i : Fin 12) (l : Line) (j : Fin 12) (k : Nat) : (s.setLine i l).byKey j k = s.byKey j k := rfl
@[simp] theorem setLine_domain (i : Fin 12) (l : Line) (j : Byte) : (s.setLine i l).domain j = s.domain j := rfl

/-! ### modLine -/

@[simp] theorem modLine_localNs (i : Fin 12) (f : Line → Line) : (s.modLine i f).localNs = s.localNs := rfl
@[simp] theorem modLine_due (i : Fin 12) (f : Line → Line) : (s.modLine i f).due = s.due := rfl
@[simp] theorem modLine_chanA (i : Fin 12) (f : Line → Line) : (s.modLine i f).chanA = s.chanA := rfl
@[simp] theorem modLine_chanB (i : Fin 12) (f : Line → Line) : (s.modLine i f).chanB = s.chanB := rfl
@[simp] theorem modLine_clk (i : Fin 12) (f : Line → Line) : (s.modLine i f).clk = s.clk := rfl
@[simp] theorem modLine_records (i : Fin 12) (f : Line → Line) : (s.modLine i f).records = s.records := rfl
@[simp] theorem modLine_latches (i : Fin 12) (f : Line → Line) : (s.modLine i f).latches = s.latches := rfl
@[simp] theorem modLine_t1 (i : Fin 12) (f : Line → Line) (j : Fin 12) : (s.modLine i f).t1 j = s.t1 j := rfl
@[simp] theorem modLine_newcomers (i : Fin 12) (f : Line → Line) : (s.modLine i f).newcomers = s.newcomers := rfl
@[simp] theorem modLine_overflow (i : Fin 12) (f : Line → Line) : (s.modLine i f).overflow = s.overflow := rfl
@[simp] theorem modLine_domains (i : Fin 12) (f : Line → Line) : (s.modLine i f).domains = s.domains := rfl
@[simp] theorem modLine_racks (i : Fin 12) (f : Line → Line) : (s.modLine i f).racks = s.racks := rfl
@[simp] theorem modLine_port (i : Fin 12) (f : Line → Line) : (s.modLine i f).port = s.port := rfl
@[simp] theorem modLine_freeCount (i : Fin 12) (f : Line → Line) : (s.modLine i f).freeCount = s.freeCount := rfl
@[simp] theorem modLine_pending (i : Fin 12) (f : Line → Line) : (s.modLine i f).pending = s.pending := rfl
@[simp] theorem modLine_rack (i : Fin 12) (f : Line → Line) (j : Fin 12) : (s.modLine i f).rack j = s.rack j := rfl
@[simp] theorem modLine_chan (i : Fin 12) (f : Line → Line) (j : Chan) : (s.modLine i f).chan j = s.chan j := by cases j <;> rfl
@[simp] theorem modLine_bySlot (i : Fin 12) (f : Line → Line) (j : Nat) : (s.modLine i f).bySlot j = s.bySlot j := rfl
@[simp] theorem modLine_byKey (i : Fin 12) (f : Line → Line) (j : Fin 12) (k : Nat) : (s.modLine i f).byKey j k = s.byKey j k := rfl
@[simp] theorem modLine_domain (i : Fin 12) (f : Line → Line) (j : Byte) : (s.modLine i f).domain j = s.domain j := rfl

/-! ### setRack -/

@[simp] theorem setRack_localNs (i : Fin 12) (r : Rack) : (s.setRack i r).localNs = s.localNs := rfl
@[simp] theorem setRack_due (i : Fin 12) (r : Rack) : (s.setRack i r).due = s.due := rfl
@[simp] theorem setRack_chanA (i : Fin 12) (r : Rack) : (s.setRack i r).chanA = s.chanA := rfl
@[simp] theorem setRack_chanB (i : Fin 12) (r : Rack) : (s.setRack i r).chanB = s.chanB := rfl
@[simp] theorem setRack_clk (i : Fin 12) (r : Rack) : (s.setRack i r).clk = s.clk := rfl
@[simp] theorem setRack_lines (i : Fin 12) (r : Rack) : (s.setRack i r).lines = s.lines := rfl
@[simp] theorem setRack_latches (i : Fin 12) (r : Rack) : (s.setRack i r).latches = s.latches := rfl
@[simp] theorem setRack_t1 (i : Fin 12) (r : Rack) (j : Fin 12) : (s.setRack i r).t1 j = s.t1 j := rfl
@[simp] theorem setRack_records (i : Fin 12) (r : Rack) : (s.setRack i r).records = s.records := rfl
@[simp] theorem setRack_newcomers (i : Fin 12) (r : Rack) : (s.setRack i r).newcomers = s.newcomers := rfl
@[simp] theorem setRack_overflow (i : Fin 12) (r : Rack) : (s.setRack i r).overflow = s.overflow := rfl
@[simp] theorem setRack_domains (i : Fin 12) (r : Rack) : (s.setRack i r).domains = s.domains := rfl
@[simp] theorem setRack_port (i : Fin 12) (r : Rack) : (s.setRack i r).port = s.port := rfl
@[simp] theorem setRack_freeCount (i : Fin 12) (r : Rack) : (s.setRack i r).freeCount = s.freeCount := rfl
@[simp] theorem setRack_pending (i : Fin 12) (r : Rack) : (s.setRack i r).pending = s.pending := rfl
@[simp] theorem setRack_line (i : Fin 12) (r : Rack) (j : Fin 12) : (s.setRack i r).line j = s.line j := rfl
@[simp] theorem setRack_chan (i : Fin 12) (r : Rack) (j : Chan) : (s.setRack i r).chan j = s.chan j := by cases j <;> rfl
@[simp] theorem setRack_bySlot (i : Fin 12) (r : Rack) (j : Nat) : (s.setRack i r).bySlot j = s.bySlot j := rfl
@[simp] theorem setRack_byKey (i : Fin 12) (r : Rack) (j : Fin 12) (k : Nat) : (s.setRack i r).byKey j k = s.byKey j k := rfl
@[simp] theorem setRack_domain (i : Fin 12) (r : Rack) (j : Byte) : (s.setRack i r).domain j = s.domain j := rfl

/-! ### modRack -/

@[simp] theorem modRack_localNs (i : Fin 12) (f : Rack → Rack) : (s.modRack i f).localNs = s.localNs := rfl
@[simp] theorem modRack_due (i : Fin 12) (f : Rack → Rack) : (s.modRack i f).due = s.due := rfl
@[simp] theorem modRack_chanA (i : Fin 12) (f : Rack → Rack) : (s.modRack i f).chanA = s.chanA := rfl
@[simp] theorem modRack_chanB (i : Fin 12) (f : Rack → Rack) : (s.modRack i f).chanB = s.chanB := rfl
@[simp] theorem modRack_clk (i : Fin 12) (f : Rack → Rack) : (s.modRack i f).clk = s.clk := rfl
@[simp] theorem modRack_lines (i : Fin 12) (f : Rack → Rack) : (s.modRack i f).lines = s.lines := rfl
@[simp] theorem modRack_latches (i : Fin 12) (f : Rack → Rack) : (s.modRack i f).latches = s.latches := rfl
@[simp] theorem modRack_t1 (i : Fin 12) (f : Rack → Rack) (j : Fin 12) : (s.modRack i f).t1 j = s.t1 j := rfl
@[simp] theorem modRack_records (i : Fin 12) (f : Rack → Rack) : (s.modRack i f).records = s.records := rfl
@[simp] theorem modRack_newcomers (i : Fin 12) (f : Rack → Rack) : (s.modRack i f).newcomers = s.newcomers := rfl
@[simp] theorem modRack_overflow (i : Fin 12) (f : Rack → Rack) : (s.modRack i f).overflow = s.overflow := rfl
@[simp] theorem modRack_domains (i : Fin 12) (f : Rack → Rack) : (s.modRack i f).domains = s.domains := rfl
@[simp] theorem modRack_port (i : Fin 12) (f : Rack → Rack) : (s.modRack i f).port = s.port := rfl
@[simp] theorem modRack_freeCount (i : Fin 12) (f : Rack → Rack) : (s.modRack i f).freeCount = s.freeCount := rfl
@[simp] theorem modRack_pending (i : Fin 12) (f : Rack → Rack) : (s.modRack i f).pending = s.pending := rfl
@[simp] theorem modRack_line (i : Fin 12) (f : Rack → Rack) (j : Fin 12) : (s.modRack i f).line j = s.line j := rfl
@[simp] theorem modRack_chan (i : Fin 12) (f : Rack → Rack) (j : Chan) : (s.modRack i f).chan j = s.chan j := by cases j <;> rfl
@[simp] theorem modRack_bySlot (i : Fin 12) (f : Rack → Rack) (j : Nat) : (s.modRack i f).bySlot j = s.bySlot j := rfl
@[simp] theorem modRack_byKey (i : Fin 12) (f : Rack → Rack) (j : Fin 12) (k : Nat) : (s.modRack i f).byKey j k = s.byKey j k := rfl
@[simp] theorem modRack_domain (i : Fin 12) (f : Rack → Rack) (j : Byte) : (s.modRack i f).domain j = s.domain j := rfl

/-! ### putRecord -/

@[simp] theorem putRecord_localNs (n : Nat) (r : Endpoint) : (s.putRecord n r).localNs = s.localNs := rfl
@[simp] theorem putRecord_due (n : Nat) (r : Endpoint) : (s.putRecord n r).due = s.due := rfl
@[simp] theorem putRecord_chanA (n : Nat) (r : Endpoint) : (s.putRecord n r).chanA = s.chanA := rfl
@[simp] theorem putRecord_chanB (n : Nat) (r : Endpoint) : (s.putRecord n r).chanB = s.chanB := rfl
@[simp] theorem putRecord_clk (n : Nat) (r : Endpoint) : (s.putRecord n r).clk = s.clk := rfl
@[simp] theorem putRecord_lines (n : Nat) (r : Endpoint) : (s.putRecord n r).lines = s.lines := rfl
@[simp] theorem putRecord_latches (n : Nat) (r : Endpoint) : (s.putRecord n r).latches = s.latches := rfl
@[simp] theorem putRecord_t1 (n : Nat) (r : Endpoint) (j : Fin 12) : (s.putRecord n r).t1 j = s.t1 j := rfl
@[simp] theorem putRecord_newcomers (n : Nat) (r : Endpoint) : (s.putRecord n r).newcomers = s.newcomers := rfl
@[simp] theorem putRecord_overflow (n : Nat) (r : Endpoint) : (s.putRecord n r).overflow = s.overflow := rfl
@[simp] theorem putRecord_domains (n : Nat) (r : Endpoint) : (s.putRecord n r).domains = s.domains := rfl
@[simp] theorem putRecord_racks (n : Nat) (r : Endpoint) : (s.putRecord n r).racks = s.racks := rfl
@[simp] theorem putRecord_port (n : Nat) (r : Endpoint) : (s.putRecord n r).port = s.port := rfl
@[simp] theorem putRecord_freeCount (n : Nat) (r : Endpoint) : (s.putRecord n r).freeCount = s.freeCount := rfl
@[simp] theorem putRecord_pending (n : Nat) (r : Endpoint) : (s.putRecord n r).pending = s.pending := rfl
@[simp] theorem putRecord_line (n : Nat) (r : Endpoint) (j : Fin 12) : (s.putRecord n r).line j = s.line j := rfl
@[simp] theorem putRecord_rack (n : Nat) (r : Endpoint) (j : Fin 12) : (s.putRecord n r).rack j = s.rack j := rfl
@[simp] theorem putRecord_chan (n : Nat) (r : Endpoint) (j : Chan) : (s.putRecord n r).chan j = s.chan j := by cases j <;> rfl
@[simp] theorem putRecord_domain (n : Nat) (r : Endpoint) (j : Byte) : (s.putRecord n r).domain j = s.domain j := rfl

/-! ### modDomain -/

@[simp] theorem modDomain_localNs (id : Byte) (f : Domain → Domain) : (s.modDomain id f).localNs = s.localNs := rfl
@[simp] theorem modDomain_due (id : Byte) (f : Domain → Domain) : (s.modDomain id f).due = s.due := rfl
@[simp] theorem modDomain_chanA (id : Byte) (f : Domain → Domain) : (s.modDomain id f).chanA = s.chanA := rfl
@[simp] theorem modDomain_chanB (id : Byte) (f : Domain → Domain) : (s.modDomain id f).chanB = s.chanB := rfl
@[simp] theorem modDomain_clk (id : Byte) (f : Domain → Domain) : (s.modDomain id f).clk = s.clk := rfl
@[simp] theorem modDomain_lines (id : Byte) (f : Domain → Domain) : (s.modDomain id f).lines = s.lines := rfl
@[simp] theorem modDomain_latches (id : Byte) (f : Domain → Domain) : (s.modDomain id f).latches = s.latches := rfl
@[simp] theorem modDomain_t1 (id : Byte) (f : Domain → Domain) (j : Fin 12) : (s.modDomain id f).t1 j = s.t1 j := rfl
@[simp] theorem modDomain_records (id : Byte) (f : Domain → Domain) : (s.modDomain id f).records = s.records := rfl
@[simp] theorem modDomain_newcomers (id : Byte) (f : Domain → Domain) : (s.modDomain id f).newcomers = s.newcomers := rfl
@[simp] theorem modDomain_overflow (id : Byte) (f : Domain → Domain) : (s.modDomain id f).overflow = s.overflow := rfl
@[simp] theorem modDomain_racks (id : Byte) (f : Domain → Domain) : (s.modDomain id f).racks = s.racks := rfl
@[simp] theorem modDomain_port (id : Byte) (f : Domain → Domain) : (s.modDomain id f).port = s.port := rfl
@[simp] theorem modDomain_freeCount (id : Byte) (f : Domain → Domain) : (s.modDomain id f).freeCount = s.freeCount := rfl
@[simp] theorem modDomain_pending (id : Byte) (f : Domain → Domain) : (s.modDomain id f).pending = s.pending := rfl
@[simp] theorem modDomain_line (id : Byte) (f : Domain → Domain) (j : Fin 12) : (s.modDomain id f).line j = s.line j := rfl
@[simp] theorem modDomain_rack (id : Byte) (f : Domain → Domain) (j : Fin 12) : (s.modDomain id f).rack j = s.rack j := rfl
@[simp] theorem modDomain_chan (id : Byte) (f : Domain → Domain) (j : Chan) : (s.modDomain id f).chan j = s.chan j := by cases j <;> rfl
@[simp] theorem modDomain_bySlot (id : Byte) (f : Domain → Domain) (j : Nat) : (s.modDomain id f).bySlot j = s.bySlot j := rfl
@[simp] theorem modDomain_byKey (id : Byte) (f : Domain → Domain) (j : Fin 12) (k : Nat) :
    (s.modDomain id f).byKey j k = s.byKey j k := rfl

/-! ### dropDomain -/

@[simp] theorem dropDomain_localNs (id : Byte) : (s.dropDomain id).localNs = s.localNs := rfl
@[simp] theorem dropDomain_due (id : Byte) : (s.dropDomain id).due = s.due := rfl
@[simp] theorem dropDomain_chanA (id : Byte) : (s.dropDomain id).chanA = s.chanA := rfl
@[simp] theorem dropDomain_chanB (id : Byte) : (s.dropDomain id).chanB = s.chanB := rfl
@[simp] theorem dropDomain_clk (id : Byte) : (s.dropDomain id).clk = s.clk := rfl
@[simp] theorem dropDomain_lines (id : Byte) : (s.dropDomain id).lines = s.lines := rfl
@[simp] theorem dropDomain_latches (id : Byte) : (s.dropDomain id).latches = s.latches := rfl
@[simp] theorem dropDomain_t1 (id : Byte) (j : Fin 12) : (s.dropDomain id).t1 j = s.t1 j := rfl
@[simp] theorem dropDomain_records (id : Byte) : (s.dropDomain id).records = s.records := rfl
@[simp] theorem dropDomain_newcomers (id : Byte) : (s.dropDomain id).newcomers = s.newcomers := rfl
@[simp] theorem dropDomain_overflow (id : Byte) : (s.dropDomain id).overflow = s.overflow := rfl
@[simp] theorem dropDomain_racks (id : Byte) : (s.dropDomain id).racks = s.racks := rfl
@[simp] theorem dropDomain_port (id : Byte) : (s.dropDomain id).port = s.port := rfl
@[simp] theorem dropDomain_freeCount (id : Byte) : (s.dropDomain id).freeCount = s.freeCount := rfl
@[simp] theorem dropDomain_pending (id : Byte) : (s.dropDomain id).pending = s.pending := rfl
@[simp] theorem dropDomain_line (id : Byte) (j : Fin 12) : (s.dropDomain id).line j = s.line j := rfl
@[simp] theorem dropDomain_rack (id : Byte) (j : Fin 12) : (s.dropDomain id).rack j = s.rack j := rfl
@[simp] theorem dropDomain_chan (id : Byte) (j : Chan) : (s.dropDomain id).chan j = s.chan j := by cases j <;> rfl
@[simp] theorem dropDomain_bySlot (id : Byte) (j : Nat) : (s.dropDomain id).bySlot j = s.bySlot j := rfl
@[simp] theorem dropDomain_byKey (id : Byte) (j : Fin 12) (k : Nat) : (s.dropDomain id).byKey j k = s.byKey j k := rfl

/-! ### captureTo -/

@[simp] theorem captureTo_localNs (n : Nat) : (s.captureTo n).localNs = s.localNs := rfl
@[simp] theorem captureTo_due (n : Nat) : (s.captureTo n).due = s.due := rfl
@[simp] theorem captureTo_chanA (n : Nat) : (s.captureTo n).chanA = s.chanA := rfl
@[simp] theorem captureTo_chanB (n : Nat) : (s.captureTo n).chanB = s.chanB := rfl
@[simp] theorem captureTo_clk (n : Nat) : (s.captureTo n).clk = s.clk := rfl
@[simp] theorem captureTo_lines (n : Nat) : (s.captureTo n).lines = s.lines := rfl
@[simp] theorem captureTo_records (n : Nat) : (s.captureTo n).records = s.records := rfl
@[simp] theorem captureTo_newcomers (n : Nat) : (s.captureTo n).newcomers = s.newcomers := rfl
@[simp] theorem captureTo_overflow (n : Nat) : (s.captureTo n).overflow = s.overflow := rfl
@[simp] theorem captureTo_domains (n : Nat) : (s.captureTo n).domains = s.domains := rfl
@[simp] theorem captureTo_racks (n : Nat) : (s.captureTo n).racks = s.racks := rfl
@[simp] theorem captureTo_port (n : Nat) : (s.captureTo n).port = s.port := rfl
@[simp] theorem captureTo_freeCount (n : Nat) : (s.captureTo n).freeCount = s.freeCount := rfl
@[simp] theorem captureTo_pending (n : Nat) : (s.captureTo n).pending = s.pending := rfl
@[simp] theorem captureTo_line (n : Nat) (j : Fin 12) : (s.captureTo n).line j = s.line j := rfl
@[simp] theorem captureTo_rack (n : Nat) (j : Fin 12) : (s.captureTo n).rack j = s.rack j := rfl
@[simp] theorem captureTo_bySlot (n : Nat) (j : Nat) : (s.captureTo n).bySlot j = s.bySlot j := rfl
@[simp] theorem captureTo_byKey (n : Nat) (j : Fin 12) (k : Nat) : (s.captureTo n).byKey j k = s.byKey j k := rfl
@[simp] theorem captureTo_domain (n : Nat) (j : Byte) : (s.captureTo n).domain j = s.domain j := rfl
@[simp] theorem captureTo_chan (n : Nat) (j : Chan) : (s.captureTo n).chan j = s.chan j := by cases j <;> rfl

/-! ### captureT1 -/

@[simp] theorem captureT1_localNs (i : Fin 12) : (s.captureT1 i).localNs = s.localNs := rfl
@[simp] theorem captureT1_due (i : Fin 12) : (s.captureT1 i).due = s.due := rfl
@[simp] theorem captureT1_chanA (i : Fin 12) : (s.captureT1 i).chanA = s.chanA := rfl
@[simp] theorem captureT1_chanB (i : Fin 12) : (s.captureT1 i).chanB = s.chanB := rfl
@[simp] theorem captureT1_clk (i : Fin 12) : (s.captureT1 i).clk = s.clk := rfl
@[simp] theorem captureT1_lines (i : Fin 12) : (s.captureT1 i).lines = s.lines := rfl
@[simp] theorem captureT1_records (i : Fin 12) : (s.captureT1 i).records = s.records := rfl
@[simp] theorem captureT1_newcomers (i : Fin 12) : (s.captureT1 i).newcomers = s.newcomers := rfl
@[simp] theorem captureT1_overflow (i : Fin 12) : (s.captureT1 i).overflow = s.overflow := rfl
@[simp] theorem captureT1_domains (i : Fin 12) : (s.captureT1 i).domains = s.domains := rfl
@[simp] theorem captureT1_racks (i : Fin 12) : (s.captureT1 i).racks = s.racks := rfl
@[simp] theorem captureT1_port (i : Fin 12) : (s.captureT1 i).port = s.port := rfl
@[simp] theorem captureT1_freeCount (i : Fin 12) : (s.captureT1 i).freeCount = s.freeCount := rfl
@[simp] theorem captureT1_pending (i : Fin 12) : (s.captureT1 i).pending = s.pending := rfl
@[simp] theorem captureT1_line (i : Fin 12) (j : Fin 12) : (s.captureT1 i).line j = s.line j := rfl
@[simp] theorem captureT1_rack (i : Fin 12) (j : Fin 12) : (s.captureT1 i).rack j = s.rack j := rfl
@[simp] theorem captureT1_bySlot (i : Fin 12) (j : Nat) : (s.captureT1 i).bySlot j = s.bySlot j := rfl
@[simp] theorem captureT1_byKey (i : Fin 12) (j : Fin 12) (k : Nat) : (s.captureT1 i).byKey j k = s.byKey j k := rfl
@[simp] theorem captureT1_domain (i : Fin 12) (j : Byte) : (s.captureT1 i).domain j = s.domain j := rfl
@[simp] theorem captureT1_chan (i : Fin 12) (j : Chan) : (s.captureT1 i).chan j = s.chan j := by cases j <;> rfl

/-- A latch with nothing due keeps its capture. -/
theorem captured_of_none {now : Nat} {x : Latch} (h : x.due = none) : s.captured now x = x := by
  unfold State.captured
  rw [h]

theorem captureTo_latches (n : Nat) : (s.captureTo n).latches = s.latches.map (s.captured n) := rfl

theorem captureTo_t1 (n : Nat) (j : Fin 12) : (s.captureTo n).t1 j = (s.captured n s.latches[j]).capture := by
  simp [State.t1, State.captureTo]

/-! ### Reading what was updated -/

@[simp] theorem modPort_port (f : Port → Port) : (s.modPort f).port = f s.port := rfl
@[simp] theorem modClk_clk (f : RowClock → RowClock) : (s.modClk f).clk = f s.clk := rfl
@[simp] theorem raise_port (c : Cause) :
    (s.raise c).port = { s.port with causes := s.port.causes ||| (1#8 <<< c.bit) } := rfl

@[simp] theorem setLine_line_same (i : Fin 12) (l : Line) : (s.setLine i l).line i = l := by
  simp [State.line, State.setLine]

@[simp] theorem modLine_line_same (i : Fin 12) (f : Line → Line) : (s.modLine i f).line i = f (s.line i) := by
  simp [State.modLine]

theorem setLine_line (i j : Fin 12) (l : Line) : (s.setLine i l).line j = if i = j then l else s.line j := by
  by_cases h : i = j
  · subst h; simp
  · have h' : (i : Nat) ≠ (j : Nat) := fun e => h (Fin.ext e)
    simp [State.line, State.setLine, h, h']

theorem modLine_line (i j : Fin 12) (f : Line → Line) :
    (s.modLine i f).line j = if i = j then f (s.line i) else s.line j := by
  rw [State.modLine, setLine_line]

theorem modLine_line_other {i j : Fin 12} (f : Line → Line) (h : i ≠ j) : (s.modLine i f).line j = s.line j := by
  rw [modLine_line, if_neg h]

@[simp] theorem setRack_rack_same (i : Fin 12) (r : Rack) : (s.setRack i r).rack i = r := by
  simp [State.rack, State.setRack]

@[simp] theorem modRack_rack_same (i : Fin 12) (f : Rack → Rack) : (s.modRack i f).rack i = f (s.rack i) := by
  simp [State.modRack]

theorem setRack_rack (i j : Fin 12) (r : Rack) : (s.setRack i r).rack j = if i = j then r else s.rack j := by
  by_cases h : i = j
  · subst h; simp
  · have h' : (i : Nat) ≠ (j : Nat) := fun e => h (Fin.ext e)
    simp [State.rack, State.setRack, h, h']

theorem modRack_rack (i j : Fin 12) (f : Rack → Rack) :
    (s.modRack i f).rack j = if i = j then f (s.rack i) else s.rack j := by
  rw [State.modRack, setRack_rack]

theorem modRack_rack_other {i j : Fin 12} (f : Rack → Rack) (h : i ≠ j) : (s.modRack i f).rack j = s.rack j := by
  rw [modRack_rack, if_neg h]

/-- Two states with the same rack records have the same rack vector. -/
theorem racks_ext {s t : State} (h : ∀ i, s.rack i = t.rack i) : s.racks = t.racks := by
  apply Vector.ext
  intro k hk
  exact h ⟨k, hk⟩

/-- Two states with the same line controllers have the same line vector. -/
theorem lines_ext {s t : State} (h : ∀ i, s.line i = t.line i) : s.lines = t.lines := by
  apply Vector.ext
  intro k hk
  exact h ⟨k, hk⟩

/-! ### setChan -/

@[simp] theorem setChan_localNs (c : Chan) (r : RefChannel) : (s.setChan c r).localNs = s.localNs := by cases c <;> rfl
@[simp] theorem setChan_due (c : Chan) (r : RefChannel) : (s.setChan c r).due = s.due := by cases c <;> rfl
@[simp] theorem setChan_clk (c : Chan) (r : RefChannel) : (s.setChan c r).clk = s.clk := by cases c <;> rfl
@[simp] theorem setChan_lines (c : Chan) (r : RefChannel) : (s.setChan c r).lines = s.lines := by cases c <;> rfl
@[simp] theorem setChan_latches (c : Chan) (r : RefChannel) : (s.setChan c r).latches = s.latches := by cases c <;> rfl
@[simp] theorem setChan_t1 (c : Chan) (r : RefChannel) (j : Fin 12) : (s.setChan c r).t1 j = s.t1 j := by cases c <;> rfl
@[simp] theorem setChan_records (c : Chan) (r : RefChannel) : (s.setChan c r).records = s.records := by cases c <;> rfl
@[simp] theorem setChan_newcomers (c : Chan) (r : RefChannel) : (s.setChan c r).newcomers = s.newcomers := by cases c <;> rfl
@[simp] theorem setChan_overflow (c : Chan) (r : RefChannel) : (s.setChan c r).overflow = s.overflow := by cases c <;> rfl
@[simp] theorem setChan_domains (c : Chan) (r : RefChannel) : (s.setChan c r).domains = s.domains := by cases c <;> rfl
@[simp] theorem setChan_racks (c : Chan) (r : RefChannel) : (s.setChan c r).racks = s.racks := by cases c <;> rfl
@[simp] theorem setChan_port (c : Chan) (r : RefChannel) : (s.setChan c r).port = s.port := by cases c <;> rfl
@[simp] theorem setChan_freeCount (c : Chan) (r : RefChannel) : (s.setChan c r).freeCount = s.freeCount := by cases c <;> rfl
@[simp] theorem setChan_pending (c : Chan) (r : RefChannel) : (s.setChan c r).pending = s.pending := by cases c <;> rfl

@[simp] theorem setChan_chan_same (c : Chan) (r : RefChannel) : (s.setChan c r).chan c = r := by cases c <;> rfl

@[simp] theorem setChan_setChan (c : Chan) (a b : RefChannel) : (s.setChan c a).setChan c b = s.setChan c b := by
  cases c <;> rfl

theorem setChan_chan_other {c d : Chan} (r : RefChannel) (h : c ≠ d) : (s.setChan c r).chan d = s.chan d := by
  cases c <;> cases d <;> first | rfl | exact absurd rfl h

@[simp] theorem setChan_line (c : Chan) (r : RefChannel) (j : Fin 12) : (s.setChan c r).line j = s.line j := by
  cases c <;> rfl

@[simp] theorem setChan_rack (c : Chan) (r : RefChannel) (j : Fin 12) : (s.setChan c r).rack j = s.rack j := by
  cases c <;> rfl

@[simp] theorem setChan_bySlot (c : Chan) (r : RefChannel) (j : Nat) : (s.setChan c r).bySlot j = s.bySlot j := by
  cases c <;> rfl


theorem modLine_modLine (i : Fin 12) (f g : Line → Line) :
    (s.modLine i f).modLine i g = s.modLine i (fun l => g (f l)) := by
  have h := modLine_line_same s i f
  unfold State.modLine at h ⊢
  rw [h]
  simp [State.setLine]

theorem modLine_congr (i : Fin 12) {f g : Line → Line} (h : f (s.line i) = g (s.line i)) :
    s.modLine i f = s.modLine i g := by
  unfold State.modLine
  rw [h]

theorem modLine_id (i : Fin 12) {f : Line → Line} (h : f (s.line i) = s.line i) : s.modLine i f = s := by
  unfold State.modLine State.setLine
  rw [h]
  simp [State.line]

theorem modRack_modRack (i : Fin 12) (f g : Rack → Rack) :
    (s.modRack i f).modRack i g = s.modRack i (fun r => g (f r)) := by
  have h := modRack_rack_same s i f
  unfold State.modRack at h ⊢
  rw [h]
  simp [State.setRack]

theorem modRack_congr (i : Fin 12) {f g : Rack → Rack} (h : f (s.rack i) = g (s.rack i)) :
    s.modRack i f = s.modRack i g := by
  unfold State.modRack
  rw [h]

theorem modRack_raise (i : Fin 12) (f : Rack → Rack) (c : Cause) : (s.raise c).modRack i f = (s.modRack i f).raise c := rfl

theorem modPort_modPort (f g : Port → Port) : (s.modPort f).modPort g = s.modPort (fun p => g (f p)) := rfl


/-! ### deselect -/

@[simp] theorem deselect_localNs (p : Port) : (s.deselect p).localNs = s.localNs := rfl
@[simp] theorem deselect_due (p : Port) : (s.deselect p).due = s.due := rfl
@[simp] theorem deselect_chanA (p : Port) : (s.deselect p).chanA = s.chanA := rfl
@[simp] theorem deselect_chanB (p : Port) : (s.deselect p).chanB = s.chanB := rfl
@[simp] theorem deselect_clk (p : Port) : (s.deselect p).clk = s.clk := rfl
@[simp] theorem deselect_lines (p : Port) : (s.deselect p).lines = s.lines := rfl
@[simp] theorem deselect_latches (p : Port) : (s.deselect p).latches = s.latches := rfl
@[simp] theorem deselect_records (p : Port) : (s.deselect p).records = s.records := rfl
@[simp] theorem deselect_newcomers (p : Port) : (s.deselect p).newcomers = s.newcomers := rfl
@[simp] theorem deselect_overflow (p : Port) : (s.deselect p).overflow = s.overflow := rfl
@[simp] theorem deselect_domains (p : Port) : (s.deselect p).domains = s.domains := rfl
@[simp] theorem deselect_racks (p : Port) : (s.deselect p).racks = s.racks := rfl
@[simp] theorem deselect_pending (p : Port) : (s.deselect p).pending = s.pending := rfl
@[simp] theorem deselect_port (p : Port) : (s.deselect p).port = p.selectRises := rfl
@[simp] theorem deselect_freeCount (p : Port) : (s.deselect p).freeCount = s.freeCount + p.link.bytes.length + 1 := rfl
@[simp] theorem selectRises_link (p : Port) : p.selectRises.link = Link.idle := rfl
@[simp] theorem selectFalls_dataOut (k : Nat) (p : Port) : (p.selectFalls k).dataOut = [] := rfl
@[simp] theorem clockFalls_dataOut (k : Nat) (p : Port) : (p.clockFalls k).dataOut = p.dataOut := rfl
@[simp] theorem clockRises_dataOut (b : Bool) (p : Port) : (p.clockRises b).dataOut = p.dataOut ++ p.link.out.toList := rfl

/-! ### The twelve -/

theorem mem_all12 (i : Fin 12) : i ∈ all12 := by revert i; decide

theorem nodup_all12 : all12.Nodup := by decide

/-- What each of twelve steps leaves alone, the twelve leave alone. -/
theorem forAll12_keeps {α : Type} (g : State → α) (f : Fin 12 → State → State) (h : ∀ i s, g (f i s) = g s) (s : State) :
    g (s.forAll12 f) = g s := by
  unfold State.forAll12
  generalize all12 = l
  induction l generalizing s with
  | nil => rfl
  | cons i l ih => exact (ih (f i s)).trans (h i s)

/-- A step taken for every rack changes each rack once, if each step changes its own rack alone. -/
theorem forAll12_modRack (f : Rack → Rack) (s : State) (j : Fin 12) :
    (s.forAll12 (fun i => State.modRack i f)).rack j = f (s.rack j) := by
  have key : ∀ (l : List (Fin 12)) (s : State), l.Nodup →
      (l.foldl (fun s i => s.modRack i f) s).rack j = if j ∈ l then f (s.rack j) else s.rack j := by
    intro l
    induction l with
    | nil => intro s _; simp
    | cons i l ih =>
      intro s hn
      rw [List.nodup_cons] at hn
      rw [List.foldl_cons, ih _ hn.2, modRack_rack]
      by_cases hij : i = j
      · subst hij
        simp [hn.1]
      · have : ¬ j = i := fun e => hij e.symm
        simp [hij, this]
  have := key all12 s nodup_all12
  rw [if_pos (mem_all12 j)] at this
  exact this

/-! ### The passage of time -/

@[simp] theorem tick_chanA : s.tick.chanA = s.chanA :=
  forAll12_keeps State.chanA (fun i => State.modRack i Rack.tick) (fun i s => modRack_chanA s i _) (s.modClk RowClock.tick)

@[simp] theorem tick_chanB : s.tick.chanB = s.chanB :=
  forAll12_keeps State.chanB (fun i => State.modRack i Rack.tick) (fun i s => modRack_chanB s i _) (s.modClk RowClock.tick)

@[simp] theorem tick_lines : s.tick.lines = s.lines :=
  forAll12_keeps State.lines (fun i => State.modRack i Rack.tick) (fun i s => modRack_lines s i _) (s.modClk RowClock.tick)
@[simp] theorem tick_latches : s.tick.latches = s.latches :=
  forAll12_keeps State.latches (fun i => State.modRack i Rack.tick) (fun i s => modRack_latches s i _) (s.modClk RowClock.tick)

@[simp] theorem tick_records : s.tick.records = s.records :=
  forAll12_keeps State.records (fun i => State.modRack i Rack.tick) (fun i s => modRack_records s i _) (s.modClk RowClock.tick)

@[simp] theorem tick_newcomers : s.tick.newcomers = s.newcomers :=
  forAll12_keeps State.newcomers (fun i => State.modRack i Rack.tick) (fun i s => modRack_newcomers s i _) (s.modClk RowClock.tick)

@[simp] theorem tick_overflow : s.tick.overflow = s.overflow :=
  forAll12_keeps State.overflow (fun i => State.modRack i Rack.tick) (fun i s => modRack_overflow s i _) (s.modClk RowClock.tick)

@[simp] theorem tick_domains : s.tick.domains = s.domains :=
  forAll12_keeps State.domains (fun i => State.modRack i Rack.tick) (fun i s => modRack_domains s i _) (s.modClk RowClock.tick)

@[simp] theorem tick_port : s.tick.port = s.port :=
  forAll12_keeps State.port (fun i => State.modRack i Rack.tick) (fun i s => modRack_port s i _) (s.modClk RowClock.tick)

@[simp] theorem tick_freeCount : s.tick.freeCount = s.freeCount :=
  forAll12_keeps State.freeCount (fun i => State.modRack i Rack.tick) (fun i s => modRack_freeCount s i _) (s.modClk RowClock.tick)

@[simp] theorem tick_pending : s.tick.pending = s.pending :=
  forAll12_keeps State.pending (fun i => State.modRack i Rack.tick) (fun i s => modRack_pending s i _) (s.modClk RowClock.tick)

@[simp] theorem tick_localNs : s.tick.localNs = s.localNs :=
  forAll12_keeps State.localNs (fun i => State.modRack i Rack.tick) (fun i s => modRack_localNs s i _) (s.modClk RowClock.tick)
@[simp] theorem tick_due : s.tick.due = s.due :=
  forAll12_keeps State.due (fun i => State.modRack i Rack.tick) (fun i s => modRack_due s i _) (s.modClk RowClock.tick)

theorem tick_clk : s.tick.clk = s.clk.tick :=
  forAll12_keeps State.clk (fun i => State.modRack i Rack.tick) (fun i s => modRack_clk s i _) (s.modClk RowClock.tick)

theorem tick_rack (j : Fin 12) : s.tick.rack j = (s.rack j).tick := forAll12_modRack Rack.tick _ j

@[simp] theorem ticks_chanA (n : Nat) : (State.ticks n s).chanA = s.chanA := by
  induction n generalizing s with
  | zero => rfl
  | succ n ih => exact (ih s.tick).trans (tick_chanA s)

@[simp] theorem ticks_chanB (n : Nat) : (State.ticks n s).chanB = s.chanB := by
  induction n generalizing s with
  | zero => rfl
  | succ n ih => exact (ih s.tick).trans (tick_chanB s)

@[simp] theorem ticks_lines (n : Nat) : (State.ticks n s).lines = s.lines := by
  induction n generalizing s with
  | zero => rfl
  | succ n ih => exact (ih s.tick).trans (tick_lines s)
@[simp] theorem ticks_latches (n : Nat) : (State.ticks n s).latches = s.latches := by
  induction n generalizing s with
  | zero => rfl
  | succ n ih => exact (ih s.tick).trans (tick_latches s)

@[simp] theorem ticks_records (n : Nat) : (State.ticks n s).records = s.records := by
  induction n generalizing s with
  | zero => rfl
  | succ n ih => exact (ih s.tick).trans (tick_records s)

@[simp] theorem ticks_newcomers (n : Nat) : (State.ticks n s).newcomers = s.newcomers := by
  induction n generalizing s with
  | zero => rfl
  | succ n ih => exact (ih s.tick).trans (tick_newcomers s)

@[simp] theorem ticks_overflow (n : Nat) : (State.ticks n s).overflow = s.overflow := by
  induction n generalizing s with
  | zero => rfl
  | succ n ih => exact (ih s.tick).trans (tick_overflow s)

@[simp] theorem ticks_domains (n : Nat) : (State.ticks n s).domains = s.domains := by
  induction n generalizing s with
  | zero => rfl
  | succ n ih => exact (ih s.tick).trans (tick_domains s)

@[simp] theorem ticks_port (n : Nat) : (State.ticks n s).port = s.port := by
  induction n generalizing s with
  | zero => rfl
  | succ n ih => exact (ih s.tick).trans (tick_port s)

@[simp] theorem ticks_freeCount (n : Nat) : (State.ticks n s).freeCount = s.freeCount := by
  induction n generalizing s with
  | zero => rfl
  | succ n ih => exact (ih s.tick).trans (tick_freeCount s)

@[simp] theorem ticks_pending (n : Nat) : (State.ticks n s).pending = s.pending := by
  induction n generalizing s with
  | zero => rfl
  | succ n ih => exact (ih s.tick).trans (tick_pending s)

@[simp] theorem ticks_localNs (n : Nat) : (State.ticks n s).localNs = s.localNs := by
  induction n generalizing s with
  | zero => rfl
  | succ n ih => exact (ih s.tick).trans (tick_localNs s)

@[simp] theorem ticks_due (n : Nat) : (State.ticks n s).due = s.due := by
  induction n generalizing s with
  | zero => rfl
  | succ n ih => exact (ih s.tick).trans (tick_due s)

@[simp] theorem advance_chanA (d : Nat) : (s.advance d).chanA = s.chanA := by
  cases d
  · rfl
  · exact ticks_chanA (s.flow _) _

@[simp] theorem advance_chanB (d : Nat) : (s.advance d).chanB = s.chanB := by
  cases d
  · rfl
  · exact ticks_chanB (s.flow _) _

@[simp] theorem advance_lines (d : Nat) : (s.advance d).lines = s.lines := by
  cases d
  · rfl
  · exact ticks_lines (s.flow _) _

@[simp] theorem advance_records (d : Nat) : (s.advance d).records = s.records := by
  cases d
  · rfl
  · exact ticks_records (s.flow _) _

@[simp] theorem advance_newcomers (d : Nat) : (s.advance d).newcomers = s.newcomers := by
  cases d
  · rfl
  · exact ticks_newcomers (s.flow _) _

@[simp] theorem advance_overflow (d : Nat) : (s.advance d).overflow = s.overflow := by
  cases d
  · rfl
  · exact ticks_overflow (s.flow _) _

@[simp] theorem advance_domains (d : Nat) : (s.advance d).domains = s.domains := by
  cases d
  · rfl
  · exact ticks_domains (s.flow _) _

@[simp] theorem advance_port (d : Nat) : (s.advance d).port = s.port := by
  cases d
  · rfl
  · exact ticks_port (s.flow _) _

@[simp] theorem advance_freeCount (d : Nat) : (s.advance d).freeCount = s.freeCount := by
  cases d
  · rfl
  · exact ticks_freeCount (s.flow _) _

@[simp] theorem advance_pending (d : Nat) : (s.advance d).pending = s.pending := by
  cases d
  · rfl
  · exact ticks_pending (s.flow _) _

@[simp] theorem advance_localNs (d : Nat) : (s.advance d).localNs = s.localNs + d := by
  cases d
  · rfl
  · exact ticks_localNs (s.flow _) _

@[simp] theorem advance_zero : s.advance 0 = s := rfl

/-- What falls due at the instant that time's passage leads to (R9, R10). -/
theorem advance_due (d : Nat) : (s.advance (d + 1)).due =
    ⟨s.rollovers d != s.rollovers (d + 1), (s.localNs + (d + 1)) % second == 0⟩ := ticks_due (s.flow d) _

theorem advance_latches (d : Nat) : (s.advance (d + 1)).latches = s.latches.map (s.captured (s.localNs + (d + 1))) :=
  ticks_latches (s.flow d) _

/-- t1 after some time: captured at its instant, if it was still due and that instant has come (R53). -/
theorem advance_t1 (d : Nat) (j : Fin 12) :
    (s.advance (d + 1)).t1 j = (s.captured (s.localNs + (d + 1)) s.latches[j]).capture := by
  simp [State.t1, advance_latches]

/-- t1 that is no longer due stays. -/
theorem advance_t1_of_none (d : Nat) {j : Fin 12} (h : s.latches[j].due = none) : (s.advance d).t1 j = s.t1 j := by
  cases d with
  | zero => rfl
  | succ d => rw [advance_t1, captured_of_none s h]; rfl

@[simp] theorem advance_line (d : Nat) (j : Fin 12) : (s.advance d).line j = s.line j := by
  unfold State.line
  rw [advance_lines]

@[simp] theorem advance_bySlot (d : Nat) (j : Nat) : (s.advance d).bySlot j = s.bySlot j := by
  unfold State.bySlot
  rw [advance_records]

@[simp] theorem advance_byKey (d : Nat) (j : Fin 12) (k : Nat) : (s.advance d).byKey j k = s.byKey j k := by
  unfold State.byKey
  rw [advance_records]

@[simp] theorem advance_domain (d : Nat) (j : Byte) : (s.advance d).domain j = s.domain j := by
  unfold State.domain
  rw [advance_domains]

@[simp] theorem advance_chan (d : Nat) (c : Chan) : (s.advance d).chan c = s.chan c := by
  cases c
  · exact advance_chanA s d
  · exact advance_chanB s d

@[simp] theorem advanceTo_chanA (d : Nat) : (s.advanceTo d).chanA = s.chanA := advance_chanA s _
@[simp] theorem advanceTo_chanB (d : Nat) : (s.advanceTo d).chanB = s.chanB := advance_chanB s _
@[simp] theorem advanceTo_lines (d : Nat) : (s.advanceTo d).lines = s.lines := advance_lines s _
@[simp] theorem advanceTo_records (d : Nat) : (s.advanceTo d).records = s.records := advance_records s _
@[simp] theorem advanceTo_newcomers (d : Nat) : (s.advanceTo d).newcomers = s.newcomers := advance_newcomers s _
@[simp] theorem advanceTo_overflow (d : Nat) : (s.advanceTo d).overflow = s.overflow := advance_overflow s _
@[simp] theorem advanceTo_domains (d : Nat) : (s.advanceTo d).domains = s.domains := advance_domains s _
@[simp] theorem advanceTo_port (d : Nat) : (s.advanceTo d).port = s.port := advance_port s _
@[simp] theorem advanceTo_freeCount (d : Nat) : (s.advanceTo d).freeCount = s.freeCount := advance_freeCount s _
@[simp] theorem advanceTo_pending (d : Nat) : (s.advanceTo d).pending = s.pending := advance_pending s _
@[simp] theorem advanceTo_localNs (n : Nat) : (s.advanceTo n).localNs = max s.localNs n := by
  unfold State.advanceTo
  rw [advance_localNs]
  omega

@[simp] theorem advanceTo_line (d : Nat) (j : Fin 12) : (s.advanceTo d).line j = s.line j := advance_line s _ j
@[simp] theorem advanceTo_bySlot (d : Nat) (j : Nat) : (s.advanceTo d).bySlot j = s.bySlot j := advance_bySlot s _ j
@[simp] theorem advanceTo_byKey (d : Nat) (j : Fin 12) (k : Nat) : (s.advanceTo d).byKey j k = s.byKey j k := advance_byKey s _ j k
@[simp] theorem advanceTo_domain (d : Nat) (j : Byte) : (s.advanceTo d).domain j = s.domain j := advance_domain s _ j
@[simp] theorem advanceTo_chan (d : Nat) (c : Chan) : (s.advanceTo d).chan c = s.chan c := advance_chan s _ c

end Sys2Proof.Machine
end

