-- ==== Sys2Proof/Laws/Moves.lean ====
section
/-! SUPPORT. What a step can do, said once: every command's next state is reached by a list of moves, each one of the
primitive changes below. A property that every move keeps is kept by every step. -/

namespace Sys2Proof.Machine

open Sys2Proof

/-- The changes that the rules make to one endpoint record. -/
inductive RecordRule : (Endpoint → Endpoint) → Prop where
  | inTxn (b : Bool) : RecordRule (fun r => { r with inTxn := b })
  | takeReply (v : Verdict) (seq : BitVec 4) : RecordRule (Endpoint.takeReply v seq)
  | correct (a : Bool) (n : Nat) : RecordRule (Endpoint.correct a n)
  | conflict : RecordRule Endpoint.conflictRule
  | fault : RecordRule Endpoint.faultRule
  | step (g : Endpoint → Bool) : RecordRule (fun r => r.stepRule (g r))
  | miss (limit : Nat) : RecordRule (Endpoint.missRule limit)
  | ended (how : TxnEnd) : RecordRule (Endpoint.endRule how)
  | rebase : RecordRule (fun r => { r with baseline := some r.freq })
  | answer (a : Option Answer) : RecordRule (fun r => { r with answer := a })
  | amend (body : List Byte) (b : Bool) : RecordRule (Endpoint.amend body b)
  | suspendLater (b : Bool) : RecordRule (fun x => { (x.withdraw b) with withdrawal := .suspend })
  | suspendNow (b : Bool) : RecordRule (fun x => { (x.withdraw b) with state := .suspended })
  | resumed : RecordRule Endpoint.resumed
  | retireLater (b : Bool) :
    RecordRule (fun x => { (x.withdraw b) with state := .retiring, withdrawal := .retire })

/-- What every change of a rack record but an alarm's entry and a report's count keeps. -/
structure RackKept (r q : Rack) : Prop where
  members : q.members = r.members
  walk : r.walk.natAbs < r.walkLimit → q.walk.natAbs < q.walkLimit
  alarm : q.watch = .alarm → r.watch = .alarm

/-- The state with both reference channels and ROWCLK replaced. -/
def State.withRefs (a b : RefChannel) (c : RowClock) (s : State) : State := { s with chanA := a, chanB := b, clk := c }

/-- A change of the port that leaves its state and its responses. -/
structure PortCalm (f : Port → Port) : Prop where
  state : ∀ p, (f p).state = p.state
  held : ∀ p, (f p).held = p.held
  forming : ∀ p, (f p).forming = p.forming

/-- Which of two kinds of change are among the moves. -/
structure Kinds where
  /-- the opening of a stamp domain -/
  opens : Bool
  /-- a change of the port's state or of its responses -/
  ports : Bool

/-- The primitive changes of the state, of the kinds that `o` lets in. -/
inductive Move (o : Kinds) : State → State → Prop where
  | port (f : Port → Port) (s : State) (h : o.ports = true ∨ PortCalm f) : Move o s (s.modPort f)
  | refs (a b : RefChannel) (c : RowClock) (s : State) (range : s.ClockInRange → (s.withRefs a b c).ClockInRange)
      (held : s.RefHeld → (s.withRefs a b c).RefHeld) : Move o s (s.withRefs a b c)
  | time (n : Nat) (d : Due) (s : State) : Move o s { s with localNs := n, due := d }
  | fill (n : Nat) (s : State) : Move o s { s with freeCount := n }
  | latches (v : Vector Latch 12) (s : State) : Move o s { s with latches := v }
  | line (i : Fin 12) (f : Line → Line) (s : State) : Move o s (s.modLine i f)
  | newcomers (ns : List Newcomer) (ov : Bool) (s : State) : Move o s { s with newcomers := ns, overflow := ov }
  | record (slot : Nat) (f : Endpoint → Endpoint) (s : State) (h : RecordRule f) : Move o s (s.updateRecord slot f)
  | classes (i : Fin 12) (s : State) : Move o s (s.takeClasses i)
  | remove (slot : Nat) (s : State) : Move o s (s.removeRecord slot)
  | add (r : Endpoint) (s : State) (slot : s.records.all (fun x => x.slot != r.slot)) (bound : r.slot ≤ 511)
      (key : s.byKey r.line r.addr = none) (seqs : r.ackSeq = r.cmdSeq) : Move o s (s.addRecord r)
  | rack (i : Fin 12) (f : Rack → Rack) (s : State) (h : RackKept (s.rack i) (f (s.rack i))) : Move o s (s.modRack i f)
  | alarm (i : Fin 12) (c : AlarmCause) (s : State) :
    Move o s ((s.modRack i (Rack.toAlarm c)).alarmNotice i)
  | stampHost (id : Byte) (count : Nat) (s : State) : Move o s (s.stampHost id count)
  | stampLine (slot : Nat) (ev : Bool) (t4 : Capture) (id : Byte) (count : Nat) (s : State) :
    Move o s (s.stampLine slot ev t4 id count)
  | settle (id : Byte) (how : TxnEnd) (n : Nat) (s : State) : Move o s (s.modDomain id (Domain.settled how n))
  | drop (id : Byte) (s : State) : Move o s (s.dropDomain id)
  | opened (d : Domain) (s : State) (h : s.domain d.id = none) (fresh : d.lastIssued = none) (ho : o.opens = true) :
    Move o s { s with domains := s.domains ++ [s.fence d] }
  | amended (id : Byte) (body : List Byte) (s : State) : Move o s (s.modDomain id (fun d => s.fence (d.amend body)))
  | frozen (id : Byte) (s : State) : Move o s (s.modDomain id (fun d => { d with state := .frozen, cause := some .host }))
  | thawed (d : Domain) (s : State) (h : s.domain d.id = some d)
      (free : ¬(d.fence = .freezeDomain ∧ s.alarmedOf d.members ≠ [])) :
    Move o s (s.modDomain d.id (fun d => { d with state := .opened, cause := none }))
  | retired (id : Byte) (s : State) : Move o s (s.modDomain id (fun d => { d with state := .retiring, cause := none }))
  | restart (s : State) : Move o s s.emptyTables
  | hardReset (csLow : Bool) (s : State) (hp : o.ports = true) :
    Move o s { State.reset with
      port := { Port.reset with ignoring := csLow, link := { Link.idle with low := csLow } }
      freeCount := s.freeCount
      pending := s.pending }

/-- A list of moves. -/
abbrev Moves (o : Kinds) : State → State → Prop := Relation.ReflTransGen (Move o)

variable {o : Kinds}

theorem Moves.refl (s : State) : Moves o s s := Relation.ReflTransGen.refl

theorem Move.one {s t : State} (h : Move o s t) : Moves o s t := Relation.ReflTransGen.single h

theorem Moves.and {s t u : State} (h : Moves o s t) (k : Moves o t u) : Moves o s u := Relation.ReflTransGen.trans h k

/-- What every move keeps, a list of moves keeps. -/
theorem Moves.keeps {P : State → Prop} (h : ∀ s t, Move o s t → P s → P t) {s t : State} (m : Moves o s t) : P s → P t := by
  intro hs
  induction m with
  | refl => exact hs
  | tail _ hm ih => exact h _ _ hm ih

theorem Moves.line (i : Fin 12) (f : Line → Line) {s t : State} (h : Moves o s t) : Moves o s (t.modLine i f) :=
  h.and (Move.line i f t).one

theorem Moves.port (f : Port → Port) (hf : o.ports = true ∨ PortCalm f) {s t : State} (h : Moves o s t) :
    Moves o s (t.modPort f) := h.and (Move.port f t hf).one

/-- What a change of ROWCLK must keep. -/
structure ClkKept (s : State) (f : RowClock → RowClock) : Prop where
  range : s.clk.InRange → (f s.clk).InRange
  held : s.RefHeld → (s.modClk f).RefHeld

theorem Moves.clk (f : RowClock → RowClock) {s t : State} (k : ClkKept t f) (h : Moves o s t) : Moves o s (t.modClk f) :=
  h.and (Move.refs t.chanA t.chanB (f t.clk) t (fun x => ⟨k.range x.clk, x.chanA, x.chanB⟩) k.held).one

/-- A change of ROWCLK that leaves its state and its selected reference keeps R8's words about them. -/
theorem ClkKept.calm {s : State} {f : RowClock → RowClock} (range : s.clk.InRange → (f s.clk).InRange)
    (st : (f s.clk).state = s.clk.state) (sel : (f s.clk).selected = s.clk.selected) : ClkKept s f := by
  refine ⟨range, fun h => ⟨fun x => ?_, fun x => ?_⟩⟩
  · obtain ⟨h1, h2⟩ := h.resting (by rw [← st]; exact x)
    exact ⟨sel.trans h1, h2⟩
  · obtain ⟨ch, h1, h2⟩ := h.running (by rw [← st]; exact x)
    exact ⟨ch, sel.trans h1, h2⟩

theorem Moves.raise (c : Cause) {s t : State} (h : Moves o s t) : Moves o s (t.raise c) :=
  h.port (fun p => { p with causes := p.causes ||| (1#8 <<< c.bit) }) (Or.inr ⟨fun _ => rfl, fun _ => rfl, fun _ => rfl⟩)

theorem Moves.record {f : Endpoint → Endpoint} (hf : RecordRule f) (slot : Nat) {s t : State} (h : Moves o s t) :
    Moves o s (t.updateRecord slot f) := h.and (Move.record slot f t hf).one

theorem Moves.rack (i : Fin 12) (f : Rack → Rack) {s t : State} (hf : RackKept (t.rack i) (f (t.rack i)))
    (h : Moves o s t) : Moves o s (t.modRack i f) := h.and (Move.rack i f t hf).one

/-- A fold of operations that each are lists of moves is a list of moves. -/
theorem moves_foldl {α : Type} (f : State → α → State) (hf : ∀ s a, Moves o s (f s a)) (l : List α) (s : State) :
    Moves o s (l.foldl f s) := by
  induction l generalizing s with
  | nil => exact Moves.refl s
  | cons a l ih => exact (hf s a).and (ih _)

theorem moves_forAll12 (f : Fin 12 → State → State) (hf : ∀ i s, Moves o s (f i s)) (s : State) :
    Moves o s (s.forAll12 f) := moves_foldl _ (fun s i => hf i s) _ s

/-! ### The endpoint table -/

theorem moves_updateAll (p : Endpoint → Bool) {f : Endpoint → Endpoint} (hf : RecordRule f) (s : State) :
    Moves o s (s.updateAll p f) := moves_foldl _ (fun s a => (Move.record a f s hf).one) _ s

theorem moves_eptMiss (slot limit : Nat) (s : State) : Moves o s (s.eptMiss slot limit) := by
  unfold State.eptMiss
  split
  · exact Moves.refl s
  · split
    · exact ((Moves.refl s).record (.miss limit) slot).raise _
    · exact (Moves.refl s).record (.miss limit) slot

theorem moves_eptEnd (slot : Nat) (how : TxnEnd) (s : State) : Moves o s (s.eptEnd slot how) := by
  unfold State.eptEnd
  split
  · exact Moves.refl s
  · split
    · exact (Move.remove slot s).one
    · exact (Moves.refl s).record (.ended how) slot

theorem moves_newcomer (i : Fin 12) (addr : Nat) (ident : BitVec 32) (s : State) : Moves o s (s.newcomer i addr ident) := by
  unfold State.newcomer
  split
  · exact (Move.newcomers _ s.overflow s).one
  · split
    · exact (Move.newcomers _ s.overflow s).one.raise _
    · exact (Move.newcomers s.newcomers true s).one

theorem moves_eptAnnounce (i : Fin 12) (addr : Nat) (ident : BitVec 32) (s : State) :
    Moves o s (s.eptAnnounce i addr ident) := by
  unfold State.eptAnnounce
  split
  · exact (Moves.refl s).record .conflict _
  · exact moves_newcomer i addr ident s

/-! ### Stamp domains -/

theorem moves_removeRetired (id : Byte) (s : State) : Moves o s (s.removeRetired id) := by
  unfold State.removeRetired
  split
  · split
    · exact (Move.drop id s).one
    · exact Moves.refl s
  · exact Moves.refl s

theorem moves_stsEnd (slot : Nat) (held : Option Answer) (how : TxnEnd) (s : State) :
    Moves o s (s.stsEnd slot held how) := by
  unfold State.stsEnd
  split
  · exact Moves.refl s
  · exact (Moves.refl s).record (.answer none) slot
  · exact ((Move.settle _ how _ s).one.and (moves_removeRetired _ _)).record (.answer none) slot

/-! ### Racks -/

theorem moves_rackChanged (i : Fin 12) (s : State) : Moves o s (s.rackChanged i) :=
  ((Moves.refl s).rack i _ ⟨rfl, id, id⟩).raise _

theorem moves_enterAlarm (i : Fin 12) (c : AlarmCause) (s : State) : Moves o s (s.enterAlarm i c) :=
  (Move.alarm i c s).one.and (moves_rackChanged i _)

theorem moves_rackLineFault (i : Fin 12) (s : State) : Moves o s (s.rackLineFault i) := by
  unfold State.rackLineFault
  split
  · exact Moves.refl s
  · exact Moves.refl s
  · exact moves_enterAlarm i _ s
  · exact moves_enterAlarm i _ s
  · exact moves_enterAlarm i _ s

theorem Rack.sample_kept (theta : Int) (st : RecState) (r : Rack) : RackKept r (r.sample theta st) := by
  unfold Rack.sample
  split
  · exact ⟨rfl, id, id⟩
  · dsimp only
    generalize (if theta > (r.walkQuantum : Int) then r.walk + 1
      else if theta < -(r.walkQuantum : Int) then r.walk - 1 else r.walk) = w
    split
    · exact ⟨rfl, by intro h; simp only [Int.natAbs_zero]; omega, id⟩
    · split
      · exact ⟨rfl, by intro h; simp only [Int.natAbs_zero]; omega, id⟩
      · exact ⟨rfl, by intro h; dsimp only; omega, id⟩

theorem Rack.tick_kept (r : Rack) : RackKept r r.tick := by
  unfold Rack.tick
  split
  · exact ⟨rfl, id, id⟩
  · split <;> exact ⟨rfl, id, id⟩

theorem moves_sweepQuiet (i : Fin 12) (x : Indicators) (s : State) : Moves o s (s.sweepQuiet i x) := by
  unfold State.sweepQuiet
  split
  · exact ((Moves.refl s).rack i _ ⟨rfl, id, by intro h; cases h⟩).and (moves_rackChanged i _)
  · exact (Moves.refl s).rack i _ ⟨rfl, id, id⟩

theorem moves_sweepWatch (i : Fin 12) (x : Indicators) (s : State) : Moves o s (s.sweepWatch i x) := by
  unfold State.sweepWatch
  split
  · split
    · exact ((Moves.refl s).rack i _ ⟨rfl, id, by intro h; cases h⟩).and (moves_rackChanged i _)
    · exact (Moves.refl s).rack i _ ⟨rfl, id, id⟩
  · split
    · exact ((Moves.refl s).rack i _ ⟨rfl, id, by intro h; cases h⟩).and (moves_rackChanged i _)
    · exact Moves.refl s

theorem moves_sweepWarn (i : Fin 12) (x : Indicators) (s : State) : Moves o s (s.sweepWarn i x) := by
  unfold State.sweepWarn
  split
  · exact moves_enterAlarm i _ s
  · split
    · split
      · exact ((Moves.refl s).rack i _ ⟨rfl, id, by intro h; cases h⟩).and (moves_rackChanged i _)
      · exact (Moves.refl s).rack i _ ⟨rfl, id, id⟩
    · split
      · split
        · split
          · exact ((Moves.refl s).rack i _ ⟨rfl, id, id⟩).and (moves_rackChanged i _)
          · exact (Moves.refl s).rack i _ ⟨rfl, id, id⟩
        · exact (Moves.refl s).rack i _ ⟨rfl, id, id⟩
      · exact Moves.refl s

theorem moves_sweep (i : Fin 12) (s : State) : Moves o s (s.sweep i) := by
  unfold State.sweep
  refine Moves.rack i _ ⟨rfl, id, id⟩ ?_
  unfold State.sweepRule
  split
  · exact Moves.refl s
  · exact moves_sweepQuiet i _ s
  · exact moves_sweepWatch i _ s
  · exact moves_sweepWarn i _ s
  · exact Moves.refl s

/-! ### Lines -/

theorem moves_beginTransaction (i : Fin 12) (r : Endpoint) (s : State) : Moves o s (s.beginTransaction i r) :=
  ((Move.latches _ s).one.line i _).record (.inTxn true) _

theorem moves_cycleStart (i : Fin 12) (s : State) : Moves o s (s.cycleStart i) := (Move.classes i s).one.line i _

theorem moves_urgentPhase (i : Fin 12) (s : State) : Moves o s (s.urgentPhase i).1 := by
  unfold State.urgentPhase
  split
  · exact moves_beginTransaction i _ s
  · split
    · exact (Moves.refl s).line i _
    · exact (Moves.refl s).line i _

theorem moves_goOn (i : Fin 12) (s : State) : Moves o s (s.goOn i).1 := by
  unfold State.goOn
  split
  · split
    · exact ((Moves.refl s).line i _).and (moves_beginTransaction i _ _)
    · split
      · exact (Moves.refl s).line i _
      · exact ((Moves.refl s).line i _).and (moves_urgentPhase i _)
  · exact moves_urgentPhase i s
  · exact (Moves.refl s).line i _
  · exact Moves.refl s
  · exact Moves.refl s

theorem moves_newCycle (i : Fin 12) (s : State) : Moves o s (s.newCycle i) :=
  (moves_cycleStart i s).and (moves_goOn i _)

theorem moves_proceed (i : Fin 12) (s : State) : Moves o s (s.proceed i) := by
  unfold State.proceed
  split
  · exact (moves_goOn i s).and (moves_newCycle i _)
  · exact moves_goOn i s

theorem moves_endTransaction (i : Fin 12) (how : TxnEnd) (s : State) : Moves o s (s.endTransaction i how) := by
  unfold State.endTransaction
  split
  · exact Moves.refl s
  · exact ((moves_eptEnd _ how s).and (moves_stsEnd _ _ how _)).line i _

theorem moves_afterEnd (i : Fin 12) (s : State) : Moves o s (s.afterEnd i) := by
  unfold State.afterEnd
  split
  · exact (Moves.refl s).line i _
  · exact ((Moves.refl s).line i _).and (moves_proceed i _)

theorem moves_miss (i : Fin 12) (s : State) : Moves o s (s.miss i) := by
  unfold State.miss
  split
  · exact Moves.refl s
  · exact ((((Moves.refl s).line i _).and (moves_eptMiss _ _ _)).and (moves_endTransaction i _ _)).and (moves_afterEnd i _)

theorem moves_foundIdle (i : Fin 12) (s : State) : Moves o s (s.foundIdle i) := by
  unfold State.foundIdle
  split
  · exact Moves.refl s
  · split
    · split
      · exact (Moves.refl s).line i _
      · exact ((Moves.refl s).line i _).record (.inTxn false) _
    · exact Moves.refl s

theorem moves_abandon (i : Fin 12) (s : State) : Moves o s (s.abandon i) :=
  ((Moves.refl s).line i _).and (moves_endTransaction i _ _)

theorem moves_endDiscovery (i : Fin 12) (s : State) : Moves o s (s.endDiscovery i) :=
  ((Moves.refl s).line i _).and (moves_afterEnd i _)

theorem moves_wantPoll (i : Fin 12) (slot : Nat) (s : State) : Moves o s (s.wantPoll i slot) := by
  unfold State.wantPoll
  split
  · exact Moves.refl s
  · split
    · exact Moves.refl s
    · split
      · exact (Moves.refl s).line i _
      · exact (Moves.refl s).line i _

theorem moves_sendClose (i : Fin 12) (slot : Nat) (s : State) : Moves o s (s.sendClose i slot) := by
  unfold State.sendClose
  split
  · exact Moves.refl s
  · exact (Moves.refl s).line i _

theorem moves_reportSample (i : Fin 12) (v : Verdict) (slot : Nat) (s : State) : Moves o s (s.reportSample i v slot) := by
  unfold State.reportSample
  split
  · exact (Moves.refl s).rack i _ (Rack.sample_kept _ _ _)
  · exact Moves.refl s

theorem moves_decideCorrection (i : Fin 12) (v : Verdict) (slot : Nat) (s : State) :
    Moves o s (s.decideCorrection i v slot) := by
  unfold State.decideCorrection
  split
  · exact (Moves.refl s).record (.correct true _) slot
  · exact Moves.refl s

theorem moves_decideStamp (ev : Bool) (t4 : Capture) (p : Reply) (slot : Nat) (s : State) :
    Moves o s (s.decideStamp ev t4 p slot) := by
  unfold State.decideStamp
  split
  · exact (Move.stampLine slot ev t4 _ _ s).one
  · exact Moves.refl s

theorem moves_exchange (i : Fin 12) (v : Verdict) (ev : Bool) (slot : Nat) (p : Reply) (t4 : Capture) (s : State) :
    Moves o s (s.exchange i v ev slot p t4) :=
  ((((Moves.refl s).record (.takeReply v p.seq) slot).and (moves_reportSample i v slot _)).and
    (moves_decideCorrection i v slot _)).and (moves_decideStamp ev t4 p slot _)

theorem moves_askPoll (i : Fin 12) (p : Reply) (slot : Nat) (s : State) : Moves o s (s.askPoll i p slot) := by
  unfold State.askPoll
  split
  · exact moves_wantPoll i slot s
  · exact Moves.refl s

theorem moves_handoff (i : Fin 12) (p : Reply) (t4 : Capture) (s : State) : Moves o s (s.handoff i p t4) := by
  unfold State.handoff
  split
  · exact Moves.refl s
  · split
    · exact Moves.refl s
    · exact ((moves_exchange i _ _ _ p t4 s).and (moves_askPoll i p _ _)).and (moves_sendClose i _ _)

theorem moves_missIfOver (i : Fin 12) (s : State) : Moves o s (s.missIfOver i) := by
  unfold State.missIfOver
  split
  · exact moves_miss i s
  · exact Moves.refl s

theorem moves_failFrame (i : Fin 12) (bad : Bool) (s : State) : Moves o s (s.failFrame i bad) :=
  ((Moves.refl s).line i _).and (moves_missIfOver i _)

theorem moves_pollingFrame (i : Fin 12) (f : FollowerFrame) (edge : Capture) (s : State) :
    Moves o s (s.pollingFrame i f edge) := by
  unfold State.pollingFrame
  split
  · exact moves_failFrame i _ s
  · exact moves_failFrame i _ s
  · split
    · exact moves_handoff i _ _ s
    · exact moves_failFrame i _ s

theorem moves_takeAnnounce (i : Fin 12) (f : FollowerFrame) (s : State) : Moves o s (s.takeAnnounce i f) := by
  unfold State.takeAnnounce
  split
  · exact (Moves.refl s).line i _
  · split
    · exact moves_eptAnnounce i _ _ s
    · exact Moves.refl s
  · exact Moves.refl s

theorem moves_endIfOver (i : Fin 12) (s : State) : Moves o s (s.endIfOver i) := by
  unfold State.endIfOver
  split
  · exact moves_endDiscovery i s
  · exact Moves.refl s

theorem moves_discoveryFrame (i : Fin 12) (f : FollowerFrame) (s : State) : Moves o s (s.discoveryFrame i f) :=
  (moves_takeAnnounce i f s).and (moves_endIfOver i _)

theorem moves_handFrame (i : Fin 12) (f : FollowerFrame) (edge : Capture) (s : State) :
    Moves o s (s.handFrame i f edge) := by
  unfold State.handFrame
  split
  · exact moves_pollingFrame i _ _ s
  · exact moves_discoveryFrame i _ s
  · exact Moves.refl s
  · exact Moves.refl s
  · exact Moves.refl s
  · exact Moves.refl s
  · exact Moves.refl s

theorem moves_frameEnded (i : Fin 12) (cs : List RxChar) (s : State) : Moves o s (s.frameEnded i cs) := by
  unfold State.frameEnded
  split
  · exact Moves.refl s
  · exact ((Moves.refl s).line i _).and (moves_handFrame i _ _ _)

theorem moves_firstChar (i : Fin 12) (start : Nat) (edge : Capture) (c : RxChar) (s : State) :
    Moves o s (s.firstChar i start edge c) := by
  unfold State.firstChar
  split
  · exact (Moves.refl s).line i _
  · exact (Moves.refl s).line i _

theorem moves_nextChar (i : Fin 12) (start : Nat) (c : RxChar) (s : State) : Moves o s (s.nextChar i start c) := by
  unfold State.nextChar
  split
  · exact moves_frameEnded i _ s
  · exact (Moves.refl s).line i _

theorem moves_receiveChar (i : Fin 12) (start : Nat) (edge : Capture) (c : RxChar) (s : State) :
    Moves o s (s.receiveChar i start edge c) := by
  unfold State.receiveChar
  split
  · exact ((Moves.refl s).line i _).and (moves_firstChar i start edge c _)
  · split
    · exact ((moves_frameEnded i _ s).and (moves_firstChar i start edge c _)).line i _
    · exact ((Moves.refl s).line i _).and (moves_nextChar i start c _)

theorem moves_lineFault (i : Fin 12) (s : State) : Moves o s (s.lineFault i) :=
  (((((moves_foundIdle i s).and (moves_abandon i _)).line i _).and (moves_updateAll _ .fault _)).and (moves_rackLineFault i _)).raise _

theorem moves_settleWindow (i : Fin 12) (s : State) : Moves o s (s.settleWindow i) := by
  unfold State.settleWindow
  split
  · split
    · exact moves_missIfOver i s
    · exact moves_endIfOver i s
    · exact Moves.refl s
    · exact Moves.refl s
    · exact Moves.refl s
    · exact Moves.refl s
    · exact Moves.refl s
  · exact Moves.refl s

theorem moves_listen (i : Fin 12) (was v : Bool) (s : State) : Moves o s (s.listen i was v) := by
  unfold State.listen
  split
  · exact (Moves.refl s).line i _
  · exact ((Moves.refl s).line i _).and (moves_settleWindow i _)
  · exact moves_receiveChar i _ _ _ s

theorem moves_sampled (i : Fin 12) (was v : Bool) (s : State) : Moves o s (s.sampled i was v) := by
  unfold State.sampled
  split
  · exact Moves.refl s
  · split
    · exact (Moves.refl s).line i _
    · split
      · exact moves_lineFault i s
      · exact moves_listen i was v s

theorem moves_restartFrom (i : Fin 12) (st : LineState) (q : Bool) (s : State) : Moves o s (s.restartFrom i st q) := by
  unfold State.restartFrom
  split
  · exact Moves.refl s
  · exact Moves.refl s
  · exact Moves.refl s
  · exact moves_newCycle i s
  · exact moves_newCycle i s
  · split
    · exact (Moves.refl s).line i _
    · exact moves_newCycle i s
  · split
    · exact (Moves.refl s).line i _
    · exact moves_newCycle i s

theorem moves_lineRestart (i : Fin 12) (s : State) : Moves o s (s.lineRestart i) :=
  ((moves_abandon i s).line i _).and (moves_restartFrom i _ _ _)

/-! ### Time and the row clock -/

theorem RowTime.ofNs_inRange (n : Nat) : RowTime.inRange (RowTime.ofNs n) :=
  ⟨Nat.mod_lt _ (by decide), Nat.mod_lt _ (by decide)⟩

theorem clip_le (n : Nat) (x : Int) : (clip (n : Int) x).natAbs ≤ n := by
  unfold clip
  omega

theorem RowClock.tick_inRange {c : RowClock} (h : c.InRange) : c.tick.InRange := by
  have hf := h.floor
  have hc := h.cap
  unfold RowClock.tick
  split
  all_goals first
    | exact h
    | exact { h with
        floor := by show 20 ≤ min 4294967295 (c.u + c.holdRate); omega
        cap := by show min 4294967295 (c.u + c.holdRate) ≤ 4294967295; omega }

theorem RowClock.tick_state (c : RowClock) : c.tick.state = c.state ∧ c.tick.selected = c.selected := by
  unfold RowClock.tick
  split <;> exact ⟨rfl, rfl⟩

theorem moves_tick (s : State) : Moves o s s.tick :=
  ((Moves.refl s).clk _ (ClkKept.calm RowClock.tick_inRange (RowClock.tick_state _).1 (RowClock.tick_state _).2)).and
    (moves_forAll12 _ (fun i s => (Moves.refl s).rack i _ (Rack.tick_kept _)) _)

theorem moves_ticks (n : Nat) (s : State) : Moves o s (State.ticks n s) := by
  induction n generalizing s with
  | zero => exact Moves.refl s
  | succ n ih => exact (moves_tick s).and (ih _)

theorem rate_le (s : State) (h : s.clk.InRange) : s.rate.natAbs ≤ 100000 := by
  unfold State.rate
  split
  · exact h.next
  · exact h.applied

theorem appliedAfter_le (d : Nat) (s : State) (h : s.clk.InRange) : (s.appliedAfter d).natAbs ≤ 100000 := by
  unfold State.appliedAfter
  split
  · exact rate_le s h
  · exact h.next

theorem moves_flowTo (now : Nat) {row : RowTime} {r : Int} (d : Due) (s : State) (hrow : RowTime.inRange row)
    (hr : s.clk.InRange → r.natAbs ≤ 100000) : Moves o s (s.flowTo now row r d) :=
  (Move.time now d s).one.clk (t := { s with localNs := now, due := d }) (fun c => { c with row := row, applied := r })
    (ClkKept.calm (fun h => { h with row := hrow, applied := hr h }) rfl rfl)

theorem moves_flow (d : Nat) (s : State) : Moves o s (s.flow d) :=
  (Move.latches _ s).one.and
    (moves_flowTo _ _ (s.captureTo (s.localNs + (d + 1))) (RowTime.ofNs_inRange _) (appliedAfter_le (d + 1) s))

theorem moves_advance (d : Nat) (s : State) : Moves o s (s.advance d) := by
  cases d with
  | zero => exact Moves.refl s
  | succ d => exact (moves_flow d s).and (moves_ticks _ _)

theorem moves_takeTick (s : State) : Moves o s s.takeTick := by
  unfold State.takeTick
  split
  · exact (Move.time s.localNs { s.due with tick := false } s).one.and (moves_tick _)
  · exact Moves.refl s

theorem moves_takeStart (s : State) : Moves o s s.takeStart := by
  unfold State.takeStart
  split
  · exact (Move.time s.localNs { s.due with start := false } s).one.clk _
      (ClkKept.calm (fun h => { h with applied := h.next }) rfl rfl)
  · exact Moves.refl s

theorem moves_reachTick (s : State) : Moves o s s.reachTick := by
  unfold State.reachTick
  split
  · exact Moves.refl s
  · exact moves_advance _ s

theorem moves_reachStart (s : State) : Moves o s s.reachStart := by
  unfold State.reachStart
  split
  · exact Moves.refl s
  · exact moves_advance _ s

/-- One sample of a receive pair, and with it samples one after the other, is a list of moves. -/
theorem moves_sample (i : Fin 12) (s : State) (v : Bool) : Moves o s (s.sample i v) :=
  ((moves_advance _ s).line i _).and (moves_sampled i _ v _)

theorem moves_samples (i : Fin 12) (levels : List Bool) (s : State) : Moves o s (s.samples i levels) :=
  moves_foldl _ (fun s v => moves_sample i s v) levels s

theorem moves_walkReset (s : State) : Moves o s s.walkReset := by
  refine moves_forAll12 _ (fun i s => Moves.rack i _ ⟨rfl, ?_, id⟩ (Moves.refl s)) s
  intro h
  simp only [Int.natAbs_zero]
  omega

theorem moves_eptStep (s : State) : Moves o s s.eptStep := moves_updateAll _ (.step _) s

theorem RowClock.step_inRange {row : RowTime} (hr : RowTime.inRange row) {c : RowClock} (h : c.InRange) :
    (c.step row).InRange := by
  unfold RowClock.step
  dsimp only
  split
  · exact { h with row := hr, integral := h.integral, next := h.integral }
  · exact { h with row := hr, integral := (by decide : Int.natAbs 0 ≤ 100000), next := (by decide : Int.natAbs 0 ≤ 100000) }

theorem moves_rowStep {row : RowTime} (hr : RowTime.inRange row) (s : State) : Moves o s (s.rowStep row) :=
  (((Moves.refl s).clk (RowClock.step row) (ClkKept.calm (RowClock.step_inRange hr) rfl rfl)).raise .step).and
    ((moves_eptStep _).and (moves_walkReset _))

theorem RowClock.discipline_inRange (p : Int) {c : RowClock} (h : c.InRange) : (c.discipline p).InRange :=
  { h with integral := clip_le 100000 _, next := clip_le 100000 _ }

theorem lockedU_bounds (p : Int) : 20 ≤ lockedU p ∧ lockedU p ≤ 4294967295 := by
  unfold lockedU uCap
  omega

theorem RowClock.nextStepCount_le (p : Int) (n x : Nat) (c : RowClock) : c.nextStepCount p n x ≤ 4 := by
  unfold RowClock.nextStepCount
  split <;> omega

theorem RowClock.nextLockCount_le (p : Int) (c : RowClock) : c.nextLockCount p ≤ 8 := by
  unfold RowClock.nextLockCount
  split <;> omega

theorem RowClock.count_inRange (p : Int) (n x : Nat) {c : RowClock} (h : c.InRange) : (c.count p n x).InRange :=
  { h with stepCount := RowClock.nextStepCount_le p n x c, lockCount := RowClock.nextLockCount_le p c }

theorem RowClock.follow_inRange (p : Int) (n x : Nat) {c : RowClock} (h : c.InRange) : (c.follow p n x).InRange :=
  { RowClock.discipline_inRange p h with
    floor := (lockedU_bounds p).1, cap := (lockedU_bounds p).2, stepCount := RowClock.nextStepCount_le p n x c }

theorem RowClock.lock_inRange (p : Int) {c : RowClock} (h : c.InRange) : (c.lock p).InRange :=
  { h with floor := (lockedU_bounds p).1, cap := (lockedU_bounds p).2, stepCount := Nat.zero_le 4, lockCount := Nat.le_refl 8 }

theorem RowClock.clearCounts_inRange {c : RowClock} (h : c.InRange) : c.clearCounts.InRange :=
  { h with stepCount := Nat.zero_le 4, lockCount := Nat.zero_le 8 }

theorem RowClock.toAcquiring_inRange (ch : Chan) {n : Nat} (hn : n ≤ 4) {c : RowClock} (h : c.InRange) :
    (c.toAcquiring ch n).InRange := by
  unfold RowClock.toAcquiring
  dsimp only
  split <;> exact { h with stepCount := hn, lockCount := Nat.zero_le 8 }

theorem RowClock.toHoldover_inRange {c : RowClock} (h : c.InRange) : c.toHoldover.InRange := by
  have hf := h.floor
  have hc := h.cap
  unfold RowClock.toHoldover
  dsimp only
  split
  · exact { h with
      next := h.integral, stepCount := Nat.zero_le 4, lockCount := Nat.zero_le 8
      floor := (by show 20 ≤ max c.u 20; omega), cap := (by show max c.u 20 ≤ 4294967295; omega) }
  · exact { h with next := h.integral, stepCount := Nat.zero_le 4, lockCount := Nat.zero_le 8 }

theorem RowClock.toFreerun_inRange {c : RowClock} (h : c.InRange) : c.toFreerun.InRange :=
  { h with
    integral := (by decide : Int.natAbs 0 ≤ 100000), next := (by decide : Int.natAbs 0 ≤ 100000)
    floor := (by decide : 20 ≤ uCap), cap := (by decide : uCap ≤ 4294967295)
    stepCount := Nat.zero_le 4, lockCount := Nat.zero_le 8 }

@[simp] theorem RowClock.toAcquiring_state (ch : Chan) (n : Nat) (c : RowClock) :
    (c.toAcquiring ch n).state = .acquiring := by
  unfold RowClock.toAcquiring
  dsimp only
  split <;> rfl

@[simp] theorem RowClock.toAcquiring_selected (ch : Chan) (n : Nat) (c : RowClock) :
    (c.toAcquiring ch n).selected = some ch := by
  unfold RowClock.toAcquiring
  dsimp only
  split <;> rfl

@[simp] theorem RowClock.toHoldover_state (c : RowClock) : c.toHoldover.state = .holdover := by
  unfold RowClock.toHoldover
  dsimp only
  split <;> rfl

@[simp] theorem RowClock.toHoldover_selected (c : RowClock) : c.toHoldover.selected = none := by
  unfold RowClock.toHoldover
  dsimp only
  split <;> rfl

@[simp] theorem RowClock.toFreerun_state (c : RowClock) : c.toFreerun.state = .freerun := rfl
@[simp] theorem RowClock.toFreerun_selected (c : RowClock) : c.toFreerun.selected = none := rfl

/-- Entry to ACQUIRING on a QUALIFIED channel. -/
theorem ClkKept.toAcquiring {s : State} {ch : Chan} {n : Nat} (hn : n ≤ 4) (hq : s.qualified ch = true) :
    ClkKept s (RowClock.toAcquiring ch n) :=
  { range := RowClock.toAcquiring_inRange ch hn
    held := fun _ =>
      { resting := fun x => by
          rw [modClk_clk, RowClock.toAcquiring_state] at x
          rcases x with x | x <;> cases x
        running := fun _ => ⟨ch, RowClock.toAcquiring_selected _ _ _, hq⟩ } }

theorem moves_measureAcquiring (p : Int) (n x : Nat) (s : State) (hs : s.clk.state = .acquiring) :
    Moves o s (s.measureAcquiring p n x) := by
  unfold State.measureAcquiring
  split
  · exact (moves_rowStep (RowTime.ofNs_inRange _) s).clk _ (ClkKept.calm RowClock.clearCounts_inRange rfl rfl)
  · split
    · refine (Moves.refl s).clk _ ⟨RowClock.lock_inRange p, fun h => ⟨fun y => ?_, fun _ => ?_⟩⟩
      · rcases y with y | y <;> cases y
      · exact h.running (Or.inl hs)
    · exact (Moves.refl s).clk _ (ClkKept.calm
        (fun h => RowClock.discipline_inRange p (RowClock.count_inRange p n x h)) rfl rfl)

theorem moves_measureLocked (ch : Chan) (p : Int) (n x : Nat) (s : State) (hq : s.qualified ch = true) :
    Moves o s (s.measureLocked ch p n x) := by
  unfold State.measureLocked
  have h : Moves o s (s.modClk (RowClock.follow p n x)) := (Moves.refl s).clk _ (ClkKept.calm (RowClock.follow_inRange p n x) rfl rfl)
  split
  · exact h.clk _ (ClkKept.toAcquiring (Nat.le_refl 4) hq)
  · exact h

theorem moves_measure (ch : Chan) (p : Int) (n x : Nat) (s : State) (hq : s.qualified ch = true) :
    Moves o s (s.measure ch p n x) := by
  unfold State.measure
  split
  · rename_i hs
    exact moves_measureAcquiring p n x s hs
  · exact moves_measureLocked ch p n x s hq
  · exact Moves.refl s
  · exact Moves.refl s

/-! #### The channels' reports -/

/-- A report changes ROWCLK alone. -/
theorem reportChan_clk (old : State) (ch : Chan) (s : State) :
    State.reportChan old ch s = s.withRefs s.chanA s.chanB (State.reportChan old ch s).clk := by
  unfold State.reportChan State.becameQualified State.stoppedQualified
  split
  · rfl
  · split
    · split
      · rfl
      · rfl
      · rfl
      · split <;> rfl
    · split
      · rfl
      · split
        · split
          · rfl
          · split <;> rfl
        · split <;> rfl
        · rfl
        · rfl

theorem reportChan_chan (old : State) (ch : Chan) (s : State) (d : Chan) :
    (State.reportChan old ch s).chan d = s.chan d := by
  rw [reportChan_clk]
  cases d <;> rfl

theorem reportChan_qualified (old : State) (ch : Chan) (s : State) (d : Chan) :
    (State.reportChan old ch s).qualified d = s.qualified d := by
  unfold State.qualified
  rw [reportChan_chan]

theorem reportChan_inRange (old : State) (ch : Chan) {s : State} (h : s.clk.InRange) :
    (State.reportChan old ch s).clk.InRange := by
  unfold State.reportChan State.becameQualified State.stoppedQualified
  split
  · exact h
  · split
    · split
      · exact RowClock.toAcquiring_inRange _ (Nat.zero_le 4) h
      · exact RowClock.toAcquiring_inRange _ (Nat.zero_le 4) h
      · exact h
      · split
        · exact RowClock.toAcquiring_inRange _ (Nat.zero_le 4) h
        · exact h
    · split
      · exact h
      · split
        · split
          · exact RowClock.toAcquiring_inRange _ (Nat.zero_le 4) h
          · split
            · exact RowClock.toHoldover_inRange h
            · exact RowClock.toFreerun_inRange h
        · split
          · exact RowClock.toAcquiring_inRange _ (Nat.zero_le 4) h
          · exact RowClock.toHoldover_inRange h
        · exact h
        · exact h

/-- R8's words about the selected reference, on the four things they speak of. -/
structure Held (st : ClockState) (sel : Option Chan) (a b : Bool) : Prop where
  resting : st = .freerun ∨ st = .holdover → sel = none ∧ a = false ∧ b = false
  running : st = .acquiring ∨ st = .locked → sel = some .a ∧ a = true ∨ sel = some .b ∧ b = true

theorem refHeld_iff (s : State) : s.RefHeld ↔ Held s.clk.state s.clk.selected (s.qualified .a) (s.qualified .b) := by
  constructor
  · intro h
    refine ⟨h.resting, fun x => ?_⟩
    obtain ⟨ch, h1, h2⟩ := h.running x
    cases ch
    · exact Or.inl ⟨h1, h2⟩
    · exact Or.inr ⟨h1, h2⟩
  · intro h
    refine ⟨h.resting, fun x => ?_⟩
    rcases h.running x with ⟨h1, h2⟩ | ⟨h1, h2⟩
    · exact ⟨.a, h1, h2⟩
    · exact ⟨.b, h1, h2⟩

/-- A report of a channel that alone has changed keeps R8's words. -/
theorem report_held {s u : State} {ch : Chan} (hu : u.clk = s.clk)
    (other : u.qualified ch.other = s.qualified ch.other) (h : s.RefHeld) : (State.reportChan s ch u).RefHeld := by
  rw [refHeld_iff] at h ⊢
  rw [reportChan_qualified, reportChan_qualified]
  obtain ⟨h1, h2⟩ := h
  unfold State.reportChan State.becameQualified State.stoppedQualified State.choice
  cases ch <;> simp only [Chan.other] at other ⊢ <;> rw [hu] <;>
    cases hp : s.clk.preferred <;> (repeat' split) <;> constructor <;> simp_all <;> (repeat' split) <;> simp_all

/-- A channel that is as it was makes no report. -/
theorem reportChan_same {old s : State} {ch : Chan} (h : old.qualified ch = s.qualified ch) :
    State.reportChan old ch s = s := if_pos h

/-- The selected channel stops being QUALIFIED, and no channel is QUALIFIED: the clock rests. -/
theorem stopped_rests {s u : State} {ch : Chan} (hu : u.clk = s.clk) (was : s.qualified ch = true)
    (now : ∀ d, u.qualified d = false) (sel : s.clk.selected = some ch)
    (run : s.clk.state = .acquiring ∨ s.clk.state = .locked) :
    ((State.reportChan s ch u).clk.state = .freerun ∨ (State.reportChan s ch u).clk.state = .holdover) ∧
      (State.reportChan s ch u).clk.selected = none := by
  have nc := now ch
  have no := now ch.other
  unfold State.reportChan State.stoppedQualified
  rcases run with run | run <;> simp [hu, was, nc, no, sel, run]
  all_goals (split <;> simp)

/-- A channel that is not selected stops being QUALIFIED: ROWCLK does not change. -/
theorem stopped_other {s u : State} {ch : Chan} (was : s.qualified ch = true) (now : u.qualified ch = false)
    (sel : u.clk.selected ≠ some ch) : State.reportChan s ch u = u := by
  unfold State.reportChan State.stoppedQualified
  simp [was, now, sel]

/-- The reports of both channels, where neither has become QUALIFIED, keep R8's words. -/
theorem reports_held {s u : State} (hu : u.clk = s.clk) (fall : ∀ d, u.qualified d = true → s.qualified d = true)
    (h : s.RefHeld) : (State.reportChan s .b (State.reportChan s .a u)).RefHeld := by
  by_cases ea : s.qualified .a = u.qualified .a
  · rw [reportChan_same ea]
    exact report_held hu ea.symm h
  · by_cases eb : s.qualified .b = u.qualified .b
    · have := report_held (ch := .a) hu eb.symm h
      rwa [reportChan_same (s := State.reportChan s .a u)]
      rw [reportChan_qualified]
      exact eb
    · have ua : u.qualified .a = false := by
        have := fall .a
        cases hx : u.qualified .a <;> simp_all
      have ub : u.qualified .b = false := by
        have := fall .b
        cases hx : u.qualified .b <;> simp_all
      have sa : s.qualified .a = true := by rw [ua] at ea; simpa using ea
      have sb : s.qualified .b = true := by rw [ub] at eb; simpa using eb
      have none : ∀ d, u.qualified d = false := by intro d; cases d <;> assumption
      have run : s.clk.state = .acquiring ∨ s.clk.state = .locked := by
        have := h.resting
        cases hst : s.clk.state <;> simp_all
      rw [refHeld_iff]
      simp only [reportChan_qualified, ua, ub]
      obtain ⟨ch, hsel, _⟩ := h.running run
      have rest : ∀ v : State, (v.clk.state = .freerun ∨ v.clk.state = .holdover) ∧ v.clk.selected = Option.none →
          Held v.clk.state v.clk.selected false false := by
        intro v hv
        refine ⟨fun _ => ⟨hv.2, rfl, rfl⟩, fun x => ?_⟩
        rcases hv.1 with y | y <;> rw [y] at x <;> rcases x with x | x <;> cases x
      cases ch
      · have hr := stopped_rests hu sa none hsel run
        rw [stopped_other sb (by rw [reportChan_qualified]; exact ub) (by rw [hr.2]; exact Option.some_ne_none _ |>.symm)]
        exact rest _ hr
      · rw [stopped_other sa ua (by rw [hu, hsel]; decide)]
        exact rest _ (stopped_rests hu sb none hsel run)

/-! #### Edges, losses and REF_CONFIG -/

/-- A channel replaced, and its report: R8's words and ranges are kept. -/
theorem moves_chanReport (ch : Chan) (r : RefChannel) (s : State) (hr : (s.chan ch).InRange → r.InRange) :
    Moves o s (State.reportChan s ch (s.setChan ch r)) := by
  have e : State.reportChan s ch (s.setChan ch r) =
      s.withRefs (s.setChan ch r).chanA (s.setChan ch r).chanB (State.reportChan s ch (s.setChan ch r)).clk := by
    conv_lhs => rw [reportChan_clk]
    cases ch <;> rfl
  have other : (s.setChan ch r).qualified ch.other = s.qualified ch.other := by cases ch <;> rfl
  rw [e]
  refine (Move.refs _ _ _ s (fun h => ⟨?_, ?_, ?_⟩) (fun h => ?_)).one
  · exact reportChan_inRange s ch (by rw [setChan_clk]; exact h.clk)
  · cases ch
    · exact hr h.chanA
    · exact h.chanA
  · cases ch
    · exact h.chanB
    · exact hr h.chanB
  · rw [← e]
    exact report_held (setChan_clk s ch r) other h

theorem RefChannel.judged_inRange (now : Nat) {c : RefChannel} (en : c.enable = true) (h : c.InRange) :
    (c.judged now).InRange := by
  have hg := h.good
  have hd := h.disabled
  unfold RefChannel.judged
  split
  · exact ⟨Nat.zero_le 4, nofun, ⟨nofun, fun x => by rw [en] at x; cases x⟩, h.quiet⟩
  · split
    · refine ⟨by show min 4 (c.good + 1) ≤ 4; omega, ?_, ?_, h.quiet⟩
      · dsimp only
        split
        · intro _; omega
        · rename_i hlt
          intro hq
          have := h.qualified hq
          omega
      · dsimp only
        split
        · exact ⟨nofun, fun x => by rw [en] at x; cases x⟩
        · exact hd
    · exact ⟨Nat.zero_le 4, nofun, ⟨nofun, fun x => by rw [en] at x; cases x⟩, h.quiet⟩

theorem RefChannel.judged_enable (now : Nat) (c : RefChannel) : (c.judged now).enable = c.enable := by
  unfold RefChannel.judged
  split
  · rfl
  · split <;> rfl

theorem RefChannel.edge_inRange (now : Nat) (t : RowTime) {c : RefChannel} (en : c.enable = true) (h : c.InRange) :
    (c.edge now t).InRange :=
  let j := RefChannel.judged_inRange now en h
  ⟨j.good, j.qualified, j.disabled, fun x => by
    rw [show (c.edge now t).enable = (c.judged now).enable from rfl, RefChannel.judged_enable, en] at x
    cases x⟩

theorem RefChannel.setEnable_inRange (b on : Bool) {c : RefChannel} (h : c.InRange) : (c.setEnable b on).InRange := by
  unfold RefChannel.setEnable
  split
  · cases on
    · exact ⟨Nat.zero_le 4, nofun, ⟨fun _ => rfl, fun _ => rfl⟩, fun _ => rfl⟩
    · exact ⟨Nat.zero_le 4, nofun, ⟨nofun, nofun⟩, fun _ => rfl⟩
  · exact h

/-- A change of a channel that leaves its enable flag, state and count. -/
theorem moves_setChan_calm (ch : Chan) (r : RefChannel) (s : State) (en : r.enable = (s.chan ch).enable)
    (st : r.state = (s.chan ch).state) (gd : r.good = (s.chan ch).good) (ld : r.lossDeadline = (s.chan ch).lossDeadline) :
    Moves o s (s.setChan ch r) := by
  have h : State.reportChan s ch (s.setChan ch r) = s.setChan ch r :=
    reportChan_same (by cases ch <;> simp [State.qualified, State.chan, State.setChan] at st ⊢ <;> rw [st])
  have m := moves_chanReport (o := o) ch r s (fun x =>
    ⟨by rw [gd]; exact x.good, by rw [st, gd]; exact x.qualified, by rw [st, en]; exact x.disabled,
      by rw [en, ld]; exact x.quiet⟩)
  rwa [h] at m

theorem todDone_calm (cs : List RxChar) (c : RefChannel) :
    (c.todDone cs).enable = c.enable ∧ (c.todDone cs).state = c.state ∧ (c.todDone cs).good = c.good ∧
      (c.todDone cs).lossDeadline = c.lossDeadline := by
  unfold RefChannel.todDone
  split <;> exact ⟨rfl, rfl, rfl, rfl⟩

theorem todChar_calm (start : Nat) (c : RefChannel) (x : RxChar) :
    (c.todChar start x).enable = c.enable ∧ (c.todChar start x).state = c.state ∧ (c.todChar start x).good = c.good ∧
      (c.todChar start x).lossDeadline = c.lossDeadline := by
  unfold RefChannel.todChar
  split
  · split <;> exact ⟨rfl, rfl, rfl, rfl⟩
  · split
    · exact todDone_calm _ c
    · exact ⟨rfl, rfl, rfl, rfl⟩

theorem todSampled_calm (now : Nat) (edge : Capture) (v : Bool) (c : RefChannel) :
    (c.todSampled now edge v).enable = c.enable ∧ (c.todSampled now edge v).state = c.state ∧
      (c.todSampled now edge v).good = c.good ∧ (c.todSampled now edge v).lossDeadline = c.lossDeadline := by
  unfold RefChannel.todSampled RefChannel.todListen
  split
  · split
    · exact ⟨rfl, rfl, rfl, rfl⟩
    · exact ⟨rfl, rfl, rfl, rfl⟩
    · exact todChar_calm _ (c.todRead now v) _
  · exact ⟨rfl, rfl, rfl, rfl⟩

theorem moves_noteRef (old s : State) : Moves o s (State.noteRef old s) := by
  unfold State.noteRef
  split
  · exact (Moves.refl s).raise _
  · exact Moves.refl s

theorem moves_handMeasure (old : State) (ch : Chan) (s : State) : Moves o s (State.handMeasure old ch s) := by
  unfold State.handMeasure
  split
  · split
    · rename_i h
      exact moves_measure _ _ _ _ s h.2
    · exact Moves.refl s
  · exact Moves.refl s

theorem moves_ppsEdge (ch : Chan) (s : State) (en : (s.chan ch).enable = true) : Moves o s (s.ppsEdge ch) :=
  (moves_chanReport ch _ s (RefChannel.edge_inRange _ _ en)).and (moves_handMeasure s ch _)

theorem moves_takeEdge (ch : Chan) (s : State) : Moves o s (s.takeEdge ch) := by
  unfold State.takeEdge
  split
  · rename_i h
    exact (moves_ppsEdge ch s h).and (moves_noteRef _ _)
  · exact Moves.refl s

theorem moves_todSample (ch : Chan) (s : State) (v : Bool) : Moves o s (s.todSample ch v) := by
  refine (moves_advance _ s : Moves o s (s.toTodSample ch)).and ?_
  obtain ⟨h1, h2, h3, h4⟩ := todSampled_calm (s.toTodSample ch).localNs ⟨(s.toTodSample ch).clk.row, (s.toTodSample ch).clk.epoch⟩
    v (s.chan ch)
  have e : (s.toTodSample ch).chan ch = s.chan ch := advanceTo_chan s _ ch
  exact moves_setChan_calm ch _ (s.toTodSample ch) (by rw [e]; exact h1) (by rw [e]; exact h2) (by rw [e]; exact h3)
    (by rw [e]; exact h4)

theorem moves_todSamples (ch : Chan) (levels : List Bool) (s : State) : Moves o s (s.todSamples ch levels) :=
  moves_foldl _ (fun s v => moves_todSample ch s v) levels s

theorem moves_todGap (ch : Chan) (s : State) : Moves o s (s.todGap ch) := moves_setChan_calm ch _ s rfl rfl rfl rfl

theorem moves_loseChan (ch : Chan) (s : State) (hd : (s.chan ch).lossDeadline ≠ none) : Moves o s (s.loseChan ch) := by
  refine (moves_chanReport ch (s.chan ch).lose s (fun h => ?_)).and (moves_noteRef s _)
  have en : (s.chan ch).lose.enable = true := by
    rw [show (s.chan ch).lose.enable = (s.chan ch).enable from rfl]
    cases he : (s.chan ch).enable
    · exact absurd (h.quiet he) hd
    · rfl
  refine ⟨Nat.zero_le 4, nofun, ⟨nofun, fun x => ?_⟩, fun _ => rfl⟩
  rw [en] at x
  cases x

theorem RowClock.configure_inRange (body : List Byte) (hb : refConfigOk body = true) {c : RowClock} (h : c.InRange) :
    (c.configure body).InRange := by
  simp only [refConfigOk, Bool.and_eq_true] at hb
  obtain ⟨⟨_, h4⟩, h5⟩ := hb
  have k4 : 100 ≤ (c.configure body).stepLimit ∧ (c.configure body).stepLimit ≤ 1000000 := by
    show 100 ≤ carried _ 4 _ c.stepLimit ∧ carried _ 4 _ c.stepLimit ≤ 1000000
    unfold carried
    split
    · rename_i hc
      simpa [carriedOk, hc, within] using h4
    · exact h.stepLimit
  have k5 : 1 ≤ (c.configure body).holdRate ∧ (c.configure body).holdRate ≤ 10000 := by
    show 1 ≤ carried _ 5 _ c.holdRate ∧ carried _ 5 _ c.holdRate ≤ 10000
    unfold carried
    split
    · rename_i hc
      simpa [carriedOk, hc, within] using h5
    · exact h.holdRate
  exact { h with stepLimit := k4, holdRate := k5 }

theorem moves_revertTest (s : State) : Moves o s s.revertTest := by
  unfold State.revertTest
  split
  · rename_i h
    exact (Moves.refl s).clk _ (ClkKept.toAcquiring (Nat.zero_le 4) h.2.2.2)
  · exact Moves.refl s

theorem moves_revertIfCarried (body : List Byte) (s : State) : Moves o s (s.revertIfCarried body) := by
  unfold State.revertIfCarried
  split
  · exact moves_revertTest s
  · exact Moves.refl s

theorem setEnable_qualified (b on : Bool) (c : RefChannel) (h : ((c.setEnable b on).state == .qualified) = true) :
    (c.state == .qualified) = true := by
  unfold RefChannel.setEnable at h
  split at h
  · cases on <;> cases h
  · exact h

theorem moves_setEnables (body : List Byte) (s : State) :
    Moves o s (State.reportChan s .b (State.reportChan s .a (s.setEnables body))) := by
  generalize hv : State.reportChan s .b (State.reportChan s .a (s.setEnables body)) = v
  have e : v = s.withRefs (s.setEnables body).chanA (s.setEnables body).chanB v.clk := by
    rw [← hv]
    have e1 := reportChan_clk s .b (State.reportChan s .a (s.setEnables body))
    have e2 := reportChan_clk s .a (s.setEnables body)
    have ca : (State.reportChan s .a (s.setEnables body)).chanA = (s.setEnables body).chanA :=
      reportChan_chan s .a (s.setEnables body) .a
    have cb : (State.reportChan s .a (s.setEnables body)).chanB = (s.setEnables body).chanB :=
      reportChan_chan s .a (s.setEnables body) .b
    rw [ca, cb] at e1
    generalize State.reportChan s .b (State.reportChan s .a (s.setEnables body)) = x at e1 ⊢
    rw [e1, e2]
    rfl
  rw [e]
  refine (Move.refs _ _ _ s (fun h => ⟨?_, ?_, ?_⟩) (fun h => ?_)).one
  · show v.clk.InRange
    rw [← hv]
    exact reportChan_inRange s .b (reportChan_inRange s .a h.clk)
  · exact RefChannel.setEnable_inRange _ _ h.chanA
  · exact RefChannel.setEnable_inRange _ _ h.chanB
  · rw [← e, ← hv]
    refine reports_held rfl (fun d hd => ?_) h
    cases d
    · exact setEnable_qualified _ _ _ hd
    · exact setEnable_qualified _ _ _ hd

theorem moves_refConfigured (body : List Byte) (hb : refConfigOk body = true) (s : State) :
    Moves o s (s.refConfigured body) :=
  (((moves_setEnables body s).clk _ (ClkKept.calm (RowClock.configure_inRange body hb) rfl rfl)).and
    (moves_revertIfCarried body _)).and (moves_noteRef s _)

/-! ### The request port -/

/-- A block takes a request by moves. -/
def Blocked (o : Kinds) (block : State → Done) : Prop := ∀ s, Moves o s (block s).1

theorem blocked_refuse (st : Status) : Blocked o (refuse st) := fun s => Moves.refl s

theorem moves_unlessIgnored (hp : o.ports = true) (f : State → State) (hf : ∀ s, Moves o s (f s)) (s : State) :
    Moves o s (s.unlessIgnored f) := by
  unfold State.unlessIgnored
  split
  · exact (Moves.refl s).port _ (Or.inl hp)
  · exact hf s

theorem moves_deselect (hp : o.ports = true) (p : Port) (s : State) : Moves o s (s.deselect p) :=
  (Move.fill (s.freeCount + p.link.bytes.length + 1) s).one.port (fun _ => p.selectRises) (Or.inl hp)

/-- A transaction moves the port and the fill counter, and then does what is made of its bytes. -/
theorem moves_transfer (hp : o.ports = true) (bits : List Bool) {take : List Byte → Bool → State → State}
    (h : ∀ bytes cut s, Moves o s (take bytes cut s)) (s : State) : Moves o s (s.transfer bits take) :=
  moves_unlessIgnored hp _ (fun s => (moves_deselect hp _ s).and (h _ _ _)) s

theorem moves_dropWrite (s : State) : Moves o s s.dropWrite :=
  ((Moves.refl s).port (fun p => { p with overlaps := inc16 p.overlaps, overlapMark := true })
    (Or.inr ⟨fun _ => rfl, fun _ => rfl, fun _ => rfl⟩)).raise _

theorem moves_holdBadFrame (hp : o.ports = true) (first : Byte) (s : State) : Moves o s (s.holdBadFrame first) :=
  ((Moves.refl s).port _ (Or.inl hp)).raise _

theorem moves_enterExecuting (hp : o.ports = true) (s : State) : Moves o s s.enterExecuting := (Move.port _ s (Or.inl hp)).one

theorem moves_form (hp : o.ports = true) (code : Byte) (d : Done) : Moves o d.1 (State.form code d) :=
  (Move.port _ d.1 (Or.inl hp)).one

theorem moves_carryOut (hp : o.ports = true) (code : Byte) (lengths : List Nat) (body : List Byte)
    {block : State → Done} (hb : Blocked o block)
    (s : State) : Moves o s (s.carryOut code lengths body block) := by
  unfold State.carryOut
  refine Moves.and ?_ (moves_form hp _ _)
  split
  · exact (moves_enterExecuting hp s).and (hb _)
  · exact moves_enterExecuting hp s

theorem moves_takeRequest (hp : o.ports = true) (code : Byte) (lengths : List Nat) (body : List Byte) {block : State → Done}
    (hb : Blocked o block) (s : State) : Moves o s (s.takeRequest code lengths body block) := by
  unfold State.takeRequest
  split
  · exact moves_dropWrite s
  · split
    · exact moves_holdBadFrame hp _ s
    · exact moves_carryOut hp _ _ _ hb s
  · split
    · exact moves_holdBadFrame hp _ s
    · exact moves_carryOut hp _ _ _ hb s

theorem moves_request (hp : o.ports = true) (code : Byte) (lengths : List Nat) (body : List Byte)
    {block : State → Done} (hb : Blocked o block)
    (s : State) : Moves o s (s.request code lengths body block) :=
  moves_transfer hp _ (fun _ _ s => moves_takeRequest hp _ _ _ hb s) s

theorem moves_endRead (hp : o.ports = true) (n : Nat) (s : State) : Moves o s (s.endRead n) := by
  unfold State.endRead
  split
  · split
    · exact (Moves.refl s).port _ (Or.inl hp)
    · exact Moves.refl s
  · exact Moves.refl s

/-! ### The owning blocks -/

theorem blocked_refConfig (body : List Byte) : Blocked o (refConfigBlock body) := by
  intro s
  unfold refConfigBlock
  split
  · rename_i h
    exact moves_refConfigured body h s
  · exact Moves.refl s

/-- Six bytes spell a number of row seconds. -/
theorem natOf_lt (bs : List Byte) : natOf bs < 256 ^ bs.length := by
  have key : ∀ (l : List Byte) (a : Nat), l.foldl (fun a b => a * 256 + b.toNat) a < (a + 1) * 256 ^ l.length := by
    intro l
    induction l with
    | nil => intro a; simp
    | cons b l ih =>
      intro a
      have hb := b.isLt
      calc List.foldl (fun a b => a * 256 + b.toNat) a (b :: l)
          < (a * 256 + b.toNat + 1) * 256 ^ l.length := ih _
        _ ≤ ((a + 1) * 256) * 256 ^ l.length := Nat.mul_le_mul_right _ (by omega)
        _ = (a + 1) * 256 ^ (b :: l).length := by rw [List.length_cons, pow_succ]; ring
  have := key bs 0
  simpa [natOf] using this

/-- A field of `n` bytes is below 256^n. -/
theorem field_lt (body : List Byte) (off n : Nat) : field body off n < 256 ^ n := by
  refine Nat.lt_of_lt_of_le (natOf_lt _) (Nat.pow_le_pow_right (by decide) ?_)
  rw [List.length_take]
  exact Nat.min_le_left _ _

theorem blocked_setTime (body : List Byte) : Blocked o (setTimeBlock body) := by
  intro s
  unfold setTimeBlock
  split
  · exact moves_rowStep ⟨field_lt body 0 6, Nat.zero_lt_succ _⟩ s
  · exact Moves.refl s

theorem blocked_readTime : Blocked o readTimeBlock := fun s => Moves.refl s

theorem moves_lineEnable (i : Fin 12) (c on : Bool) (s : State) : Moves o s (s.lineEnable i c on) := by
  unfold State.lineEnable
  split
  · split
    · split
      · exact ((Moves.refl s).line i _).and (moves_newCycle i _)
      · exact Moves.refl s
    · split
      · exact Moves.refl s
      · exact (moves_abandon i s).line i _
  · exact Moves.refl s

theorem blocked_lineConfig (body : List Byte) : Blocked o (lineConfigBlock body) := by
  intro s
  unfold lineConfigBlock
  split
  · exact Moves.refl s
  · split
    · exact ((Moves.refl s).line _ _).and (moves_lineEnable _ _ _ _)
    · exact Moves.refl s

theorem blocked_lineQuiesce (body : List Byte) : Blocked o (lineQuiesceBlock body) := by
  intro s
  unfold lineQuiesceBlock
  split
  · exact Moves.refl s
  · unfold State.lineQuiesce
    split
    · exact (Move.line _ _ s).one
    · exact (Move.line _ (fun l => (l.hush s.localNs).toQuiesced) s).one
    · exact (Move.line _ _ s).one
    · exact (Move.line _ _ s).one
    · exact (Move.line _ _ s).one
    · exact Moves.refl s
    · exact Moves.refl s

theorem blocked_lineResume (body : List Byte) : Blocked o (lineResumeBlock body) := by
  intro s
  unfold lineResumeBlock
  split
  · exact Moves.refl s
  · unfold State.lineResume
    split
    · exact moves_newCycle _ s
    · exact (Moves.refl s).line _ _

theorem moves_lineCleared (i : Fin 12) (s : State) : Moves o s (s.lineCleared i) :=
  (((moves_foundIdle i s).and (moves_abandon i _)).line i _).and (Move.newcomers _ _ _).one

theorem blocked_lineReset (body : List Byte) : Blocked o (lineResetBlock body) := by
  intro s
  unfold lineResetBlock
  split
  · exact Moves.refl s
  · unfold State.lineReset
    split
    · exact moves_lineCleared _ s
    · exact (moves_lineCleared _ s).and (moves_newCycle _ _)

theorem moves_dropNewcomer (i : Fin 12) (addr : Nat) (s : State) : Moves o s (s.dropNewcomer i addr) :=
  (Move.newcomers _ s.overflow s).one

/-- The lowest free slot from `n` on is one of the `k` places looked at and free, or every one of them is used. -/
theorem lowestFree_spec (used : List Nat) (k n : Nat) :
    (lowestFree used k n < n + k ∧ lowestFree used k n ∉ used) ∨ ∀ m, n ≤ m → m < n + k → m ∈ used := by
  induction k generalizing n with
  | zero => exact Or.inr (fun m h h' => absurd h (by omega))
  | succ k ih =>
    rw [lowestFree]
    split
    · rename_i hc
      rcases ih (n + 1) with ⟨h1, h2⟩ | h3
      · exact Or.inl ⟨by omega, h2⟩
      · refine Or.inr (fun m hm hm' => ?_)
        rcases Nat.eq_or_lt_of_le hm with e | e
        · subst e; simpa using hc
        · exact h3 m e (by omega)
    · rename_i hc
      exact Or.inl ⟨by omega, by simpa using hc⟩

/-- With fewer than 512 records, ENROLL's slot is 0 to 511 and free (R67). -/
theorem freeSlot_spec (s : State) (h : s.records.length < 512) :
    s.freeSlot ≤ 511 ∧ ∀ r ∈ s.records, r.slot ≠ s.freeSlot := by
  rcases lowestFree_spec (s.records.map Endpoint.slot) 512 0 with ⟨h1, h2⟩ | h3
  · exact ⟨Nat.le_of_lt_succ (by rw [Nat.zero_add] at h1; exact h1), fun r hr e => h2 (List.mem_map.2 ⟨r, hr, e⟩)⟩
  · have hs : (List.range 512).Subperm (s.records.map Endpoint.slot) :=
      (List.nodup_range).subperm (fun m hm => h3 m (Nat.zero_le m) (by simpa using hm))
    have := hs.length_le
    simp at this
    omega

theorem blocked_enroll (body : List Byte) : Blocked o (enrollBlock body) := by
  intro s
  unfold enrollBlock
  split
  · exact Moves.refl s
  · split
    · unfold State.enroll
      dsimp only
      split
      · exact Moves.refl s
      · split
        · exact Moves.refl s
        · rename_i hk hl
          obtain ⟨h1, h2⟩ := freeSlot_spec s (by omega)
          refine (moves_dropNewcomer _ _ s).and (Move.add _ _ ?_ h1 ?_ rfl).one
          · rw [List.all_eq_true]
            intro r hr
            exact bne_iff_ne.2 (h2 r hr)
          · exact Option.not_isSome_iff_eq_none.1 hk
    · exact Moves.refl s

theorem blocked_lookup (body : List Byte) : Blocked o (lookupBlock body) := by
  intro s
  unfold lookupBlock
  split
  · exact Moves.refl s
  · exact Moves.refl s

theorem blocked_amend (body : List Byte) : Blocked o (amendBlock body) := by
  intro s
  unfold amendBlock
  split
  · exact Moves.refl s
  · split
    · split
      · exact Moves.refl s
      · exact (Moves.refl s).record (.amend _ _) _
    · exact Moves.refl s

theorem moves_suspend (r : Endpoint) (s : State) : Moves o s (s.suspend r).1 := by
  unfold State.suspend
  split
  · exact Moves.refl s
  · exact Moves.refl s
  all_goals
    split
    · exact Moves.refl s
    · split
      · exact (Moves.refl s).record (.suspendLater _) _
      · exact (Moves.refl s).record (.suspendNow _) _

theorem blocked_suspend (body : List Byte) : Blocked o (suspendBlock body) := by
  intro s
  unfold suspendBlock
  split
  · exact Moves.refl s
  · exact moves_suspend _ s

theorem blocked_resume (body : List Byte) : Blocked o (resumeBlock body) := by
  intro s
  unfold resumeBlock
  split
  · exact Moves.refl s
  · split
    · exact (Moves.refl s).record .resumed _
    · exact Moves.refl s

theorem blocked_retire (body : List Byte) : Blocked o (retireBlock body) := by
  intro s
  unfold retireBlock
  split
  · exact Moves.refl s
  · unfold State.retire
    split
    · exact Moves.refl s
    · split
      · exact (Moves.refl s).record (.retireLater _) _
      · exact (Move.remove _ s).one

theorem blocked_scan (body : List Byte) : Blocked o (scanBlock body) := by
  intro s
  unfold scanBlock
  split
  · exact Moves.refl s
  · exact Moves.refl s

theorem blocked_newcomers : Blocked o newcomersBlock := fun s => (Move.newcomers s.newcomers false s).one

theorem blocked_dismiss (body : List Byte) : Blocked o (dismissBlock body) := by
  intro s
  unfold dismissBlock
  split
  · exact Moves.refl s
  · split
    · split
      · exact moves_dropNewcomer _ _ s
      · exact Moves.refl s
    · exact Moves.refl s

theorem blocked_domainOpen (ho : o.opens = true) (body : List Byte) : Blocked o (domainOpenBlock body) := by
  intro s
  unfold domainOpenBlock
  split
  · split
    · exact Moves.refl s
    · split
      · exact Moves.refl s
      · rename_i h _
        exact (Move.opened (newDomain body) s (Option.not_isSome_iff_eq_none.1 h) rfl ho).one
  · exact Moves.refl s

/-- The domain found under an id has that id. -/
theorem domain_id {s : State} {id : Byte} {d : Domain} (h : s.domain id = some d) : d.id = id := by
  have := List.find?_some h
  simpa using this

/-- The domain that a body names is the one found under its id. -/
theorem namedDomain_spec {s : State} {body : List Byte} {d : Domain} (h : s.namedDomain body = .ok d) :
    s.domain d.id = some d := by
  unfold State.namedDomain at h
  split at h
  · cases h
  · split at h
    · rename_i he
      cases h
      rw [domain_id he]
      exact he
    · cases h

theorem blocked_domainAmend (body : List Byte) : Blocked o (domainAmendBlock body) := by
  intro s
  unfold domainAmendBlock
  split
  · exact Moves.refl s
  · split
    · split
      · exact Moves.refl s
      · exact (Move.amended _ body s).one
    · exact Moves.refl s

theorem blocked_domainFreeze (body : List Byte) : Blocked o (domainFreezeBlock body) := by
  intro s
  unfold domainFreezeBlock
  split
  · exact Moves.refl s
  · split
    · exact (Move.frozen _ s).one
    · exact Moves.refl s
    · exact Moves.refl s

theorem blocked_domainThaw (body : List Byte) : Blocked o (domainThawBlock body) := by
  intro s
  unfold domainThawBlock
  split
  · exact Moves.refl s
  · rename_i d hd
    split
    · split
      · exact Moves.refl s
      · rename_i h
        exact (Move.thawed d s (namedDomain_spec hd) h).one
    · exact Moves.refl s
    · exact Moves.refl s

theorem blocked_domainRetire (body : List Byte) : Blocked o (domainRetireBlock body) := by
  intro s
  unfold domainRetireBlock
  split
  · exact Moves.refl s
  · split
    · exact Moves.refl s
    · split
      · exact (Move.drop _ s).one
      · exact (Move.retired _ s).one

theorem blocked_domainLookup (body : List Byte) : Blocked o (domainLookupBlock body) := by
  intro s
  unfold domainLookupBlock
  split
  · exact Moves.refl s
  · exact Moves.refl s

theorem blocked_stamp (body : List Byte) : Blocked o (stampBlock body) := fun s => (Move.stampHost _ _ s).one

theorem moves_rackEnable (i : Fin 12) (c on : Bool) (s : State) : Moves o s (s.rackEnable i c on) := by
  unfold State.rackEnable
  split
  · split
    · split
      · exact ((Moves.refl s).rack i _ ⟨rfl, id, by intro h; cases h⟩).and (moves_rackChanged i _)
      · exact Moves.refl s
    · split
      · exact Moves.refl s
      · refine Moves.and (Moves.rack i _ ⟨rfl, ?_, by intro h; cases h⟩ (Moves.refl s)) (moves_rackChanged i _)
        intro h
        show Int.natAbs 0 < (s.rack i).walkLimit
        rw [Int.natAbs_zero]
        omega
  · exact Moves.refl s

/-- A carried walk limit in range is above 0. -/
theorem configure_walkLimit (body : List Byte) (r : Rack) (h : rackConfigRanges body = true) (hr : 0 < r.walkLimit) :
    0 < (r.configure body).walkLimit := by
  simp only [rackConfigRanges, Bool.and_eq_true] at h
  obtain ⟨⟨⟨_, h9⟩, _⟩, _⟩ := h
  show 0 < carried (field body 1 2) 9 (field body 22 2) r.walkLimit
  unfold carried
  split
  · rename_i hc
    simp only [carriedOk, hc, within, Bool.not_true, Bool.false_or, Bool.and_eq_true, decide_eq_true_eq] at h9
    omega
  · exact hr

theorem blocked_rackConfig (body : List Byte) : Blocked o (rackConfigBlock body) := by
  intro s
  unfold rackConfigBlock
  split
  · exact Moves.refl s
  · split
    · rename_i i _ h
      rw [Bool.and_eq_true] at h
      refine Moves.and (Moves.rack i _ ⟨rfl, ?_, id⟩ (Moves.refl s)) (moves_rackEnable i _ _ _)
      intro hw
      show Int.natAbs 0 < ((s.rack i).configure body).walkLimit
      rw [Int.natAbs_zero]
      exact configure_walkLimit body _ h.1 (by omega)
    · exact Moves.refl s

theorem blocked_rackLookup (body : List Byte) : Blocked o (rackLookupBlock body) := by
  intro s
  unfold rackLookupBlock
  split
  · exact Moves.refl s
  · rename_i i _
    exact (Moves.refl s).rack i (fun r => { r with changed := false }) ⟨rfl, id, id⟩

theorem blocked_rackClear (body : List Byte) : Blocked o (rackClearBlock body) := by
  intro s
  unfold rackClearBlock
  split
  · exact Moves.refl s
  · split
    · exact ((Moves.refl s).rack _ _ ⟨rfl, id, by intro h; cases h⟩).and (moves_rackChanged _ _)
    · exact Moves.refl s

theorem blocked_rackRebase (body : List Byte) : Blocked o (rackRebaseBlock body) := by
  intro s
  unfold rackRebaseBlock
  split
  · exact Moves.refl s
  · exact moves_updateAll _ .rebase s

theorem blocked_status (body : List Byte) : Blocked o (statusBlock body) := by
  intro s
  unfold statusBlock
  split
  · exact Moves.refl s
  · split
    · exact Moves.refl s
    · exact Moves.refl s

theorem moves_clearCauses (set : Byte) (s : State) : Moves o s (s.clearCauses set) :=
  (Move.port (fun p => { p with causes := p.causes &&& ~~~set }) s (Or.inr ⟨fun _ => rfl, fun _ => rfl, fun _ => rfl⟩)).one

theorem blocked_ack (body : List Byte) : Blocked o (ackBlock body) := fun s => moves_clearCauses _ s

theorem moves_setMask (set : Byte) (s : State) : Moves o s (s.setMask set) :=
  (Move.port (fun p => { p with mask := set }) s (Or.inr ⟨fun _ => rfl, fun _ => rfl, fun _ => rfl⟩)).one

theorem blocked_mask (body : List Byte) : Blocked o (maskBlock body) := fun s => moves_setMask _ s

theorem blocked_restart : Blocked o restartBlock := by
  intro s
  unfold restartBlock
  exact (((Move.restart s).one.and (moves_forAll12 State.lineRestart moves_lineRestart s.emptyTables)).port
    (fun p => { p with causes := 0, mask := 0 }) (Or.inr ⟨fun _ => rfl, fun _ => rfl, fun _ => rfl⟩))

/-! ### The commands -/

theorem requestOf_blocked (code : Nat) (body : List Byte) {lengths : List Nat} {block : State → Done}
    (ho : o.opens = true ∨ code ≠ 0x30) (h : requestOf code body = some (lengths, block)) : Blocked o block := by
  unfold requestOf at h
  split at h <;> cases h
  · exact blocked_refConfig body
  · exact blocked_setTime body
  · exact blocked_readTime
  · exact blocked_lineConfig body
  · exact blocked_lineQuiesce body
  · exact blocked_lineResume body
  · exact blocked_lineReset body
  · exact blocked_enroll body
  · exact blocked_lookup body
  · exact blocked_amend body
  · exact blocked_suspend body
  · exact blocked_resume body
  · exact blocked_retire body
  · exact blocked_scan body
  · exact blocked_newcomers
  · exact blocked_dismiss body
  · rcases ho with ho | ho
    · exact blocked_domainOpen ho body
    · exact absurd rfl ho
  · exact blocked_domainAmend body
  · exact blocked_domainFreeze body
  · exact blocked_domainThaw body
  · exact blocked_domainRetire body
  · exact blocked_domainLookup body
  · exact blocked_stamp body
  · exact blocked_rackConfig body
  · exact blocked_rackLookup body
  · exact blocked_rackClear body
  · exact blocked_rackRebase body
  · exact blocked_status body
  · exact blocked_ack body
  · exact blocked_mask body
  · exact blocked_restart

theorem moves_acceptFrame (hp : o.ports = true) (ho : o.opens = true) (code : Byte) (body : List Byte) (s : State) :
    Moves o s (s.acceptFrame code body) := by
  unfold State.acceptFrame
  split
  · rename_i h
    exact moves_carryOut hp _ _ _ (requestOf_blocked _ _ (Or.inl ho) h) s
  · exact (moves_enterExecuting hp s).and (moves_form hp code (refuse .unknownRequest s.enterExecuting))

theorem moves_takeWrite (hp : o.ports = true) (ho : o.opens = true) (first : Byte) (bytes : List Byte) (cut : Bool) (s : State) :
    Moves o s (s.takeWrite first bytes cut) := by
  unfold State.takeWrite
  split
  · exact moves_dropWrite s
  · split
    · exact moves_acceptFrame hp ho _ _ s
    · exact moves_holdBadFrame hp _ s
  · split
    · exact moves_acceptFrame hp ho _ _ s
    · exact moves_holdBadFrame hp _ s

theorem moves_takeBytes (hp : o.ports = true) (ho : o.opens = true) (bytes : List Byte) (cut : Bool) (s : State) :
    Moves o s (s.takeBytes bytes cut) := by
  unfold State.takeBytes
  split
  · exact Moves.refl s
  · split
    · exact moves_endRead hp _ s
    · exact moves_takeWrite hp ho _ _ _ s

theorem moves_transaction (hp : o.ports = true) (ho : o.opens = true) (bits : List Bool) (s : State) :
    Moves o s (s.transaction bits) :=
  moves_transfer hp _ (fun _ _ s => moves_takeBytes hp ho _ _ s) s

theorem moves_holdResponse (hp : o.ports = true) (s : State) : Moves o s s.holdResponse := by
  unfold State.holdResponse
  split
  · exact (Move.port _ s (Or.inl hp)).one
  · exact Moves.refl s

theorem moves_cycleIfDone (i : Fin 12) (s : State) : Moves o s (s.cycleIfDone i) := by
  unfold State.cycleIfDone
  split
  · exact moves_newCycle i s
  · exact Moves.refl s

theorem moves_replyWindowOver (i : Fin 12) (s : State) : Moves o s (s.replyWindowOver i) := by
  unfold State.replyWindowOver
  split
  · exact (Moves.refl s).line i _
  · exact moves_miss i s

theorem moves_discoveryWindowOver (i : Fin 12) (s : State) : Moves o s (s.discoveryWindowOver i) := by
  unfold State.discoveryWindowOver
  split
  · exact (Moves.refl s).line i _
  · exact moves_endDiscovery i s

theorem moves_resumeCycle (i : Fin 12) (s : State) : Moves o s (s.resumeCycle i) := by
  unfold State.resumeCycle
  split
  · exact (Moves.refl s).line i _
  · exact moves_newCycle i s

theorem moves_recover (i : Fin 12) (s : State) : Moves o s (s.recover i) :=
  (((Moves.refl s).line i _).and (moves_resumeCycle i _)).raise _

/-! #### The commands that may carry DOMAIN_OPEN -/

/-- The commands whose frame may be a DOMAIN_OPEN. -/
def mayOpen : Instr → Bool
  | .domainOpen .. => true
  | .badFrame .. => true
  | .overlap .. => true
  | .unknownRequest .. => true
  | _ => false

/-- The commands that take or end a transaction on the port, and HARD_RESET: those that may change the port's state. -/
def usesPort : Instr → Bool
  | .ppsEdge .. => false
  | .todMessage .. => false
  | .todGapTimeout .. => false
  | .lossDeadlineExpiry .. => false
  | .localSecondStart .. => false
  | .secondTick .. => false
  | .rackSweep .. => false
  | .periodElapsed .. => false
  | .pollSent .. => false
  | .replyHandoff .. => false
  | .pollingFrameFailed .. => false
  | .replyWindowEnd .. => false
  | .closeSent .. => false
  | .discoverSent .. => false
  | .announce .. => false
  | .discoveryCollision .. => false
  | .discoveryWindowEnd .. => false
  | .frameGapTimeout .. => false
  | .strayCharacter .. => false
  | .lineFault .. => false
  | .lineRecovery .. => false
  | .recoveryWatchRestart .. => false
  | _ => true

/-- What DOMAIN_OPEN does to the table of domains, where the other moves are those of every other command. -/
def Grows (s t : State) : Prop :=
  Moves ⟨false, true⟩ s t ∨ ∃ d : Domain, s.domain d.id = none ∧ d.lastIssued = none ∧ t.domains = s.domains ++ [d]

theorem Grows.post {s t u : State} (h : Grows s t) (m : Moves ⟨false, true⟩ t u) (e : u.domains = t.domains) : Grows s u := by
  rcases h with h | ⟨d, h1, h0, h2⟩
  · exact Or.inl (h.and m)
  · exact Or.inr ⟨d, h1, h0, by rw [e, h2]⟩

theorem Grows.pre {s t u : State} (m : Moves ⟨false, true⟩ s t) (e : t.domains = s.domains) (h : Grows t u) : Grows s u := by
  rcases h with h | ⟨d, h1, h0, h2⟩
  · exact Or.inl (m.and h)
  · refine Or.inr ⟨d, ?_, h0, by rw [h2, e]⟩
    rw [← h1]
    unfold State.domain
    rw [e]

/-- The fence changes a domain's state and freeze cause alone (R121). -/
theorem fence_kept (s : State) (d : Domain) :
    (s.fence d).id = d.id ∧ (s.fence d).lastIssued = d.lastIssued ∧ (s.fence d).grants = d.grants := by
  unfold State.fence
  split
  · split <;> exact ⟨rfl, rfl, rfl⟩
  · exact ⟨rfl, rfl, rfl⟩

/-- A block's work on the table of domains. -/
def GrowsBy (block : State → Done) : Prop := ∀ s, Grows s (block s).1

theorem growsBy_domainOpen (body : List Byte) : GrowsBy (domainOpenBlock body) := by
  intro s
  unfold domainOpenBlock
  split
  · split
    · exact Or.inl (Moves.refl s)
    · split
      · exact Or.inl (Moves.refl s)
      · rename_i h _
        refine Or.inr ⟨s.fence (newDomain body), ?_, (fence_kept s _).2.1, rfl⟩
        rw [(fence_kept s _).1]
        exact Option.not_isSome_iff_eq_none.1 h
  · exact Or.inl (Moves.refl s)

theorem requestOf_growsBy (code : Nat) (body : List Byte) {lengths : List Nat} {block : State → Done}
    (h : requestOf code body = some (lengths, block)) : GrowsBy block := by
  by_cases hc : code = 0x30
  · subst hc
    cases h
    exact growsBy_domainOpen body
  · exact fun s => Or.inl (requestOf_blocked (o := ⟨false, true⟩) code body (Or.inr hc) h s)

theorem grows_carryOut (code : Byte) (lengths : List Nat) (body : List Byte) {block : State → Done} (hb : GrowsBy block)
    (s : State) : Grows s (s.carryOut code lengths body block) := by
  unfold State.carryOut
  refine Grows.post (t := (if lengths.contains body.length then block s.enterExecuting
    else refuse .badField s.enterExecuting).1) ?_ (moves_form rfl _ _) rfl
  split
  · exact Grows.pre (moves_enterExecuting rfl s) rfl (hb _)
  · exact Or.inl (moves_enterExecuting rfl s)

theorem grows_takeRequest (code : Byte) (lengths : List Nat) (body : List Byte) {block : State → Done}
    (hb : GrowsBy block) (s : State) : Grows s (s.takeRequest code lengths body block) := by
  unfold State.takeRequest
  split
  · exact Or.inl (moves_dropWrite s)
  · split
    · exact Or.inl (moves_holdBadFrame rfl _ s)
    · exact grows_carryOut _ _ _ hb s
  · split
    · exact Or.inl (moves_holdBadFrame rfl _ s)
    · exact grows_carryOut _ _ _ hb s

theorem grows_transfer (bits : List Bool) {take : List Byte → Bool → State → State}
    (h : ∀ bytes cut s, Grows s (take bytes cut s)) (s : State) : Grows s (s.transfer bits take) := by
  unfold State.transfer State.unlessIgnored
  split
  · exact Or.inl ((Moves.refl s).port _ (Or.inl rfl))
  · exact Grows.pre (moves_deselect rfl _ s) rfl (h _ _ _)

theorem grows_request (code : Byte) (lengths : List Nat) (body : List Byte) {block : State → Done} (hb : GrowsBy block)
    (s : State) : Grows s (s.request code lengths body block) :=
  grows_transfer _ (fun _ _ s => grows_takeRequest _ _ _ hb s) s

theorem grows_acceptFrame (code : Byte) (body : List Byte) (s : State) : Grows s (s.acceptFrame code body) := by
  unfold State.acceptFrame
  split
  · rename_i h
    exact grows_carryOut _ _ _ (requestOf_growsBy _ _ h) s
  · exact Or.inl ((moves_enterExecuting rfl s).and (moves_form rfl code (refuse .unknownRequest s.enterExecuting)))

theorem grows_takeWrite (first : Byte) (bytes : List Byte) (cut : Bool) (s : State) :
    Grows s (s.takeWrite first bytes cut) := by
  unfold State.takeWrite
  split
  · exact Or.inl (moves_dropWrite s)
  · split
    · exact grows_acceptFrame _ _ s
    · exact Or.inl (moves_holdBadFrame rfl _ s)
  · split
    · exact grows_acceptFrame _ _ s
    · exact Or.inl (moves_holdBadFrame rfl _ s)

theorem grows_transaction (bits : List Bool) (s : State) : Grows s (s.transaction bits) := by
  refine grows_transfer _ (fun bytes cut s => ?_) s
  unfold State.takeBytes
  split
  · exact Or.inl (Moves.refl s)
  · split
    · exact Or.inl (moves_endRead rfl _ s)
    · exact grows_takeWrite _ _ _ s

/-- Every command answers a next state, which a list of moves reaches. -/
theorem exec_moves (c : Instr) (s : State) (ho : o.opens = true ∨ mayOpen c = false)
    (hp : o.ports = true ∨ usesPort c = false) : ∃ t, exec c s = .next t ∧ Moves o s t := by
  have adv := fun dt => moves_advance (o := o) dt s
  have atn := fun n => moves_advance (o := o) (n - s.localNs) s
  cases c <;> dsimp only [exec]
  case hardReset csLow =>
    rcases hp with hp | hp
    · exact ⟨_, rfl, (Move.hardReset csLow s hp).one⟩
    · cases hp
  case ppsEdge ch dt => exact ⟨_, rfl, (adv dt).and (moves_takeEdge ch _)⟩
  case todMessage ch dt vs => exact ⟨_, rfl, (adv dt).and (moves_todSamples ch vs _)⟩
  case todGapTimeout ch =>
    unfold execTodGapTimeout
    split
    · exact ⟨_, rfl, (atn _).and (moves_todGap ch _)⟩
    · exact ⟨_, rfl, Moves.refl s⟩
  case lossDeadlineExpiry ch =>
    unfold execLossDeadlineExpiry
    split
    · exact ⟨_, rfl, Moves.refl s⟩
    · rename_i h
      exact ⟨_, rfl, (atn _).and (moves_loseChan ch _ (by
        rw [show s.advance _ = s.advanceTo _ from rfl, advanceTo_chan, h]
        exact Option.some_ne_none _))⟩
  case localSecondStart => exact ⟨_, rfl, (moves_reachStart s).and (moves_takeStart _)⟩
  case secondTick => exact ⟨_, rfl, (moves_reachTick s).and (moves_takeTick _)⟩
  case rackSweep i =>
    unfold execRackSweep
    refine ⟨_, rfl, ?_⟩
    split
    · exact moves_sweep i s
    · exact Moves.refl s
  case periodElapsed i =>
    unfold execPeriodElapsed
    split
    · exact ⟨_, rfl, Moves.refl s⟩
    · exact ⟨_, rfl, ((atn _).line i _).and (moves_cycleIfDone i _)⟩
  case pollSent i =>
    unfold execPollSent
    split
    · exact ⟨_, rfl, (atn _).line i _⟩
    · exact ⟨_, rfl, Moves.refl s⟩
  case replyHandoff i dt vs => exact ⟨_, rfl, (adv dt).and (moves_samples i vs _)⟩
  case pollingFrameFailed i dt vs => exact ⟨_, rfl, (adv dt).and (moves_samples i vs _)⟩
  case replyWindowEnd i =>
    unfold execReplyWindowEnd
    split
    · exact ⟨_, rfl, (atn _).and (moves_replyWindowOver i _)⟩
    · exact ⟨_, rfl, Moves.refl s⟩
  case closeSent i =>
    unfold execCloseSent
    split
    · exact ⟨_, rfl, (((atn _).line i _).and (moves_endTransaction i _ _)).and (moves_afterEnd i _)⟩
    · exact ⟨_, rfl, Moves.refl s⟩
  case discoverSent i =>
    unfold execDiscoverSent
    split
    · exact ⟨_, rfl, (atn _).line i _⟩
    · exact ⟨_, rfl, Moves.refl s⟩
  case announce i dt vs => exact ⟨_, rfl, (adv dt).and (moves_samples i vs _)⟩
  case discoveryCollision i dt vs => exact ⟨_, rfl, (adv dt).and (moves_samples i vs _)⟩
  case discoveryWindowEnd i =>
    unfold execDiscoveryWindowEnd
    split
    · exact ⟨_, rfl, (atn _).and (moves_discoveryWindowOver i _)⟩
    · exact ⟨_, rfl, Moves.refl s⟩
  case frameGapTimeout i =>
    unfold execFrameGapTimeout
    split
    · exact ⟨_, rfl, Moves.refl s⟩
    · exact ⟨_, rfl, (atn _).and (moves_frameEnded i _ _)⟩
  case strayCharacter i dt vs => exact ⟨_, rfl, (adv dt).and (moves_samples i vs _)⟩
  case lineFault i x => exact ⟨_, rfl, (adv x.dt).and (moves_samples i x.levels _)⟩
  case lineRecovery i dt =>
    unfold execLineRecovery
    split
    · exact ⟨_, rfl, adv dt⟩
    · exact ⟨_, rfl, ((adv dt).and (moves_advance _ _)).and (moves_recover i _)⟩
  case badFrame dt bytes rest =>
    rcases hp with hp | hp
    · rcases ho with ho | ho
      · exact ⟨_, rfl, (adv dt).and (moves_transaction hp ho _ _)⟩
      · cases ho
    · cases hp
  case overlap dt bytes rest =>
    rcases hp with hp | hp
    · rcases ho with ho | ho
      · exact ⟨_, rfl, (adv dt).and (moves_transaction hp ho _ _)⟩
      · cases ho
    · cases hp
  case unknownRequest dt code body =>
    rcases hp with hp | hp
    · rcases ho with ho | ho
      · exact ⟨_, rfl, (adv dt).and (moves_transaction hp ho _ _)⟩
      · cases ho
    · cases hp
  case responseFormed dt =>
    rcases hp with hp | hp
    · exact ⟨_, rfl, (adv dt).and (moves_holdResponse hp _)⟩
    · cases hp
  case responseRead dt n =>
    rcases hp with hp | hp
    · exact ⟨_, rfl, (adv dt).and (moves_transfer hp _ (fun _ _ s => moves_endRead hp _ s) _)⟩
    · cases hp
  case refConfig dt body =>
    rcases hp with hp | hp
    · exact ⟨_, rfl, (adv dt).and (moves_request hp _ _ _ (blocked_refConfig body) _)⟩
    · cases hp
  case setTime dt body =>
    rcases hp with hp | hp
    · exact ⟨_, rfl, (adv dt).and (moves_request hp _ _ _ (blocked_setTime body) _)⟩
    · cases hp
  case readTime dt body =>
    rcases hp with hp | hp
    · exact ⟨_, rfl, (adv dt).and (moves_request hp _ _ body blocked_readTime _)⟩
    · cases hp
  case lineConfig dt body =>
    rcases hp with hp | hp
    · exact ⟨_, rfl, (adv dt).and (moves_request hp _ _ _ (blocked_lineConfig body) _)⟩
    · cases hp
  case lineQuiesce dt body =>
    rcases hp with hp | hp
    · exact ⟨_, rfl, (adv dt).and (moves_request hp _ _ _ (blocked_lineQuiesce body) _)⟩
    · cases hp
  case lineResume dt body =>
    rcases hp with hp | hp
    · exact ⟨_, rfl, (adv dt).and (moves_request hp _ _ _ (blocked_lineResume body) _)⟩
    · cases hp
  case lineReset dt body =>
    rcases hp with hp | hp
    · exact ⟨_, rfl, (adv dt).and (moves_request hp _ _ _ (blocked_lineReset body) _)⟩
    · cases hp
  case enroll dt body =>
    rcases hp with hp | hp
    · exact ⟨_, rfl, (adv dt).and (moves_request hp _ _ _ (blocked_enroll body) _)⟩
    · cases hp
  case lookup dt body =>
    rcases hp with hp | hp
    · exact ⟨_, rfl, (adv dt).and (moves_request hp _ _ _ (blocked_lookup body) _)⟩
    · cases hp
  case amend dt body =>
    rcases hp with hp | hp
    · exact ⟨_, rfl, (adv dt).and (moves_request hp _ _ _ (blocked_amend body) _)⟩
    · cases hp
  case suspend dt body =>
    rcases hp with hp | hp
    · exact ⟨_, rfl, (adv dt).and (moves_request hp _ _ _ (blocked_suspend body) _)⟩
    · cases hp
  case resume dt body =>
    rcases hp with hp | hp
    · exact ⟨_, rfl, (adv dt).and (moves_request hp _ _ _ (blocked_resume body) _)⟩
    · cases hp
  case retire dt body =>
    rcases hp with hp | hp
    · exact ⟨_, rfl, (adv dt).and (moves_request hp _ _ _ (blocked_retire body) _)⟩
    · cases hp
  case scan dt body =>
    rcases hp with hp | hp
    · exact ⟨_, rfl, (adv dt).and (moves_request hp _ _ _ (blocked_scan body) _)⟩
    · cases hp
  case newcomers dt body =>
    rcases hp with hp | hp
    · exact ⟨_, rfl, (adv dt).and (moves_request hp _ _ body blocked_newcomers _)⟩
    · cases hp
  case dismiss dt body =>
    rcases hp with hp | hp
    · exact ⟨_, rfl, (adv dt).and (moves_request hp _ _ _ (blocked_dismiss body) _)⟩
    · cases hp
  case domainOpen dt body =>
    rcases hp with hp | hp
    · rcases ho with ho | ho
      · exact ⟨_, rfl, (adv dt).and (moves_request hp _ _ _ (blocked_domainOpen ho body) _)⟩
      · cases ho
    · cases hp
  case domainAmend dt body =>
    rcases hp with hp | hp
    · exact ⟨_, rfl, (adv dt).and (moves_request hp _ _ _ (blocked_domainAmend body) _)⟩
    · cases hp
  case domainFreeze dt body =>
    rcases hp with hp | hp
    · exact ⟨_, rfl, (adv dt).and (moves_request hp _ _ _ (blocked_domainFreeze body) _)⟩
    · cases hp
  case domainThaw dt body =>
    rcases hp with hp | hp
    · exact ⟨_, rfl, (adv dt).and (moves_request hp _ _ _ (blocked_domainThaw body) _)⟩
    · cases hp
  case domainRetire dt body =>
    rcases hp with hp | hp
    · exact ⟨_, rfl, (adv dt).and (moves_request hp _ _ _ (blocked_domainRetire body) _)⟩
    · cases hp
  case domainLookup dt body =>
    rcases hp with hp | hp
    · exact ⟨_, rfl, (adv dt).and (moves_request hp _ _ _ (blocked_domainLookup body) _)⟩
    · cases hp
  case stamp dt body =>
    rcases hp with hp | hp
    · exact ⟨_, rfl, (adv dt).and (moves_request hp _ _ _ (blocked_stamp body) _)⟩
    · cases hp
  case rackConfig dt body =>
    rcases hp with hp | hp
    · exact ⟨_, rfl, (adv dt).and (moves_request hp _ _ _ (blocked_rackConfig body) _)⟩
    · cases hp
  case rackLookup dt body =>
    rcases hp with hp | hp
    · exact ⟨_, rfl, (adv dt).and (moves_request hp _ _ _ (blocked_rackLookup body) _)⟩
    · cases hp
  case rackClear dt body =>
    rcases hp with hp | hp
    · exact ⟨_, rfl, (adv dt).and (moves_request hp _ _ _ (blocked_rackClear body) _)⟩
    · cases hp
  case rackRebase dt body =>
    rcases hp with hp | hp
    · exact ⟨_, rfl, (adv dt).and (moves_request hp _ _ _ (blocked_rackRebase body) _)⟩
    · cases hp
  case status dt body =>
    rcases hp with hp | hp
    · exact ⟨_, rfl, (adv dt).and (moves_request hp _ _ _ (blocked_status body) _)⟩
    · cases hp
  case ack dt body =>
    rcases hp with hp | hp
    · exact ⟨_, rfl, (adv dt).and (moves_request hp _ _ _ (blocked_ack body) _)⟩
    · cases hp
  case mask dt body =>
    rcases hp with hp | hp
    · exact ⟨_, rfl, (adv dt).and (moves_request hp _ _ _ (blocked_mask body) _)⟩
    · cases hp
  case restart dt body =>
    rcases hp with hp | hp
    · exact ⟨_, rfl, (adv dt).and (moves_request hp _ _ body blocked_restart _)⟩
    · cases hp
  case recoveryWatchRestart i x => exact ⟨_, rfl, (adv x.dt).and (moves_samples i x.levels _)⟩

/-- What every command does to the table of domains. -/
theorem exec_grows {c : Instr} {s t : State} (e : exec c s = .next t) : Grows s t := by
  cases hc : mayOpen c
  · obtain ⟨u, hu, m⟩ := exec_moves (o := ⟨false, true⟩) c s (Or.inr hc) (Or.inl rfl)
    rw [hu] at e
    cases e
    exact Or.inl m
  · cases c <;> cases hc <;> cases e
    · exact Grows.pre (moves_advance _ s) (advance_domains ..) (grows_transaction _ _)
    · exact Grows.pre (moves_advance _ s) (advance_domains ..) (grows_transaction _ _)
    · exact Grows.pre (moves_advance _ s) (advance_domains ..) (grows_transaction _ _)
    · exact Grows.pre (moves_advance _ s) (advance_domains ..) (grows_request _ _ _ (growsBy_domainOpen _) _)

/-- What every move keeps, every command keeps. -/
theorem exec_keeps {P : State → Prop} (h : ∀ s t, Move ⟨true, true⟩ s t → P s → P t) {c : Instr} {s t : State}
    (e : exec c s = .next t) : P s → P t := by
  obtain ⟨u, hu, m⟩ := exec_moves (o := ⟨true, true⟩) c s (Or.inl rfl) (Or.inl rfl)
  have : u = t := by
    rw [hu] at e
    exact Host.Outcome.next.inj e
  subst this
  exact m.keeps h

/-- What every move keeps and the queue does not touch, every step keeps. -/
theorem step_keeps {P : State → Prop} (h : ∀ s t, Move ⟨true, true⟩ s t → P s → P t)
    (q : ∀ s cs, P s → P { s with pending := cs }) {s t : State} (e : step s = .next t) : P s → P t := by
  intro hs
  unfold step at e
  split at e
  · cases e
    exact hs
  · exact exec_keeps h e (q s _ hs)

end Sys2Proof.Machine
end

