-- ==== Sys2Proof/Laws/Records.lean ====
section
/-! SUPPORT. The table operations, said once: what a change, a removal or a creation of a record leaves of the state, and
what it makes of the table; and a rule for properties that hold of every record. -/

namespace Sys2Proof.Machine

open Sys2Proof

/-! ### A report to DWU changes the racks alone (R69, R152) -/

@[simp] theorem report_localNs (i : Fin 12) (a b : Option RecState) (s : State) : (s.report i a b).localNs = s.localNs := by
  cases a <;> cases b <;> rfl
@[simp] theorem report_due (i : Fin 12) (a b : Option RecState) (s : State) : (s.report i a b).due = s.due := by
  cases a <;> cases b <;> rfl
@[simp] theorem report_chanA (i : Fin 12) (a b : Option RecState) (s : State) : (s.report i a b).chanA = s.chanA := by
  cases a <;> cases b <;> rfl
@[simp] theorem report_chanB (i : Fin 12) (a b : Option RecState) (s : State) : (s.report i a b).chanB = s.chanB := by
  cases a <;> cases b <;> rfl
@[simp] theorem report_clk (i : Fin 12) (a b : Option RecState) (s : State) : (s.report i a b).clk = s.clk := by
  cases a <;> cases b <;> rfl
@[simp] theorem report_newcomers (i : Fin 12) (a b : Option RecState) (s : State) : (s.report i a b).newcomers = s.newcomers := by
  cases a <;> cases b <;> rfl
@[simp] theorem report_overflow (i : Fin 12) (a b : Option RecState) (s : State) : (s.report i a b).overflow = s.overflow := by
  cases a <;> cases b <;> rfl
@[simp] theorem report_domains (i : Fin 12) (a b : Option RecState) (s : State) : (s.report i a b).domains = s.domains := by
  cases a <;> cases b <;> rfl
@[simp] theorem report_port (i : Fin 12) (a b : Option RecState) (s : State) : (s.report i a b).port = s.port := by
  cases a <;> cases b <;> rfl
@[simp] theorem report_freeCount (i : Fin 12) (a b : Option RecState) (s : State) : (s.report i a b).freeCount = s.freeCount := by
  cases a <;> cases b <;> rfl
@[simp] theorem report_pending (i : Fin 12) (a b : Option RecState) (s : State) : (s.report i a b).pending = s.pending := by
  cases a <;> cases b <;> rfl
@[simp] theorem report_records (i : Fin 12) (a b : Option RecState) (s : State) : (s.report i a b).records = s.records := by
  cases a <;> cases b <;> rfl
@[simp] theorem report_lines (i : Fin 12) (a b : Option RecState) (s : State) : (s.report i a b).lines = s.lines := by
  cases a <;> cases b <;> rfl

/-! ### A record's change, removal and creation -/

@[simp] theorem reportChange_localNs (a b : Endpoint) (s : State) : (s.reportChange a b).localNs = s.localNs := by
  unfold State.reportChange State.reportPollable State.reportState
  split <;> split <;> simp
@[simp] theorem reportChange_due (a b : Endpoint) (s : State) : (s.reportChange a b).due = s.due := by
  unfold State.reportChange State.reportPollable State.reportState
  split <;> split <;> simp
@[simp] theorem reportChange_chanA (a b : Endpoint) (s : State) : (s.reportChange a b).chanA = s.chanA := by
  unfold State.reportChange State.reportPollable State.reportState
  split <;> split <;> simp
@[simp] theorem reportChange_chanB (a b : Endpoint) (s : State) : (s.reportChange a b).chanB = s.chanB := by
  unfold State.reportChange State.reportPollable State.reportState
  split <;> split <;> simp
@[simp] theorem reportChange_clk (a b : Endpoint) (s : State) : (s.reportChange a b).clk = s.clk := by
  unfold State.reportChange State.reportPollable State.reportState
  split <;> split <;> simp
@[simp] theorem reportChange_newcomers (a b : Endpoint) (s : State) : (s.reportChange a b).newcomers = s.newcomers := by
  unfold State.reportChange State.reportPollable State.reportState
  split <;> split <;> simp
@[simp] theorem reportChange_overflow (a b : Endpoint) (s : State) : (s.reportChange a b).overflow = s.overflow := by
  unfold State.reportChange State.reportPollable State.reportState
  split <;> split <;> simp
@[simp] theorem reportChange_domains (a b : Endpoint) (s : State) : (s.reportChange a b).domains = s.domains := by
  unfold State.reportChange State.reportPollable State.reportState
  split <;> split <;> simp
@[simp] theorem reportChange_port (a b : Endpoint) (s : State) : (s.reportChange a b).port = s.port := by
  unfold State.reportChange State.reportPollable State.reportState
  split <;> split <;> simp
@[simp] theorem reportChange_freeCount (a b : Endpoint) (s : State) : (s.reportChange a b).freeCount = s.freeCount := by
  unfold State.reportChange State.reportPollable State.reportState
  split <;> split <;> simp
@[simp] theorem reportChange_pending (a b : Endpoint) (s : State) : (s.reportChange a b).pending = s.pending := by
  unfold State.reportChange State.reportPollable State.reportState
  split <;> split <;> simp
@[simp] theorem reportChange_records (a b : Endpoint) (s : State) : (s.reportChange a b).records = s.records := by
  unfold State.reportChange State.reportPollable State.reportState
  split <;> split <;> simp
@[simp] theorem updateRecord_localNs (n : Nat) (f : Endpoint → Endpoint) (s : State) : (s.updateRecord n f).localNs = s.localNs := by
  unfold State.updateRecord
  split <;> simp
@[simp] theorem updateRecord_due (n : Nat) (f : Endpoint → Endpoint) (s : State) : (s.updateRecord n f).due = s.due := by
  unfold State.updateRecord
  split <;> simp
@[simp] theorem removeRecord_localNs (n : Nat) (s : State) : (s.removeRecord n).localNs = s.localNs := by
  unfold State.removeRecord
  split <;> simp
@[simp] theorem removeRecord_due (n : Nat) (s : State) : (s.removeRecord n).due = s.due := by
  unfold State.removeRecord
  split <;> simp
@[simp] theorem addRecord_localNs (r : Endpoint) (s : State) : (s.addRecord r).localNs = s.localNs := report_localNs ..
@[simp] theorem addRecord_due (r : Endpoint) (s : State) : (s.addRecord r).due = s.due := report_due ..
@[simp] theorem updateRecord_chanA (n : Nat) (f : Endpoint → Endpoint) (s : State) : (s.updateRecord n f).chanA = s.chanA := by
  unfold State.updateRecord
  split <;> simp
@[simp] theorem removeRecord_chanA (n : Nat) (s : State) : (s.removeRecord n).chanA = s.chanA := by
  unfold State.removeRecord
  split <;> simp
@[simp] theorem addRecord_chanA (r : Endpoint) (s : State) : (s.addRecord r).chanA = s.chanA := report_chanA ..
@[simp] theorem updateRecord_chanB (n : Nat) (f : Endpoint → Endpoint) (s : State) : (s.updateRecord n f).chanB = s.chanB := by
  unfold State.updateRecord
  split <;> simp
@[simp] theorem removeRecord_chanB (n : Nat) (s : State) : (s.removeRecord n).chanB = s.chanB := by
  unfold State.removeRecord
  split <;> simp
@[simp] theorem addRecord_chanB (r : Endpoint) (s : State) : (s.addRecord r).chanB = s.chanB := report_chanB ..
@[simp] theorem updateRecord_clk (n : Nat) (f : Endpoint → Endpoint) (s : State) : (s.updateRecord n f).clk = s.clk := by
  unfold State.updateRecord
  split <;> simp
@[simp] theorem removeRecord_clk (n : Nat) (s : State) : (s.removeRecord n).clk = s.clk := by
  unfold State.removeRecord
  split <;> simp
@[simp] theorem addRecord_clk (r : Endpoint) (s : State) : (s.addRecord r).clk = s.clk := report_clk ..
@[simp] theorem updateRecord_newcomers (n : Nat) (f : Endpoint → Endpoint) (s : State) :
    (s.updateRecord n f).newcomers = s.newcomers := by
  unfold State.updateRecord
  split <;> simp
@[simp] theorem removeRecord_newcomers (n : Nat) (s : State) : (s.removeRecord n).newcomers = s.newcomers := by
  unfold State.removeRecord
  split <;> simp
@[simp] theorem addRecord_newcomers (r : Endpoint) (s : State) : (s.addRecord r).newcomers = s.newcomers := report_newcomers ..
@[simp] theorem updateRecord_overflow (n : Nat) (f : Endpoint → Endpoint) (s : State) : (s.updateRecord n f).overflow = s.overflow := by
  unfold State.updateRecord
  split <;> simp
@[simp] theorem removeRecord_overflow (n : Nat) (s : State) : (s.removeRecord n).overflow = s.overflow := by
  unfold State.removeRecord
  split <;> simp
@[simp] theorem addRecord_overflow (r : Endpoint) (s : State) : (s.addRecord r).overflow = s.overflow := report_overflow ..
@[simp] theorem updateRecord_domains (n : Nat) (f : Endpoint → Endpoint) (s : State) : (s.updateRecord n f).domains = s.domains := by
  unfold State.updateRecord
  split <;> simp
@[simp] theorem removeRecord_domains (n : Nat) (s : State) : (s.removeRecord n).domains = s.domains := by
  unfold State.removeRecord
  split <;> simp
@[simp] theorem addRecord_domains (r : Endpoint) (s : State) : (s.addRecord r).domains = s.domains := report_domains ..
@[simp] theorem updateRecord_port (n : Nat) (f : Endpoint → Endpoint) (s : State) : (s.updateRecord n f).port = s.port := by
  unfold State.updateRecord
  split <;> simp
@[simp] theorem removeRecord_port (n : Nat) (s : State) : (s.removeRecord n).port = s.port := by
  unfold State.removeRecord
  split <;> simp
@[simp] theorem addRecord_port (r : Endpoint) (s : State) : (s.addRecord r).port = s.port := report_port ..
@[simp] theorem updateRecord_freeCount (n : Nat) (f : Endpoint → Endpoint) (s : State) :
    (s.updateRecord n f).freeCount = s.freeCount := by
  unfold State.updateRecord
  split <;> simp
@[simp] theorem removeRecord_freeCount (n : Nat) (s : State) : (s.removeRecord n).freeCount = s.freeCount := by
  unfold State.removeRecord
  split <;> simp
@[simp] theorem addRecord_freeCount (r : Endpoint) (s : State) : (s.addRecord r).freeCount = s.freeCount := report_freeCount ..
@[simp] theorem updateRecord_pending (n : Nat) (f : Endpoint → Endpoint) (s : State) : (s.updateRecord n f).pending = s.pending := by
  unfold State.updateRecord
  split <;> simp
@[simp] theorem removeRecord_pending (n : Nat) (s : State) : (s.removeRecord n).pending = s.pending := by
  unfold State.removeRecord
  split <;> simp
@[simp] theorem addRecord_pending (r : Endpoint) (s : State) : (s.addRecord r).pending = s.pending := report_pending ..

/-- The record found in a slot is in the table, under that slot. -/
theorem bySlot_spec {s : State} {n : Nat} {r : Endpoint} (h : s.bySlot n = some r) : r ∈ s.records ∧ r.slot = n := by
  unfold State.bySlot at h
  exact ⟨List.mem_of_find?_eq_some h, by simpa using List.find?_some h⟩

theorem updateRecord_records (slot : Nat) (f : Endpoint → Endpoint) (s : State) :
    (s.updateRecord slot f).records = match s.bySlot slot with
      | none => s.records
      | some r => s.records.map (fun x => if x.slot == slot then r.keepKey (f r) else x) := by
  cases h : s.bySlot slot <;> simp [State.updateRecord, State.putRecord, h]

theorem removeRecord_records (slot : Nat) (s : State) :
    (s.removeRecord slot).records = match s.bySlot slot with
      | none => s.records
      | some _ => s.records.filter (fun x => x.slot != slot) := by
  cases h : s.bySlot slot <;> simp [State.removeRecord, h]

theorem addRecord_records (r : Endpoint) (s : State) : (s.addRecord r).records = insertRecord r s.records :=
  report_records ..

theorem mem_insertRecord {r q : Endpoint} {l : List Endpoint} : q ∈ insertRecord r l ↔ q = r ∨ q ∈ l := by
  induction l with
  | nil => simp [insertRecord]
  | cons a l ih =>
    unfold insertRecord
    split
    · simp
    · simp only [List.mem_cons, ih]
      exact or_left_comm

/-- A property of every record is kept by a change of one record that keeps it. -/
theorem forall_updateRecord {P : Endpoint → Prop} (slot : Nat) (f : Endpoint → Endpoint) (s : State)
    (hf : ∀ r, P r → P (r.keepKey (f r))) (h : ∀ r ∈ s.records, P r) : ∀ r ∈ (s.updateRecord slot f).records, P r := by
  rw [updateRecord_records]
  split
  · exact h
  · rename_i r hr
    intro q hq
    rw [List.mem_map] at hq
    obtain ⟨x, hx, rfl⟩ := hq
    split
    · exact hf r (h r (bySlot_spec hr).1)
    · exact h x hx

/-- A property of every record is kept by every move when each rule of a record keeps it and a record starts with it. -/
theorem move_records {P : Endpoint → Prop} (rule : ∀ f, RecordRule f → ∀ r, P r → P (r.keepKey (f r)))
    (cls : ∀ r n, P r → P { r with cycleClass := n }) (new : ∀ r : Endpoint, r.ackSeq = r.cmdSeq → r.slot ≤ 511 → P r)
    {o : Kinds} {s t : State} (m : Move o s t) (h : ∀ r ∈ s.records, P r) : ∀ r ∈ t.records, P r := by
  cases m with
  | port => exact h
  | refs => exact h
  | time => exact h
  | fill => exact h
  | latches => exact h
  | line => exact h
  | newcomers => exact h
  | record slot f _ hf => exact forall_updateRecord slot f s (rule f hf) h
  | classes i =>
    intro r hr
    unfold State.takeClasses at hr
    simp only [List.mem_map] at hr
    obtain ⟨x, hx, rfl⟩ := hr
    split
    · exact cls x _ (h x hx)
    · exact h x hx
  | remove slot =>
    rw [removeRecord_records]
    split
    · exact h
    · exact fun r hr => h r (List.mem_filter.1 hr).1
  | add r _ hs hb hk hq =>
    rw [addRecord_records]
    intro q hq'
    rcases mem_insertRecord.1 hq' with h' | h'
    · subst h'
      exact new _ hq hb
    · exact h q h'
  | rack => exact h
  | alarm i c => unfold State.alarmNotice; split <;> exact h
  | stampHost => exact h
  | stampLine slot ev t4 id n =>
    unfold State.stampLine
    split
    · exact h
    · exact forall_updateRecord _ _ _ (rule _ (.answer _)) h
  | settle => exact h
  | drop => exact h
  | opened => exact h
  | amended => exact h
  | frozen => exact h
  | thawed => exact h
  | retired => exact h
  | restart => intro r hr; cases hr
  | hardReset => intro r hr; cases hr

end Sys2Proof.Machine
end

