-- ==== Sys2Proof/Laws/Cycle.lean ====
section
/-! SUPPORT. What a cycle start and the going on of a cycle do, said once. -/

namespace Sys2Proof.Machine

open Sys2Proof

/-- A change of a record that leaves its state and its being pollable makes no report: it changes the table alone. -/
theorem updateRecord_calm (slot : Nat) (f : Endpoint → Endpoint) (s : State) {r : Endpoint} (h : s.bySlot slot = some r)
    (st : (f r).state = r.state) (wd : (f r).withdrawal = r.withdrawal) :
    s.updateRecord slot f = s.putRecord slot (r.keepKey (f r)) := by
  have hp : (r.keepKey (f r)).pollable = r.pollable := by
    unfold Endpoint.pollable Endpoint.keepKey
    simp only [st, wd]
  have hs : (r.keepKey (f r)).state = r.state := st
  unfold State.updateRecord
  simp only [h]
  unfold State.reportChange State.reportPollable State.reportState
  simp [hp, hs]

theorem Line.GoneOn.refl (l : Line) : Line.GoneOn l l :=
  ⟨rfl, rfl, rfl, rfl, ⟨rfl, rfl⟩, Or.inr (Or.inr (Or.inr rfl)), rfl, rfl, rfl, ⟨rfl, rfl⟩,
    ⟨rfl, rfl, rfl, rfl, rfl, rfl, rfl, rfl, rfl⟩⟩

theorem Line.goneOn_reach (k : Nat) (l : Line) : Line.GoneOn l (l.reach k) :=
  ⟨rfl, rfl, rfl, rfl, ⟨rfl, rfl⟩, Or.inr (Or.inr (Or.inr rfl)), rfl, rfl, rfl, ⟨rfl, rfl⟩,
    ⟨rfl, rfl, rfl, rfl, rfl, rfl, rfl, rfl, rfl⟩⟩

theorem Line.goneOn_listOver (l : Line) : Line.GoneOn l l.listOver :=
  ⟨rfl, rfl, rfl, rfl, ⟨rfl, rfl⟩, Or.inl rfl, rfl, rfl, rfl, ⟨rfl, rfl⟩,
    ⟨rfl, rfl, rfl, rfl, rfl, rfl, rfl, rfl, rfl⟩⟩

theorem Line.goneOn_toUrgent (l : Line) : Line.GoneOn l l.toUrgent :=
  ⟨rfl, rfl, rfl, rfl, ⟨rfl, rfl⟩, Or.inr (Or.inr (Or.inr rfl)), rfl, rfl, rfl, ⟨rfl, rfl⟩,
    ⟨rfl, rfl, rfl, rfl, rfl, rfl, rfl, rfl, rfl⟩⟩

theorem Line.goneOn_rest (l : Line) : Line.GoneOn l l.rest :=
  ⟨rfl, rfl, rfl, rfl, ⟨rfl, rfl⟩, Or.inl rfl, rfl, rfl, rfl, ⟨rfl, rfl⟩,
    ⟨rfl, rfl, rfl, rfl, rfl, rfl, rfl, rfl, rfl⟩⟩

/-- What the records of a table keep when only in-transaction marks and cycle base classes differ. -/
abbrev Endpoint.plain (r : Endpoint) : Endpoint := { r with inTxn := false, cycleClass := 0 }

theorem slotsRise_of_plain {s t : State} (h : t.records.map Endpoint.plain = s.records.map Endpoint.plain)
    (k : s.SlotsRise) : t.SlotsRise := by
  have e : t.records.map Endpoint.slot = s.records.map Endpoint.slot := by
    have := congrArg (List.map Endpoint.slot) h
    rwa [List.map_map, List.map_map] at this
  have p : ∀ u : State, u.SlotsRise ↔ (u.records.map Endpoint.slot).Pairwise (· < ·) ∧
      ∀ n ∈ u.records.map Endpoint.slot, n ≤ 511 := by
    intro u
    unfold State.SlotsRise
    rw [List.pairwise_map]
    simp
  rw [p] at k ⊢
  rwa [e]

theorem State.CycleKept.refl (s : State) : s.CycleKept s :=
  ⟨⟨rfl, rfl⟩, ⟨rfl, rfl⟩, rfl, fun _ => rfl, ⟨rfl, rfl⟩, rfl, rfl, rfl, ⟨rfl, rfl⟩⟩

theorem State.CycleKept.trans {s t u : State} (h : s.CycleKept t) (k : t.CycleKept u) : s.CycleKept u :=
  ⟨⟨k.now.1.trans h.now.1, k.now.2.trans h.now.2⟩, ⟨k.chans.1.trans h.chans.1, k.chans.2.trans h.chans.2⟩, k.clk.trans h.clk,
    fun x => (k.records (slotsRise_of_plain (h.records x) x)).trans (h.records x),
    ⟨k.newcomers.1.trans h.newcomers.1, k.newcomers.2.trans h.newcomers.2⟩,
    k.domains.trans h.domains, k.racks.trans h.racks, k.port.trans h.port,
    ⟨k.queue.1.trans h.queue.1, k.queue.2.trans h.queue.2⟩⟩

theorem cycleKept_modLine (i : Fin 12) (f : Line → Line) (s : State) : s.CycleKept (s.modLine i f) :=
  ⟨⟨rfl, rfl⟩, ⟨rfl, rfl⟩, rfl, fun _ => rfl, ⟨rfl, rfl⟩, rfl, rfl, rfl, ⟨rfl, rfl⟩⟩

theorem cycleKept_takeClasses (i : Fin 12) (s : State) : s.CycleKept (s.takeClasses i) := by
  refine ⟨⟨rfl, rfl⟩, ⟨rfl, rfl⟩, rfl, fun _ => ?_, ⟨rfl, rfl⟩, rfl, rfl, rfl, ⟨rfl, rfl⟩⟩
  unfold State.takeClasses
  rw [List.map_map]
  refine List.map_congr_left (fun r _ => ?_)
  simp only [Function.comp]
  split <;> rfl

/-- Where records stand by rising slot, a slot names one record. -/
theorem slot_unique {s : State} (k : s.SlotsRise) {a b : Endpoint} (ha : a ∈ s.records) (hb : b ∈ s.records)
    (h : a.slot = b.slot) : a = b := by
  refine List.Pairwise.forall_of_forall_of_flip (R := fun a b : Endpoint => a.slot = b.slot → a = b)
    (fun _ _ _ => rfl) (k.1.imp ?_) (k.1.imp ?_) ha hb h
  · intro a b hlt e
    omega
  · intro a b hlt e
    omega

/-- Setting an in-transaction mark (R53) changes the table alone, and no line. -/
theorem cycleKept_inTxn (slot : Nat) (s : State) :
    s.CycleKept (s.updateRecord slot (fun r => { r with inTxn := true })) ∧
      (s.updateRecord slot (fun r => { r with inTxn := true })).lines = s.lines := by
  cases h : s.bySlot slot with
  | none =>
    have : s.updateRecord slot (fun r => { r with inTxn := true }) = s := by
      unfold State.updateRecord
      rw [h]
    rw [this]
    exact ⟨State.CycleKept.refl s, rfl⟩
  | some r =>
    rw [updateRecord_calm slot _ s h rfl rfl]
    refine ⟨⟨⟨rfl, rfl⟩, ⟨rfl, rfl⟩, rfl, fun k => ?_, ⟨rfl, rfl⟩, rfl, rfl, rfl, ⟨rfl, rfl⟩⟩, rfl⟩
    unfold State.putRecord
    rw [List.map_map]
    refine List.map_congr_left (fun x hx => ?_)
    simp only [Function.comp]
    split
    · rename_i hs
      obtain ⟨hr, hrs⟩ := bySlot_spec h
      have : x = r := by
        exact slot_unique k hx hr ((by simpa using hs : x.slot = slot).trans hrs.symm)
      rw [this]
      rfl
    · rfl

/-- What the going on of a cycle does: to its own line no more than GoneOn lets, to other lines nothing. -/
structure WentOn (i : Fin 12) (s t : State) : Prop where
  kept : s.CycleKept t
  line : Line.GoneOn (s.line i) (t.line i)
  other : ∀ j, j ≠ i → t.line j = s.line j

theorem Line.GoneOn.trans {a b c : Line} (h : Line.GoneOn a b) (k : Line.GoneOn b c) : Line.GoneOn a c := by
  refine ⟨k.cycle.trans h.cycle, k.period.trans h.period, k.list.trans h.list, k.timer.trans h.timer,
    ⟨k.marks.1.trans h.marks.1, k.marks.2.trans h.marks.2⟩, ?_, k.enable.trans h.enable, k.quiesce.trans h.quiesce,
    k.counters.trans h.counters, ⟨k.watches.1.trans h.watches.1, k.watches.2.trans h.watches.2⟩, ?_⟩
  · rcases k.state with x | x | x | x
    · exact Or.inl x
    · exact Or.inr (Or.inl x)
    · exact Or.inr (Or.inr (Or.inl x))
    · rw [x]
      exact h.state
  · obtain ⟨h1, h2, h3, h4, h5, h6, h7, h8, h9⟩ := h.config
    obtain ⟨k1, k2, k3, k4, k5, k6, k7, k8, k9⟩ := k.config
    exact ⟨k1.trans h1, k2.trans h2, k3.trans h3, k4.trans h4, k5.trans h5, k6.trans h6, k7.trans h7, k8.trans h8,
      k9.trans h9⟩

theorem WentOn.refl (i : Fin 12) (s : State) : WentOn i s s := ⟨State.CycleKept.refl s, Line.GoneOn.refl _, fun _ _ => rfl⟩

theorem WentOn.trans {i : Fin 12} {s t u : State} (h : WentOn i s t) (k : WentOn i t u) : WentOn i s u :=
  ⟨h.kept.trans k.kept, h.line.trans k.line, fun j hj => (k.other j hj).trans (h.other j hj)⟩

theorem wentOn_modLine (i : Fin 12) (f : Line → Line) (s : State) (hf : ∀ l, Line.GoneOn l (f l)) :
    WentOn i s (s.modLine i f) :=
  ⟨cycleKept_modLine i f s, by rw [modLine_line_same]; exact hf _, fun j hj => modLine_line_other s f (Ne.symm hj)⟩

theorem wentOn_captureT1 (i : Fin 12) (s : State) : WentOn i s (s.captureT1 i) :=
  ⟨⟨⟨rfl, rfl⟩, ⟨rfl, rfl⟩, rfl, fun _ => rfl, ⟨rfl, rfl⟩, rfl, rfl, rfl, ⟨rfl, rfl⟩⟩, Line.GoneOn.refl _, fun _ _ => rfl⟩

theorem wentOn_inTxn (i : Fin 12) (slot : Nat) (s : State) :
    WentOn i s (s.updateRecord slot (fun r => { r with inTxn := true })) := by
  obtain ⟨k1, k2⟩ := cycleKept_inTxn slot s
  have kl : ∀ j, (s.updateRecord slot (fun r => { r with inTxn := true })).line j = s.line j := by
    intro j
    unfold State.line
    rw [k2]
  exact ⟨k1, by rw [kl]; exact Line.GoneOn.refl _, fun j _ => kl j⟩

theorem wentOn_beginTransaction (i : Fin 12) (r : Endpoint) (s : State) : WentOn i s (s.beginTransaction i r) :=
  ((wentOn_captureT1 i s).trans (wentOn_modLine i (Line.beginPoll s.localNs r.slot r.addr) _
    (fun _ => ⟨rfl, rfl, rfl, rfl, ⟨rfl, rfl⟩, Or.inr (Or.inl rfl), rfl, rfl, rfl, ⟨rfl, rfl⟩,
      ⟨rfl, rfl, rfl, rfl, rfl, rfl, rfl, rfl, rfl⟩⟩))).trans (wentOn_inTxn i r.slot _)

theorem wentOn_urgentPhase (i : Fin 12) (s : State) : WentOn i s (s.urgentPhase i).1 := by
  unfold State.urgentPhase
  split
  · exact wentOn_beginTransaction i _ s
  · split
    · exact wentOn_modLine i _ s
        (fun l => ⟨rfl, rfl, rfl, rfl, ⟨rfl, rfl⟩, Or.inr (Or.inr (Or.inl rfl)), rfl, rfl, rfl, ⟨rfl, rfl⟩,
        ⟨rfl, rfl, rfl, rfl, rfl, rfl, rfl, rfl, rfl⟩⟩)
    · exact wentOn_modLine i _ s Line.goneOn_rest

theorem wentOn_goOn (i : Fin 12) (s : State) : WentOn i s (s.goOn i).1 := by
  have keep : ∀ f : Line → Line, (∀ l, Line.GoneOn l (f l)) → WentOn i s (s.modLine i f) :=
    fun f hf => wentOn_modLine i f s hf
  unfold State.goOn
  split
  · split
    · exact (keep (Line.reach _) (Line.goneOn_reach _)).trans (wentOn_beginTransaction i _ _)
    · split
      · exact keep Line.listOver Line.goneOn_listOver
      · exact (keep Line.toUrgent Line.goneOn_toUrgent).trans (wentOn_urgentPhase i _)
  · exact wentOn_urgentPhase i s
  · exact keep Line.rest Line.goneOn_rest
  · exact WentOn.refl i s
  · exact WentOn.refl i s

/-- What a cycle start and the beginning of its list phase do. -/
structure Began (i : Fin 12) (s t : State) : Prop where
  kept : s.CycleKept t
  line : Line.CycleBegun s.localNs (s.line i) (t.line i)
  other : ∀ j, j ≠ i → t.line j = s.line j

theorem startState {l k : Line} {n : Nat} {b : Bool} {ps : List Nat}
    (h : k.state = .idle ∨ k.state = .polling ∨ k.state = .discovering ∨ k.state = (Line.startCycle n b ps l).state) :
    k.state = .idle ∨ k.state = .polling ∨ k.state = .discovering := by
  rcases h with x | x | x | x
  · exact Or.inl x
  · exact Or.inr (Or.inl x)
  · exact Or.inr (Or.inr x)
  · exact Or.inl x

theorem newCycle_began (i : Fin 12) (s : State) : Began i s (s.newCycle i) := by
  have g := wentOn_goOn i (s.cycleStart i)
  have kl : (s.cycleStart i).line i = Line.startCycle s.localNs (s.rack i).boosted
      ((s.takeClasses i).buildList i ((s.line i).cycle + 1).toNat (s.rack i).boosted) (s.line i) := by
    unfold State.cycleStart
    rw [modLine_line_same]
    rfl
  refine ⟨((cycleKept_takeClasses i s).trans (cycleKept_modLine i _ _)).trans g.kept, ?_, fun j hj => ?_⟩
  · have h := g.line
    rw [kl] at h
    exact ⟨h.cycle, h.period, h.timer, h.marks, startState h.state,
      h.enable, h.quiesce, h.counters, h.watches, h.config⟩
  · refine (g.other j hj).trans ?_
    unfold State.cycleStart
    rw [modLine_line_other _ _ (Ne.symm hj)]
    rfl

/-! ### What a cycle start takes (R43 to R46, R52, R53, R64) -/

theorem mem_insertByAddr {r q : Endpoint} {l : List Endpoint} : q ∈ insertByAddr r l ↔ q = r ∨ q ∈ l := by
  induction l with
  | nil => simp [insertByAddr]
  | cons a l ih =>
    unfold insertByAddr
    split
    · simp
    · simp only [List.mem_cons, ih]
      exact or_left_comm

theorem mem_sortByAddr {q : Endpoint} {l : List Endpoint} : q ∈ sortByAddr l ↔ q ∈ l := by
  induction l with
  | nil => rfl
  | cons a l ih =>
    rw [show sortByAddr (a :: l) = insertByAddr a (sortByAddr l) from rfl, mem_insertByAddr, ih, List.mem_cons]

theorem sorted_insertByAddr {r : Endpoint} {l : List Endpoint} (h : l.Pairwise (fun a b => a.addr ≤ b.addr)) :
    (insertByAddr r l).Pairwise (fun a b => a.addr ≤ b.addr) := by
  induction l with
  | nil => exact List.pairwise_singleton _ r
  | cons a l ih =>
    rw [List.pairwise_cons] at h
    unfold insertByAddr
    split
    · rename_i hra
      refine List.pairwise_cons.2 ⟨fun b hb => ?_, List.pairwise_cons.2 h⟩
      rcases List.mem_cons.1 hb with rfl | hb
      · exact hra
      · exact Nat.le_trans hra (h.1 b hb)
    · rename_i hra
      refine List.pairwise_cons.2 ⟨fun b hb => ?_, ih h.2⟩
      rcases mem_insertByAddr.1 hb with rfl | hb
      · omega
      · exact h.1 b hb

theorem sorted_sortByAddr (l : List Endpoint) : (sortByAddr l).Pairwise (fun a b => a.addr ≤ b.addr) := by
  induction l with
  | nil => exact List.Pairwise.nil
  | cons a l ih => exact sorted_insertByAddr ih

theorem insertByAddr_perm (r : Endpoint) (l : List Endpoint) : (insertByAddr r l).Perm (r :: l) := by
  induction l with
  | nil => exact List.Perm.refl _
  | cons a l ih =>
    unfold insertByAddr
    split
    · exact List.Perm.refl _
    · exact (ih.cons a).trans (List.Perm.swap r a l)

theorem sortByAddr_perm (l : List Endpoint) : (sortByAddr l).Perm l := by
  induction l with
  | nil => exact List.Perm.refl _
  | cons a l ih => exact (insertByAddr_perm a _).trans (ih.cons a)

/-- Records of different addresses, put by rising address, stand by strictly rising address (R45, R68). -/
theorem strict_sortByAddr {l : List Endpoint} (h : l.Pairwise (fun a b => a.addr ≠ b.addr)) :
    (sortByAddr l).Pairwise (fun a b => a.addr < b.addr) :=
  (sorted_sortByAddr l).imp₂ (fun _ _ h k => Nat.lt_of_le_of_ne h k)
    (((sortByAddr_perm l).pairwise_iff (fun h => Ne.symm h)).2 h)

theorem insertByAddr_map (g : Endpoint → Endpoint) (hg : ∀ r, (g r).addr = r.addr) (r : Endpoint) (l : List Endpoint) :
    insertByAddr (g r) (l.map g) = (insertByAddr r l).map g := by
  induction l with
  | nil => rfl
  | cons a l ih =>
    simp only [List.map_cons, insertByAddr, hg, ih]
    split <;> rfl

theorem sortByAddr_map (g : Endpoint → Endpoint) (hg : ∀ r, (g r).addr = r.addr) (l : List Endpoint) :
    sortByAddr (l.map g) = (sortByAddr l).map g := by
  induction l with
  | nil => rfl
  | cons a l ih =>
    show insertByAddr (g a) (sortByAddr (l.map g)) = (insertByAddr a (sortByAddr l)).map g
    rw [ih, insertByAddr_map g hg]

/-- The record with its cycle base class taken (R44). -/
abbrev Endpoint.classed (i : Fin 12) (r : Endpoint) : Endpoint := if r.line = i then { r with cycleClass := r.baseClass } else r

theorem classed_slot (i : Fin 12) (r : Endpoint) : (r.classed i).slot = r.slot := by
  unfold Endpoint.classed
  split <;> rfl

theorem classed_addr (i : Fin 12) (r : Endpoint) : (r.classed i).addr = r.addr := by
  unfold Endpoint.classed
  split <;> rfl

theorem classed_pollable (i : Fin 12) (r : Endpoint) : (r.classed i).pollable = r.pollable := by
  unfold Endpoint.classed
  split <;> rfl

theorem classed_listed (i : Fin 12) (c : BitVec 32) (b : Bool) (r : Endpoint) :
    Endpoint.listed i c.toNat b (r.classed i) = true ↔ r.DueIn i c b := by
  by_cases h : r.line = i
  · have hc : r.classed i = { r with cycleClass := r.baseClass } := if_pos h
    rw [hc]
    show (r.line == i && r.pollable && (c.toNat + r.addr) % 2 ^ r.startClass b == 0) = true ↔ _
    rw [Bool.and_eq_true, Bool.and_eq_true, beq_iff_eq, beq_iff_eq, and_assoc]
    exact Iff.rfl
  · have hc : r.classed i = r := if_neg h
    rw [hc]
    have hl : Endpoint.listed i c.toNat b r = false := by
      unfold Endpoint.listed
      rw [beq_eq_false_iff_ne.2 h, Bool.false_and, Bool.false_and]
    rw [hl]
    exact ⟨fun x => absurd x (by decide), fun x => absurd x.1 h⟩

/-- The poll list of R45: the slots of the records due in the cycle, by rising address. -/
theorem buildList_spec (i : Fin 12) (c : BitVec 32) (b : Bool) (s : State) : ∃ rs : List Endpoint,
    (s.takeClasses i).buildList i c.toNat b = rs.map Endpoint.slot ∧ rs.Pairwise (fun a b => a.addr ≤ b.addr) ∧
    (s.KeysDiffer → rs.Pairwise (fun a b => a.addr < b.addr)) ∧ ∀ r, r ∈ rs ↔ r ∈ s.records ∧ r.DueIn i c b := by
  have due : ∀ r, r ∈ s.records.filter (fun r => Endpoint.listed i c.toNat b (r.classed i)) ↔
      r ∈ s.records ∧ r.DueIn i c b := fun r => by rw [List.mem_filter, classed_listed]
  refine ⟨sortByAddr (s.records.filter (fun r => Endpoint.listed i c.toNat b (r.classed i))), ?_, sorted_sortByAddr _,
    fun keys => strict_sortByAddr ?_, fun r => mem_sortByAddr.trans (due r)⟩
  · show (sortByAddr ((s.records.map (Endpoint.classed i)).filter (Endpoint.listed i c.toNat b))).map Endpoint.slot = _
    rw [List.filter_map, sortByAddr_map _ (classed_addr i), List.map_map]
    refine List.map_congr_left (fun r _ => classed_slot i r)
  · refine List.Pairwise.imp_of_mem ?_ (keys.filter _)
    intro a b ha hb ne same
    exact ne ⟨((due a).1 ha).2.1.trans ((due b).1 hb).2.1.symm, same⟩

/-- A slot finds its record, where slots differ. -/
theorem bySlot_of_mem {s : State} (k : s.SlotsRise) {r : Endpoint} (h : r ∈ s.records) : s.bySlot r.slot = some r := by
  cases e : s.bySlot r.slot with
  | none =>
    have := List.find?_eq_none.1 e r h
    simp at this
  | some q =>
    obtain ⟨hq, hs⟩ := bySlot_spec e
    rw [slot_unique k hq h hs]

theorem slotsRise_takeClasses (i : Fin 12) {s : State} (k : s.SlotsRise) : (s.takeClasses i).SlotsRise :=
  slotsRise_of_plain ((cycleKept_takeClasses i s).records k) k

/-- What a transaction's start does to its line, the latches and the table (R53). -/
theorem beginTransaction_line (i : Fin 12) (r : Endpoint) (s : State) :
    (s.beginTransaction i r).line i = Line.beginPoll s.localNs r.slot r.addr (s.line i) := by
  have := (cycleKept_inTxn r.slot ((s.captureT1 i).modLine i (Line.beginPoll s.localNs r.slot r.addr))).2
  unfold State.beginTransaction State.line
  rw [this]
  exact modLine_line_same (s.captureT1 i) i _

theorem updateRecord_inTxn_latches (slot : Nat) (s : State) :
    (s.updateRecord slot (fun r => { r with inTxn := true })).latches = s.latches := by
  cases h : s.bySlot slot with
  | none =>
    unfold State.updateRecord
    rw [h]
  | some r =>
    rw [updateRecord_calm slot _ s h rfl rfl]
    rfl

theorem beginTransaction_latches (i : Fin 12) (r : Endpoint) (s : State) :
    (s.beginTransaction i r).latches = (s.captureT1 i).latches := updateRecord_inTxn_latches _ _

/-- Setting an in-transaction mark marks that record alone. -/
theorem inTxn_records (slot : Nat) {s : State} (k : s.SlotsRise) :
    (s.updateRecord slot (fun r => { r with inTxn := true })).records =
      s.records.map (fun q => { q with inTxn := q.inTxn || q.slot == slot }) := by
  cases h : s.bySlot slot with
  | none =>
    unfold State.updateRecord
    rw [h]
    have e : ∀ q ∈ s.records, ({ q with inTxn := q.inTxn || q.slot == slot } : Endpoint) = q := by
      intro q hq
      have := List.find?_eq_none.1 h q hq
      have hs : (q.slot == slot) = false := by simpa using this
      rw [hs, Bool.or_false]
    rw [List.map_congr_left e, List.map_id']
  | some r =>
    rw [updateRecord_calm slot _ s h rfl rfl]
    refine List.map_congr_left (fun q hq => ?_)
    cases hs : q.slot == slot with
    | false => simp
    | true =>
      obtain ⟨hr, hrs⟩ := bySlot_spec h
      have : q = r := slot_unique k hq hr ((by simpa using hs : q.slot = slot).trans hrs.symm)
      rw [this]
      simp [Endpoint.keepKey]

/-- The first pollable slot of a list finds a pollable record of its own slot; a pollable head is the first (R46). -/
theorem firstPollable_spec {s : State} {l : List Nat} {k n : Nat} {r : Endpoint} (h : s.firstPollable l k = some (n, r)) :
    r.pollable = true ∧ r ∈ s.records := by
  induction l generalizing k with
  | nil => cases h
  | cons a l ih =>
    unfold State.firstPollable at h
    split at h
    · rename_i q hq
      split at h
      · rename_i hp
        injection h with h
        injection h with h1 h2
        rw [← h2]
        exact ⟨hp, (bySlot_spec hq).1⟩
      · exact ih h
    · exact ih h

theorem firstPollable_head {s : State} {a k : Nat} {l : List Nat} {r : Endpoint} (h : s.bySlot a = some r)
    (hp : r.pollable = true) : s.firstPollable (a :: l) k = some (k + 1, r) := by
  unfold State.firstPollable
  rw [h]
  exact if_pos hp

/-- A transaction's start in terms of R53. -/
theorem beginTransaction_starts {i : Fin 12} {r q : Endpoint} {s u : State} {f : Line → Line} (now : u.localNs = s.localNs)
    (clk : u.clk = s.clk) (hu : u.line i = f (s.line i)) (slot : q.slot = r.slot) (addr : q.addr = r.addr)
    (tail : (f (s.line i)).tail = (s.line i).tail)
    (hf : (f (s.line i)).urgent = (s.line i).urgent ∧
      (f (s.line i)).txNumber = (s.line i).txNumber ∧ (f (s.line i)).cfgRate = (s.line i).cfgRate ∧
      (f (s.line i)).replyWindow = (s.line i).replyWindow ∧ (f (s.line i)).rate = (s.line i).rate) :
    s.PollStarts i r (u.beginTransaction i q) := by
  have hst : (f (s.line i)).sendStart s.localNs = (s.line i).sendStart s.localNs := by
    unfold Line.sendStart
    rw [tail]
  obtain ⟨h1, h2, h3, h4, h5⟩ := hf
  have hl := beginTransaction_line i q u
  rw [now, slot, addr, hu] at hl
  refine ⟨?_, fun h => ?_, fun h => ?_⟩
  · rw [hl]
    refine ⟨?_, ?_, h3, ?_, ?_, rfl, ⟨rfl, rfl, rfl⟩, ?_⟩
    · show (f (s.line i)).urgent.filter _ = _
      rw [h1]
    · show (f (s.line i)).txNumber + 1 = _
      rw [h2]
    · show some (Transaction.mk r.slot (f (s.line i)).replyWindow false) = _
      rw [h4]
    · show some (TxFrame.mk (pollFrame r.addr ((f (s.line i)).txNumber + 1)) ((f (s.line i)).sendStart s.localNs)
        ((f (s.line i)).sendStart s.localNs + 5 * (f (s.line i)).cfgRate.charNs)) = _
      rw [h2, h3, hst]
      rfl
    · show some (Begun.mk s.localNs (f (s.line i)).txNumber (f (s.line i)).rate (f (s.line i)).urgent) = _
      rw [h1, h2, h5]
  · have : (u.beginTransaction i q).latches[i] = (u.captureT1 i).latches[i] := by rw [beginTransaction_latches]
    rw [this]
    show (u.latches.set i _)[i] = _
    rw [hu, now, hst, clk]
    simp [h]
  · have : (u.beginTransaction i q).latches[i] = (u.captureT1 i).latches[i] := by rw [beginTransaction_latches]
    rw [this]
    show ((u.latches.set i _)[i]).due = _
    rw [hu, now, hst, clk]
    simp [Nat.not_le.2 h]

theorem firstPollable_modLine (i : Fin 12) (f : Line → Line) (s : State) (l : List Nat) (k : Nat) :
    (s.modLine i f).firstPollable l k = s.firstPollable l k := by
  induction l generalizing k with
  | nil => rfl
  | cons a l ih =>
    unfold State.firstPollable
    simp only [modLine_bySlot, ih]

/-- The line at the beginning of its list phase (R43, steps 1 to 5). -/
abbrev State.startLine (i : Fin 12) (s : State) : Line :=
  Line.startCycle s.localNs (s.rack i).boosted
    ((s.takeClasses i).buildList i ((s.line i).cycle + 1).toNat (s.rack i).boosted) (s.line i)

theorem cycleStart_line (i : Fin 12) (s : State) : (s.cycleStart i).line i = s.startLine i := by
  unfold State.cycleStart
  rw [modLine_line_same]
  rfl

/-- The four ways in which a cycle begins: with its list, its urgent queue, its discovery phase, or at rest. -/
inductive NewCycle (i : Fin 12) (s : State) : State → Prop where
  | list (k : Nat) (q : Endpoint) (h : (s.cycleStart i).firstPollable (s.startLine i).pollList 0 = some (k, q)) :
    NewCycle i s (((s.cycleStart i).modLine i (Line.reach k)).beginTransaction i q)
  | urgent (k : Nat) (q : Endpoint) (h : (s.cycleStart i).firstPollable (s.startLine i).pollList 0 = none)
      (h' : (s.cycleStart i).firstPollable (s.line i).urgent 0 = some (k, q)) :
    NewCycle i s (((s.cycleStart i).modLine i Line.toUrgent).beginTransaction i q)
  | discovery (h : (s.cycleStart i).firstPollable (s.startLine i).pollList 0 = none)
      (h' : (s.cycleStart i).firstPollable (s.line i).urgent 0 = none) (d : (s.line i).discEnable = true) :
    NewCycle i s (((s.cycleStart i).modLine i Line.toUrgent).modLine i (Line.beginDiscovery s.localNs))
  | rest (h : (s.cycleStart i).firstPollable (s.startLine i).pollList 0 = none)
      (h' : (s.cycleStart i).firstPollable (s.line i).urgent 0 = none) (d : (s.line i).discEnable = false) :
    NewCycle i s (((s.cycleStart i).modLine i Line.toUrgent).modLine i Line.rest)

theorem newCycle_cases (i : Fin 12) (s : State) : NewCycle i s (s.newCycle i) := by
  have hl := cycleStart_line i s
  have hu : ((s.cycleStart i).modLine i Line.toUrgent).line i = Line.toUrgent (s.startLine i) := by
    rw [modLine_line_same, hl]
  have hp : ((s.cycleStart i).line i).phase = .list := by rw [hl]; rfl
  have hd : ((s.cycleStart i).line i).pollList.drop ((s.cycleStart i).line i).pollPos = (s.startLine i).pollList := by
    rw [hl]
    rfl
  have h0 : ((s.cycleStart i).line i).pollPos = 0 := by rw [hl]; rfl
  have ho : ((s.cycleStart i).line i).overrun = false := by rw [hl]; rfl
  unfold State.newCycle State.goOn
  rw [hp]
  dsimp only
  rw [hd, h0, ho]
  cases h : (s.cycleStart i).firstPollable (s.startLine i).pollList 0 with
  | some kq => exact NewCycle.list kq.1 kq.2 h
  | none =>
    show NewCycle i s (((s.cycleStart i).modLine i Line.toUrgent).urgentPhase i).1
    have he : ((s.startLine i).toUrgent).periodElapsed = false := rfl
    have hw : ((s.startLine i).toUrgent).overrun = false := rfl
    have hq : ((s.startLine i).toUrgent).urgent = (s.line i).urgent := rfl
    have hn : ((s.startLine i).toUrgent).discEnable = (s.line i).discEnable := rfl
    unfold State.urgentPhase
    simp only [hu, he, hw, hq, hn, Bool.false_eq_true, if_false, firstPollable_modLine]
    cases h' : (s.cycleStart i).firstPollable (s.line i).urgent 0 with
    | some kq => exact NewCycle.urgent kq.1 kq.2 h h'
    | none =>
      cases d : (s.line i).discEnable with
      | true => exact NewCycle.discovery h h' d
      | false => exact NewCycle.rest h h' d

/-- What a cycle start leaves in the table, in each of the four ways. -/
theorem newCycle_records (i : Fin 12) {s : State} (k : s.SlotsRise) :
    (s.newCycle i).records = s.records.map (fun r => { r with
      cycleClass := if r.line = i then r.baseClass else r.cycleClass
      inTxn := r.inTxn || (((s.newCycle i).line i).state == .polling &&
        ((s.newCycle i).line i).transaction.map Transaction.slot == some r.slot) }) := by
  have base : ∀ r : Endpoint, r.classed i = { r with cycleClass := if r.line = i then r.baseClass else r.cycleClass } := by
    intro r
    unfold Endpoint.classed
    by_cases h : r.line = i
    · rw [if_pos h, if_pos h]
    · rw [if_neg h, if_neg h]
  have txn : ∀ (f : Line → Line) (q : Endpoint),
      (((s.cycleStart i).modLine i f).beginTransaction i q).records = s.records.map (fun r => { r with
        cycleClass := if r.line = i then r.baseClass else r.cycleClass
        inTxn := r.inTxn || (((((s.cycleStart i).modLine i f).beginTransaction i q).line i).state == .polling &&
          ((((s.cycleStart i).modLine i f).beginTransaction i q).line i).transaction.map Transaction.slot == some r.slot) }) := by
    intro f q
    rw [beginTransaction_line]
    have e := inTxn_records q.slot (s := (((s.cycleStart i).modLine i f).captureT1 i).modLine i
      (Line.beginPoll ((s.cycleStart i).modLine i f).localNs q.slot q.addr)) (slotsRise_takeClasses i k)
    refine e.trans ?_
    show (s.records.map (Endpoint.classed i)).map _ = _
    rw [List.map_map]
    refine List.map_congr_left (fun r _ => ?_)
    simp only [Function.comp, base]
    show _ = Endpoint.mk _ _ _ _ _ (r.inTxn || (true && (some q.slot == some r.slot))) _ _ _ _ _ _ _ _ _ _ _ _ _ _ _ _ _ _ _ _ _ _ _ _ _ _
    congr 2
    rw [Bool.true_and]
    by_cases h : r.slot = q.slot
    · simp [h]
    · simp [h, Ne.symm h]
  have still : ∀ (f g : Line → Line), (g (f (s.startLine i))).state ≠ .polling →
      (((s.cycleStart i).modLine i f).modLine i g).records = s.records.map (fun r => { r with
        cycleClass := if r.line = i then r.baseClass else r.cycleClass
        inTxn := r.inTxn || (((((s.cycleStart i).modLine i f).modLine i g).line i).state == .polling &&
          ((((s.cycleStart i).modLine i f).modLine i g).line i).transaction.map Transaction.slot == some r.slot) }) := by
    intro f g hg
    rw [modLine_line_same, modLine_line_same, cycleStart_line]
    refine (List.map_congr_left (fun r _ => base r)).trans ?_
    refine List.map_congr_left (fun r _ => ?_)
    rw [beq_eq_false_iff_ne.2 hg, Bool.false_and, Bool.or_false]
  have := newCycle_cases i s
  generalize s.newCycle i = t at this ⊢
  cases this with
  | list m q h => exact txn _ q
  | urgent m q h h' => exact txn _ q
  | discovery h h' d => exact still _ _ (by intro x; cases x)
  | rest h h' d => exact still _ _ (by intro x; cases x)

/-- A cycle start, in the words of R43 to R46, R52, R53 and R64. -/
theorem newCycle_starts (i : Fin 12) (s : State) : s.CycleStarts i (s.newCycle i) := by
  have began := newCycle_began i s
  have recs := newCycle_records i (s := s)
  obtain ⟨rs, hrs, hsort, hstrict, hmem⟩ := buildList_spec i ((s.line i).cycle + 1) (s.rack i).boosted s
  have hlist : (s.startLine i).pollList = rs.map Endpoint.slot := hrs
  have find : ∀ r ∈ s.records, s.SlotsRise → (s.cycleStart i).bySlot r.slot = some (r.classed i) := by
    intro r hr k
    have := bySlot_of_mem (slotsRise_takeClasses i k) (r := r.classed i) (List.mem_map_of_mem hr)
    rw [classed_slot] at this
    exact this
  have headPoll : ∀ r ∈ s.records, s.SlotsRise → (s.startLine i).pollList.head? = some r.slot → r.pollable = true := by
    intro r hr k h
    rw [hlist] at h
    cases rs with
    | nil => cases h
    | cons a as =>
      have ha := (hmem a).1 (List.mem_cons_self ..)
      have : a = r := slot_unique k ha.1 hr (by simpa using h)
      rw [← this]
      exact ha.2.2.1
  have first : ∀ (l : List Nat) (r : Endpoint), r ∈ s.records → s.SlotsRise → l.head? = some r.slot → r.pollable = true →
      (s.cycleStart i).firstPollable l 0 = some (1, r.classed i) := by
    intro l r hr k h hp
    cases l with
    | nil => cases h
    | cons a l =>
      have : a = r.slot := by simpa using h
      rw [this]
      exact firstPollable_head (find r hr k) ((classed_pollable i r).trans hp)
  have boost : (s.rack i).boosted = true ↔
      (s.rack i).boost = true ∧ ((s.rack i).watch = .warn ∨ (s.rack i).watch = .alarm) := by
    unfold Rack.boosted
    rw [Bool.and_eq_true, Bool.or_eq_true, beq_iff_eq, beq_iff_eq, and_comm]
  have hline := cycleStart_line i s
  have := newCycle_cases i s
  generalize s.newCycle i = t at this began recs ⊢
  obtain ⟨kept, line, other⟩ := began
  cases this with
  | list m q h =>
    have hl := beginTransaction_line i q ((s.cycleStart i).modLine i (Line.reach m))
    rw [modLine_line_same, hline] at hl
    have hlat := beginTransaction_latches i q ((s.cycleStart i).modLine i (Line.reach m))
    refine ⟨line, kept, fun j hj => ⟨other j hj, ?_⟩, ?_, recs, ⟨rs, ?_, hsort, hstrict, ?_⟩, ?_, ?_, ?_, ?_, ?_⟩
    · rw [hlat]
      show (s.latches.set i _)[j] = _
      simp [Fin.ext_iff.not.1 (Ne.symm hj)]
    all_goals rw [hl]
    · exact boost
    · exact hlist
    · exact hmem
    · intro r hr k hh
      have e : (s.cycleStart i).firstPollable (s.startLine i).pollList 0 = some (1, r.classed i) :=
        first _ r hr k hh (headPoll r hr k hh)
      have hmq : m = 1 ∧ q = r.classed i := by
        rw [h] at e
        injection e with e
        injection e with e1 e2
        exact ⟨e1, e2⟩
      obtain ⟨hm, hq⟩ := hmq
      subst hm hq
      refine ⟨beginTransaction_starts (f := fun _ => Line.reach 1 (s.startLine i)) rfl rfl ?_ (classed_slot i r)
        (classed_addr i r) rfl ⟨rfl, rfl, rfl, rfl, rfl⟩, rfl, rfl⟩
      rw [modLine_line_same, hline]
    · intro r hr k hh
      have : (s.startLine i).pollList = [] := hh
      rw [this] at h
      cases h
    · intro hh
      have : (s.startLine i).pollList = [] := hh
      rw [this] at h
      cases h
    · intro x
      exact absurd rfl x
    · intro hh
      have : (s.startLine i).pollList = [] := hh
      rw [this] at h
      cases h
  | urgent m q h h' =>
    have hl := beginTransaction_line i q ((s.cycleStart i).modLine i Line.toUrgent)
    rw [modLine_line_same, hline] at hl
    have hlat := beginTransaction_latches i q ((s.cycleStart i).modLine i Line.toUrgent)
    refine ⟨line, kept, fun j hj => ⟨other j hj, ?_⟩, ?_, recs, ⟨rs, ?_, hsort, hstrict, ?_⟩, ?_, ?_, ?_, ?_, ?_⟩
    · rw [hlat]
      show (s.latches.set i _)[j] = _
      simp [Fin.ext_iff.not.1 (Ne.symm hj)]
    all_goals rw [hl]
    · exact boost
    · exact hlist
    · exact hmem
    · intro r hr k hh
      have e : (s.cycleStart i).firstPollable (s.startLine i).pollList 0 = some (1, r.classed i) :=
        first _ r hr k hh (headPoll r hr k hh)
      rw [h] at e
      cases e
    · intro r hr k hh hu hp
      have e : (s.cycleStart i).firstPollable (s.line i).urgent 0 = some (1, r.classed i) := first _ r hr k hu hp
      have hmq : m = 1 ∧ q = r.classed i := by
        rw [h'] at e
        injection e with e
        injection e with e1 e2
        exact ⟨e1, e2⟩
      obtain ⟨hm, hq⟩ := hmq
      subst hm hq
      refine ⟨beginTransaction_starts (f := fun _ => Line.toUrgent (s.startLine i)) rfl rfl ?_ (classed_slot i r)
        (classed_addr i r) rfl ⟨rfl, rfl, rfl, rfl, rfl⟩, rfl, ?_⟩
      · rw [modLine_line_same, hline]
      · have : (s.startLine i).pollList = [] := hh
        show (s.startLine i).pollList.length = 0
        rw [this]
        rfl
    · intro _ hu
      rw [hu] at h'
      cases h'
    · intro x
      exact absurd rfl x
    · intro _ hu
      rw [hu] at h'
      cases h'
  | discovery h h' d =>
    have hl : ((((s.cycleStart i).modLine i Line.toUrgent).modLine i (Line.beginDiscovery s.localNs)).line i) =
        Line.beginDiscovery s.localNs (Line.toUrgent (s.startLine i)) := by
      rw [modLine_line_same, modLine_line_same, hline]
    refine ⟨line, kept, fun j hj => ⟨other j hj, rfl⟩, ?_, recs, ⟨rs, ?_, hsort, hstrict, ?_⟩, ?_, ?_, ?_, ?_, ?_⟩
    all_goals rw [hl]
    · exact boost
    · exact hlist
    · exact hmem
    · intro r hr k hh
      have e : (s.cycleStart i).firstPollable (s.startLine i).pollList 0 = some (1, r.classed i) :=
        first _ r hr k hh (headPoll r hr k hh)
      rw [h] at e
      cases e
    · intro r hr k _ hu hp
      have e : (s.cycleStart i).firstPollable (s.line i).urgent 0 = some (1, r.classed i) := first _ r hr k hu hp
      rw [h'] at e
      cases e
    · intro _ _ _
      exact ⟨⟨rfl, rfl⟩, rfl, rfl, rfl, ⟨rfl, rfl, rfl⟩, ⟨rfl, rfl⟩, rfl⟩
    · exact fun _ => rfl
    · intro _ _ x
      rw [d] at x
      cases x
  | rest h h' d =>
    have hl : ((((s.cycleStart i).modLine i Line.toUrgent).modLine i Line.rest).line i) =
        Line.rest (Line.toUrgent (s.startLine i)) := by
      rw [modLine_line_same, modLine_line_same, hline]
    refine ⟨line, kept, fun j hj => ⟨other j hj, rfl⟩, ?_, recs, ⟨rs, ?_, hsort, hstrict, ?_⟩, ?_, ?_, ?_, ?_, ?_⟩
    all_goals rw [hl]
    · exact boost
    · exact hlist
    · exact hmem
    · intro r hr k hh
      have e : (s.cycleStart i).firstPollable (s.startLine i).pollList 0 = some (1, r.classed i) :=
        first _ r hr k hh (headPoll r hr k hh)
      rw [h] at e
      cases e
    · intro r hr k _ hu hp
      have e : (s.cycleStart i).firstPollable (s.line i).urgent 0 = some (1, r.classed i) := first _ r hr k hu hp
      rw [h'] at e
      cases e
    · intro _ _ x
      rw [d] at x
      cases x
    · exact fun _ => rfl
    · intro _ _ _
      exact ⟨rfl, rfl, rfl⟩

end Sys2Proof.Machine
end

