-- ==== Sys2Proof/Laws/Ends.lean ====
section
/-! SUPPORT. How a line goes on between transactions, and what the end of a transaction and an abandonment do, said once in the
words of Safety.lean. -/

namespace Sys2Proof.Machine

open Sys2Proof

/-! ### The first pollable record of a list (R46, R52) -/

/-- None is found in a list that names no pollable record. -/
theorem firstPollable_none {s : State} {l : List Nat} (h : s.NonePollable l) (k : Nat) : s.firstPollable l k = none := by
  induction l generalizing k with
  | nil => rfl
  | cons a l ih =>
    have rest := ih (fun n hn => h n (List.mem_cons_of_mem _ hn)) (k + 1)
    unfold State.firstPollable
    split
    · rename_i r hr
      rw [if_neg (by simp [h a (List.mem_cons_self ..) r hr]), rest]
    · exact rest

/-- The first pollable record of a list is the one found, at its place. -/
theorem firstPollable_first {s : State} {l : List Nat} {k : Nat} {r : Endpoint} (h : s.FirstOf l k r) (n : Nat) :
    s.firstPollable l n = some (n + k, r) := by
  obtain ⟨found, pollable, before, after, rfl, none, rfl⟩ := h
  induction before generalizing n with
  | nil => exact firstPollable_head found pollable
  | cons a before ih =>
    have rest := ih (n + 1) (fun m hm => none m (List.mem_cons_of_mem _ hm))
    have e : n + 1 + (before.length + 1) = n + ((a :: before).length + 1) := by simp only [List.length_cons]; omega
    rw [e] at rest
    show s.firstPollable (a :: (before ++ r.slot :: after)) n = _
    unfold State.firstPollable
    split
    · rename_i q hq
      rw [if_neg (by simp [none a (List.mem_cons_self ..) q hq]), rest]
    · exact rest

/-! ### Going on (R46, R47, R48, R52) -/

/-- The latches of the other lines stay when a line begins a transaction (R53). -/
theorem beginTransaction_latches_other {i j : Fin 12} (r : Endpoint) (s : State) (h : j ≠ i) :
    (s.beginTransaction i r).latches[j] = s.latches[j] := by
  have e : (s.beginTransaction i r).latches[j] = (s.captureT1 i).latches[j] := by rw [beginTransaction_latches]
  rw [e]
  show (s.latches.set i _)[j] = _
  simp [Fin.ext_iff.not.1 (Ne.symm h)]

/-- The line goes on by a transaction (R46, R52, R53), whatever of its phase and position was noted before. -/
theorem beginTransaction_next {i : Fin 12} {r : Endpoint} {s : State} {f : Line → Line} (hf : ∀ l, Line.GoneOn l (f l))
    (keep : ∀ l, (f l).tail = l.tail ∧ (f l).urgent = l.urgent ∧ (f l).txNumber = l.txNumber ∧ (f l).rate = l.rate) :
    s.PollsNext i r ((s.modLine i f).beginTransaction i r) := by
  obtain ⟨k1, k2, k3, k4⟩ := keep (s.line i)
  have g := (hf (s.line i)).config
  refine ⟨beginTransaction_starts (f := f) rfl rfl (modLine_line_same s i f) rfl rfl k1 ⟨k2, k3, g.1, g.2.2.1, k4⟩,
    ((wentOn_modLine i f s hf).trans (wentOn_beginTransaction i r _)).line, fun k => ?_⟩
  · exact inTxn_records r.slot (s := ((s.modLine i f).captureT1 i).modLine i
      (Line.beginPoll (s.modLine i f).localNs r.slot r.addr)) k

/-- Where a line stands in its cycle does not bear on its next cycle start (R43). -/
theorem cycleStarts_of_modLine {i : Fin 12} {s t : State} {f : Line → Line}
    (hf : ∃ p q st, f (s.line i) = { s.line i with pollPos := p, phase := q, state := st })
    (h : (s.modLine i f).CycleStarts i t) : s.CycleStarts i t := by
  obtain ⟨p, q, st, hf⟩ := hf
  have hl : (s.modLine i f).line i = { s.line i with pollPos := p, phase := q, state := st } :=
    (modLine_line_same s i f).trans hf
  obtain ⟨line, kept, other, boost, records, list, polls, urgent, discovers, queue, rests⟩ := h
  rw [hl] at line urgent discovers queue rests
  refine ⟨⟨line.1, line.2, line.3, line.4, line.5, line.6, line.7, line.8, line.9, line.10⟩,
    (cycleKept_modLine i f s).trans kept, fun j hj => ?_, boost, records, list, fun r hr k hh => ?_,
    fun r hr k hp hh hq => ?_, fun hp hh hd => ?_, queue, rests⟩
  · exact ⟨((other j hj).1).trans (modLine_line_other s f (Ne.symm hj)), (other j hj).2⟩
  · obtain ⟨⟨pb, p1, p2⟩, rest⟩ := polls r hr k hh
    rw [hl] at pb p1 p2
    exact ⟨⟨⟨pb.1, pb.2, pb.3, pb.4, pb.5, pb.6, pb.7, pb.8⟩, p1, p2⟩, rest⟩
  · obtain ⟨⟨pb, p1, p2⟩, rest⟩ := urgent r hr k hp hh hq
    rw [hl] at pb p1 p2
    exact ⟨⟨⟨pb.1, pb.2, pb.3, pb.4, pb.5, pb.6, pb.7, pb.8⟩, p1, p2⟩, rest⟩
  · have d := discovers hp hh hd
    exact ⟨d.1, d.2, d.3, d.4, d.5, d.6, d.7⟩

/-- Whatever way a line goes on, nothing but it, its t1 and the marks of records differs. -/
theorem goOn_latches (i : Fin 12) (s : State) : ∀ j, j ≠ i → (s.goOn i).1.latches[j] = s.latches[j] := by
  have urgent : ∀ u : State, ∀ j, j ≠ i → (u.urgentPhase i).1.latches[j] = u.latches[j] := by
    intro u j hj
    unfold State.urgentPhase
    split
    · exact beginTransaction_latches_other _ u hj
    · split <;> rfl
  intro j hj
  unfold State.goOn
  split
  · split
    · exact beginTransaction_latches_other _ _ hj
    · split
      · rfl
      · exact urgent _ j hj
  · exact urgent _ j hj
  · rfl
  · rfl
  · rfl

/-- The check of the urgent phase and what follows it (R48, R52). -/
structure UrgentTaken (i : Fin 12) (s u : State) : Prop where
  elapsed : (s.line i).periodElapsed = true → (u.urgentPhase i) = (u.modLine i Line.rest, true)
  urgent : ∀ k r, (s.line i).periodElapsed = false → s.FirstOf (s.line i).urgent k r →
    u.urgentPhase i = (u.beginTransaction i r, false)
  discovers : (s.line i).periodElapsed = false → s.NonePollable (s.line i).urgent → (s.line i).discEnable = true →
    (s.line i).overrun = false → u.urgentPhase i = (u.modLine i (Line.beginDiscovery u.localNs), false)
  rests : (s.line i).periodElapsed = false → s.NonePollable (s.line i).urgent →
    (s.line i).discEnable = false ∨ (s.line i).overrun = true → u.urgentPhase i = (u.modLine i Line.rest, false)

theorem urgentTaken (i : Fin 12) {s : State} {f : Line → Line} (hf : ∀ l, Line.GoneOn l (f l))
    (keep : ∀ l, (f l).urgent = l.urgent) : UrgentTaken i s (s.modLine i f) := by
  have g := hf (s.line i)
  have e1 : (f (s.line i)).periodElapsed = (s.line i).periodElapsed := g.marks.1
  have e2 : (f (s.line i)).overrun = (s.line i).overrun := g.marks.2
  have e3 : (f (s.line i)).discEnable = (s.line i).discEnable := g.config.2.2.2.1
  have e4 : (f (s.line i)).urgent = (s.line i).urgent := keep _
  constructor
  · intro h
    unfold State.urgentPhase
    simp [e1, h]
  · intro k r h first
    unfold State.urgentPhase
    simp [e1, e4, h, firstPollable_modLine, firstPollable_first first]
  · intro h none d o
    unfold State.urgentPhase
    simp [e1, e2, e3, e4, h, d, o, firstPollable_modLine, firstPollable_none none]
  · intro h none d
    unfold State.urgentPhase
    rcases d with d | d <;> simp [e1, e2, e3, e4, h, d, firstPollable_modLine, firstPollable_none none]

/-- How a line goes on between transactions (R46, R47, R48, R52). -/
theorem proceed_goesOn (i : Fin 12) (s : State) : s.GoesOn i (s.proceed i) := by
  have w := wentOn_goOn i s
  have lat := goOn_latches i s
  -- what holds whether or not a cycle starts
  have both : s.CycleKept (s.proceed i) ∧
      ∀ j, j ≠ i → (s.proceed i).line j = s.line j ∧ (s.proceed i).latches[j] = s.latches[j] := by
    unfold State.proceed
    split
    · have n := newCycle_starts i (s.goOn i).1
      exact ⟨w.kept.trans n.kept, fun j hj => ⟨(n.other j hj).1.trans (w.other j hj), (n.other j hj).2.trans (lat j hj)⟩⟩
    · exact ⟨w.kept, fun j hj => ⟨w.other j hj, lat j hj⟩⟩
  -- the urgent phase, entered from the list phase or standing in it
  have checks : s.UrgentCheck i → ∃ f : Line → Line, s.goOn i = (s.modLine i f).urgentPhase i ∧
      (∀ l, Line.GoneOn l (f l)) ∧
      (∀ l, (f l).tail = l.tail ∧ (f l).urgent = l.urgent ∧ (f l).txNumber = l.txNumber ∧ (f l).rate = l.rate) ∧
      (∃ p, ∀ q st, { f (s.line i) with phase := q, state := st } = { s.line i with pollPos := p, phase := q, state := st }) ∧
      (f (s.line i)).phase = .urgent ∧
      ∀ now l, (f l).sendStart now = l.sendStart now ∧ (f l).discWindow = l.discWindow := by
    rintro (h | ⟨h, none, inTime⟩)
    · refine ⟨id, ?_, fun l => Line.GoneOn.refl l, fun _ => ⟨rfl, rfl, rfl, rfl⟩, ⟨_, fun _ _ => rfl⟩, h, fun _ _ => ⟨rfl, rfl⟩⟩
      have : s.modLine i id = s := by
        unfold State.modLine State.setLine State.line
        simp
      rw [this]
      unfold State.goOn
      rw [h]
    · refine ⟨Line.toUrgent, ?_, Line.goneOn_toUrgent, fun _ => ⟨rfl, rfl, rfl, rfl⟩, ⟨_, fun _ _ => rfl⟩, rfl,
        fun _ _ => ⟨rfl, rfl⟩⟩
      have fp : s.firstPollable ((s.line i).pollList.drop (s.line i).pollPos) (s.line i).pollPos = .none :=
        firstPollable_none none _
      unfold State.goOn
      rw [h]
      dsimp only
      rw [fp]
      simp [inTime]
  obtain ⟨kept, other⟩ := both
  refine ⟨kept, other, ?_, ?_, ?_, ?_, ?_, ?_⟩
  · intro k r h first
    have fp : s.firstPollable ((s.line i).pollList.drop (s.line i).pollPos) (s.line i).pollPos =
        some ((s.line i).pollPos + k, r) := firstPollable_first first _
    have e : s.goOn i = ((s.modLine i (Line.reach ((s.line i).pollPos + k))).beginTransaction i r, false) := by
      unfold State.goOn
      rw [h]
      dsimp only
      rw [fp]
    have p : s.proceed i = (s.modLine i (Line.reach ((s.line i).pollPos + k))).beginTransaction i r := by
      unfold State.proceed
      rw [e]
      rfl
    rw [p]
    refine ⟨beginTransaction_next (Line.goneOn_reach _) (fun _ => ⟨rfl, rfl, rfl, rfl⟩), ?_⟩
    rw [beginTransaction_line, modLine_line_same]
    exact ⟨h, rfl⟩
  · intro h none late
    have fp : s.firstPollable ((s.line i).pollList.drop (s.line i).pollPos) (s.line i).pollPos = .none :=
      firstPollable_none none _
    have e : s.goOn i = (s.modLine i Line.listOver, true) := by
      unfold State.goOn
      rw [h]
      dsimp only
      rw [fp]
      simp [late]
    have p : s.proceed i = (s.modLine i Line.listOver).newCycle i := by
      unfold State.proceed
      rw [e]
      rfl
    rw [p]
    exact cycleStarts_of_modLine ⟨_, _, _, rfl⟩ (newCycle_starts i _)
  · intro c h
    obtain ⟨f, e, hf, keep, ⟨pos, hp⟩, ph, _⟩ := checks c
    have e' := (urgentTaken i hf (fun l => (keep l).2.1)).elapsed h
    have p : s.proceed i = ((s.modLine i f).modLine i Line.rest).newCycle i := by
      unfold State.proceed
      rw [e, e']
      rfl
    have m : (s.modLine i f).modLine i Line.rest = s.modLine i (fun l => (f l).rest) := modLine_modLine s i f Line.rest
    rw [p, m]
    exact cycleStarts_of_modLine ⟨pos, .done, .idle, hp .done .idle⟩ (newCycle_starts i _)
  · intro k r c h first
    obtain ⟨f, e, hf, keep, _, ph, _⟩ := checks c
    have e' := (urgentTaken i hf (fun l => (keep l).2.1)).urgent k r h first
    have p : s.proceed i = (s.modLine i f).beginTransaction i r := by
      unfold State.proceed
      rw [e, e']
      rfl
    rw [p]
    refine ⟨beginTransaction_next hf keep, ?_⟩
    rw [beginTransaction_line, modLine_line_same]
    exact ph
  · intro c h none d o
    obtain ⟨f, e, hf, keep, _, ph, snd⟩ := checks c
    have e' := (urgentTaken i hf (fun l => (keep l).2.1)).discovers h none d o
    have p : s.proceed i = (s.modLine i f).modLine i (Line.beginDiscovery s.localNs) := by
      unfold State.proceed
      rw [e, e']
      rfl
    obtain ⟨k1, k2⟩ := snd s.localNs (s.line i)
    have g := hf (s.line i)
    have hl : (s.proceed i).line i = Line.beginDiscovery s.localNs (f (s.line i)) := by
      rw [p, modLine_line_same, modLine_line_same]
    have w' := w.line
    rw [e, e'] at w'
    refine ⟨?_, by rw [p]; exact w', by rw [p]; rfl⟩
    rw [hl]
    refine ⟨⟨rfl, rfl⟩, g.config.1, k2, ?_, ⟨rfl, rfl, rfl⟩, ⟨(keep _).2.1, (keep _).2.2.1⟩, ?_⟩
    · show some (TxFrame.mk (discoverFrame (f (s.line i)).discWindow) ((f (s.line i)).sendStart s.localNs)
        ((f (s.line i)).sendStart s.localNs + 5 * (f (s.line i)).cfgRate.charNs)) = _
      rw [k1, k2, g.config.1]
      rfl
    · show some (Begun.mk s.localNs (f (s.line i)).txNumber (f (s.line i)).rate (f (s.line i)).urgent) = _
      rw [(keep _).2.1, (keep _).2.2.1, (keep _).2.2.2]
  · intro c h none d
    obtain ⟨f, e, hf, keep, ⟨pos, hp⟩, ph, _⟩ := checks c
    have e' := (urgentTaken i hf (fun l => (keep l).2.1)).rests h none d
    have p : s.proceed i = (s.modLine i f).modLine i Line.rest := by
      unfold State.proceed
      rw [e, e']
      rfl
    have m : (s.modLine i f).modLine i Line.rest = s.modLine i (fun l => (f l).rest) := modLine_modLine s i f Line.rest
    have hl : ((s.proceed i).line i).pollPos = pos := by
      rw [p, m, modLine_line_same, show (f (s.line i)).rest = _ from hp .done .idle]
    rw [hl, p, m]
    exact modLine_congr s i (hp .done .idle)

/-- After a transaction's end the line is QUIESCED if that was asked for, and goes on if not (R38, R46). -/
theorem afterEnd_goesOn (i : Fin 12) (s : State) :
    ((s.line i).quiesceReq = true → s.afterEnd i = s.modLine i Line.toQuiesced) ∧
      ((s.line i).quiesceReq = false → (s.modLine i Line.toIdle).GoesOn i (s.afterEnd i)) := by
  unfold State.afterEnd
  constructor
  · intro h
    rw [if_pos h]
  · intro h
    rw [if_neg (by simp [h])]
    exact proceed_goesOn i _

/-! ### The end of a transaction (R31, R63, R69, R71, R90, R102, R144, R145) -/

/-- The state `t` differs from `s` in lines, records, domains and racks alone. -/
abbrev State.TablesMoved (s t : State) : Prop :=
  t = { s with lines := t.lines, records := t.records, domains := t.domains, racks := t.racks }

theorem State.TablesMoved.trans {s t u : State} (h : s.TablesMoved t) (k : t.TablesMoved u) : s.TablesMoved u := by
  refine Eq.trans k ?_
  rw [h]

theorem report_tables (i : Fin 12) (a b : Option RecState) (s : State) : s.TablesMoved (s.report i a b) := by
  cases a <;> cases b <;> rfl

theorem updateRecord_tables (n : Nat) (f : Endpoint → Endpoint) (s : State) : s.TablesMoved (s.updateRecord n f) := by
  unfold State.updateRecord
  split
  · rfl
  · unfold State.reportChange State.reportPollable State.reportState
    split <;> split <;> rfl

theorem removeRecord_tables (n : Nat) (s : State) : s.TablesMoved (s.removeRecord n) := by
  unfold State.removeRecord
  split
  · rfl
  · rename_i r _
    exact State.TablesMoved.trans (t := { s with records := s.records.filter (fun x => x.slot != n) }) rfl
      (State.TablesMoved.trans (report_tables r.line _ none _) rfl)

theorem eptEnd_tables (n : Nat) (how : TxnEnd) (s : State) : s.TablesMoved (s.eptEnd n how) := by
  unfold State.eptEnd
  split
  · rfl
  · split
    · exact removeRecord_tables n s
    · exact updateRecord_tables n _ s

theorem stsEnd_tables (n : Nat) (held : Option Answer) (how : TxnEnd) (s : State) : s.TablesMoved (s.stsEnd n held how) := by
  unfold State.stsEnd
  split
  · rfl
  · exact updateRecord_tables n _ s
  · rename_i g
    refine State.TablesMoved.trans ?_ (updateRecord_tables n _ _)
    unfold State.removeRetired
    split
    · split <;> rfl
    · rfl

theorem get_set (m : MemberCounts) (a b : RecState) (n : Nat) : (m.set a n).get b = if b = a then n else m.get b := by
  cases a <;> cases b <;> rfl

theorem membersMoved_refl {i : Fin 12} {a : RecState} {new : Option RecState} (h : new = some a) (s t : State)
    (e : t.racks = s.racks) : s.MembersMoved i a new t := by
  have er : ∀ j, t.rack j = s.rack j := fun j => by
    unfold State.rack
    rw [e]
  intro j
  rw [er]
  exact ⟨rfl, fun st => by rw [if_neg (fun x => x.2 h)]⟩

theorem memberCounts_ext (a b : MemberCounts) (h : ∀ st, a.get st = b.get st) : a = b := by
  obtain ⟨_, _, _, _, _, _⟩ := a
  obtain ⟨_, _, _, _, _, _⟩ := b
  have h1 := h .enrolling
  have h2 := h .tracking
  have h3 := h .suspect
  have h4 := h .lost
  have h5 := h .suspended
  have h6 := h .retiring
  simp_all [MemberCounts.get]

/-- What moves the member counts so says what every rack becomes. -/
theorem membersMoved_unique {i : Fin 12} {a : RecState} {new : Option RecState} {s t u : State}
    (h : s.MembersMoved i a new t) (k : s.MembersMoved i a new u) : t.racks = u.racks := by
  ext1 j hj
  have h' := h ⟨j, hj⟩
  have k' := k ⟨j, hj⟩
  have e : (t.rack ⟨j, hj⟩).members = (u.rack ⟨j, hj⟩).members :=
    memberCounts_ext _ _ (fun st => (h'.2 st).trans (k'.2 st).symm)
  show t.rack ⟨j, hj⟩ = u.rack ⟨j, hj⟩
  rw [h'.1, k'.1, e]

/-- A report to DWU moves the member counts of its rack, and nothing else of a rack (R69, R152). -/
theorem report_moved (i : Fin 12) (a : RecState) {new : Option RecState} (h : new ≠ some a) (s : State) :
    s.MembersMoved i a new (s.report i (some a) new) := by
  intro j
  by_cases hj : j = i
  · subst hj
    cases new with
    | none =>
      have e : (s.report j (some a) none).rack j = (s.rack j).lose a := modRack_rack_same s j _
      rw [e]
      refine ⟨rfl, fun st => ?_⟩
      rw [if_pos ⟨rfl, h⟩]
      refine (get_set _ _ _ _).trans ?_
      by_cases h1 : st = a
      · subst h1
        simp
      · simp [h1]
    | some b =>
      have e : (s.report j (some a) (some b)).rack j = ((s.rack j).lose a).gain b := by
        unfold State.report State.reportNew State.reportOld
        rw [modRack_rack_same, modRack_rack_same]
      rw [e]
      refine ⟨rfl, fun st => ?_⟩
      rw [if_pos ⟨rfl, h⟩]
      have hab : b ≠ a := fun x => h (by rw [x])
      refine (get_set _ _ _ _).trans ?_
      have lost : ∀ st, ((s.rack j).lose a).members.get st =
          if st = a then (s.rack j).members.get a - 1 else (s.rack j).members.get st := fun st => get_set _ _ _ _
      rw [lost, lost]
      by_cases h1 : st = a
      · subst h1
        simp [Ne.symm hab]
      · by_cases h2 : st = b
        · subst h2
          simp [h1]
        · simp [h1, h2, Ne.symm h2]
  · have e : (s.report i (some a) new).rack j = s.rack j := by
      cases new with
      | none => exact modRack_rack_other s _ (Ne.symm hj)
      | some b => exact (modRack_rack_other _ _ (Ne.symm hj)).trans (modRack_rack_other s _ (Ne.symm hj))
    rw [e]
    exact ⟨rfl, fun st => by rw [if_neg (fun x => hj x.1)]⟩

/-- A change of a record moves the member counts as its state moves (R69, R152). -/
theorem updateRecord_moved {slot : Nat} {s : State} {r : Endpoint} (h : s.bySlot slot = some r) (f : Endpoint → Endpoint) :
    s.MembersMoved r.line r.state (some (f r).state) (s.updateRecord slot f) := by
  have pollable : ∀ u : State, (u.reportPollable r (r.keepKey (f r))).racks = u.racks := fun u => by
    unfold State.reportPollable
    split <;> rfl
  unfold State.updateRecord
  rw [h]
  unfold State.reportChange
  by_cases e : (f r).state = r.state
  · refine membersMoved_refl (congrArg some e) s _ ((pollable _).trans ?_)
    unfold State.reportState
    exact (congrArg State.racks (if_pos e)).trans rfl
  · have m := report_moved r.line r.state (new := some (f r).state) (fun x => e (Option.some.inj x))
      (s.putRecord slot (r.keepKey (f r)))
    have er : ∀ j, (((s.putRecord slot (r.keepKey (f r))).reportState r (r.keepKey (f r))).reportPollable r
        (r.keepKey (f r))).rack j =
          ((s.putRecord slot (r.keepKey (f r))).report r.line (some r.state) (some (f r).state)).rack j := fun j => by
      have : (s.putRecord slot (r.keepKey (f r))).reportState r (r.keepKey (f r)) =
          (s.putRecord slot (r.keepKey (f r))).report r.line (some r.state) (some (f r).state) := if_neg e
      rw [this]
      unfold State.rack
      rw [pollable]
    intro j
    show (State.reportPollable _ _ _).rack j = _ ∧ _
    rw [er]
    exact m j

/-- A change of a record that leaves it as pollable as it was leaves the lines (R69). -/
theorem updateRecord_lines {slot : Nat} {s : State} {r : Endpoint} (h : s.bySlot slot = some r) (f : Endpoint → Endpoint)
    (p : r.pollable = true → (r.keepKey (f r)).pollable = true) : (s.updateRecord slot f).lines = s.lines := by
  have lines : ((s.putRecord slot (r.keepKey (f r))).reportState r (r.keepKey (f r))).lines = s.lines := by
    unfold State.reportState
    split
    · rfl
    · exact report_lines ..
  unfold State.updateRecord
  rw [h]
  unfold State.reportChange State.reportPollable
  dsimp only
  rw [if_neg (by cases hp : r.pollable <;> simp_all)]
  exact lines

/-- The record in a slot after the change of that slot. -/
theorem updateRecord_bySlot {slot : Nat} {s : State} {r : Endpoint} (h : s.bySlot slot = some r) (f : Endpoint → Endpoint) :
    (s.updateRecord slot f).bySlot slot = some (r.keepKey (f r)) := by
  unfold State.bySlot
  rw [updateRecord_records, h]
  dsimp only
  have hs := (bySlot_spec h).2
  unfold State.bySlot at h
  generalize s.records = l at h ⊢
  induction l with
  | nil => cases h
  | cons a l ih =>
    rw [List.find?_cons] at h
    rw [List.map_cons, List.find?_cons]
    cases ha : a.slot == slot with
    | true =>
      have : (r.keepKey (f r)).slot = slot := hs
      simp [this]
    | false =>
      rw [ha] at h
      rw [show ((if false = true then r.keepKey (f r) else a).slot == slot) = false from ha]
      exact ih h

/-- The two settlements of a transaction's end, of a record that stays, taken together (R71, R90, R102, R144, R145). -/
theorem endRule_settled (how : TxnEnd) {r : Endpoint} (h : r.withdrawal ≠ .retire) :
    { r.endRule how with answer := none } = r.atEnd how := by
  obtain ⟨_, _, _, _, wd, _, _, _, _, _, _, _, _, _, _, _, _, _, _, cmd, _, toSend, ack, _, _, _, _, _, _, _, _, _⟩ := r
  unfold Endpoint.endRule Endpoint.settle Endpoint.withdraw Endpoint.inFlight Endpoint.atEnd
  by_cases hf : ack = cmd <;> cases how <;> cases toSend <;> cases wd <;> simp_all

/-- EPT's part of a transaction's end leaves the pending grant, which is STS's to settle (R71, R144). -/
theorem endRule_answer (how : TxnEnd) (r : Endpoint) : (r.endRule how).answer = r.answer := by
  have settle : ∀ q : Endpoint, (q.settle how).answer = q.answer := by
    intro q
    unfold Endpoint.settle
    split
    · rfl
    · rfl
    · rfl
    · unfold Endpoint.withdraw
      split <;> rfl
  unfold Endpoint.endRule
  dsimp only
  split
  · exact settle _
  · exact settle _
  · exact settle _

/-- What the domain of an id is after a change of one id's domain. -/
theorem modDomain_find (id id' : Byte) (f : Domain → Domain) (s : State) : (s.modDomain id f).domain id' =
    if id' = id then (s.domain id).map (fun d => { f d with id := d.id }) else s.domain id' := by
  unfold State.modDomain State.domain
  dsimp only
  induction s.domains with
  | nil => simp
  | cons d l ih =>
    rw [List.map_cons, List.find?_cons, ih, List.find?_cons, List.find?_cons]
    by_cases h : id' = id
    · subst h
      cases hd : d.id == id' <;> simp [hd]
    · cases hd : d.id == id with
      | false => simp [h]
      | true =>
        have e : d.id = id := by simpa using hd
        have ne : (id == id') = false := beq_eq_false_iff_ne.2 (Ne.symm h)
        simp [h, e, ne]

/-- What the domain of an id is after the removal of one id's domain (R128). -/
theorem dropDomain_find (id id' : Byte) (s : State) : (s.dropDomain id).domain id' =
    if id' = id then none else s.domain id' := by
  unfold State.dropDomain State.domain
  dsimp only
  rw [List.find?_filter]
  by_cases h : id' = id
  · subst h
    rw [if_pos rfl]
    exact List.find?_eq_none.2 (fun d _ => by simp)
  · rw [if_neg h]
    refine congrArg (fun p => List.find? p s.domains) (funext fun d => ?_)
    by_cases e : d.id = id'
    · simp [e, h]
    · simp [e]

/-- The settlement of a grant with its domain: the domain is settled, or removed where that was its last pending delivery and it
is RETIRING (R128, R144, R145); no other domain changes. -/
theorem settled_find (how : TxnEnd) (g : Grant) (s : State) :
    (∀ d, s.domain g.domain = some d →
      ((s.modDomain g.domain (Domain.settled how g.count)).removeRetired g.domain).domain g.domain =
        if d.state = .retiring ∧ d.pendingDel ≤ 1 then none
        else some { d with
          pendingDel := d.pendingDel - 1
          burned := if how = .abandoned then min 4294967295 (d.burned + g.count) else d.burned }) ∧
    ∀ id, g.domain ≠ id →
      ((s.modDomain g.domain (Domain.settled how g.count)).removeRetired g.domain).domain id = s.domain id := by
  constructor
  · intro d hd
    have e := modDomain_find g.domain g.domain (Domain.settled how g.count) s
    rw [if_pos rfl, hd] at e
    have c : (d.state = .retiring ∧ d.pendingDel - 1 = 0) ↔ (d.state = .retiring ∧ d.pendingDel ≤ 1) :=
      and_congr_right (fun _ => by omega)
    unfold State.removeRetired
    rw [e]
    show State.domain (if d.state = .retiring ∧ d.pendingDel - 1 = 0 then _ else _) _ = _
    rw [if_congr c rfl rfl]
    split
    · rw [dropDomain_find, if_pos rfl]
    · exact e
  · intro id hid
    have e := modDomain_find g.domain id (Domain.settled how g.count) s
    rw [if_neg (Ne.symm hid)] at e
    unfold State.removeRetired
    split
    · split
      · rw [dropDomain_find, if_neg (Ne.symm hid), e]
      · exact e
    · exact e

/-- STS's part of a transaction's end changes domains, and of its record the pending grant alone (R144, R145). -/
theorem stsEnd_spec {slot : Nat} {s : State} {r : Endpoint} (h : s.bySlot slot = some r) (how : TxnEnd) :
    (s.stsEnd slot r.answer how).records =
        s.records.map (fun q => if q.slot = slot then { r with answer := none } else q) ∨
      r.answer = none ∧ (s.stsEnd slot r.answer how).records = s.records := by
  have calm : ∀ u : State, u.bySlot slot = some r → u.records = s.records →
      (u.updateRecord slot (fun r => { r with answer := none })).records =
        s.records.map (fun q => if q.slot = slot then { r with answer := none } else q) := by
    intro u hu e
    rw [updateRecord_records, hu, ← e]
    exact List.map_congr_left (fun q _ => by simp [Endpoint.keepKey])
  cases ha : r.answer with
  | none => exact Or.inr ⟨rfl, rfl⟩
  | some a =>
    refine Or.inl ?_
    cases a with
    | refusal => exact calm s h rfl
    | grant g =>
      refine calm ((s.modDomain g.domain (Domain.settled how g.count)).removeRetired g.domain) ?_ ?_
      · unfold State.removeRetired
        split
        · split <;> exact h
        · exact h
      · unfold State.removeRetired
        split
        · split <;> rfl
        · rfl

/-- STS's part of a transaction's end leaves lines and racks (R144, R145). -/
theorem stsEnd_still (slot : Nat) (held : Option Answer) (how : TxnEnd) (s : State) :
    (s.stsEnd slot held how).lines = s.lines ∧ (s.stsEnd slot held how).racks = s.racks := by
  have calm : ∀ u : State, (u.updateRecord slot (fun r => { r with answer := none })).lines = u.lines ∧
      (u.updateRecord slot (fun r => { r with answer := none })).racks = u.racks := by
    intro u
    cases h : u.bySlot slot with
    | none =>
      unfold State.updateRecord
      rw [h]
      exact ⟨rfl, rfl⟩
    | some r =>
      rw [updateRecord_calm slot _ u h rfl rfl]
      exact ⟨rfl, rfl⟩
  have retired : ∀ (u : State) id, (u.removeRetired id).lines = u.lines ∧ (u.removeRetired id).racks = u.racks := by
    intro u id
    unfold State.removeRetired
    split
    · split <;> exact ⟨rfl, rfl⟩
    · exact ⟨rfl, rfl⟩
  unfold State.stsEnd
  split
  · exact ⟨rfl, rfl⟩
  · exact calm s
  · obtain ⟨c1, c2⟩ := calm ((s.modDomain _ (Domain.settled how _)).removeRetired _)
    obtain ⟨d1, d2⟩ := retired (s.modDomain _ (Domain.settled how _)) _
    exact ⟨c1.trans d1, c2.trans d2⟩

/-- STS's part of a transaction's end settles the domain of the grant that the subject held (R144, R145). -/
theorem stsEnd_domains (slot : Nat) (held : Option Answer) (how : TxnEnd) (s : State) :
    ((∀ g, held ≠ some (.grant g)) → (s.stsEnd slot held how).domains = s.domains) ∧
    ∀ g, held = some (.grant g) → ∀ id, (s.stsEnd slot held how).domain id =
      ((s.modDomain g.domain (Domain.settled how g.count)).removeRetired g.domain).domain id := by
  unfold State.stsEnd
  constructor
  · intro h
    split
    · rfl
    · exact updateRecord_domains ..
    · exact absurd rfl (h _)
  · rintro g rfl id
    unfold State.domain
    rw [updateRecord_domains]

/-- What the end of a transaction does (R31, R63, R69, R71, R90, R102, R144, R145). -/
theorem endTransaction_ends {i : Fin 12} {how : TxnEnd} {x : Transaction} {r : Endpoint} {s : State}
    (tx : (s.line i).transaction = some x) (find : s.bySlot x.slot = some r) (own : r.line = i) :
    s.TxnEnds i how x r (s.endTransaction i how) := by
  have hs := (bySlot_spec find).2
  have held : s.heldAnswer x.slot = r.answer := by
    unfold State.heldAnswer
    rw [find]
    rfl
  have e : s.endTransaction i how = ((s.eptEnd x.slot how).stsEnd x.slot r.answer how).modLine i Line.noTransaction := by
    unfold State.endTransaction
    rw [tx]
    dsimp only
    rw [held]
  have still := stsEnd_still x.slot r.answer how (s.eptEnd x.slot how)
  have doms := stsEnd_domains x.slot r.answer how (s.eptEnd x.slot how)
  have edoms : (s.eptEnd x.slot how).domains = s.domains := by
    unfold State.eptEnd
    rw [find]
    dsimp only
    split
    · exact removeRecord_domains ..
    · exact updateRecord_domains ..
  have efind : ∀ id, (s.eptEnd x.slot how).domain id = s.domain id := fun id => by
    unfold State.domain
    rw [edoms]
  have sfind := settled_find how
  have esettled : ∀ (g : Grant) (id : Byte), (((s.eptEnd x.slot how).modDomain g.domain (Domain.settled how g.count)).removeRetired
      g.domain).domain id = ((s.modDomain g.domain (Domain.settled how g.count)).removeRetired g.domain).domain id := by
    intro g id
    by_cases h : g.domain = id
    · subst h
      cases hd : s.domain g.domain with
      | some d => rw [(sfind g s).1 d hd, (sfind g (s.eptEnd x.slot how)).1 d ((efind _).trans hd)]
      | none =>
        have none1 : ∀ u : State, u.domain g.domain = none →
            ((u.modDomain g.domain (Domain.settled how g.count)).removeRetired g.domain).domain g.domain = none := by
          intro u hu
          have m := modDomain_find g.domain g.domain (Domain.settled how g.count) u
          rw [if_pos rfl, hu] at m
          unfold State.removeRetired
          rw [m]
          exact m
        rw [none1 s hd, none1 _ ((efind _).trans hd)]
    · rw [(sfind g s).2 id h, (sfind g (s.eptEnd x.slot how)).2 id h, efind]
  have lineE : ∀ j, (s.endTransaction i how).line j =
      if j = i then ((s.eptEnd x.slot how).line i).noTransaction else (s.eptEnd x.slot how).line j := by
    have sl : ∀ j, ((s.eptEnd x.slot how).stsEnd x.slot r.answer how).line j = (s.eptEnd x.slot how).line j := fun j => by
      unfold State.line
      rw [still.1]
    intro j
    rw [e]
    by_cases h : j = i
    · subst h
      rw [modLine_line_same, if_pos rfl, sl]
    · rw [modLine_line_other _ _ (Ne.symm h), if_neg h, sl]
  have rackE : ∀ j, (s.endTransaction i how).rack j = (s.eptEnd x.slot how).rack j := fun j => by
    rw [e]
    unfold State.rack
    exact congrArg (fun v : Vector Rack 12 => v[j]) still.2
  have tables : s.TablesMoved (s.endTransaction i how) := by
    rw [e]
    exact (eptEnd_tables x.slot how s).trans ((stsEnd_tables x.slot r.answer how _).trans rfl)
  have recE : (s.endTransaction i how).records = ((s.eptEnd x.slot how).stsEnd x.slot r.answer how).records := by
    rw [e]
    rfl
  have domE : (s.endTransaction i how).domains = ((s.eptEnd x.slot how).stsEnd x.slot r.answer how).domains := by
    rw [e]
    rfl
  have dfindE : ∀ id, (s.endTransaction i how).domain id =
      ((s.eptEnd x.slot how).stsEnd x.slot r.answer how).domain id := fun id => by
    unfold State.domain
    rw [domE]
  -- EPT's part
  have gone : r.withdrawal = .retire → s.eptEnd x.slot how = s.removeRecord x.slot := fun w => by
    unfold State.eptEnd
    rw [find]
    exact if_pos w
  have stays : r.withdrawal ≠ .retire → s.eptEnd x.slot how = s.updateRecord x.slot (Endpoint.endRule how) := fun w => by
    unfold State.eptEnd
    rw [find]
    exact if_neg w
  have goneLine : r.withdrawal = .retire → ∀ j, (s.removeRecord x.slot).line j =
      if j = i then (s.line i).dropSlot x.slot else s.line j := by
    intro w j
    unfold State.removeRecord
    rw [find, ← own]
    dsimp only
    by_cases h : j = r.line
    · subst h
      rw [modLine_line_same, if_pos rfl]
      exact congrArg (Line.dropSlot x.slot) (congrArg (fun v : Vector Line 12 => v[r.line]) (report_lines ..))
    · rw [modLine_line_other _ _ (Ne.symm h), if_neg h]
      exact congrArg (fun v : Vector Line 12 => v[j]) (report_lines ..)
  have stayLine : r.withdrawal ≠ .retire → ∀ j, (s.updateRecord x.slot (Endpoint.endRule how)).line j = s.line j := by
    intro w j
    unfold State.line
    rw [updateRecord_lines find]
    intro p
    have wd : r.withdrawal = .no := by
      unfold Endpoint.pollable at p
      rw [Bool.and_eq_true] at p
      exact of_decide_eq_true p.2
    have k : (r.keepKey (r.endRule how)).withdrawal = .no ∧ (r.keepKey (r.endRule how)).state = r.state := by
      have := congrArg Endpoint.withdrawal (endRule_settled how w)
      have st := congrArg Endpoint.state (endRule_settled how w)
      exact ⟨this, st.trans (if_neg (by rw [wd]; decide))⟩
    unfold Endpoint.pollable at p ⊢
    rw [k.1, k.2]
    rw [wd] at p
    exact p
  refine ⟨tables, ?_, fun j hj => ?_, fun w => ?_, fun w => ?_, ?_, fun h => ?_, fun g d ha hd => ?_, fun id h => ?_⟩
  · rw [lineE, if_pos rfl]
    by_cases w : r.withdrawal = .retire
    · rw [if_pos w, if_pos w, gone w, goneLine w, if_pos rfl]
      rfl
    · rw [if_neg w, if_neg w, stays w, stayLine w]
      rfl
  · rw [lineE, if_neg hj]
    by_cases w : r.withdrawal = .retire
    · rw [gone w, goneLine w, if_neg hj]
    · rw [stays w, stayLine w]
  · rw [recE, gone w]
    have rr := removeRecord_records x.slot s
    rw [find] at rr
    have none : ∀ u : State, u.records = s.records.filter (fun q => q.slot != x.slot) → u.bySlot x.slot = none := by
      intro u hu
      unfold State.bySlot
      rw [hu]
      exact List.find?_eq_none.2 (fun q hq => by simpa using (List.mem_filter.1 hq).2)
    have un : ∀ u : State, u.records = s.records.filter (fun q => q.slot != x.slot) →
        (u.updateRecord x.slot (fun r => { r with answer := .none })).records =
          s.records.filter (fun q => q.slot != x.slot) := by
      intro u hu
      unfold State.updateRecord
      rw [none u hu]
      exact hu
    unfold State.stsEnd
    split
    · exact rr
    · exact un _ rr
    · refine un _ ?_
      unfold State.removeRetired
      split
      · split <;> exact rr
      · exact rr
  · rw [recE, stays w]
    have f2 := updateRecord_bySlot find (Endpoint.endRule how)
    have ans : (r.keepKey (r.endRule how)).answer = r.answer := endRule_answer how r
    have r2 : (s.updateRecord x.slot (Endpoint.endRule how)).records =
        s.records.map (fun q => if q.slot = x.slot then r.keepKey (r.endRule how) else q) := by
      rw [updateRecord_records, find]
      exact List.map_congr_left (fun q _ => by simp)
    have key : ({ r.keepKey (r.endRule how) with answer := none } : Endpoint) = r.atEnd how := by
      have := endRule_settled how w
      rw [← this]
      have k1 := congrArg Endpoint.slot this
      have k2 := congrArg Endpoint.line this
      have k3 := congrArg Endpoint.addr this
      have j1 : r.slot = (r.endRule how).slot := k1.symm
      have j2 : r.line = (r.endRule how).line := k2.symm
      have j3 : r.addr = (r.endRule how).addr := k3.symm
      unfold Endpoint.keepKey
      rw [j1, j2, j3]
    have slotE : (r.keepKey (r.endRule how)).slot = x.slot := hs
    rw [← ans]
    rcases stsEnd_spec f2 how with h | ⟨h0, h⟩
    · rw [h, r2, List.map_map]
      refine List.map_congr_left (fun q _ => ?_)
      simp only [Function.comp]
      by_cases hq : q.slot = x.slot
      · rw [if_pos hq, if_pos hq, if_pos slotE, key]
      · rw [if_neg hq, if_neg hq, if_neg hq]
    · rw [h, r2]
      refine List.map_congr_left (fun q _ => ?_)
      by_cases hq : q.slot = x.slot
      · rw [if_pos hq, if_pos hq, ← key, ← h0]
      · rw [if_neg hq, if_neg hq]
  · intro j
    rw [rackE]
    by_cases w : r.withdrawal = .retire
    · rw [if_pos w, gone w]
      have m := report_moved r.line r.state (new := none) (by simp)
        { s with records := s.records.filter (fun q => q.slot != x.slot) }
      have er : (s.removeRecord x.slot).rack j = (({ s with records := s.records.filter (fun q => q.slot != x.slot) } : State).report
          r.line (some r.state) none).rack j := by
        unfold State.removeRecord
        rw [find]
        rfl
      rw [er, ← own]
      exact m j
    · have st : (r.atEnd how).state = (r.endRule how).state := by
        rw [← endRule_settled how w]
      rw [if_neg w, stays w, st, ← own]
      exact updateRecord_moved find (Endpoint.endRule how) j
  · rw [domE, doms.1 h, edoms]
  · rw [dfindE, doms.2 g ha, esettled]
    exact (sfind g s).1 d hd
  · rw [dfindE]
    cases ha : r.answer with
    | none =>
      rw [ha] at doms
      rw [← efind]
      unfold State.domain
      rw [doms.1 (by simp)]
    | some a =>
      rw [ha] at doms
      cases a with
      | refusal =>
        rw [← efind]
        unfold State.domain
        rw [doms.1 (by simp)]
      | grant g =>
        rw [doms.2 g rfl, esettled]
        exact (sfind g s).2 id (h g ha)

/-- Whether the start of this instant still stands is what the statements say (R33, R40, R53). -/
theorem startsNow_iff {i : Fin 12} {b : Begun} {s : State} (h : (s.line i).begun = some b) :
    s.startsNow i = true ↔ s.BegunNow i b := by
  have stays : ∀ n, s.subjectStays n = true ↔ ∃ r, s.bySlot n = some r ∧ r.withdrawal = .no := by
    intro n
    unfold State.subjectStays
    cases s.bySlot n <;> simp
  unfold State.startsNow State.BegunNow
  rw [h]
  cases (s.line i).state <;> cases (s.line i).transaction <;> simp [stays]

/-- Leaving a transaction marks that record alone. -/
theorem leaveTxn_spec (slot : Nat) (s : State) : s.leaveTxn slot = { s with records := (s.leaveTxn slot).records } ∧
    (s.SlotsRise → (s.leaveTxn slot).records = s.records.map (fun r => if slot = r.slot then { r with inTxn := false } else r)) := by
  unfold State.leaveTxn
  cases h : s.bySlot slot with
  | none =>
    unfold State.updateRecord
    rw [h]
    refine ⟨rfl, fun _ => ?_⟩
    have e : ∀ r ∈ s.records, (if slot = r.slot then { r with inTxn := false } else r : Endpoint) = r := by
      intro r hr
      have := List.find?_eq_none.1 h r hr
      exact if_neg (fun e => this (by simp [e]))
    rw [List.map_congr_left e, List.map_id']
  | some r =>
    rw [updateRecord_calm slot _ s h rfl rfl]
    refine ⟨rfl, fun k => List.map_congr_left (fun q hq => ?_)⟩
    obtain ⟨hr, hs⟩ := bySlot_spec h
    by_cases e : slot = q.slot
    · have : q = r := slot_unique k hq hr (e.symm.trans hs.symm)
      rw [this]
      simp [hs, Endpoint.keepKey]
    · simp [e, Ne.symm e]

/-- What a line fault or a LINE_RESET finds of a line (R33, R40). -/
theorem foundIdle_found (i : Fin 12) (s : State) : s.FoundIdle i (s.foundIdle i) := by
  by_cases now : ∃ b, s.BegunNow i b
  · obtain ⟨b, hb⟩ := now
    have same : ∀ c, s.BegunNow i c → c = b := fun c hc => Option.some.inj (hc.1.symm.trans hb.1)
    have hl : (s.modLine i (Line.unbegin b)).line i = Line.unbegin b (s.line i) := modLine_line_same s i _
    have hline : Line.unbegin b (s.line i) = { s.line i with
        state := .idle, transaction := none, tx := none, txNumber := b.txNumber, rate := b.rate
        urgent := b.urgent.filter (fun n =>
          decide (n ∈ (s.line i).urgent ∨ (s.line i).transaction.map Transaction.slot = some n))
        rx := [], rxOpen := false, windowEnd := none, windowElapsed := false } := by
      have : ∀ n, ((s.line i).urgent.contains n || (s.line i).transaction.any (fun x => x.slot == n)) =
          decide (n ∈ (s.line i).urgent ∨ (s.line i).transaction.map Transaction.slot = some n) := by
        intro n
        cases (s.line i).transaction <;> simp [Bool.decide_or, beq_eq_decide]
      unfold Line.unbegin
      simp only [this]
      rfl
    have others : ∀ j, j ≠ i → (s.modLine i (Line.unbegin b)).line j = s.line j :=
      fun j hj => modLine_line_other s _ (Ne.symm hj)
    cases ht : (s.line i).transaction with
    | none =>
      have begun : s.foundIdle i = s.modLine i (Line.unbegin b) := by
        unfold State.foundIdle
        simp only [hb.1, (startsNow_iff hb.1).2 hb, if_true, ht]
      rw [begun]
      refine ⟨fun h => absurd hb (h b), fun c hc => ?_, rfl, others, fun _ _ _ => ?_⟩
      · rw [same c hc, hl, hline]
      · simp [ht]
    | some x =>
      have begun : s.foundIdle i = (s.modLine i (Line.unbegin b)).leaveTxn x.slot := by
        unfold State.foundIdle
        simp only [hb.1, (startsNow_iff hb.1).2 hb, if_true, ht]
      rw [begun]
      obtain ⟨e, recs⟩ := leaveTxn_spec x.slot (s.modLine i (Line.unbegin b))
      have lines : ((s.modLine i (Line.unbegin b)).leaveTxn x.slot).lines = (s.modLine i (Line.unbegin b)).lines := by rw [e]
      have line : ∀ j, ((s.modLine i (Line.unbegin b)).leaveTxn x.slot).line j = (s.modLine i (Line.unbegin b)).line j := by
        intro j
        unfold State.line
        rw [lines]
      refine ⟨fun h => absurd hb (h b), fun c hc => ?_, ?_, fun j hj => (line j).trans (others j hj), fun _ _ k => ?_⟩
      · rw [line, same c hc, hl, hline]
      · conv_lhs => rw [e]
        rw [lines]
        rfl
      · refine (recs k).trans (List.map_congr_left (fun r _ => ?_))
        simp [ht]
  · have stands : s.foundIdle i = s := by
      unfold State.foundIdle
      split
      · rfl
      · rename_i b hb
        rw [if_neg (fun h => now ⟨b, (startsNow_iff hb).1 h⟩)]
    rw [stands]
    exact ⟨fun _ => rfl, fun b hb => absurd ⟨b, hb⟩ now, rfl, fun _ _ => rfl, fun b hb => absurd ⟨b, hb⟩ now⟩

/-- What an abandonment leaves to be sent of a frame is what is still to go out of one that is cut off (R26). -/
theorem cutTail_cutOff (now : Nat) (l : Line) : l.CutOff now (l.cutTail now) := by
  refine ⟨fun f hf h1 h2 => ⟨_, rfl, ?_⟩, fun h => ?_⟩
  · unfold Line.cutTail TxFrame.cut
    rw [hf, Option.bind_some, if_neg (by omega)]
    rfl
  · unfold Line.cutTail TxFrame.cut
    cases hf : l.tx with
    | none => rfl
    | some f =>
      rw [Option.bind_some, if_pos (h f hf)]
      rfl

/-- What an abandonment does (R26, R31). -/
theorem abandon_abandons (i : Fin 12) (s : State) : s.Abandons i (s.abandon i) := by
  have hl : (s.modLine i (Line.hush s.localNs)).line i = (s.line i).silenced ((s.line i).cutTail s.localNs) :=
    modLine_line_same s i _
  have same : ∀ tail, tail = (s.line i).cutTail s.localNs → s.modLine i (Line.silenced tail) = s.modLine i (Line.hush s.localNs) :=
    fun tail h => modLine_congr s i (by rw [h]; rfl)
  have idle : (s.line i).transaction = none → s.abandon i = s.modLine i (Line.hush s.localNs) := by
    intro h
    unfold State.abandon State.endTransaction
    rw [hl]
    simp only [Line.silenced, h]
  have tail : ((s.abandon i).line i).tail = (s.line i).cutTail s.localNs := by
    unfold State.abandon State.endTransaction
    split
    · rw [hl]
      rfl
    · rename_i x hx
      rw [modLine_line_same]
      have keep : ∀ u : State, ∀ y : Option TxFrame, (u.line i).tail = y → ((u.eptEnd x.slot .abandoned).line i).tail = y := by
        intro u y hy
        have drop : ∀ (v : State) (n : Nat) (j : Fin 12), (v.line i).tail = y → ((v.modLine j (Line.dropSlot n)).line i).tail = y := by
          intro v n j hv
          by_cases h : j = i
          · subst h
            rw [modLine_line_same]
            exact hv
          · rw [modLine_line_other _ _ h]
            exact hv
        unfold State.eptEnd
        split
        · exact hy
        · split
          · unfold State.removeRecord
            split
            · exact hy
            · refine drop _ _ _ ?_
              unfold State.line
              rw [report_lines]
              exact hy
          · unfold State.updateRecord
            split
            · exact hy
            · have st : ∀ (v : State) (a b : Endpoint), (v.line i).tail = y → ((v.reportState a b).line i).tail = y := by
                intro v a b hv
                unfold State.reportState
                split
                · exact hv
                · unfold State.line
                  rw [report_lines]
                  exact hv
              unfold State.reportChange State.reportPollable
              split
              · exact drop _ _ _ (st _ _ _ hy)
              · exact st _ _ _ hy
      show (((State.eptEnd _ _ _).stsEnd _ _ _).line i).tail = _
      unfold State.line
      rw [(stsEnd_still _ _ _ _).1]
      exact keep _ _ (by rw [hl]; rfl)
  refine ⟨fun h => ?_, fun x r hx hr own => ?_, tail ▸ cutTail_cutOff _ _⟩
  · rw [same _ tail, idle h]
  · rw [same _ tail]
    refine endTransaction_ends ?_ hr own
    rw [hl]
    exact hx

/-- The miss rule (R77). -/
theorem missRule_missed (limit : Nat) (r : Endpoint) : r.Missed limit (r.missRule limit) := by
  constructor
  · intro h1 h2 h3
    have h4 : limit ≤ 15 ∧ limit ≤ r.missCount + 1 := by omega
    unfold Endpoint.missRule
    rcases h2 with h2 | h2 | h2 <;> simp [h1, h2, satAdd, inc16, h4]
  · intro h
    unfold Endpoint.missRule
    rcases hw : r.withdrawal <;> rcases hs : r.state <;> simp [hw, hs, satAdd, inc16] at * <;> simp_all

/-- The miss rule leaves the record's key and withdrawal, and a pollable record pollable (R77). -/
theorem missRule_keeps (limit : Nat) (r : Endpoint) : r.keepKey (r.missRule limit) = r.missRule limit ∧
    (r.pollable = true → (r.missRule limit).pollable = true) := by
  unfold Endpoint.missRule Endpoint.keepKey Endpoint.pollable
  rcases hw : r.withdrawal <;> rcases hs : r.state <;> dsimp only <;> (try split) <;> simp_all

/-- What EPT does at a MISS (R77). -/
theorem eptMiss_spec {slot limit : Nat} {s : State} {r : Endpoint} (h : s.bySlot slot = some r) :
    s.eptMiss slot limit = { s with
      records := s.records.map (fun q => if q.slot = slot then r.missRule limit else q)
      racks := (s.eptMiss slot limit).racks, port := (s.eptMiss slot limit).port } ∧
    s.MembersMoved r.line r.state (some (r.missRule limit).state) (s.eptMiss slot limit) ∧
    ((r.missRule limit).state = .lost ∧ r.state ≠ .lost → (s.eptMiss slot limit).port = (s.raise .lost).port) ∧
    (¬((r.missRule limit).state = .lost ∧ r.state ≠ .lost) → (s.eptMiss slot limit).port = s.port) ∧
    (s.eptMiss slot limit).bySlot slot = some (r.missRule limit) := by
  obtain ⟨key, poll⟩ := missRule_keeps limit r
  have t := updateRecord_tables slot (Endpoint.missRule limit) s
  have lines := updateRecord_lines h (Endpoint.missRule limit) (fun p => by rw [key]; exact poll p)
  have recs := updateRecord_records slot (Endpoint.missRule limit) s
  rw [h] at recs
  dsimp only at recs
  have doms := updateRecord_domains slot (Endpoint.missRule limit) s
  have mem := updateRecord_moved h (Endpoint.missRule limit)
  have find := updateRecord_bySlot h (Endpoint.missRule limit)
  rw [key] at recs find
  have map : (s.updateRecord slot (Endpoint.missRule limit)).records =
      s.records.map (fun q => if q.slot = slot then r.missRule limit else q) := by
    rw [recs]
    refine List.map_congr_left (fun q _ => ?_)
    by_cases e : q.slot = slot <;> simp [e]
  have e : s.updateRecord slot (Endpoint.missRule limit) = { s with
      records := s.records.map (fun q => if q.slot = slot then r.missRule limit else q)
      racks := (s.updateRecord slot (Endpoint.missRule limit)).racks } := by
    refine Eq.trans t ?_
    rw [lines, map, doms]
  have port : (s.updateRecord slot (Endpoint.missRule limit)).port = s.port := by rw [e]
  unfold State.eptMiss
  rw [h]
  dsimp only
  by_cases lost : r.state ≠ .lost ∧ (r.missRule limit).state = .lost
  · rw [if_pos lost]
    refine ⟨?_, mem, fun _ => ?_, fun n => absurd lost.symm n, find⟩
    · change _ = { s with
        records := _, racks := (s.updateRecord slot (Endpoint.missRule limit)).racks
        port := ((s.updateRecord slot (Endpoint.missRule limit)).raise .lost).port }
      generalize (s.updateRecord slot (Endpoint.missRule limit)).racks = k at e ⊢
      rw [e]
      rfl
    · unfold State.raise State.modPort
      dsimp only
      rw [port]
  · rw [if_neg lost]
    exact ⟨by conv_lhs => rw [e]
              rw [port], mem, fun y => absurd y.symm lost, fun _ => port, find⟩

/-- What a MISS does, and how the line goes on after it (R38, R55, R63, R77). -/
theorem miss_misses (i : Fin 12) (s : State) : s.Misses i (s.miss i) := by
  intro x r hx hr own
  obtain ⟨tables, mem, lost, kept, find⟩ := eptMiss_spec (limit := (s.line i).missLimit)
    (show (s.modLine i Line.countMiss).bySlot x.slot = some r by rw [modLine_bySlot]; exact hr)
  have hl : ((s.modLine i Line.countMiss).eptMiss x.slot (s.line i).missLimit).line i = Line.countMiss (s.line i) := by
    rw [tables]
    exact modLine_line_same s i _
  have line : (r.missRule (s.line i).missLimit).line = i := by
    rw [← (missRule_keeps (s.line i).missLimit r).1]
    exact own
  have ends := endTransaction_ends (how := .missed) (show (((s.modLine i Line.countMiss).eptMiss x.slot
    (s.line i).missLimit).line i).transaction = some x by rw [hl]; exact hx) find line
  have q : ((((s.modLine i Line.countMiss).eptMiss x.slot (s.line i).missLimit).endTransaction i .missed).line i).quiesceReq =
      (s.line i).quiesceReq := by
    rw [ends.line, hl]
    rfl
  obtain ⟨g1, g2⟩ := afterEnd_goesOn i (((s.modLine i Line.countMiss).eptMiss x.slot (s.line i).missLimit).endTransaction i
    .missed)
  rw [q] at g1 g2
  have e : s.miss i = (((s.modLine i Line.countMiss).eptMiss x.slot (s.line i).missLimit).endTransaction i .missed).afterEnd
      i := by
    unfold State.miss
    rw [hx]
  rw [e]
  rw [own] at mem
  exact ⟨_, _, _, missRule_missed _ r, tables, mem, lost, kept, ends, g1, g2⟩

/-- What the end of a discovery window does (R38, R48, R66). -/
theorem endDiscovery_ends (i : Fin 12) (s : State) : s.DiscoveryEnds i (s.endDiscovery i) := by
  have hl : (s.modLine i Line.closeWindow).line i = (s.line i).closeWindow := modLine_line_same s i _
  constructor
  · intro h
    unfold State.endDiscovery State.afterEnd
    rw [hl, if_pos (show (s.line i).closeWindow.quiesceReq = true from h), modLine_modLine]
    rfl
  all_goals
    intro h ph late
    unfold State.endDiscovery State.afterEnd
    rw [hl, if_neg (by rw [show (s.line i).closeWindow.quiesceReq = _ from h]; decide), modLine_modLine]
    have hl' : (s.modLine i (fun l => l.closeWindow.toIdle)).line i = (s.line i).closeWindow.toIdle := modLine_line_same s i _
    unfold State.proceed State.goOn
    rw [hl', show (s.line i).closeWindow.toIdle.phase = .discovery from ph,
      show (s.line i).closeWindow.toIdle.periodElapsed = _ from late]
    dsimp only
    rw [modLine_modLine]
  · rw [if_neg Bool.false_ne_true, modLine_modLine]
    rfl
  · rw [if_pos rfl, modLine_modLine]
    exact newCycle_starts i _

end Sys2Proof.Machine
end

