-- ==== Sys2Proof/Laws/Frames.lean ====
section
/-! SUPPORT. The model's judgement of received frames and its assembly of a CLOSE, said once in the terms the statements use
(R28, R185 to R188). -/

namespace Sys2Proof.Machine

open Sys2Proof

/-! ### Fields of bytes -/

theorem natOf_append (a b : List Byte) : natOf (a ++ b) = natOf a * 256 ^ b.length + natOf b := by
  induction b using List.reverseRecOn with
  | nil => simp [natOf]
  | append_singleton b x ih =>
    have snoc : ∀ l : List Byte, natOf (l ++ [x]) = natOf l * 256 + x.toNat := fun l => by simp [natOf]
    rw [← List.append_assoc, snoc, ih, snoc, List.length_append, List.length_singleton, Nat.pow_succ]
    ring

theorem natOf_cons (x : Byte) (l : List Byte) : natOf (x :: l) = x.toNat * 256 ^ l.length + natOf l := by
  have := natOf_append [x] l
  simpa [natOf] using this

theorem natOf_below (l : List Byte) : natOf l < 256 ^ l.length := by
  induction l with
  | nil => simp [natOf]
  | cons x l ih =>
    rw [natOf_cons, List.length_cons, Nat.pow_succ]
    have := x.isLt
    nlinarith

/-- The bytes of what bytes spell are those bytes. -/
theorem bytesOf_natOf (l : List Byte) : ∀ k, bytesOf l.length (k * 256 ^ l.length + natOf l) = l := by
  induction l with
  | nil => intro k; rfl
  | cons x l ih =>
    intro k
    have h : k * 256 ^ (x :: l).length + natOf (x :: l) = (k * 256 + x.toNat) * 256 ^ l.length + natOf l := by
      rw [natOf_cons, List.length_cons, Nat.pow_succ]
      ring
    have q : ((k * 256 + x.toNat) * 256 ^ l.length + natOf l) / 256 ^ l.length = k * 256 + x.toNat := by
      rw [Nat.mul_comm _ (256 ^ l.length), Nat.mul_add_div (by positivity), Nat.div_eq_of_lt (natOf_below l), Nat.add_zero]
    rw [h]
    unfold bytesOf
    rw [List.length_cons]
    dsimp only
    rw [q, ih]
    congr 1
    apply BitVec.eq_of_toNat_eq
    have := x.isLt
    simp only [BitVec.toNat_ofNat]
    omega

/-- What the bytes of a count in range spell is that count. -/
theorem natOf_bytesOf : ∀ (n v : Nat), v < 256 ^ n → natOf (bytesOf n v) = v := by
  have gen : ∀ n v, natOf (bytesOf n v) = v % 256 ^ n ∧ (bytesOf n v).length = n := by
    intro n
    induction n with
    | zero => intro v; simp [bytesOf, natOf, Nat.mod_one]
    | succ n ih =>
      intro v
      obtain ⟨h1, h2⟩ := ih v
      refine ⟨?_, by simp [bytesOf, h2]⟩
      show natOf (BitVec.ofNat 8 (v / 256 ^ n) :: bytesOf n v) = _
      rw [natOf_cons, h1, h2, BitVec.toNat_ofNat, show v % 256 ^ (n + 1) = v % 256 ^ n + 256 ^ n * (v / 256 ^ n % 256) from
        (congrArg (v % ·) (Nat.pow_succ ..)).trans (Nat.mod_mul ..), Nat.mul_comm, Nat.add_comm]
  intro n v h
  rw [(gen n v).1, Nat.mod_eq_of_lt h]

/-- A field's bytes. -/
theorem bytesOf_field {l : List Byte} {off n : Nat} (h : off + n ≤ l.length) :
    bytesOf n (field l off n) = (l.drop off).take n := by
  have hl : ((l.drop off).take n).length = n := by simp; omega
  have := bytesOf_natOf ((l.drop off).take n) 0
  rw [hl, Nat.zero_mul, Nat.zero_add] at this
  exact this

/-- A one-byte field. -/
theorem field_byte (l : List Byte) (off : Nat) : field l off 1 = (l.getD off 0).toNat := by
  unfold field
  rw [List.getD_eq_getElem?_getD, ← List.head?_drop]
  cases l.drop off with
  | nil => rfl
  | cons x r => simp [natOf]

/-! ### Received frames (R28, R186, R187) -/

/-- A length is allowed for a type in the terms of R186. -/
theorem lengthAllowed_iff (type len : Byte) : lengthAllowed type len = true ↔ LengthAllowed type len := by
  unfold lengthAllowed allowedLengths LengthAllowed
  by_cases h1 : type = 0x31
  · simp [h1]
  by_cases h2 : type = 0x32
  · simp [h2]
  by_cases h3 : type = 0x33
  · simp [h3]
  by_cases h4 : type = 0x34
  · simp [h4]
  by_cases h5 : type = 0x35
  · simp [h5]
  simp only [h1, h2, h3, h4, h5, or_self, if_false, false_and, false_or, ne_eq, not_false_eq_true, true_and]

/-- A frame is complete in the terms of R28 and R186. -/
theorem frameComplete_iff (cs : List RxChar) : frameComplete cs = true ↔ FrameFull cs := by
  unfold FrameFull
  rcases cs with _ | ⟨a, _ | ⟨t, _ | ⟨l, rest⟩⟩⟩
  · simp [frameComplete]
  · simp [frameComplete]
  · simp [frameComplete]
  · simp [frameComplete, lengthAllowed_iff, and_comm]

/-- A follower's type is REPLY or ANNOUNCE (R186). -/
theorem followerType_iff (bs : List Byte) : followerType bs = true ↔ bs[1]? = some 0x32 ∨ bs[1]? = some 0x35 := by
  have byte : ∀ (n : Nat) (b : Byte), b.toNat = n → n ≠ 0 → ((bs.getD 1 0).toNat = n ↔ bs[1]? = some b) := by
    intro n b hb hn
    rw [List.getD_eq_getElem?_getD]
    cases bs[1]? with
    | none => simpa using hn.symm
    | some c => rw [Option.getD_some, Option.some.injEq, ← hb, BitVec.toNat_inj]
  unfold followerType
  rw [field_byte, Bool.or_eq_true, beq_iff_eq, beq_iff_eq, byte 0x32 0x32 rfl (by decide), byte 0x35 0x35 rfl (by decide)]

/-- A full frame of a follower's type: a REPLY of 26 or 28 characters, or an ANNOUNCE of 8 (R186). -/
theorem follower_full {cs : List RxChar} (full : FrameFull cs)
    (type : (cs.map RxChar.byte)[1]? = some 0x32 ∨ (cs.map RxChar.byte)[1]? = some 0x35) :
    ∃ bs : List Byte, bs = cs.map RxChar.byte ∧
      (bs[1]? = some 0x32 ∧ bs[2]? = some 26 ∧ cs.length = 26 ∨ bs[1]? = some 0x32 ∧ bs[2]? = some 28 ∧ cs.length = 28 ∨
        bs[1]? = some 0x35 ∧ bs[2]? = some 8 ∧ cs.length = 8) := by
  obtain ⟨t, l, h1, h2, h3, h4⟩ := full
  refine ⟨_, rfl, ?_⟩
  rw [h1, Option.some.injEq, Option.some.injEq] at type
  unfold LengthAllowed at h4
  rcases type with rfl | rfl
  · obtain rfl | rfl : l = 26 ∨ l = 28 := by simpa using h4
    · exact Or.inl ⟨h1, h2, h3⟩
    · exact Or.inr (Or.inl ⟨h1, h2, h3⟩)
  · obtain rfl : l = 8 := by simpa using h4
    exact Or.inr (Or.inr ⟨h1, h2, h3⟩)

/-- The model's tests of a frame are R28's. -/
theorem frameTests_iff (cs : List RxChar) :
    (frameComplete cs && followerType (cs.map RxChar.byte) && marksGood cs && cs.all (fun c => !c.framing) &&
      lineCheckGood (cs.map RxChar.byte)) = true ↔ FrameSound cs := by
  simp only [Bool.and_eq_true, frameComplete_iff, followerType_iff]
  have marks : marksGood cs = true ↔ ∃ a rest, cs = a :: rest ∧ a.marked = true ∧ ∀ c ∈ rest, c.marked = false := by
    cases cs with
    | nil => simp [marksGood]
    | cons a rest => simp [marksGood]
  have framing : cs.all (fun c => !c.framing) = true ↔ ∀ c ∈ cs, c.framing = false := by simp
  have long : FrameFull cs → (cs.map RxChar.byte)[1]? = some 0x32 ∨ (cs.map RxChar.byte)[1]? = some 0x35 → 8 ≤ cs.length := by
    intro full type
    obtain ⟨bs, -, ⟨-, -, h⟩ | ⟨-, -, h⟩ | ⟨-, -, h⟩⟩ := follower_full full type <;> omega
  have check : 8 ≤ cs.length → (lineCheckGood (cs.map RxChar.byte) = true ↔ ∃ (address check : Byte) (covered : List Byte),
      cs.map RxChar.byte = address :: covered ++ [check] ∧ crc8 covered = check) := by
    intro h
    have hl : 8 ≤ (cs.map RxChar.byte).length := by simpa using h
    generalize cs.map RxChar.byte = bs at hl
    have whole : ∀ (a c : Byte) (l : List Byte), lineCheckGood (a :: l ++ [c]) = true ↔ crc8 l = c := by
      intro a c l
      unfold lineCheckGood
      rw [List.getLastD_eq_getLast?, List.getLast?_concat, List.cons_append, List.drop_one, List.tail_cons,
        List.dropLast_concat]
      simp
    constructor
    · intro e
      rcases bs with _ | ⟨a, rest⟩
      · simp at hl
      · rcases List.eq_nil_or_concat rest with rfl | ⟨l, c, rfl⟩
        · simp at hl
        · exact ⟨a, c, l, by simp, (whole a c l).1 (by simpa using e)⟩
    · rintro ⟨a, c, l, h, hc⟩
      rw [h]
      exact (whole a c l).2 hc
  constructor
  · rintro ⟨⟨⟨⟨h1, h2⟩, h3⟩, h4⟩, h5⟩
    exact ⟨h1, h2, marks.1 h3, framing.1 h4, (check (long h1 h2)).1 h5⟩
  · rintro ⟨h1, h2, h3, h4, h5⟩
    exact ⟨⟨⟨⟨h1, h2⟩, marks.2 h3⟩, framing.2 h4⟩, (check (long h1 h2)).2 h5⟩

/-- The three shapes of a sound frame: an ANNOUNCE, a REPLY without a stamp request and one with (R186). -/
inductive FrameShape : List Byte → Prop where
  | announce (a c : Byte) (l : List Byte) (h : l.length = 4) : FrameShape ([a, 0x35, 8] ++ l ++ [c])
  | plain (a x f c : Byte) (l : List Byte) (h : l.length = 20) : FrameShape ([a, 0x32, 26, x, f] ++ l ++ [c])
  | asking (a x f d n c : Byte) (l : List Byte) (h : l.length = 20) : FrameShape ([a, 0x32, 28, x, f] ++ l ++ [d, n, c])

theorem frameShape {cs : List RxChar} (sound : FrameSound cs) : FrameShape (cs.map RxChar.byte) := by
  obtain ⟨bs, rfl, h⟩ := follower_full sound.full sound.type
  rw [show cs.length = (cs.map RxChar.byte).length by simp] at h
  generalize cs.map RxChar.byte = bs at h ⊢
  have snoc : ∀ (l : List Byte) (n : Nat), l.length = n + 1 → ∃ m c, l = m ++ [c] ∧ m.length = n := by
    intro l n hl
    rcases List.eq_nil_or_concat l with rfl | ⟨m, c, rfl⟩
    · simp at hl
    · exact ⟨m, c, by simp, by simpa using hl⟩
  rcases bs with _ | ⟨a, _ | ⟨t, _ | ⟨n, rest⟩⟩⟩
  · simp at h
  · simp at h
  · simp at h
  · simp only [List.getElem?_cons_succ, List.getElem?_cons_zero, Option.some.injEq, List.length_cons] at h
    rcases h with ⟨rfl, rfl, h⟩ | ⟨rfl, rfl, h⟩ | ⟨rfl, rfl, h⟩
    · rcases rest with _ | ⟨x, _ | ⟨f, rest⟩⟩
      · simp at h
      · simp at h
      · obtain ⟨l, c, rfl, hl⟩ := snoc rest 20 (by simpa using h)
        exact .plain a x f c l hl
    · rcases rest with _ | ⟨x, _ | ⟨f, rest⟩⟩
      · simp at h
      · simp at h
      · obtain ⟨l2, c, rfl, h2⟩ := snoc rest 22 (by simpa using h)
        obtain ⟨l1, n, rfl, h1⟩ := snoc l2 21 h2
        obtain ⟨l, d, rfl, h0⟩ := snoc l1 20 h1
        have := FrameShape.asking a x f d n c l h0
        simpa using this
    · obtain ⟨l, c, rfl, hl⟩ := snoc rest 4 (by simpa using h)
      exact .announce a c l hl

/-- The verdict on a sound frame, and on any other (R28, R187). -/
theorem judgeFrame_sound {cs : List RxChar} (h : FrameSound cs) : judgeFrame cs =
    if field (cs.map RxChar.byte) 1 1 = 0x35 then
      .announce (field (cs.map RxChar.byte) 0 1) (BitVec.ofNat 32 (field (cs.map RxChar.byte) 3 4))
    else if flag (cs.map RxChar.byte) 4 6 = (field (cs.map RxChar.byte) 2 1 == 28) then
      .reply (field (cs.map RxChar.byte) 0 1) (decodeReply (cs.map RxChar.byte))
    else .bad := by
  unfold judgeFrame
  dsimp only
  rw [if_pos ((frameTests_iff cs).2 h)]

theorem judgeFrame_unsound {cs : List RxChar} (h : ¬FrameSound cs) : judgeFrame cs = .bad := by
  unfold judgeFrame
  dsimp only
  rw [if_neg (fun k => h ((frameTests_iff cs).1 k))]

theorem flag_byte (l : List Byte) (off k : Nat) : flag l off k = (l.getD off 0).getLsbD k := by
  unfold flag
  rw [field_byte]
  rfl

/-- The fields of a REPLY are where R186 puts them. -/
theorem decodeReply_fields (a len x f : Byte) (l tail : List Byte) (h : l.length = 20) :
    decodeReply ([a, 0x32, len, x, f] ++ l ++ tail) =
      { txn := x, seq := f.setWidth 4, clockValid := f.getLsbD 4, wantPoll := f.getLsbD 5
        t2 := ⟨natOf (l.take 6), natOf ((l.drop 6).take 4)⟩, t3 := ⟨natOf ((l.drop 10).take 6), natOf ((l.drop 16).take 4)⟩
        ask := if f.getLsbD 6 then some (tail.getD 0 0, (tail.getD 1 0).toNat) else none } := by
  have e : ∀ off n, field ([a, 0x32, len, x, f] ++ l ++ tail) (off + 5) n = natOf (((l ++ tail).drop off).take n) :=
    fun _ _ => by simp [field]
  have into : ∀ off n, off + n ≤ 20 → ((l ++ tail).drop off).take n = (l.drop off).take n := by
    intro off n hn
    rw [List.drop_append_of_le_length (by omega), List.take_append_of_le_length (by simp; omega)]
  have past : ∀ k, field ([a, 0x32, len, x, f] ++ l ++ tail) (k + 25) 1 = (tail.getD k 0).toNat := by
    intro k
    rw [field_byte]
    simp [List.getD_eq_getElem?_getD, List.getElem?_append_right, h]
  unfold decodeReply timeField
  rw [flag_byte, flag_byte, flag_byte, field_byte, field_byte, e 0 6, e 6 4, e 10 6, e 16 4, past 0, past 1,
    into 0 6 (by decide), into 6 4 (by decide), into 10 6 (by decide), into 16 4 (by decide)]
  have low : BitVec.ofNat 4 (f.toNat % 16) = f.setWidth 4 :=
    BitVec.eq_of_toNat_eq (by rw [BitVec.toNat_ofNat, BitVec.toNat_setWidth]; omega)
  simp [low]

/-- The bytes of a REPLY's times are what its fields hold. -/
theorem times_bytes {l : List Byte} (h : l.length = 20) : bytesOf 6 (natOf (l.take 6)) ++ bytesOf 4 (natOf ((l.drop 6).take 4))
    ++ bytesOf 6 (natOf ((l.drop 10).take 6)) ++ bytesOf 4 (natOf ((l.drop 16).take 4)) = l := by
  have at' : ∀ (off n : Nat), off + n ≤ 20 → bytesOf n (natOf ((l.drop off).take n)) = (l.drop off).take n :=
    fun off n hn => bytesOf_field (by omega)
  have step : ∀ (off n : Nat), l.take off ++ (l.drop off).take n = l.take (off + n) := fun off n => List.take_add.symm
  have first := at' 0 6 (by decide)
  rw [List.drop_zero] at first
  rw [first, at' 6 4 (by decide), at' 10 6 (by decide), at' 16 4 (by decide), step, step, step, List.take_of_length_le (by omega)]

/-- A good ANNOUNCE is judged so, and nothing else is (R187). -/
theorem judgeFrame_announce (cs : List RxChar) (addr : Nat) (ident : BitVec 32) :
    judgeFrame cs = .announce addr ident ↔ GoodAnnounce addr ident cs := by
  constructor
  · intro h
    by_cases sound : FrameSound cs
    · rw [judgeFrame_sound sound] at h
      have shape := frameShape sound
      generalize e : cs.map RxChar.byte = bs at h shape
      cases shape with
      | announce a c l hl =>
        simp only [field_byte] at h
        have f : field ([a, 0x35, 8] ++ l ++ [c]) 3 4 = natOf l := by simp [field, hl]
        rw [f] at h
        simp only [List.cons_append, List.nil_append, List.getD_cons_zero, List.getD_cons_succ] at h
        injection h with h1 h2
        refine ⟨sound, ⟨c, ?_⟩, by rw [← h1]; exact a.isLt⟩
        have hn := natOf_below l
        rw [hl] at hn
        have hb := bytesOf_natOf l 0
        rw [hl, Nat.zero_mul, Nat.zero_add] at hb
        rw [e, ← h1, ← h2, BitVec.toNat_ofNat, Nat.mod_eq_of_lt (by omega), hb]
        simp
      | plain a x f c l hl =>
        exfalso
        rw [field_byte] at h
        simp at h
        split at h <;> cases h
      | asking a x f d n c l hl =>
        exfalso
        rw [field_byte] at h
        simp at h
        split at h <;> cases h
    · rw [judgeFrame_unsound sound] at h
      cases h
  · rintro ⟨sound, ⟨c, e⟩, ha⟩
    rw [judgeFrame_sound sound, e]
    have f : field ([BitVec.ofNat 8 addr, 0x35, 8] ++ bytesOf 4 ident.toNat ++ [c]) 3 4 = natOf (bytesOf 4 ident.toNat) := rfl
    rw [f, natOf_bytesOf 4 _ ident.isLt, field_byte, field_byte]
    simp [Nat.mod_eq_of_lt ha]

/-- A sound frame of type REPLY is good where its stamp request present bit goes with its length (R187). -/
theorem judgeFrame_type {cs : List RxChar} (sound : FrameSound cs) {a len x f : Byte} {rest : List Byte}
    (e : cs.map RxChar.byte = [a, 0x32, len, x, f] ++ rest) :
    judgeFrame cs = if f.getLsbD 6 = (len.toNat == 28) then .reply a.toNat (decodeReply (cs.map RxChar.byte)) else .bad := by
  rw [judgeFrame_sound sound, e, field_byte, field_byte, field_byte, flag_byte]
  simp

/-- A good REPLY is judged so, and nothing else is (R187). -/
theorem judgeFrame_reply (cs : List RxChar) (addr : Nat) (p : Reply) :
    judgeFrame cs = .reply addr p ↔ GoodReply addr p cs := by
  constructor
  · intro h
    by_cases sound : FrameSound cs
    · have shape := frameShape sound
      generalize e : cs.map RxChar.byte = bs at shape
      have seqBits : ∀ f : Byte, ∀ k, k < 4 → (f.setWidth 4).getLsbD k = f.getLsbD k :=
        fun f k hk => by simp [hk]
      have below : ∀ (l : List Byte) (n : Nat), l.length ≤ n → natOf l < 256 ^ n := fun l n hl =>
        Nat.lt_of_lt_of_le (natOf_below l) (Nat.pow_le_pow_right (by decide) hl)
      have times : ∀ l : List Byte, natOf (l.take 6) < 2 ^ 48 ∧ natOf ((l.drop 6).take 4) < 2 ^ 32 ∧
          natOf ((l.drop 10).take 6) < 2 ^ 48 ∧ natOf ((l.drop 16).take 4) < 2 ^ 32 := fun l =>
        ⟨below _ 6 (List.length_take_le _ _), below _ 4 (List.length_take_le _ _), below _ 6 (List.length_take_le _ _),
          below _ 4 (List.length_take_le _ _)⟩
      cases shape with
      | announce a c l hl =>
        rw [judgeFrame_sound sound, e, field_byte] at h
        simp at h
      | plain a x f c l hl =>
        rw [judgeFrame_type sound (e.trans (List.append_assoc ..)), e, decodeReply_fields _ _ _ _ _ _ hl] at h
        cases ask : f.getLsbD 6 with
        | true =>
          rw [if_neg (by rw [ask]; decide)] at h
          cases h
        | false =>
          simp only [ask] at h
          injection h with h1 h2
          subst h1 h2
          refine ⟨sound, ⟨f, c, ?_, seqBits f, rfl, rfl, ask.symm⟩, a.isLt, times l, fun x hx => by cases hx⟩
          have tb := times_bytes hl
          simp only [List.append_assoc] at tb
          simp [e, tb]
      | asking a x f d n c l hl =>
        rw [judgeFrame_type sound (e.trans (List.append_assoc ..)), e, decodeReply_fields _ _ _ _ _ _ hl] at h
        cases ask : f.getLsbD 6 with
        | false =>
          rw [if_neg (by rw [ask]; decide)] at h
          cases h
        | true =>
          simp only [ask] at h
          injection h with h1 h2
          subst h1 h2
          refine ⟨sound, ⟨f, c, ?_, seqBits f, rfl, rfl, ask.symm⟩, a.isLt, times l, fun x hx => ?_⟩
          · have tb := times_bytes hl
            simp only [List.append_assoc] at tb
            simp [e, tb]
          · cases hx
            exact n.isLt
    · rw [judgeFrame_unsound sound] at h
      cases h
  · rintro ⟨sound, ⟨f, c, e, seq, valid, want, ask⟩, ha, ⟨t1, t2, t3, t4⟩, count⟩
    obtain ⟨txn, sq, cv, wp, ⟨s2, n2⟩, ⟨s3, n3⟩, want'⟩ := p
    have sq' : f.setWidth 4 = sq := BitVec.eq_of_getLsbD_eq (fun k hk => by simp [hk, ← seq k hk])
    have hl : (bytesOf 6 s2 ++ bytesOf 4 n2 ++ bytesOf 6 s3 ++ bytesOf 4 n3).length = 20 := rfl
    have e1 := natOf_bytesOf 6 s2 t1
    have e2 := natOf_bytesOf 4 n2 t2
    have e3 := natOf_bytesOf 6 s3 t3
    have e4 := natOf_bytesOf 4 n3 t4
    have addr' : (BitVec.ofNat 8 addr).toNat = addr := by rw [BitVec.toNat_ofNat]; exact Nat.mod_eq_of_lt ha
    have decode : ∀ (len : Byte) (tail : List Byte),
        cs.map RxChar.byte = [BitVec.ofNat 8 addr, 0x32, len, txn, f] ++
          (bytesOf 6 s2 ++ bytesOf 4 n2 ++ bytesOf 6 s3 ++ bytesOf 4 n3) ++ tail → f.getLsbD 6 = (len.toNat == 28) →
        judgeFrame cs = .reply addr ⟨txn, sq, cv, wp, ⟨s2, n2⟩, ⟨s3, n3⟩,
          if f.getLsbD 6 then some (tail.getD 0 0, (tail.getD 1 0).toNat) else none⟩ := by
      intro len tail e' h6
      rw [judgeFrame_type sound (e'.trans (List.append_assoc ..)), if_pos h6, e', decodeReply_fields _ _ _ _ _ _ hl, sq', addr',
        ← valid, ← want]
      congr 2
      · exact congrArg₂ RowTime.mk e1 e2
      · exact congrArg₂ RowTime.mk e3 e4
    cases want' with
    | none =>
      have h6 : f.getLsbD 6 = false := ask.symm
      rw [decode 26 [c] (by simpa using e) h6, h6]
      rfl
    | some q =>
      obtain ⟨d, n⟩ := q
      have h6 : f.getLsbD 6 = true := ask.symm
      rw [decode 28 [d, BitVec.ofNat 8 n, c] (by simpa using e) h6, h6]
      have := count _ rfl
      simp [Nat.mod_eq_of_lt this]

/-- A frame is judged bad where R28 and R187 make it bad. -/
theorem judgeFrame_bad (cs : List RxChar) : judgeFrame cs = .bad ↔ BadFrame cs := by
  by_cases sound : FrameSound cs
  · have shape := frameShape sound
    have len : cs.length = (cs.map RxChar.byte).length := by simp
    unfold BadFrame
    simp only [sound, not_true, false_or]
    generalize e : cs.map RxChar.byte = bs at shape len
    cases shape with
    | announce a c l hl =>
      rw [judgeFrame_sound sound, e, field_byte]
      simp
    | plain a x f c l hl =>
      have len' : cs.length = 26 := by rw [len]; simp [hl]
      rw [judgeFrame_type sound (e.trans (List.append_assoc ..)), len']
      cases h : f.getLsbD 6 <;> simp_all
    | asking a x f d n c l hl =>
      have len' : cs.length = 28 := by rw [len]; simp [hl]
      rw [judgeFrame_type sound (e.trans (List.append_assoc ..)), len']
      cases h : f.getLsbD 6 <;> simp_all
  · simp [BadFrame, sound, judgeFrame_unsound sound]

/-! ### The CLOSE (R62, R186, R188) -/

theorem closeFlags_bits (c : Option Correction) (a : Option Answer) (k : Nat) :
    (BitVec.ofNat 8 (closeFlags c a)).getLsbD k = true ↔ k = 0 ∧ c ≠ none ∨ k = 1 ∧ a ≠ none ∨
      k = 2 ∧ (∃ g, a = some (.grant g)) ∨ k = 3 ∧ ∃ g, a = some (.grant g) ∧ g.clamped = true := by
  by_cases hk : k < 8
  · unfold closeFlags
    rcases c with _ | c <;> rcases a with _ | (⟨d, ep, b, n, u, _ | _⟩ | ⟨d, code⟩) <;> interval_cases k <;> simp
  · have : (BitVec.ofNat 8 (closeFlags c a)).getLsbD k = false := BitVec.getLsbD_of_ge _ _ (by omega)
    rw [this]
    refine ⟨fun h => absurd h Bool.false_ne_true, ?_⟩
    rintro (⟨rfl, _⟩ | ⟨rfl, _⟩ | ⟨rfl, _⟩ | ⟨rfl, _⟩) <;> omega

/-- The frame that the line sends is a CLOSE as R186 and R188 have it. -/
theorem closeFrame_carries (addr : Nat) (txn : Byte) (c : Option Correction) (a : Option Answer) :
    CloseCarries addr txn c a (closeFrame addr txn c a) := by
  refine ⟨BitVec.ofNat 8 (closeFlags c a), match c with | some c => correctionBlock c | none => [],
    match a with | some a => answerBlock a | none => [], _, rfl, ?_, closeFlags_bits c a, ?_, ?_, ?_, ?_, ?_⟩
  · have len : (closeFrame addr txn c a).length = 6 + (closeBlocks c a).length := by
      simp [closeFrame, sealFrame]
      omega
    rw [len]
    cases c <;> cases a <;> simp [closeBlocks]
  · rintro rfl
    rfl
  · rintro ⟨seq, _ | _, v⟩ rfl <;> rfl
  · rintro rfl
    rfl
  · rintro g rfl
    simp [answerBlock, timeBytes]
  · rintro d code rfl
    cases code <;> rfl

end Sys2Proof.Machine
end

