-- ==== Sys2Proof/Laws/Link.lean ====
section
/-! SUPPORT. What a transaction of the request port does, bit by bit (R171): the bytes that its bits bring, and the bits that
data out carries. -/

namespace Sys2Proof.Machine

open Sys2Proof

/-! ### Bytes and their bits -/

@[simp] theorem msbFirst_length (b : Byte) : (msbFirst b).length = 8 := rfl

@[simp] theorem wireBits_length (bytes : List Byte) : (wireBits bytes).length = 8 * bytes.length := by
  induction bytes with
  | nil => rfl
  | cons b bs ih =>
    show (msbFirst b ++ wireBits bs).length = _
    rw [List.length_append, ih, msbFirst_length, List.length_cons]
    omega

theorem wireBits_append (a b : List Byte) : wireBits (a ++ b) = wireBits a ++ wireBits b := List.flatMap_append

/-- Eight bits are the bits of the byte that they bring. -/
theorem msbFirst_byteOfBits {bits : List Bool} (h : bits.length = 8) : msbFirst (byteOfBits bits) = bits := by
  match bits, h with
  | [b7, b6, b5, b4, b3, b2, b1, b0], _ =>
    cases b7 <;> cases b6 <;> cases b5 <;> cases b4 <;> cases b3 <;> cases b2 <;> cases b1 <;> cases b0 <;> rfl

/-- A byte is what its bits bring. -/
theorem byteOfBits_msbFirst (b : Byte) : byteOfBits (msbFirst b) = b := by
  revert b
  decide +kernel

/-- Bits make whole bytes, and fewer than eight bits after them, in one way. -/
theorem wireBits_inj {a b : List Byte} {x y : List Bool} (hx : x.length < 8) (hy : y.length < 8)
    (h : wireBits a ++ x = wireBits b ++ y) : a = b ∧ x = y := by
  induction a generalizing b with
  | nil =>
    cases b with
    | nil => exact ⟨rfl, h⟩
    | cons c cs =>
      have := congrArg List.length h
      simp only [List.length_append, wireBits_length, List.length_nil, List.length_cons] at this
      omega
  | cons c cs ih =>
    cases b with
    | nil =>
      have := congrArg List.length h
      simp only [List.length_append, wireBits_length, List.length_nil, List.length_cons] at this
      omega
    | cons d ds =>
      have e : msbFirst c ++ (wireBits cs ++ x) = msbFirst d ++ (wireBits ds ++ y) := by
        rw [← List.append_assoc, ← List.append_assoc]
        exact h
      obtain ⟨e1, e2⟩ := List.append_inj e rfl
      obtain ⟨e3, e4⟩ := ih e2
      refine ⟨?_, e4⟩
      rw [e3, ← byteOfBits_msbFirst c, e1, byteOfBits_msbFirst d]

/-! ### drive -/

@[simp] theorem drive_localNs (out : List Byte) (n : Nat) (s : State) : (s.drive out n).localNs = s.localNs := rfl
@[simp] theorem drive_due (out : List Byte) (n : Nat) (s : State) : (s.drive out n).due = s.due := rfl
@[simp] theorem drive_chanA (out : List Byte) (n : Nat) (s : State) : (s.drive out n).chanA = s.chanA := rfl
@[simp] theorem drive_chanB (out : List Byte) (n : Nat) (s : State) : (s.drive out n).chanB = s.chanB := rfl
@[simp] theorem drive_clk (out : List Byte) (n : Nat) (s : State) : (s.drive out n).clk = s.clk := rfl
@[simp] theorem drive_lines (out : List Byte) (n : Nat) (s : State) : (s.drive out n).lines = s.lines := rfl
@[simp] theorem drive_latches (out : List Byte) (n : Nat) (s : State) : (s.drive out n).latches = s.latches := rfl
@[simp] theorem drive_records (out : List Byte) (n : Nat) (s : State) : (s.drive out n).records = s.records := rfl
@[simp] theorem drive_newcomers (out : List Byte) (n : Nat) (s : State) : (s.drive out n).newcomers = s.newcomers := rfl
@[simp] theorem drive_overflow (out : List Byte) (n : Nat) (s : State) : (s.drive out n).overflow = s.overflow := rfl
@[simp] theorem drive_domains (out : List Byte) (n : Nat) (s : State) : (s.drive out n).domains = s.domains := rfl
@[simp] theorem drive_racks (out : List Byte) (n : Nat) (s : State) : (s.drive out n).racks = s.racks := rfl
@[simp] theorem drive_pending (out : List Byte) (n : Nat) (s : State) : (s.drive out n).pending = s.pending := rfl
@[simp] theorem drive_port_state (out : List Byte) (n : Nat) (s : State) : (s.drive out n).port.state = s.port.state := rfl
@[simp] theorem drive_port_held (out : List Byte) (n : Nat) (s : State) : (s.drive out n).port.held = s.port.held := rfl
@[simp] theorem drive_port_forming (out : List Byte) (n : Nat) (s : State) : (s.drive out n).port.forming = s.port.forming := rfl
@[simp] theorem drive_port_overlapMark (out : List Byte) (n : Nat) (s : State) : (s.drive out n).port.overlapMark = s.port.overlapMark := rfl
@[simp] theorem drive_port_badFrames (out : List Byte) (n : Nat) (s : State) : (s.drive out n).port.badFrames = s.port.badFrames := rfl
@[simp] theorem drive_port_overlaps (out : List Byte) (n : Nat) (s : State) : (s.drive out n).port.overlaps = s.port.overlaps := rfl
@[simp] theorem drive_port_causes (out : List Byte) (n : Nat) (s : State) : (s.drive out n).port.causes = s.port.causes := rfl
@[simp] theorem drive_port_mask (out : List Byte) (n : Nat) (s : State) : (s.drive out n).port.mask = s.port.mask := rfl
@[simp] theorem drive_port_ignoring (out : List Byte) (n : Nat) (s : State) : (s.drive out n).port.ignoring = s.port.ignoring := rfl
@[simp] theorem drive_port_link (out : List Byte) (n : Nat) (s : State) : (s.drive out n).port.link = Link.idle := rfl

/-- Beside every bit clocked in, data out carries one bit. -/
theorem drive_dataOut_length (out : List Byte) (n : Nat) (s : State) : (s.drive out n).port.dataOut.length = n := by
  show ((List.range n).map _).length = n
  rw [List.length_map, List.length_range]

/-- Bit `m` on data out is bit `m % 8` of byte `m / 8`, counted from the most significant one. -/
theorem drive_dataOut_get (out : List Byte) {n m : Nat} (h : m < n) (s : State) :
    (s.drive out n).port.dataOut[m]? = some ((carriedByte s.freeCount out (m / 8)).getMsbD (m % 8)) := by
  show ((List.range n).map _)[m]? = _
  rw [List.getElem?_map, List.getElem?_range h]
  rfl

/-! ### A transaction in progress -/

/-- The link and what data out has carried, `bits` clocked into port `p` since chip select fell (R171). -/
structure Link.Clocked (k : Nat) (p : Port) (bits : List Bool) (q : Port) : Prop where
  rest : q = { p with link := q.link, dataOut := q.dataOut }
  low : q.link.low = true
  whole : wireBits q.link.bytes ++ q.link.bits = bits
  part : q.link.bits.length < 8
  reading : q.link.reading = if q.link.bytes.head? = some readCode then some p.readout else none
  out : q.link.out = some ((carriedByte k (q.link.reading.getD []) q.link.bytes.length).getMsbD q.link.bits.length)
  carried : q.dataOut = (List.range bits.length).map
    (fun m => (carriedByte k (q.link.reading.getD []) (m / 8)).getMsbD (m % 8))

theorem clocked_start (k : Nat) (p : Port) : Link.Clocked k p [] (p.selectFalls k) :=
  ⟨rfl, rfl, rfl, Nat.zero_lt_succ 7, rfl, rfl, rfl⟩

theorem clocked_bit {k : Nat} {p q : Port} {bits : List Bool} (h : Link.Clocked k p bits q) (b : Bool) :
    Link.Clocked k p (bits ++ [b]) (q.clock k b) := by
  obtain ⟨rest, low, whole, part, reading, out, carried⟩ := h
  have readout : q.readout = p.readout := by
    rw [rest]
    rfl
  have len : bits.length = 8 * q.link.bytes.length + q.link.bits.length := by
    rw [← whole, List.length_append, wireBits_length]
  have sent : q.dataOut ++ q.link.out.toList = (List.range (bits ++ [b]).length).map
      (fun m => (carriedByte k (q.link.reading.getD []) (m / 8)).getMsbD (m % 8)) := by
    rw [List.length_append, List.length_singleton, List.range_succ, List.map_append, ← carried, out, len]
    congr 1
    simp only [Option.toList_some, List.map_cons, List.map_nil]
    rw [show (8 * q.link.bytes.length + q.link.bits.length) / 8 = q.link.bytes.length by omega,
      show (8 * q.link.bytes.length + q.link.bits.length) % 8 = q.link.bits.length by omega]
  by_cases full : q.link.bits.length = 7
  · have e : q.link.take q.readout b = { q.link with
        bytes := q.link.bytes ++ [byteOfBits (q.link.bits ++ [b])]
        bits := []
        reading := if q.link.bytes = [] ∧ byteOfBits (q.link.bits ++ [b]) = readCode then some q.readout
          else q.link.reading } := if_pos full
    refine ⟨?_, ?_, ?_, ?_, ?_, rfl, ?_⟩
    · rw [rest]
      rfl
    · show (q.link.take q.readout b).low = true
      rw [e]
      exact low
    · show wireBits (q.link.take q.readout b).bytes ++ (q.link.take q.readout b).bits = _
      rw [e, ← whole]
      show wireBits (q.link.bytes ++ [byteOfBits (q.link.bits ++ [b])]) ++ [] = _
      rw [wireBits_append, List.append_nil, List.append_assoc]
      congr 1
      show msbFirst (byteOfBits (q.link.bits ++ [b])) ++ [] = _
      rw [List.append_nil]
      exact msbFirst_byteOfBits (by rw [List.length_append, full]; rfl)
    · show (q.link.take q.readout b).bits.length < 8
      rw [e]
      exact Nat.zero_lt_succ 7
    · show (q.link.take q.readout b).reading = if (q.link.take q.readout b).bytes.head? = some readCode then _ else _
      rw [e, readout]
      show (if _ then _ else _) = if (q.link.bytes ++ [byteOfBits (q.link.bits ++ [b])]).head? = some readCode then _ else _
      cases hb : q.link.bytes with
      | nil =>
        rw [hb] at reading
        simp only [List.nil_append, List.head?_cons, Option.some.injEq, true_and]
        rw [reading]
        rfl
      | cons c cs =>
        rw [hb] at reading
        rw [if_neg (by simp), reading]
        rfl
    · refine Eq.trans sent (List.map_congr_left (fun m hm => ?_))
      have r : (q.clock k b).link.reading = if q.link.bytes = [] ∧ byteOfBits (q.link.bits ++ [b]) = readCode then
          some q.readout else q.link.reading := by
        show (q.link.take q.readout b).reading = _
        rw [e]
      rw [r]
      by_cases hb : q.link.bytes = []
      · have lt := List.mem_range.1 hm
        rw [List.length_append, List.length_singleton, len, hb, full, List.length_nil] at lt
        rw [show m / 8 = 0 by omega]
        rfl
      · rw [if_neg (fun x => hb x.1)]
  · have e : q.link.take q.readout b = { q.link with bits := q.link.bits ++ [b] } := if_neg full
    refine ⟨?_, ?_, ?_, ?_, ?_, rfl, ?_⟩
    · rw [rest]
      rfl
    · show (q.link.take q.readout b).low = true
      rw [e]
      exact low
    · show wireBits (q.link.take q.readout b).bytes ++ (q.link.take q.readout b).bits = _
      rw [e, ← whole, List.append_assoc]
    · show (q.link.take q.readout b).bits.length < 8
      rw [e]
      show (q.link.bits ++ [b]).length < 8
      rw [List.length_append, List.length_singleton]
      omega
    · show (q.link.take q.readout b).reading = if (q.link.take q.readout b).bytes.head? = some readCode then _ else _
      rw [e]
      exact reading
    · have r : (q.clock k b).link.reading = q.link.reading := by
        show (q.link.take q.readout b).reading = _
        rw [e]
      rw [r]
      exact sent

/-- Every bit of a transaction clocked in. -/
theorem clockedPort_clocked (bits : List Bool) (s : State) : Link.Clocked s.freeCount s.port bits (s.clockedPort bits) := by
  unfold State.clockedPort
  induction bits using List.reverseRecOn with
  | nil => exact clocked_start _ _
  | append_singleton bits b ih =>
    rw [List.foldl_append]
    exact clocked_bit ih b

/-- A transaction of whole bytes and fewer than eight bits after them. -/
theorem transfer_eq {s : State} (hi : s.port.ignoring = false) (bytes : List Byte) {rest : List Bool} (hr : rest.length < 8)
    (take : List Byte → Bool → State → State) :
    s.transfer (wireBits bytes ++ rest) take = take bytes (!rest.isEmpty)
      (s.drive (if bytes.head? = some readCode then s.port.readout else []) (8 * bytes.length + rest.length)) := by
  unfold State.transfer State.unlessIgnored
  rw [if_neg (by rw [hi]; exact Bool.false_ne_true)]
  have h := clockedPort_clocked (wireBits bytes ++ rest) s
  show take (s.clockedPort (wireBits bytes ++ rest)).link.bytes (!(s.clockedPort (wireBits bytes ++ rest)).link.bits.isEmpty)
    (s.deselect (s.clockedPort (wireBits bytes ++ rest))) = _
  generalize s.clockedPort (wireBits bytes ++ rest) = q at h ⊢
  obtain ⟨e1, e2⟩ := wireBits_inj h.part hr h.whole
  have reading := h.reading
  have carried := h.carried
  rw [e1] at reading
  have out : q.link.reading.getD [] = if bytes.head? = some readCode then s.port.readout else [] := by
    rw [reading]
    split <;> rfl
  have port : q.selectRises = { s.port with dataOut := q.dataOut, link := Link.idle } := by
    rw [h.rest]
    rfl
  unfold State.deselect State.drive
  rw [e1, e2, port, carried, out, List.length_append, wireBits_length]
  rw [show (8 * bytes.length + rest.length) / 8 = bytes.length by omega]

end Sys2Proof.Machine
end

