-- ==== Sys2Proof/WellFormed.lean ====
section
/-! DEFINITION. Which commands the world outside the part can send: operands inside the ranges of their kinds.
No meaning rests on these checks; a command outside them has a meaning as well. -/

namespace Sys2Proof

/-- Samples of a receive pair or of a time-of-day input: at least one. -/
def levelsWellFormed (vs : List Bool) : Bool := !vs.isEmpty

/-- A request body: at most 60 bytes (R172). -/
def bodyWellFormed (body : List Byte) : Bool := decide (body.length ≤ 60)

/-- A write transaction: at least one byte, the first not the read code (R171, R190), and fewer than eight bits after the
last. -/
def writeWellFormed (bytes : List Byte) (rest : List Bool) : Bool :=
  match bytes with
  | [] => false
  | first :: _ => first != 0xFF && decide (rest.length < 8)

/-- The command is one that the world outside can send. -/
def Instr.wellFormed : Instr → Bool
  | .hardReset _ => true
  | .ppsEdge _ _ => true
  | .todMessage _ _ levels => levelsWellFormed levels
  | .todGapTimeout _ => true
  | .lossDeadlineExpiry _ => true
  | .localSecondStart => true
  | .secondTick => true
  | .rackSweep _ => true
  | .periodElapsed _ => true
  | .pollSent _ => true
  | .replyHandoff _ _ levels => levelsWellFormed levels
  | .pollingFrameFailed _ _ levels => levelsWellFormed levels
  | .replyWindowEnd _ => true
  | .closeSent _ => true
  | .discoverSent _ => true
  | .announce _ _ levels => levelsWellFormed levels
  | .discoveryCollision _ _ levels => levelsWellFormed levels
  | .discoveryWindowEnd _ => true
  | .frameGapTimeout _ => true
  | .strayCharacter _ _ levels => levelsWellFormed levels
  | .lineFault _ stretch => levelsWellFormed stretch.levels
  | .lineRecovery _ _ => true
  | .badFrame _ bytes rest => writeWellFormed bytes rest
  | .overlap _ bytes rest => writeWellFormed bytes rest
  | .unknownRequest _ code body => code != 0xFF && bodyWellFormed body
  | .responseFormed _ => true
  | .responseRead _ _ => true
  | .refConfig _ body => bodyWellFormed body
  | .setTime _ body => bodyWellFormed body
  | .readTime _ body => bodyWellFormed body
  | .lineConfig _ body => bodyWellFormed body
  | .lineQuiesce _ body => bodyWellFormed body
  | .lineResume _ body => bodyWellFormed body
  | .lineReset _ body => bodyWellFormed body
  | .enroll _ body => bodyWellFormed body
  | .lookup _ body => bodyWellFormed body
  | .amend _ body => bodyWellFormed body
  | .suspend _ body => bodyWellFormed body
  | .resume _ body => bodyWellFormed body
  | .retire _ body => bodyWellFormed body
  | .scan _ body => bodyWellFormed body
  | .newcomers _ body => bodyWellFormed body
  | .dismiss _ body => bodyWellFormed body
  | .domainOpen _ body => bodyWellFormed body
  | .domainAmend _ body => bodyWellFormed body
  | .domainFreeze _ body => bodyWellFormed body
  | .domainThaw _ body => bodyWellFormed body
  | .domainRetire _ body => bodyWellFormed body
  | .domainLookup _ body => bodyWellFormed body
  | .stamp _ body => bodyWellFormed body
  | .rackConfig _ body => bodyWellFormed body
  | .rackLookup _ body => bodyWellFormed body
  | .rackClear _ body => bodyWellFormed body
  | .rackRebase _ body => bodyWellFormed body
  | .status _ body => bodyWellFormed body
  | .ack _ body => bodyWellFormed body
  | .mask _ body => bodyWellFormed body
  | .restart _ body => bodyWellFormed body
  | .recoveryWatchRestart _ stretch => levelsWellFormed stretch.levels

end Sys2Proof
end

