-- ==== Sys2Proof/Laws/PerInstr.lean ====
section
/-! SUPPORT. What holds of every command as syntax: the codes and body lengths of the requests (10.5). -/

namespace Sys2Proof.Laws.Operands

open Sys2Proof Sys2Proof.Machine

/-- A command that is a request has a code other than the read code (R171, R190) and allows bodies of at most 60 bytes (R172),
and it is well-formed exactly when its body is no longer than that. -/
def Statement (i : Instr) : Prop :=
  ∀ code lengths dt body, Instr.asRequest i = some (code, lengths, dt, body) →
    code ≠ readCode ∧ (∀ n ∈ lengths, n ≤ 60) ∧ (i.wellFormed = true ↔ body.length ≤ 60)

/-- A command that is no request. -/
theorem other {i : Instr} (h : Instr.asRequest i = none) : Statement i := by
  intro _ _ _ _ e
  rw [h] at e
  cases e

/-- A command that is a request. -/
theorem request {i : Instr} {code : Byte} {lengths : List Nat} {dt : Nat} {body : List Byte}
    (h : Instr.asRequest i = some (code, lengths, dt, body)) (c : code ≠ readCode) (l : ∀ n ∈ lengths, n ≤ 60)
    (w : i.wellFormed = true ↔ body.length ≤ 60) : Statement i := by
  intro _ _ _ _ e
  rw [h] at e
  cases e
  exact ⟨c, l, w⟩

theorem hardReset (csLow : Bool) : Statement (.hardReset csLow) := other rfl

theorem ppsEdge (ch : Chan) (dt : Nat) : Statement (.ppsEdge ch dt) := other rfl

theorem todMessage (ch : Chan) (dt : Nat) (levels : List Bool) : Statement (.todMessage ch dt levels) := other rfl

theorem todGapTimeout (ch : Chan) : Statement (.todGapTimeout ch) := other rfl

theorem lossDeadlineExpiry (ch : Chan) : Statement (.lossDeadlineExpiry ch) := other rfl

theorem localSecondStart : Statement .localSecondStart := other rfl

theorem secondTick : Statement .secondTick := other rfl

theorem rackSweep (rack : Fin 12) : Statement (.rackSweep rack) := other rfl

theorem periodElapsed (line : Fin 12) : Statement (.periodElapsed line) := other rfl

theorem pollSent (line : Fin 12) : Statement (.pollSent line) := other rfl

theorem replyHandoff (line : Fin 12) (dt : Nat) (levels : List Bool) : Statement (.replyHandoff line dt levels) := other rfl

theorem pollingFrameFailed (line : Fin 12) (dt : Nat) (levels : List Bool) : Statement (.pollingFrameFailed line dt levels) := other rfl

theorem replyWindowEnd (line : Fin 12) : Statement (.replyWindowEnd line) := other rfl

theorem closeSent (line : Fin 12) : Statement (.closeSent line) := other rfl

theorem discoverSent (line : Fin 12) : Statement (.discoverSent line) := other rfl

theorem announce (line : Fin 12) (dt : Nat) (levels : List Bool) : Statement (.announce line dt levels) := other rfl

theorem discoveryCollision (line : Fin 12) (dt : Nat) (levels : List Bool) : Statement (.discoveryCollision line dt levels) := other rfl

theorem discoveryWindowEnd (line : Fin 12) : Statement (.discoveryWindowEnd line) := other rfl

theorem frameGapTimeout (line : Fin 12) : Statement (.frameGapTimeout line) := other rfl

theorem strayCharacter (line : Fin 12) (dt : Nat) (levels : List Bool) : Statement (.strayCharacter line dt levels) := other rfl

theorem lineFault (line : Fin 12) (stretch : Stretch) : Statement (.lineFault line stretch) := other rfl

theorem lineRecovery (line : Fin 12) (dt : Nat) : Statement (.lineRecovery line dt) := other rfl

theorem badFrame (dt : Nat) (bytes : List Byte) (rest : List Bool) : Statement (.badFrame dt bytes rest) := other rfl

theorem overlap (dt : Nat) (bytes : List Byte) (rest : List Bool) : Statement (.overlap dt bytes rest) := other rfl

theorem unknownRequest (dt : Nat) (code : Byte) (body : List Byte) : Statement (.unknownRequest dt code body) := other rfl

theorem responseFormed (dt : Nat) : Statement (.responseFormed dt) := other rfl

theorem responseRead (dt : Nat) (clocked : Nat) : Statement (.responseRead dt clocked) := other rfl

theorem refConfig (dt : Nat) (body : List Byte) : Statement (.refConfig dt body) :=
  request rfl (by decide) (by decide) decide_eq_true_iff

theorem setTime (dt : Nat) (body : List Byte) : Statement (.setTime dt body) :=
  request rfl (by decide) (by decide) decide_eq_true_iff

theorem readTime (dt : Nat) (body : List Byte) : Statement (.readTime dt body) :=
  request rfl (by decide) (by decide) decide_eq_true_iff

theorem lineConfig (dt : Nat) (body : List Byte) : Statement (.lineConfig dt body) :=
  request rfl (by decide) (by decide) decide_eq_true_iff

theorem lineQuiesce (dt : Nat) (body : List Byte) : Statement (.lineQuiesce dt body) :=
  request rfl (by decide) (by decide) decide_eq_true_iff

theorem lineResume (dt : Nat) (body : List Byte) : Statement (.lineResume dt body) :=
  request rfl (by decide) (by decide) decide_eq_true_iff

theorem lineReset (dt : Nat) (body : List Byte) : Statement (.lineReset dt body) :=
  request rfl (by decide) (by decide) decide_eq_true_iff

theorem enroll (dt : Nat) (body : List Byte) : Statement (.enroll dt body) :=
  request rfl (by decide) (by decide) decide_eq_true_iff

theorem lookup (dt : Nat) (body : List Byte) : Statement (.lookup dt body) :=
  request rfl (by decide) (by decide) decide_eq_true_iff

theorem amend (dt : Nat) (body : List Byte) : Statement (.amend dt body) :=
  request rfl (by decide) (by decide) decide_eq_true_iff

theorem suspend (dt : Nat) (body : List Byte) : Statement (.suspend dt body) :=
  request rfl (by decide) (by decide) decide_eq_true_iff

theorem resume (dt : Nat) (body : List Byte) : Statement (.resume dt body) :=
  request rfl (by decide) (by decide) decide_eq_true_iff

theorem retire (dt : Nat) (body : List Byte) : Statement (.retire dt body) :=
  request rfl (by decide) (by decide) decide_eq_true_iff

theorem scan (dt : Nat) (body : List Byte) : Statement (.scan dt body) :=
  request rfl (by decide) (by decide) decide_eq_true_iff

theorem newcomers (dt : Nat) (body : List Byte) : Statement (.newcomers dt body) :=
  request rfl (by decide) (by decide) decide_eq_true_iff

theorem dismiss (dt : Nat) (body : List Byte) : Statement (.dismiss dt body) :=
  request rfl (by decide) (by decide) decide_eq_true_iff

theorem domainOpen (dt : Nat) (body : List Byte) : Statement (.domainOpen dt body) :=
  request rfl (by decide) (by decide) decide_eq_true_iff

theorem domainAmend (dt : Nat) (body : List Byte) : Statement (.domainAmend dt body) :=
  request rfl (by decide) (by decide) decide_eq_true_iff

theorem domainFreeze (dt : Nat) (body : List Byte) : Statement (.domainFreeze dt body) :=
  request rfl (by decide) (by decide) decide_eq_true_iff

theorem domainThaw (dt : Nat) (body : List Byte) : Statement (.domainThaw dt body) :=
  request rfl (by decide) (by decide) decide_eq_true_iff

theorem domainRetire (dt : Nat) (body : List Byte) : Statement (.domainRetire dt body) :=
  request rfl (by decide) (by decide) decide_eq_true_iff

theorem domainLookup (dt : Nat) (body : List Byte) : Statement (.domainLookup dt body) :=
  request rfl (by decide) (by decide) decide_eq_true_iff

theorem stamp (dt : Nat) (body : List Byte) : Statement (.stamp dt body) :=
  request rfl (by decide) (by decide) decide_eq_true_iff

theorem rackConfig (dt : Nat) (body : List Byte) : Statement (.rackConfig dt body) :=
  request rfl (by decide) (by decide) decide_eq_true_iff

theorem rackLookup (dt : Nat) (body : List Byte) : Statement (.rackLookup dt body) :=
  request rfl (by decide) (by decide) decide_eq_true_iff

theorem rackClear (dt : Nat) (body : List Byte) : Statement (.rackClear dt body) :=
  request rfl (by decide) (by decide) decide_eq_true_iff

theorem rackRebase (dt : Nat) (body : List Byte) : Statement (.rackRebase dt body) :=
  request rfl (by decide) (by decide) decide_eq_true_iff

theorem status (dt : Nat) (body : List Byte) : Statement (.status dt body) :=
  request rfl (by decide) (by decide) decide_eq_true_iff

theorem ack (dt : Nat) (body : List Byte) : Statement (.ack dt body) :=
  request rfl (by decide) (by decide) decide_eq_true_iff

theorem mask (dt : Nat) (body : List Byte) : Statement (.mask dt body) :=
  request rfl (by decide) (by decide) decide_eq_true_iff

theorem restart (dt : Nat) (body : List Byte) : Statement (.restart dt body) :=
  request rfl (by decide) (by decide) decide_eq_true_iff

theorem recoveryWatchRestart (line : Fin 12) (stretch : Stretch) : Statement (.recoveryWatchRestart line stretch) := other rfl

end Sys2Proof.Laws.Operands
end

