-- ==== Sys2Proof/Laws/Time.lean ====
section
/-! SUPPORT. What the passage of time does, said once: the clock's three fields, the racks' countdowns, nothing else. -/

namespace Sys2Proof.Machine

open Sys2Proof

theorem flowTo_clk (now : Nat) (row : RowTime) (r : Int) (d : Due) (s : State) :
    (s.flowTo now row r d).clk = { s.clk with row := row, applied := r } := rfl

theorem flowTo_rack (now : Nat) (row : RowTime) (r : Int) (d : Due) (s : State) (i : Fin 12) :
    (s.flowTo now row r d).rack i = s.rack i := rfl

theorem ticks_rack (n : Nat) (s : State) (i : Fin 12) :
    ∃ c b, (State.ticks n s).rack i = { s.rack i with countdown := c, sweepDue := b } := by
  induction n generalizing s with
  | zero => exact ⟨_, _, rfl⟩
  | succ n ih =>
    obtain ⟨c, b, h⟩ := ih s.tick
    refine ⟨c, b, ?_⟩
    show (State.ticks n s.tick).rack i = _
    rw [h, tick_rack]
    unfold Rack.tick
    split
    · rfl
    · split <;> rfl

theorem ticks_clk (n : Nat) (s : State) : ∃ u, (State.ticks n s).clk = { s.clk with u := u } := by
  induction n generalizing s with
  | zero => exact ⟨_, rfl⟩
  | succ n ih =>
    obtain ⟨c, h⟩ := ih s.tick
    refine ⟨c, ?_⟩
    show (State.ticks n s.tick).clk = _
    rw [h, tick_clk]
    unfold RowClock.tick
    split <;> rfl

theorem flow_clk (d : Nat) (s : State) :
    (s.flow d).clk = { s.clk with row := s.rowAfter (d + 1), applied := s.appliedAfter (d + 1) } := by
  unfold State.flow
  rw [flowTo_clk, captureTo_clk]

theorem flow_rack (d : Nat) (s : State) (i : Fin 12) : (s.flow d).rack i = s.rack i := by
  unfold State.flow
  rw [flowTo_rack, captureTo_rack]

theorem advance_succ_clk (d : Nat) (s : State) :
    ∃ u, (s.advance (d + 1)).clk = { s.clk with row := s.rowAfter (d + 1), applied := s.appliedAfter (d + 1), u := u } := by
  obtain ⟨u, h⟩ := ticks_clk (s.ticksBefore d) (s.flow d)
  refine ⟨u, ?_⟩
  show (State.ticks (s.ticksBefore d) (s.flow d)).clk = _
  rw [h, flow_clk]

/-- Time changes row time, the applied rate and U of the clock, and nothing else of it (R7, R9, R10, R21). -/
theorem advance_clk (d : Nat) (s : State) : ∃ row r u, (s.advance d).clk = { s.clk with row := row, applied := r, u := u } := by
  cases d with
  | zero => exact ⟨_, _, _, rfl⟩
  | succ d =>
    obtain ⟨u, h⟩ := advance_succ_clk d s
    exact ⟨_, _, u, h⟩

theorem advance_row (d : Nat) (s : State) : (s.advance (d + 1)).clk.row = s.rowAfter (d + 1) := by
  obtain ⟨u, h⟩ := advance_succ_clk d s
  rw [h]

theorem advance_applied (d : Nat) (s : State) : (s.advance (d + 1)).clk.applied = s.appliedAfter (d + 1) := by
  obtain ⟨u, h⟩ := advance_succ_clk d s
  rw [h]

/-- Time changes a rack's sweep countdown and its due mark, and nothing else of it (R155). -/
theorem advance_rack (d : Nat) (s : State) (i : Fin 12) :
    ∃ c b, (s.advance d).rack i = { s.rack i with countdown := c, sweepDue := b } := by
  cases d with
  | zero => exact ⟨_, _, rfl⟩
  | succ d =>
    obtain ⟨c, b, h⟩ := ticks_rack (s.ticksBefore d) (s.flow d) i
    refine ⟨c, b, ?_⟩
    show (State.ticks (s.ticksBefore d) (s.flow d)).rack i = _
    rw [h, flow_rack]

/-- Where no tick falls before the instant that time leads to, none is taken (R10). -/
theorem advance_quiet (d : Nat) (s : State) (h : s.ticksBefore d = 0) : s.advance (d + 1) = s.flow d := by
  show State.ticks (s.ticksBefore d) (s.flow d) = _
  rw [h]
  rfl

theorem toNs_ofNs (n : Nat) : (RowTime.ofNs n).toNs = n % (281474976710656 * 1000000000) := by
  show n / 1000000000 % 281474976710656 * 1000000000 + n % 1000000000 = _
  omega

/-- The adjustments of a local second never exceed the ns elapsed (R9). -/
theorem spread_bound (r : Int) (d : Nat) (hr : r.natAbs ≤ 100000) : (spread r d).natAbs ≤ d := by
  unfold spread
  have h1 : (r * (d : Int)).natAbs ≤ 100000 * d := by
    rw [Int.natAbs_mul]
    simpa using Nat.mul_le_mul_right d hr
  have h2 : ((r * (d : Int)).tdiv 1000000000).natAbs = (r * (d : Int)).natAbs / 1000000000 := by
    rw [Int.natAbs_tdiv]
    rfl
  rw [h2]
  omega

end Sys2Proof.Machine
end

