-- ==== Sys2Proof/Laws/Port.lean ====
section
/-! SUPPORT. What the request port does with a frame, once for every request: how a taken request comes to its owning block,
and how a frame is turned away. -/

namespace Sys2Proof.Machine

open Sys2Proof

/-! ### The part at an acceptance -/

@[simp] theorem accepting_chanA (dt n : Nat) (s : State) : (s.accepting dt n).chanA = s.chanA := advance_chanA s dt

@[simp] theorem accepting_chanB (dt n : Nat) (s : State) : (s.accepting dt n).chanB = s.chanB := advance_chanB s dt

@[simp] theorem accepting_lines (dt n : Nat) (s : State) : (s.accepting dt n).lines = s.lines := advance_lines s dt

@[simp] theorem accepting_records (dt n : Nat) (s : State) : (s.accepting dt n).records = s.records := advance_records s dt

@[simp] theorem accepting_newcomers (dt n : Nat) (s : State) : (s.accepting dt n).newcomers = s.newcomers := advance_newcomers s dt

@[simp] theorem accepting_overflow (dt n : Nat) (s : State) : (s.accepting dt n).overflow = s.overflow := advance_overflow s dt

@[simp] theorem accepting_domains (dt n : Nat) (s : State) : (s.accepting dt n).domains = s.domains := advance_domains s dt

@[simp] theorem accepting_pending (dt n : Nat) (s : State) : (s.accepting dt n).pending = s.pending := advance_pending s dt

@[simp] theorem accepting_clk (dt n : Nat) (s : State) : (s.accepting dt n).clk = (s.advance dt).clk := rfl

@[simp] theorem accepting_racks (dt n : Nat) (s : State) : (s.accepting dt n).racks = (s.advance dt).racks := rfl

@[simp] theorem accepting_localNs (dt n : Nat) (s : State) : (s.accepting dt n).localNs = (s.advance dt).localNs := rfl

@[simp] theorem accepting_line (dt n : Nat) (s : State) (i : Fin 12) : (s.accepting dt n).line i = s.line i := by
  unfold State.line
  rw [accepting_lines]

@[simp] theorem accepting_rack (dt n : Nat) (s : State) (i : Fin 12) : (s.accepting dt n).rack i = (s.advance dt).rack i := rfl

@[simp] theorem accepting_byKey (dt n : Nat) (s : State) (i : Fin 12) (a : Nat) :
    (s.accepting dt n).byKey i a = s.byKey i a := by
  unfold State.byKey
  rw [accepting_records]

@[simp] theorem accepting_bySlot (dt n : Nat) (s : State) (k : Nat) : (s.accepting dt n).bySlot k = s.bySlot k := by
  unfold State.bySlot
  rw [accepting_records]

@[simp] theorem accepting_domain (dt n : Nat) (s : State) (id : Byte) : (s.accepting dt n).domain id = s.domain id := by
  unfold State.domain
  rw [accepting_domains]

@[simp] theorem accepting_named (dt n : Nat) (s : State) (body : List Byte) :
    (s.accepting dt n).named body = s.named body := by
  unfold State.named
  simp only [accepting_byKey, accepting_bySlot]

@[simp] theorem accepting_namedDomain (dt n : Nat) (s : State) (body : List Byte) :
    (s.accepting dt n).namedDomain body = s.namedDomain body := by
  unfold State.namedDomain
  simp only [accepting_domain]

@[simp] theorem accepting_closeAssembled (dt n : Nat) (s : State) (r : Endpoint) :
    (s.accepting dt n).closeAssembled r = s.closeAssembled r := by
  unfold State.closeAssembled
  simp only [accepting_line]

/-- Time alone changes no watch state. -/
@[simp] theorem advance_watch (d : Nat) (s : State) (i : Fin 12) : ((s.advance d).rack i).watch = (s.rack i).watch := by
  obtain ⟨c, b, h⟩ := advance_rack d s i
  rw [h]

@[simp] theorem accepting_inAlarm (dt n : Nat) (s : State) (i : Fin 12) : (s.accepting dt n).inAlarm i = s.inAlarm i := by
  unfold State.inAlarm
  rw [accepting_rack, advance_watch]

@[simp] theorem accepting_alarmedOf (dt n : Nat) (s : State) (m : BitVec 12) :
    (s.accepting dt n).alarmedOf m = s.alarmedOf m := by
  unfold State.alarmedOf
  simp only [accepting_inAlarm]

@[simp] theorem accepting_fence (dt n : Nat) (s : State) (d : Domain) : (s.accepting dt n).fence d = s.fence d := by
  unfold State.fence
  simp only [accepting_alarmedOf]

/-! ### A frame at the port -/

/-- Forming a block's answer is answering with its status and body. -/
theorem form_answering (code : Byte) (d : Done) : State.form code d = d.1.answering code d.2.1 d.2.2 := rfl

/-- A request frame at a waiting port is bad when it is too long, and is carried out otherwise. -/
theorem takeRequest_waiting {s : State} (h : s.port.state ≠ .executing) (code : Byte) (lengths : List Nat)
    (body : List Byte) (block : State → Done) :
    s.takeRequest code lengths body block =
      if body.length > 60 then s.holdBadFrame code else s.carryOut code lengths body block := by
  unfold State.takeRequest
  cases e : s.port.state
  · rfl
  · exact absurd e h
  · rfl

/-- A request frame has four bytes around its body. -/
@[simp] theorem requestBytes_length (code : Byte) (body : List Byte) : (requestBytes code body).length = body.length + 4 := by
  unfold requestBytes
  rw [List.length_append, show (bytesOf 2 _).length = 2 from rfl]
  rfl

/-- A request frame is clocked in, and data out carries fill bytes beside it. -/
theorem request_heeded {s : State} (hi : s.port.ignoring = false) {code : Byte} (hc : code ≠ readCode) (dt : Nat)
    (lengths : List Nat) (body : List Byte) (block : State → Done) :
    (s.advance dt).request code lengths body block =
      ((s.advance dt).drive [] (8 * (body.length + 4))).takeRequest code lengths body block := by
  have e := transfer_eq (s := s.advance dt) (by rw [advance_port]; exact hi) (requestBytes code body) (rest := [])
    (by decide) (fun _ _ => State.takeRequest code lengths body block)
  rw [List.append_nil, if_neg (show ¬(requestBytes code body).head? = some readCode from fun x => hc (Option.some.inj x)),
    requestBytes_length] at e
  exact e

/-- A request at a waiting port after `dt` ns. -/
theorem request_waiting {s : State} (h : s.TakesFrames) {code : Byte} (hc : code ≠ readCode) (dt : Nat) (lengths : List Nat)
    (body : List Byte) (block : State → Done) :
    (s.advance dt).request code lengths body block =
      if body.length > 60 then ((s.advance dt).drive [] (8 * (body.length + 4))).holdBadFrame code
      else ((s.advance dt).drive [] (8 * (body.length + 4))).carryOut code lengths body block := by
  rw [request_heeded h.heeded hc]
  refine takeRequest_waiting ?_ code lengths body block
  show (s.advance dt).port.state ≠ _
  rw [advance_port]
  exact h.waiting

/-- A request of an allowed length at a waiting port is its owning block's, on the part at the acceptance. -/
theorem request_taken {s : State} (h : s.TakesFrames) {code : Byte} (hc : code ≠ readCode) (dt : Nat) (lengths : List Nat)
    (body : List Byte) (block : State → Done) (len : body.length ∈ lengths) (top : body.length ≤ 60) :
    (s.advance dt).request code lengths body block = State.form code (block (s.accepting dt body.length)) := by
  rw [request_waiting h hc, if_neg (by omega)]
  unfold State.carryOut
  rw [if_pos (by simpa using len)]
  rfl

/-- A request of another length is answered BAD_FIELD. -/
theorem request_length {s : State} (h : s.TakesFrames) {code : Byte} (hc : code ≠ readCode) (dt : Nat) (lengths : List Nat)
    (body : List Byte) (block : State → Done) (len : body.length ∉ lengths) (top : body.length ≤ 60) :
    (s.advance dt).request code lengths body block = (s.accepting dt body.length).answering code .badField [] := by
  rw [request_waiting h hc, if_neg (by omega)]
  unfold State.carryOut
  rw [if_neg (by simpa using len)]
  rfl

/-- A frame of more than 64 bytes is bad. -/
theorem request_long {s : State} (h : s.TakesFrames) {code : Byte} (hc : code ≠ readCode) (dt : Nat) (lengths : List Nat)
    (body : List Byte) (block : State → Done) (top : 60 < body.length) :
    (s.advance dt).request code lengths body block =
      ((s.advance dt).drive [] (8 * (body.length + 4))).holdBadFrame code := by
  rw [request_waiting h hc, if_pos top]

/-- A frame while EXECUTING is dropped. -/
theorem request_dropped {s : State} (hi : s.port.ignoring = false) (he : s.port.state = .executing) {code : Byte}
    (hc : code ≠ readCode) (dt : Nat) (lengths : List Nat) (body : List Byte) (block : State → Done) :
    (s.advance dt).request code lengths body block = ((s.advance dt).drive [] (8 * (body.length + 4))).dropWrite := by
  have he' : ((s.advance dt).drive [] (8 * (body.length + 4))).port.state = .executing := by
    show (s.advance dt).port.state = _
    rw [advance_port]
    exact he
  rw [request_heeded hi hc]
  unfold State.takeRequest
  rw [he']

/-- A transaction that a reset found under way is ignored to its end. -/
theorem transfer_ignored {s : State} (hi : s.port.ignoring = true) (dt : Nat) (bits : List Bool)
    (take : List Byte → Bool → State → State) :
    (s.advance dt).transfer bits take = (s.advance dt).modPort (fun p => { p with link := Link.idle, ignoring := false }) := by
  unfold State.transfer State.unlessIgnored
  rw [if_pos (by rw [advance_port]; exact hi)]
  rfl

/-- A write transaction of whole bytes and fewer than eight bits after them. -/
theorem transaction_write {s : State} (hi : s.port.ignoring = false) {first : Byte} (hf : first ≠ readCode) (dt : Nat)
    (bytes : List Byte) {rest : List Bool} (hr : rest.length < 8) :
    (s.advance dt).transaction (wireBits (first :: bytes) ++ rest) =
      ((s.advance dt).drive [] (8 * (first :: bytes).length + rest.length)).takeWrite first (first :: bytes) (!rest.isEmpty) := by
  unfold State.transaction
  rw [transfer_eq (by rw [advance_port]; exact hi) _ hr,
    if_neg (show ¬(first :: bytes).head? = some readCode from fun x => hf (Option.some.inj x))]
  exact if_neg hf

/-- A read transaction with `n` bits after the read code. -/
theorem read_heeded {s : State} (hi : s.port.ignoring = false) (dt n : Nat) :
    exec (.responseRead dt n) s = .next (((s.advance dt).drive s.port.readout (8 + n)).endRead (n / 8)) := by
  have bits : msbFirst readCode ++ List.replicate n false =
      wireBits (readCode :: List.replicate (n / 8) 0) ++ List.replicate (n % 8) false := by
    have zeros : ∀ k, wireBits (List.replicate k 0) = List.replicate (8 * k) false := by
      intro k
      induction k with
      | zero => rfl
      | succ k ih =>
        rw [List.replicate_succ]
        show msbFirst 0 ++ wireBits (List.replicate k 0) = _
        rw [ih, show 8 * (k + 1) = 8 + 8 * k by omega, List.replicate_add]
        rfl
    show _ = (msbFirst readCode ++ wireBits (List.replicate (n / 8) 0)) ++ _
    rw [zeros, List.append_assoc, List.replicate_append_replicate, show 8 * (n / 8) + n % 8 = n by omega]
  show Host.Outcome.next ((s.advance dt).transfer _ _) = _
  rw [bits, transfer_eq (by rw [advance_port]; exact hi) _ (by rw [List.length_replicate]; omega), if_pos (by rfl),
    advance_port, List.length_cons, List.length_replicate, List.length_replicate,
    show 8 * (n / 8 + 1) + n % 8 = 8 + n by omega]
  rfl

/-- A frame of an ignored transaction. -/
theorem request_ignored {s : State} (hi : s.port.ignoring = true) (dt : Nat) (code : Byte) (lengths : List Nat)
    (body : List Byte) (block : State → Done) :
    (s.advance dt).request code lengths body block =
      (s.advance dt).modPort (fun p => { p with link := Link.idle, ignoring := false }) := transfer_ignored hi dt _ _

end Sys2Proof.Machine
end

