-- ==== Sys2Proof/Laws/Receive.lean ====
section
/-! SUPPORT. What samples of a receive pair, or of a time-of-day input, do, said once: samples are taken in turn, a sample that
disturbs nothing reaches the receiver, and one that completes a frame hands it to the rules of the line's state. -/

namespace Sys2Proof.Machine

open Sys2Proof

/-! ### Samples in turn -/

theorem samples_nil (i : Fin 12) (s : State) : s.samples i [] = s := rfl

theorem samples_append (i : Fin 12) (vs ws : List Bool) (s : State) :
    s.samples i (vs ++ ws) = (s.samples i vs).samples i ws := List.foldl_append

theorem samples_one (i : Fin 12) (v : Bool) (s : State) : s.samples i [v] = s.sample i v := rfl

/-! ### The part as a sample is read -/

variable (i : Fin 12) (dt : Nat) (v : Bool) (s : State)

theorem sample_heard : (s.advance dt).sample i v = (s.heard i dt v).sampled i (s.line i).level v := by
  unfold State.sample State.heard
  rw [advance_line]

@[simp] theorem heard_chanA : (s.heard i dt v).chanA = s.chanA := (advanceTo_chanA ..).trans (advance_chanA ..)
@[simp] theorem heard_chanB : (s.heard i dt v).chanB = s.chanB := (advanceTo_chanB ..).trans (advance_chanB ..)
@[simp] theorem heard_records : (s.heard i dt v).records = s.records := (advanceTo_records ..).trans (advance_records ..)
@[simp] theorem heard_newcomers : (s.heard i dt v).newcomers = s.newcomers :=
  (advanceTo_newcomers ..).trans (advance_newcomers ..)
@[simp] theorem heard_overflow : (s.heard i dt v).overflow = s.overflow := (advanceTo_overflow ..).trans (advance_overflow ..)
@[simp] theorem heard_domains : (s.heard i dt v).domains = s.domains := (advanceTo_domains ..).trans (advance_domains ..)
@[simp] theorem heard_port : (s.heard i dt v).port = s.port := (advanceTo_port ..).trans (advance_port ..)
@[simp] theorem heard_freeCount : (s.heard i dt v).freeCount = s.freeCount :=
  (advanceTo_freeCount ..).trans (advance_freeCount ..)
@[simp] theorem heard_pending : (s.heard i dt v).pending = s.pending := (advanceTo_pending ..).trans (advance_pending ..)
@[simp] theorem heard_bySlot (n : Nat) : (s.heard i dt v).bySlot n = s.bySlot n :=
  (advanceTo_bySlot ..).trans (advance_bySlot ..)
@[simp] theorem heard_byKey (j : Fin 12) (n : Nat) : (s.heard i dt v).byKey j n = s.byKey j n :=
  (advanceTo_byKey ..).trans (advance_byKey ..)
@[simp] theorem heard_domain (b : Byte) : (s.heard i dt v).domain b = s.domain b :=
  (advanceTo_domain ..).trans (advance_domain ..)

/-- The instant of the sample (R27). -/
theorem heard_localNs : (s.heard i dt v).localNs = (s.line i).sampleTime (s.localNs + dt) ⊔ (s.localNs + dt) := by
  show ((s.advance dt).advanceTo (((s.advance dt).line i).sampleTime (s.advance dt).localNs)).localNs = _
  rw [advanceTo_localNs, advance_line, advance_localNs, max_comm]

/-- Its line as the sample is read: its instant and level, and the measure of a running fault watch (R32). -/
theorem heard_line : (s.heard i dt v).line i = Line.take (s.heard i dt v).localNs v (s.line i) := by
  unfold State.heard
  rw [modLine_line_same]
  show Line.take ((s.advance dt).toSample i).localNs v (((s.advance dt).advanceTo _).line i) = _
  rw [advanceTo_line, advance_line]
  rfl

theorem heard_line_other {j : Fin 12} (h : j ≠ i) : (s.heard i dt v).line j = s.line j := by
  unfold State.heard
  rw [modLine_line_other _ _ (Ne.symm h)]
  exact (advanceTo_line ..).trans (advance_line ..)

/-! ### The receiver -/

variable {i dt v s}

/-- A sample that brings no fault of a watched line reaches its receiver (R27, R32). -/
theorem sampled_listens {was : Bool} (h : (s.line i).Undisturbed v) :
    (s.heard i dt v).sampled i was v = (s.heard i dt v).listen i was v := by
  obtain ⟨⟨h1, h2⟩, h3⟩ := h
  unfold State.sampled
  rw [heard_line, if_neg (show (Line.take _ v (s.line i)).state ≠ .off from h1),
    if_neg (show (Line.take _ v (s.line i)).state ≠ .fault from h2), if_neg]
  unfold Line.faulty Line.take
  cases hw : (s.line i).faultWatch with
  | none => simp
  | some n =>
    cases v with
    | true => simp
    | false =>
      have := h3 n hw rfl
      simp only [Option.map_some, decide_eq_true_eq]
      simp
      omega

/-- The sample that completes a character hands it on (R27 to R29). -/
theorem sample_completes {start : Nat} {edge : Capture} {c : RxChar} (h : (s.line i).Completes start edge c v) :
    (s.advance dt).sample i v = (s.heard i dt v).receiveChar i start edge c := by
  obtain ⟨calm, w, taken, hr, hl, hc⟩ := h
  rw [sample_heard, sampled_listens calm]
  unfold State.listen
  rw [heard_line, show (Line.take (s.heard i dt v).localNs v (s.line i)).receiver = .char start edge w taken from hr]
  unfold Receiver.hear Receiver.decided
  dsimp only
  rw [if_neg, if_pos, hc]
  · rw [List.length_append, hl]
    exact Nat.le_refl 169
  · rw [List.length_append, hl]
    exact fun x => absurd x.1 (show ¬(169 = 9) by decide)

/-- The sample that completes a frame hands it to the rules of the line's state (R28). -/
theorem sample_completesFrame {cs : List RxChar} (h : (s.line i).CompletesFrame cs v) :
    ∃ c : RxChar, cs.getLast? = some c ∧
      (s.advance dt).sample i v = State.frameEnded i cs ((s.heard i dt v).modLine i (Line.endChar c)) := by
  obtain ⟨begun, ⟨start, edge, c, hc, hm, rfl⟩, full⟩ := h
  refine ⟨c, by simp, ?_⟩
  rw [sample_completes hc]
  have hrx : ((s.heard i dt v).line i).rx = (s.line i).rx := by rw [heard_line]; rfl
  unfold State.receiveChar
  rw [hrx, if_neg begun, hm, if_neg (by decide)]
  unfold State.nextChar
  have hrx' : (((s.heard i dt v).modLine i (Line.endChar c)).line i).rx = (s.line i).rx := by
    rw [modLine_line_same]
    exact hrx
  rw [hrx', if_pos ((frameComplete_iff _).2 full)]

/-- What stood in assembly does not matter to a frame that ends: the end of assembly empties it (R28). -/
theorem frameEnded_rx (i : Fin 12) (cs : List RxChar) (f : Line → Line) (ne : cs ≠ []) (s : State)
    (hf : ∀ b, Line.frameOver b (f (s.line i)) = Line.frameOver b (s.line i)) (he : (f (s.line i)).rxEdge = (s.line i).rxEdge) :
    State.frameEnded i cs (s.modLine i f) = State.frameEnded i cs s := by
  unfold State.frameEnded
  rw [if_neg ne, if_neg ne, modLine_line_same, he, modLine_modLine]
  congr 1
  exact modLine_congr s i (hf _)

/-! ### The time-of-day inputs (R2, R27) -/

theorem todSamples_nil (ch : Chan) (s : State) : s.todSamples ch [] = s := rfl

theorem todSamples_append (ch : Chan) (vs ws : List Bool) (s : State) :
    s.todSamples ch (vs ++ ws) = (s.todSamples ch vs).todSamples ch ws := List.foldl_append

/-- The channel as the sample is read: its instant and level (R27). -/
theorem todHeard_chan (ch : Chan) (dt : Nat) (v : Bool) (s : State) :
    (s.todHeard ch dt v).chan ch = (s.chan ch).todRead (s.todHeard ch dt v).localNs v := by
  unfold State.todHeard
  rw [setChan_chan_same, setChan_localNs]
  rfl

theorem todHeard_epoch (ch : Chan) (dt : Nat) (v : Bool) (s : State) : (s.todHeard ch dt v).clk.epoch = s.clk.epoch := by
  unfold State.todHeard State.toTodSample State.advanceTo
  rw [setChan_clk]
  obtain ⟨_, _, _, h⟩ := advance_clk dt s
  obtain ⟨_, _, _, k⟩ := advance_clk (RefChannel.todSampleTime _ _ - _) (s.advance dt)
  rw [k, h]

/-- A sample of a time-of-day input does to its channel what the channel's receiver makes of it, and nothing else (R2, R27). -/
theorem todSample_heard (ch : Chan) (dt : Nat) (v : Bool) (s : State) {u : State} (h : u = s.todHeard ch dt v) :
    (s.advance dt).todSample ch v =
      u.setChan ch ((u.chan ch).todListen u.localNs ⟨u.clk.row, s.clk.epoch⟩ (s.chan ch).todLevel v) := by
  have e : (s.todHeard ch dt v).clk.epoch = s.clk.epoch := todHeard_epoch ch dt v s
  subst h
  rw [← e]
  unfold State.todHeard State.todSample RefChannel.todSampled
  generalize (s.advance dt).toTodSample ch = t
  rw [advance_chan, setChan_chan_same, setChan_localNs, setChan_clk, setChan_setChan]
  rfl

/-- A DISABLED channel ignores its time-of-day input (R1). -/
theorem todListen_off {c : RefChannel} (h : c.enable = false) (now : Nat) (edge : Capture) (was v : Bool) :
    c.todListen now edge was v = c := by
  unfold RefChannel.todListen
  rw [if_neg (by simp [h])]

/-- The sample that completes a character hands it on (R2, R27). -/
theorem todListen_completes {c : RefChannel} {start : Nat} {x : RxChar} {v : Bool} (on : c.enable = true)
    (h : c.Completes start x v) (now : Nat) (edge : Capture) (was : Bool) :
    c.todListen now edge was v = (c.todChar start x).toReceiver (.following x) := by
  obtain ⟨e, w, taken, hr, hl, hx⟩ := h
  unfold RefChannel.todListen
  rw [if_pos on, hr]
  unfold Receiver.hear Receiver.decided
  dsimp only
  rw [if_neg, if_pos, hx]
  · rw [List.length_append, hl]
    exact Nat.le_refl 169
  · rw [List.length_append, hl]
    exact fun x => absurd x.1 (show ¬(169 = 9) by decide)

end Sys2Proof.Machine
end

