-- ==== Sys2Proof/Laws/Reply.lean ====
section
/-! SUPPORT. What a REPLY does to a record and to its rack, rule by rule: the acknowledgement judgement, the filtered offset, the
sample and state rules, the correction decision, and the checks on a stamp request; each in the words of Safety.lean. -/

namespace Sys2Proof.Machine

open Sys2Proof

/-- The acknowledgement judgement (R79, R103 to R107). -/
theorem judgeAck_acknowledged (seq : BitVec 4) (r : Endpoint) : r.Acknowledged seq (r.judgeAck seq) := by
  unfold Endpoint.judgeAck Endpoint.inFlight
  constructor
  · intro h
    simp [h]
  · intro v h k c
    simp [h, k, Endpoint.acknowledge, c, clip]
  · intro v h k c
    simp [h, k, Endpoint.acknowledge, c]
  · intro h k n
    simp only [bne_iff_ne, ne_eq, h, not_false_eq_true, if_true, k, if_false]
    rw [if_neg (by omega)]
  · intro h k n
    simp only [bne_iff_ne, ne_eq, h, not_false_eq_true, if_true, k, if_false]
    rw [if_pos n]
    rfl

/-- The best of a window seen so far and a further sample: the later one, where it is no worse (R61). -/
theorem bestSample_append (w : List Sample) (x : Sample) : bestSample (w ++ [x]) =
    some (match bestSample w with
      | none => x
      | some b => if x.delta ≤ b.delta then x else b) := by
  unfold bestSample
  rw [List.foldl_append]
  simp only [List.foldl_cons, List.foldl_nil]
  cases List.foldl _ none w with
  | none => rfl
  | some b => exact (apply_ite some _ _ _).symm

/-- The best sample of a window is the newest of those with the least delay (R61). -/
theorem bestSample_spec (w : List Sample) : ∀ x, bestSample w = some x →
    ∃ older newer, w = older ++ x :: newer ∧ (∀ y ∈ older, x.delta ≤ y.delta) ∧ ∀ y ∈ newer, x.delta < y.delta := by
  induction w using List.reverseRecOn with
  | nil => exact fun _ h => nomatch h
  | append_singleton w y ih =>
    intro x h
    rw [bestSample_append] at h
    split at h
    · rename_i hb
      cases h
      have : w = [] := by
        cases w using List.reverseRecOn with
        | nil => rfl
        | append_singleton w z _ => rw [bestSample_append] at hb; cases hb
      subst this
      exact ⟨[], [], rfl, nofun, nofun⟩
    · rename_i b hb
      obtain ⟨older, newer, rfl, ho, hn⟩ := ih b hb
      split at h <;> cases h
      · rename_i hle
        refine ⟨older ++ b :: newer, [], by simp, fun z hz => ?_, nofun⟩
        rcases List.mem_append.mp hz with hz | hz
        · exact hle.trans (ho z hz)
        · rcases List.mem_cons.mp hz with rfl | hz
          · exact hle
          · exact hle.trans (hn z hz).le
      · rename_i hle
        refine ⟨older, newer ++ [y], by simp, ho, fun z hz => ?_⟩
        rcases List.mem_append.mp hz with hz | hz
        · exact hn z hz
        · cases List.mem_singleton.mp hz
          omega

/-- A window with a sample has a best one. -/
theorem bestSample_isSome {w : List Sample} (h : w ≠ []) : ∃ x, bestSample w = some x := by
  cases w using List.reverseRecOn with
  | nil => exact absurd rfl h
  | append_singleton w y _ => exact ⟨_, bestSample_append w y⟩

/-- The best sample, told by its place in the window: the converse of `bestSample_spec`. -/
theorem bestSample_eq {older newer : List Sample} {x : Sample} (ho : ∀ y ∈ older, x.delta ≤ y.delta)
    (hn : ∀ y ∈ newer, x.delta < y.delta) : bestSample (older ++ x :: newer) = some x := by
  induction newer using List.reverseRecOn with
  | nil =>
    rw [bestSample_append]
    split
    · rfl
    · rename_i b hb
      obtain ⟨o, n, rfl, _, _⟩ := bestSample_spec _ b hb
      rw [if_pos (ho b (by simp))]
  | append_singleton newer y ih =>
    rw [show older ++ x :: (newer ++ [y]) = (older ++ x :: newer) ++ [y] by simp, bestSample_append,
      ih (fun z hz => hn z (by simp [hz]))]
    have := hn y (by simp)
    exact congrArg some (if_neg (by omega))

/-- The filtered offset and the least delay of a window, as computed and as R61 puts them. -/
theorem filtered_iff (f : Int) (d : Nat) (w : List Sample) :
    Filtered f d w ↔ filteredOffset w = some f ∧ leastDelay w = some d := by
  constructor
  · rintro ⟨older, x, newer, rfl, rfl, rfl, ho, hn⟩
    unfold filteredOffset leastDelay
    rw [bestSample_eq ho hn]
    exact ⟨rfl, rfl⟩
  · unfold filteredOffset leastDelay
    rintro ⟨h, k⟩
    cases hb : bestSample w with
    | none => rw [hb] at h; cases h
    | some x =>
      rw [hb] at h k
      cases h
      cases k
      obtain ⟨older, newer, hw, ho, hn⟩ := bestSample_spec w x hb
      exact ⟨older, x, newer, hw, rfl, rfl, ho, hn⟩

/-- A window with a sample has a filtered offset (R61). -/
theorem filtered_of_ne {w : List Sample} (h : w ≠ []) : ∃ f d, Filtered f d w := by
  obtain ⟨x, hx⟩ := bestSample_isSome h
  obtain ⟨older, newer, hw, ho, hn⟩ := bestSample_spec w x hx
  exact ⟨x.theta, x.delta, older, x, newer, hw, rfl, rfl, ho, hn⟩

/-- The window after an accepted sample joined it is not empty (R60). -/
theorem append_window_ne (x : Sample) (a : Endpoint) : (a.append x).window ≠ [] := by
  unfold Endpoint.append
  dsimp only
  split
  · rename_i h
    intro e
    have := congrArg List.length e
    simp only [List.length_tail, List.length_nil] at this
    omega
  · simp

/-- The filtered offset decides against the step threshold (R72, R75). -/
theorem overThreshold_iff {f : Int} {d : Nat} {r : Endpoint} (h : Filtered f d r.window) :
    r.overThreshold = true ↔ r.stepThreshold ≤ f.natAbs := by
  unfold Endpoint.overThreshold
  rw [((filtered_iff f d r.window).mp h).1]
  simp

/-- The state rules of an accepted sample, with the threshold looked up (R72 to R75). -/
theorem acceptRule_eq (x : Sample) (sn : Bool) (r q : Endpoint) (hq : q = { r with goodTotal := inc16 r.goodTotal, missCount := 0 }) :
    r.acceptRule x sn =
      match q.state with
      | .enrolling =>
        if (q.corrEnabled && q.overThreshold) = true then { q with goodCount := 0 }
        else if q.inFlight = true then q
        else if q.goodCount + 1 ≥ 3 then
          { q with goodCount := 3, state := .tracking, baseline := some (q.baseline.getD q.freq) }
        else { q with goodCount := q.goodCount + 1 }
      | .tracking => q
      | .suspect => if (q.inFlight || sn) = true then q else { q with state := .tracking }
      | .lost => { q with
          state := .enrolling, window := [x]
          goodCount := if ((q.corrEnabled && decide (q.stepThreshold ≤ x.theta.natAbs)) || q.inFlight) = true then 0 else 1 }
      | .suspended => q
      | .retiring => q := by
  subst hq
  rfl

/-- An accepted sample by the record's state (R60, R61, R72 to R75). -/
theorem acceptRule_accepted {x : Sample} {f : Int} {d : Nat} {a : Endpoint} (sn : Bool) (h : Filtered f d (a.append x).window) :
    a.Accepted x f sn { a.append x with goodTotal := inc16 a.goodTotal, missCount := 0 } ((a.append x).acceptRule x sn) := by
  rw [acceptRule_eq x sn (a.append x) _ rfl]
  generalize hq : ({ a.append x with goodTotal := inc16 (a.append x).goodTotal, missCount := 0 } : Endpoint) = q
  have hc : ({ a.append x with goodTotal := inc16 a.goodTotal, missCount := 0 } : Endpoint) = q := hq
  have ht : q.overThreshold = true ↔ q.stepThreshold ≤ f.natAbs := overThreshold_iff (by rw [← hq]; exact h)
  have fl : q.inFlight = true ↔ a.ackSeq ≠ a.cmdSeq := by rw [← hq]; unfold Endpoint.inFlight; exact bne_iff_ne
  have e1 : a.state = q.state := by rw [← hq]; rfl
  have e2 : a.corrEnabled = q.corrEnabled := by rw [← hq]; rfl
  have e3 : a.stepThreshold = q.stepThreshold := by rw [← hq]; rfl
  have e4 : a.goodCount = q.goodCount := by rw [← hq]; rfl
  have e5 : a.baseline = q.baseline := by rw [← hq]; rfl
  have e6 : a.freq = q.freq := by rw [← hq]; rfl
  have thr : (q.corrEnabled && q.overThreshold) = true ↔ a.corrEnabled = true ∧ a.stepThreshold ≤ f.natAbs := by
    rw [Bool.and_eq_true, ht, e2, e3]
  rw [hc]
  constructor
  · exact hc.symm
  · intro e h1
    rw [← e1, e]
    exact if_pos (thr.mpr h1)
  · intro e h1 h2
    rw [← e1, e]
    exact (if_neg (fun k => h1 (thr.mp k))).trans (if_pos (fl.mpr h2))
  · intro e h1 h2 h3
    rw [← e1, e, e4]
    exact (if_neg (fun k => h1 (thr.mp k))).trans
      ((if_neg (fun k => fl.mp k h2)).trans (if_neg (by omega)))
  · intro e h1 h2 h3
    rw [← e1, e, e5, e6]
    exact (if_neg (fun k => h1 (thr.mp k))).trans
      ((if_neg (fun k => fl.mp k h2)).trans (if_pos (by omega)))
  · intro e
    rw [← e1, e]
  · intro e h1 h2
    rw [← e1, e]
    exact if_neg (by rw [h2, Bool.or_false, fl]; exact fun k => k h1)
  · intro e h1
    rw [← e1, e]
    exact if_pos (by rw [Bool.or_eq_true, fl]; exact h1)
  · intro e
    rw [← e1, e]
    have : (((q.corrEnabled && decide (q.stepThreshold ≤ x.theta.natAbs)) || q.inFlight) = true) ↔
        (a.corrEnabled = true ∧ a.stepThreshold ≤ x.theta.natAbs ∨ a.ackSeq ≠ a.cmdSeq) := by
      rw [Bool.or_eq_true, Bool.and_eq_true, decide_eq_true_eq, fl, e2, e3]
    dsimp only
    rw [if_congr this rfl rfl]

/-- A rejected sample by the record's state (R76). -/
theorem rejectRule_rejected (a : Endpoint) : a.Rejected a.rejectRule := by
  unfold Endpoint.rejectRule
  constructor
  · intro e
    simp only [e]
    rfl
  · intro e
    simp only [e]
    rfl
  · intro h1 h2
    cases e : a.state <;> first | rfl | exact absurd e h1 | exact absurd e h2

/-- COR's decision on an accepted sample (R98 to R101). -/
theorem correct_corrected {f : Int} {d : Nat} {b : Endpoint} (n : Nat) (h : Filtered f d b.window) :
    b.Corrected f n (b.correct true n) := by
  have hf := ((filtered_iff f d b.window).mp h).1
  have fl : b.inFlight = true ↔ b.ackSeq ≠ b.cmdSeq := by unfold Endpoint.inFlight; simp
  unfold Endpoint.correct
  constructor
  · rintro (h1 | h1 | ⟨h1, h2⟩)
    · simp [h1]
    · simp [fl.mpr h1]
    · split
      · rw [hf]
        cases e : b.state <;> first | rfl | exact absurd e h1 | exact absurd e h2
      · rfl
  · intro h1 h2 h3 h4
    rw [if_pos (by simp [h1, Endpoint.inFlight, h2])]
    rcases h3 with e | e <;> rw [e, hf] <;> exact if_pos h4
  · intro e h1
    split
    · rw [e, hf]
      exact if_neg (by omega)
    · rfl
  · intro v h1 h2 e h4 hv
    rw [if_pos (by simp [h1, Endpoint.inFlight, h2]), e, hf]
    dsimp only
    rw [if_neg (by omega)]
    have : slewDelta f n = v := hv.symm
    rw [this]
    exact ⟨fun k => if_neg k, fun k => if_pos k⟩

/-! ### Stamp requests from a line (R134 to R142) -/

variable {s : State} {r : Endpoint} {ev : Bool} {id : Byte} {n : Nat}

/-- A request that meets checks 1 to 4 (R134). -/
theorem commonChecks_ok {d : Domain} (h : s.Names id n d) (ho : d.state = .opened) : s.commonChecks id n = .ok d := by
  obtain ⟨h1, h2, h3⟩ := h
  unfold State.commonChecks
  rw [if_neg (by omega), if_neg h2, h3]
  dsimp only
  rw [ho]

/-- A line request refused by check 5 or a later one (R134, R135). -/
theorem decideLine_lineChecks {d : Domain} {c : RefusalCode} (h : s.Names id n d) (ho : d.state = .opened)
    (k : s.lineChecks d r ev = some c) (t4 : Capture) : s.decideLine r ev t4 id n = .refusal id c := by
  unfold State.decideLine
  rw [commonChecks_ok h ho]
  dsimp only
  rw [k]

/-- A line request that a check of R134 refuses gets that check's code. -/
theorem decideLine_refused {c : RefusalCode} (h : s.LineRefused r ev id n c) (t4 : Capture) :
    s.decideLine r ev t4 id n = .refusal id c := by
  have common : ∀ c, s.commonChecks id n = .error c → s.decideLine r ev t4 id n = .refusal id c := fun c e => by
    unfold State.decideLine
    rw [e]
  cases h with
  | badCount h => exact common _ (if_pos (by omega))
  | noDomain h none =>
    refine common _ ((if_neg (by omega)).trans ?_)
    by_cases h0 : id = 0
    · exact if_pos h0
    · rw [if_neg h0, none.resolve_left h0]
  | domainClosed d h st =>
    obtain ⟨h1, h2, h3⟩ := h
    refine common _ ((if_neg (by omega)).trans ((if_neg h2).trans ?_))
    rw [h3]
    dsimp only
    rw [st]
  | domainFrozen d h st =>
    obtain ⟨h1, h2, h3⟩ := h
    refine common _ ((if_neg (by omega)).trans ((if_neg h2).trans ?_))
    rw [h3]
    dsimp only
    rw [st]
  | notMember d h st mem => exact decideLine_lineChecks h st (if_pos mem) t4
  | epochChanged d h st mem ep => exact decideLine_lineChecks h st (by simp [State.lineChecks, mem, ep]) t4
  | withdrawn d h st mem ep wd => exact decideLine_lineChecks h st (by simp [State.lineChecks, mem, ep, wd]) t4
  | rackFenced d h st mem ep wd fence =>
    exact decideLine_lineChecks h st (by simp [State.lineChecks, State.inAlarm, mem, ep, wd, fence]) t4
  | untracked d h st mem ep wd fence tr =>
    refine decideLine_lineChecks h st ?_ t4
    simp only [State.lineChecks, State.inAlarm, mem, ep, wd, beq_iff_eq]
    simp [fence, tr]
  | correcting d h st mem ep wd fence tr fl =>
    refine decideLine_lineChecks h st ?_ t4
    simp only [State.lineChecks, State.inAlarm, Endpoint.inFlight, mem, ep, wd, tr, beq_iff_eq]
    simp [fence, fl]

/-- A line request that passes every check but the last is valued (R134, R137). -/
theorem decideLine_passes {d : Domain} (h : s.LinePasses r ev id n d) (t4 : Capture) :
    s.decideLine r ev t4 id n = d.valueGrant (s.errorBound r t4.time) t4 n := by
  obtain ⟨h, st, mem, ep, wd, fence, tr, fl⟩ := h
  have k : s.lineChecks d r ev = none := by
    simp only [State.lineChecks, State.inAlarm, Endpoint.inFlight, mem, ep, wd, tr, beq_iff_eq]
    simp [fence, fl]
  unfold State.decideLine
  rw [commonChecks_ok h st]
  dsimp only
  rw [k]

/-- Every line request is refused by a check or passes the checks (R134). -/
theorem lineRefused_or_passes (s : State) (r : Endpoint) (ev : Bool) (id : Byte) (n : Nat) :
    (∃ c, s.LineRefused r ev id n c) ∨ ∃ d, s.LinePasses r ev id n d := by
  by_cases h1 : 1 ≤ n ∧ n ≤ 16
  swap
  · exact Or.inl ⟨_, .badCount h1⟩
  by_cases h2 : id = 0 ∨ s.domain id = none
  · exact Or.inl ⟨_, .noDomain h1 h2⟩
  rw [not_or] at h2
  obtain ⟨d, hd⟩ := Option.ne_none_iff_exists'.mp h2.2
  have names : s.Names id n d := ⟨h1, h2.1, hd⟩
  cases st : d.state with
  | retiring => exact Or.inl ⟨_, .domainClosed d names st⟩
  | frozen => exact Or.inl ⟨_, .domainFrozen d names st⟩
  | opened =>
    cases mem : d.members.getLsbD r.line with
    | false => exact Or.inl ⟨_, .notMember d names st mem⟩
    | true =>
      cases ev with
      | true => exact Or.inl ⟨_, .epochChanged d names st mem rfl⟩
      | false =>
        by_cases wd : r.withdrawal = .no
        swap
        · exact Or.inl ⟨_, .withdrawn d names st mem rfl wd⟩
        by_cases fence : d.fence = .refuseRack ∧ (s.rack r.line).watch = .alarm
        · exact Or.inl ⟨_, .rackFenced d names st mem rfl wd fence⟩
        by_cases tr : r.state = .tracking
        swap
        · exact Or.inl ⟨_, .untracked d names st mem rfl wd fence tr⟩
        by_cases fl : r.ackSeq = r.cmdSeq
        · exact Or.inr ⟨d, names, st, mem, rfl, wd, fence, tr, fl⟩
        · exact Or.inl ⟨_, .correcting d names st mem rfl wd fence tr fl⟩

end Sys2Proof.Machine
end

