-- ==== Sys2Proof/Laws/Restart.lean ====
section
/-! SUPPORT. What RESTART does to the lines, once the tables are empty: each line alone, by its state (R41). -/

namespace Sys2Proof.Machine

open Sys2Proof

/-- A cycle start of a line with nothing to poll and no boost condition (R43, R48, R52). -/
abbrev Line.emptyCycle (now : Nat) (l : Line) : Line :=
  if l.discEnable = true then (l.startCycle now false []).toUrgent.beginDiscovery now
  else (l.startCycle now false []).toUrgent.rest

/-- Such a start on a line whose receiver is closed, in the words of Safety.lean. -/
theorem emptyCycle_empty (now : Nat) {l : Line} (closed : l.rxOpen = false ∧ l.rx = [] ∧ l.windowEnd = none)
    (running : l.windowElapsed = false) : Line.EmptyCycle now l (l.emptyCycle now) := by
  obtain ⟨c1, c2, c3⟩ := closed
  cases d : l.discEnable with
  | true =>
    have e : l.emptyCycle now = (l.startCycle now false []).toUrgent.beginDiscovery now := if_pos d
    rw [e]
    refine ⟨?_, fun _ => ⟨⟨rfl, rfl⟩, rfl, rfl, rfl, ⟨rfl, rfl, rfl⟩, ⟨rfl, rfl⟩, rfl⟩, ?_⟩
    · exact ⟨rfl, rfl, rfl, ⟨rfl, rfl⟩, Or.inr (Or.inr rfl), rfl, rfl, rfl, ⟨rfl, rfl⟩, ⟨rfl, rfl, rfl, rfl, rfl, rfl, rfl, rfl, rfl⟩⟩
    · cases l
      dsimp only at c1 c2 c3 running d
      subst c1 c2 c3 running d
      rfl
  | false =>
    have e : l.emptyCycle now = (l.startCycle now false []).toUrgent.rest := if_neg (by simp [d])
    rw [e]
    refine ⟨?_, fun h => absurd (d.symm.trans h) Bool.false_ne_true, ?_⟩
    · exact ⟨rfl, rfl, rfl, ⟨rfl, rfl⟩, Or.inl rfl, rfl, rfl, rfl, ⟨rfl, rfl⟩, ⟨rfl, rfl, rfl, rfl, rfl, rfl, rfl, rfl, rfl⟩⟩
    · cases l
      dsimp only at d
      subst d
      rfl

/-- With no record in the table and no boost condition a cycle start touches its line alone (R43, R48, R52). -/
theorem newCycle_empty {i : Fin 12} {s : State} (none : s.records = []) (calm : (s.rack i).boosted = false) :
    s.newCycle i = s.modLine i (Line.emptyCycle s.localNs) := by
  have find : ∀ (l : List Nat) (k : Nat), (s.cycleStart i).firstPollable l k = Option.none := by
    intro l
    induction l with
    | nil => intro k; rfl
    | cons n l ih =>
      intro k
      have miss : (s.cycleStart i).bySlot n = Option.none := by
        unfold State.cycleStart State.takeClasses State.bySlot State.modLine
        rw [none]
        rfl
      unfold State.firstPollable
      rw [miss]
      exact ih (k + 1)
  have same : s.takeClasses i = s := by
    unfold State.takeClasses
    rw [none, List.map_nil, ← none]
  have list : ∀ c b, s.buildList i c b = [] := fun c b => by
    unfold State.buildList
    rw [none]
    rfl
  have start : s.cycleStart i = s.modLine i (Line.startCycle s.localNs false []) := by
    unfold State.cycleStart
    rw [same, calm, list]
  have cases := newCycle_cases i s
  generalize s.newCycle i = t at cases ⊢
  cases cases with
  | list k q h => rw [find] at h; cases h
  | urgent k q h h' => rw [find] at h'; cases h'
  | discovery h h' d =>
    rw [start, modLine_modLine, modLine_modLine]
    exact modLine_congr s i (if_pos d).symm
  | rest h h' d =>
    rw [start, modLine_modLine, modLine_modLine]
    exact modLine_congr s i (if_neg (by simp [d])).symm

/-- The line after RESTART, by its state and its quiesce requested flag (R41). -/
abbrev Line.afterRestart (now : Nat) (l : Line) : Line :=
  match l.state with
  | .off | .quiesced | .fault => l.restarted (l.cutTail now)
  | .idle | .discovering => (l.restarted (l.cutTail now)).emptyCycle now
  | .polling | .closing =>
    if l.quiesceReq = true then (l.restarted (l.cutTail now)).toQuiesced else (l.restarted (l.cutTail now)).emptyCycle now

/-- The tables as RESTART leaves them before its lines act on it, at the local time `now` (R183). -/
structure State.TablesEmpty (now : Nat) (s : State) : Prop where
  at' : s.localNs = now
  none : s.records = []
  calm : ∀ i, (s.rack i).boosted = false

/-- With the tables empty, RESTART at a line touches that line alone (R41). -/
theorem lineRestart_empty {now : Nat} {s : State} (h : s.TablesEmpty now) (i : Fin 12) :
    s.lineRestart i = s.modLine i (Line.afterRestart now) := by
  obtain ⟨rfl, none, calm⟩ := h
  have hl : (s.modLine i (Line.hush s.localNs)).line i = (s.line i).hush s.localNs := modLine_line_same s i _
  have gone : (s.abandon i).modLine i Line.emptied = s.modLine i (fun l => l.restarted (l.cutTail s.localNs)) := by
    have miss : ∀ (f : Line → Line) (n : Nat), (s.modLine i f).bySlot n = Option.none := fun f n => by
      rw [modLine_bySlot]
      unfold State.bySlot
      rw [none]
      rfl
    unfold State.abandon State.endTransaction
    rw [hl]
    cases hx : ((s.line i).hush s.localNs).transaction with
    | none =>
      rw [modLine_modLine]
      refine modLine_congr s i ?_
      have : (s.line i).transaction = Option.none := hx
      unfold Line.emptied Line.hush Line.restarted Line.silenced
      simp only [this]
    | some x =>
      dsimp only
      unfold State.heldAnswer State.eptEnd
      rw [miss]
      show (((s.modLine i (Line.hush s.localNs)).modLine i Line.noTransaction).modLine i Line.emptied) = _
      rw [modLine_modLine, modLine_modLine]
      rfl
  unfold State.lineRestart
  rw [gone]
  generalize hm : (fun l : Line => l.restarted (l.cutTail s.localNs)) = m
  have cyc : (s.modLine i m).newCycle i = s.modLine i (fun l => (m l).emptyCycle s.localNs) := by
    rw [newCycle_empty (s := s.modLine i m) none (calm i), modLine_modLine]
    rfl
  have qui : (s.modLine i m).modLine i Line.toQuiesced = s.modLine i (fun l => (m l).toQuiesced) := modLine_modLine s i _ _
  subst hm
  unfold State.restartFrom
  cases st : (s.line i).state with
  | off => exact modLine_congr s i (by unfold Line.afterRestart; rw [st])
  | quiesced => exact modLine_congr s i (by unfold Line.afterRestart; rw [st])
  | fault => exact modLine_congr s i (by unfold Line.afterRestart; rw [st])
  | idle => exact cyc.trans (modLine_congr s i (by unfold Line.afterRestart; rw [st]))
  | discovering => exact cyc.trans (modLine_congr s i (by unfold Line.afterRestart; rw [st]))
  | polling =>
    cases q : (s.line i).quiesceReq with
    | true => exact qui.trans (modLine_congr s i (by unfold Line.afterRestart; rw [st, if_pos q]))
    | false => exact cyc.trans (modLine_congr s i (by unfold Line.afterRestart; rw [st, if_neg (by simp [q])]))
  | closing =>
    cases q : (s.line i).quiesceReq with
    | true => exact qui.trans (modLine_congr s i (by unfold Line.afterRestart; rw [st, if_pos q]))
    | false => exact cyc.trans (modLine_congr s i (by unfold Line.afterRestart; rw [st, if_neg (by simp [q])]))

/-- With the tables empty, RESTART takes every line where the table of R41 does, and touches nothing else. -/
theorem forAll12_lineRestart {now : Nat} {s : State} (h : s.TablesEmpty now) :
    s.forAll12 State.lineRestart = { s with lines := (s.forAll12 State.lineRestart).lines } ∧
    ∀ j, (s.forAll12 State.lineRestart).line j = (s.line j).afterRestart now := by
  have key : ∀ (l : List (Fin 12)) (s : State), l.Nodup → s.TablesEmpty now →
      l.foldl (fun s i => s.lineRestart i) s = { s with lines := (l.foldl (fun s i => s.lineRestart i) s).lines } ∧
      ∀ j, (l.foldl (fun s i => s.lineRestart i) s).line j = if j ∈ l then (s.line j).afterRestart now else s.line j := by
    intro l
    induction l with
    | nil => exact fun s _ _ => ⟨rfl, fun j => (if_neg List.not_mem_nil).symm⟩
    | cons i l ih =>
      intro s hn h
      obtain ⟨new, hn⟩ := List.nodup_cons.mp hn
      rw [List.foldl_cons, lineRestart_empty h i]
      obtain ⟨frame, line⟩ := ih (s.modLine i (Line.afterRestart now)) hn ⟨h.at', h.none, h.calm⟩
      refine ⟨frame, fun j => (line j).trans ?_⟩
      by_cases hj : j = i
      · subst hj
        rw [if_neg new, if_pos (List.mem_cons_self ..), modLine_line_same]
      · have : j ∈ i :: l ↔ j ∈ l := by simp [hj]
        simp only [this, modLine_line_other s _ (Ne.symm hj)]
  obtain ⟨frame, line⟩ := key all12 s nodup_all12 h
  exact ⟨frame, fun j => (line j).trans (if_pos (mem_all12 j))⟩

end Sys2Proof.Machine
end

