-- ==== Sys2Proof/Laws/Tables.lean ====
section
/-! SUPPORT. Rules applied to many records at once (a row step, a line fault, a rebase), said once; and the clock's moves when a
channel becomes QUALIFIED or stops being so, in the words of Safety.lean. -/

namespace Sys2Proof.Machine

open Sys2Proof

/-! ### Rules over the table (R81, R82, R83) -/

/-- A change of one record, where records stand by rising slot (R69). -/
theorem updateRecord_map (slot : Nat) (f : Endpoint → Endpoint) {s : State} (k : s.SlotsRise) :
    (s.updateRecord slot f).records = s.records.map (fun r => if r.slot = slot then r.keepKey (f r) else r) := by
  rw [updateRecord_records]
  split
  · rename_i h
    unfold State.bySlot at h
    rw [List.find?_eq_none] at h
    exact (List.map_id _).symm.trans (List.map_congr_left (fun r hr => (if_neg (by simpa using h r hr)).symm))
  · rename_i r h
    obtain ⟨hr, hs⟩ := bySlot_spec h
    refine List.map_congr_left (fun x hx => ?_)
    by_cases e : x.slot = slot
    · have : x = r := slot_unique k hx hr (e.trans hs.symm)
      subst this
      rw [if_pos e, if_pos (by simpa using e)]
    · rw [if_neg e, if_neg (by simpa using e)]

/-- A change of one record keeps the order of slots (R67, R68). -/
theorem slotsRise_updateRecord (slot : Nat) (f : Endpoint → Endpoint) {s : State} (k : s.SlotsRise) :
    (s.updateRecord slot f).SlotsRise := by
  have key : ∀ r : Endpoint, (if r.slot = slot then r.keepKey (f r) else r).slot = r.slot := fun r => by split <;> rfl
  unfold State.SlotsRise
  rw [updateRecord_map slot f k]
  refine ⟨List.Pairwise.map _ (fun a b h => ?_) k.1, fun r hr => ?_⟩
  · rw [key, key]
    exact h
  · obtain ⟨q, hq, rfl⟩ := List.mem_map.mp hr
    rw [key]
    exact k.2 q hq

/-- A rule applied to the records of a list of slots, one after the other. -/
theorem foldl_updateRecord (f : Endpoint → Endpoint) (ns : List Nat) (nd : ns.Nodup) {s : State} (k : s.SlotsRise) :
    (ns.foldl (fun s n => s.updateRecord n f) s).records =
      s.records.map (fun r => if r.slot ∈ ns then r.keepKey (f r) else r) := by
  induction ns generalizing s with
  | nil => simp
  | cons n ns ih =>
    obtain ⟨h, nd⟩ := List.nodup_cons.mp nd
    rw [List.foldl_cons, ih nd (slotsRise_updateRecord n f k), updateRecord_map n f k, List.map_map]
    refine List.map_congr_left (fun r _ => ?_)
    simp only [Function.comp, List.mem_cons]
    by_cases e : r.slot = n
    · subst e
      rw [if_pos rfl, if_pos (Or.inl rfl)]
      exact if_neg h
    · rw [if_neg e]
      by_cases m : r.slot ∈ ns
      · rw [if_pos m, if_pos (Or.inr m)]
      · rw [if_neg m, if_neg (by simp [e, m])]

/-- A rule applied to every record that `p` selects (R69). -/
theorem updateAll_records (p : Endpoint → Bool) (f : Endpoint → Endpoint) {s : State} (k : s.SlotsRise) :
    (s.updateAll p f).records = s.records.map (fun r => if p r = true then r.keepKey (f r) else r) := by
  have nd : ((s.records.filter p).map Endpoint.slot).Nodup := by
    refine List.Pairwise.map _ (fun a b h => ?_) (k.1.filter p)
    exact Nat.ne_of_lt h
  unfold State.updateAll
  rw [foldl_updateRecord f _ nd k]
  refine List.map_congr_left (fun r hr => ?_)
  have : r.slot ∈ (s.records.filter p).map Endpoint.slot ↔ p r = true := by
    constructor
    · intro h
      obtain ⟨q, hq, e⟩ := List.mem_map.mp h
      obtain ⟨hq, hp⟩ := List.mem_filter.mp hq
      exact slot_unique k hq hr e ▸ hp
    · exact fun h => List.mem_map_of_mem (List.mem_filter.mpr ⟨hr, h⟩)
  simp only [this]

/-- A row step's rule for one record (R81, R108, R109). -/
theorem stepRule_atRowStep (b : Bool) (r : Endpoint) : r.keepKey (r.stepRule b) = r.atRowStep b := by
  unfold Endpoint.stepRule Endpoint.withdraw Endpoint.atRowStep Endpoint.inFlight Endpoint.keepKey
  by_cases h : r.ackSeq = r.cmdSeq <;> cases b <;> cases e : r.state <;> simp [h, e]

/-- The table after a row step (R81). -/
theorem eptStep_records {s : State} (k : s.SlotsRise) :
    s.eptStep.records = s.records.map (fun r => r.atRowStep (s.closeAssembled r)) := by
  unfold State.eptStep
  rw [updateAll_records _ _ k]
  exact List.map_congr_left (fun r _ => (if_pos rfl).trans (stepRule_atRowStep ..))

/-- A row step's rule leaves a record as pollable as it was (R81). -/
theorem stepRule_pollable (b : Bool) (r : Endpoint) : (r.stepRule b).pollable = r.pollable := by
  refine (congrArg Endpoint.pollable (stepRule_atRowStep b r)).trans ?_
  unfold Endpoint.atRowStep Endpoint.pollable
  cases e : r.state <;> rfl

/-- Nothing but records and member counts differs (R69, R152). -/
structure State.RecordsMoved (s t : State) : Prop where
  rest : t = { s with records := t.records, racks := t.racks }
  racks : ∀ j, t.rack j = { s.rack j with members := (t.rack j).members }

theorem State.RecordsMoved.refl (s : State) : s.RecordsMoved s := ⟨rfl, fun _ => rfl⟩

theorem State.RecordsMoved.trans {s t u : State} (h : s.RecordsMoved t) (k : t.RecordsMoved u) : s.RecordsMoved u := by
  refine ⟨k.rest.trans ?_, fun j => (k.racks j).trans ?_⟩
  · rw [h.rest]
  · rw [h.racks j]

/-- A change of a record that leaves it as pollable as it was (R69, R152). -/
theorem updateRecord_recordsMoved (f : Endpoint → Endpoint) (p : ∀ r, (f r).pollable = r.pollable) (n : Nat) (s : State) :
    s.RecordsMoved (s.updateRecord n f) := by
  cases h : s.bySlot n with
  | none =>
    have same : s.updateRecord n f = s := by
      unfold State.updateRecord
      rw [h]
    rw [same]
    exact State.RecordsMoved.refl s
  | some r =>
    refine ⟨Eq.trans (updateRecord_tables n f s) ?_, fun j => (updateRecord_moved h f j).1⟩
    rw [updateRecord_lines h f (fun x => (p r).trans x), updateRecord_domains n f s]

/-- Such a rule applied to many records (R69, R152). -/
theorem foldl_recordsMoved (f : Endpoint → Endpoint) (p : ∀ r, (f r).pollable = r.pollable) (ns : List Nat) (s : State) :
    s.RecordsMoved (ns.foldl (fun s n => s.updateRecord n f) s) := by
  induction ns generalizing s with
  | nil => exact State.RecordsMoved.refl s
  | cons n ns ih => exact (updateRecord_recordsMoved f p n s).trans (ih _)

/-- A record keeps its place in the table when another one is changed. -/
theorem updateRecord_bySlot_other {slot : Nat} (f : Endpoint → Endpoint) {s : State} (k : s.SlotsRise) {r : Endpoint}
    (h : r ∈ s.records) (ne : r.slot ≠ slot) : (s.updateRecord slot f).bySlot r.slot = some r :=
  bySlot_of_mem (slotsRise_updateRecord slot f k) (by
    rw [updateRecord_map slot f k]
    exact List.mem_map.mpr ⟨r, h, if_neg ne⟩)

/-- How a row step moves a rack's count of one state, `m` being the counts before it and `n` saying how many records of the rack's
line have each state (R81, R152). -/
abbrev countAtStep (m : MemberCounts) (n : RecState → Nat) : RecState → Nat
  | .enrolling => m.enrolling + n .tracking + n .suspect
  | .tracking => m.tracking - n .tracking
  | .suspect => m.suspect - n .suspect
  | .lost => m.lost
  | .suspended => m.suspended
  | .retiring => m.retiring

/-- How many of these records are on line `i` in each state. -/
abbrev countIn (rs : List Endpoint) (i : Fin 12) (st : RecState) : Nat :=
  (rs.filter (fun r => r.line == i && r.state == st)).length

/-- One record's row step moves the counts as the record's state moves (R81, R152). -/
theorem stepRule_counts (b : Bool) {s t : State} {r : Endpoint} (i : Fin 12)
    (h : s.MembersMoved r.line r.state (some (r.stepRule b).state) t) (n : RecState → Nat) (st : RecState) :
    countAtStep (t.rack i).members n st =
      countAtStep (s.rack i).members (fun st => n st + countIn [r] i st) st := by
  have g := (h i).2
  have one : ∀ st, countIn [r] i st = if r.line = i ∧ r.state = st then 1 else 0 := by
    intro st
    unfold countIn
    rw [List.filter_cons]
    by_cases h1 : r.line = i <;> by_cases h2 : r.state = st <;> simp [h1, h2]
  have goes : (r.stepRule b).state = if r.state = .tracking ∨ r.state = .suspect then .enrolling else r.state :=
    congrArg Endpoint.state (stepRule_atRowStep b r)
  have g1 := g .enrolling
  have g2 := g .tracking
  have g3 := g .suspect
  have g4 := g .lost
  have g5 := g .suspended
  have g6 := g .retiring
  rw [goes] at g1 g2 g3 g4 g5 g6
  by_cases hi : i = r.line
  · subst hi
    cases e : r.state <;> simp [e, MemberCounts.get] at g1 g2 g3 g4 g5 g6 <;> cases st <;>
      simp [countAtStep, one, e, g1, g2, g3, g4, g5, g6] <;> omega
  · simp [hi, MemberCounts.get] at g1 g2 g3 g4 g5 g6
    cases st <;> simp [countAtStep, one, Ne.symm hi, g1, g2, g3, g4, g5, g6]

/-- The member counts after a row step of these records (R81, R152). -/
theorem foldl_stepRule_members (b : Endpoint → Bool) (rs : List Endpoint) (nd : (rs.map Endpoint.slot).Nodup) {s : State}
    (k : s.SlotsRise) (sub : ∀ r ∈ rs, r ∈ s.records) (i : Fin 12) (st : RecState) :
    (((rs.map Endpoint.slot).foldl (fun s n => s.updateRecord n (fun r => r.stepRule (b r))) s).rack i).members.get st =
      countAtStep (s.rack i).members (countIn rs i) st := by
  induction rs generalizing s with
  | nil => cases st <;> rfl
  | cons r rs ih =>
    rw [List.map_cons] at nd ⊢
    obtain ⟨new, nd⟩ := List.nodup_cons.mp nd
    have hr := bySlot_of_mem k (sub r (List.mem_cons_self ..))
    rw [List.foldl_cons, ih nd (slotsRise_updateRecord r.slot _ k) (fun q hq => ?_)]
    · rw [stepRule_counts (b r) i (updateRecord_moved hr (fun r => r.stepRule (b r))) (countIn rs i) st]
      congr 1
      funext st
      show _ = ((r :: rs).filter _).length
      rw [List.filter_cons]
      unfold countIn
      rw [List.filter_cons]
      split <;> simp
    · exact (bySlot_spec (updateRecord_bySlot_other _ k (sub q (List.mem_cons_of_mem _ hq)) (fun x =>
        new (List.mem_map.mpr ⟨q, hq, x⟩)))).1

/-- What EPT's part of a row step leaves alone: everything but the records and the member counts (R69, R81). -/
theorem eptStep_recordsMoved (s : State) : s.RecordsMoved s.eptStep :=
  foldl_recordsMoved _ (fun r => stepRule_pollable _ r) _ s

/-- The member counts follow EPT's part of a row step (R81, R152). -/
theorem eptStep_members {s : State} (k : s.SlotsRise) : s.MembersAtStep s.eptStep := by
  intro i st
  have all : s.records.filter (fun _ => true) = s.records := List.filter_eq_self.mpr (fun _ _ => rfl)
  have nd : (s.records.map Endpoint.slot).Nodup := List.Pairwise.map _ (fun a b h => Nat.ne_of_lt h) k.1
  unfold State.eptStep State.updateAll
  rw [all, foldl_stepRule_members s.closeAssembled s.records nd k (fun _ h => h) i st]
  cases st <;> rfl

/-! ### A row step (R19, R81, R152, R154) -/

/-- The walk counters' reset touches no other field of a rack, and nothing else (R154). -/
theorem walkReset_frame (s : State) : s.walkReset = { s with racks := s.walkReset.racks } ∧
    ∀ j, s.walkReset.rack j = { s.rack j with walk := 0 } := by
  refine ⟨?_, fun j => forAll12_modRack (fun r => { r with walk := 0 }) s j⟩
  unfold State.walkReset State.forAll12
  generalize all12 = l
  induction l generalizing s with
  | nil => rfl
  | cons i l ih =>
    rw [List.foldl_cons]
    exact ih (s.modRack i (fun r => { r with walk := 0 }))

/-- What a row step does to the part: the clock takes it, STEP is raised, the records take it, and of every rack the walk counter
is 0 and the member counts have followed (R19, R81, R152, R154). -/
theorem rowStep_spec (row : RowTime) (s : State) :
    s.rowStep row = { s with
      clk := s.clk.step row, records := (s.rowStep row).records, racks := (s.rowStep row).racks
      port := (s.raise .step).port } ∧
    (∀ j, (s.rowStep row).rack j = { s.rack j with walk := 0, members := ((s.rowStep row).rack j).members }) ∧
    (s.SlotsRise → (s.rowStep row).records = s.records.map (fun r => r.atRowStep (s.closeAssembled r)) ∧
      s.MembersAtStep (s.rowStep row)) := by
  generalize hu : (s.modClk (RowClock.step row)).raise .step = u
  have eu : u = { s with clk := s.clk.step row, port := (s.raise .step).port } := by
    rw [← hu]
    rfl
  have er : s.rowStep row = u.eptStep.walkReset := by
    rw [← hu]
    rfl
  have moved := eptStep_recordsMoved u
  obtain ⟨e2, r2⟩ := walkReset_frame u.eptStep
  have racks : ∀ j, u.rack j = s.rack j := fun j => by
    rw [eu]
    rfl
  have recs : (s.rowStep row).records = u.eptStep.records := by
    rw [er, e2]
  refine ⟨?_, fun j => ?_, fun k => ⟨?_, fun i st => ?_⟩⟩
  · have e12 : s.rowStep row = { u with records := (s.rowStep row).records, racks := (s.rowStep row).racks } := by
      rw [recs, er]
      refine e2.trans ?_
      rw [moved.rest]
    exact e12.trans (by rw [eu])
  · rw [er, r2 j, moved.racks j, racks j]
  · have k' : u.SlotsRise := by
      rw [eu]
      exact k
    rw [recs, eptStep_records k', eu]
    rfl
  · have k' : u.SlotsRise := by
      rw [eu]
      exact k
    have counts : ∀ st, u.countOf i st = s.countOf i st := fun st => by
      rw [eu]
      rfl
    have m := eptStep_members k' i st
    rw [er, r2 i]
    refine (show (u.eptStep.rack i).members.get st = _ from m).trans ?_
    cases st <;> simp only [racks, counts]

/-- The table after a fault of line `i` (R82). -/
theorem eptLineFault_records (i : Fin 12) {s : State} (k : s.SlotsRise) :
    (s.eptLineFault i).records = s.records.map (fun r =>
      if r.line = i ∧ (r.state = .enrolling ∨ r.state = .tracking ∨ r.state = .suspect)
        then { r with state := .lost, goodCount := 0 } else r) := by
  unfold State.eptLineFault
  rw [updateAll_records _ _ k]
  refine List.map_congr_left (fun r _ => ?_)
  by_cases h : r.line = i
  · subst h
    rw [if_pos (beq_self_eq_true _)]
    unfold Endpoint.faultRule Endpoint.keepKey
    cases e : r.state <;> simp
  · rw [if_neg (by simpa using h), if_neg (fun x => h x.1)]

/-! ### The clock's moves (R12, R13, R15, R17, R18) -/

/-- A LOCKED clock goes over to a channel (R13, R17). -/
theorem toAcquiring_reverted (ch : Chan) {c : RowClock} (h : c.state = .locked) : c.Reverted ch (RowClock.toAcquiring ch 0 c) := by
  unfold RowClock.Reverted RowClock.toAcquiring
  rw [h]

/-- The selected channel stops being QUALIFIED (R15, R17). -/
theorem stoppedQualified_lost (ch : Chan) {s : State} (h : s.clk.selected = some ch) :
    RowClock.Lost (if (s.chan ch.other).state = .qualified then some ch.other else none) s.clk
      (s.stoppedQualified ch).clk := by
  have q : s.qualified ch.other = true ↔ (s.chan ch.other).state = .qualified := by unfold State.qualified; simp
  unfold State.stoppedQualified
  rw [if_neg (not_not.mpr h)]
  constructor
  · intro o e ho
    by_cases hq : (s.chan ch.other).state = .qualified
    · rw [if_pos hq] at ho
      cases ho
      simp only [e]
      rw [if_pos (q.mpr hq)]
      simp only [State.modClk, RowClock.toAcquiring, e]
    · rw [if_neg hq] at ho
      cases ho
  · intro e ho hl
    by_cases hq : (s.chan ch.other).state = .qualified
    · rw [if_pos hq] at ho
      cases ho
    · simp only [e]
      rw [if_neg (fun x => hq (q.mp x)), if_pos hl]
      simp only [State.modClk, RowClock.toHoldover, e]
      rfl
  · intro e ho hl
    by_cases hq : (s.chan ch.other).state = .qualified
    · rw [if_pos hq] at ho
      cases ho
    · simp only [e]
      rw [if_neg (fun x => hq (q.mp x)), if_neg (by rw [hl]; decide)]
      rfl
  · intro o e ho
    by_cases hq : (s.chan ch.other).state = .qualified
    · rw [if_pos hq] at ho
      cases ho
      simp only [e]
      rw [if_pos (q.mpr hq)]
      simp only [State.modClk, RowClock.toAcquiring, e]
    · rw [if_neg hq] at ho
      cases ho
  · intro e ho
    by_cases hq : (s.chan ch.other).state = .qualified
    · rw [if_pos hq] at ho
      cases ho
    · simp only [e]
      rw [if_neg (fun x => hq (q.mp x))]
      simp only [State.modClk, RowClock.toHoldover, e]
      rfl

/-- The choice of a resting clock is the one channel that is QUALIFIED (R13). -/
theorem choice_only {ch : Chan} {s : State} (h : s.qualified ch = true) (o : s.qualified ch.other = false) : s.choice = ch := by
  unfold State.choice
  cases ch <;> cases s.clk.preferred <;> simp_all [Chan.other]

/-- A channel becomes QUALIFIED (R12, R13, R15, R17, R18); in FREERUN and HOLDOVER the other is not. -/
theorem becameQualified_gained {ch : Chan} {s : State} (h : s.qualified ch = true)
    (o : s.clk.state = .freerun ∨ s.clk.state = .holdover → s.qualified ch.other = false) :
    RowClock.Gained ch s.clk (s.becameQualified ch).clk := by
  unfold State.becameQualified
  constructor
  · intro e
    simp only [e, choice_only h (o (Or.inl e)), State.modClk, RowClock.toAcquiring]
  · intro e
    simp only [e, choice_only h (o (Or.inr e)), State.modClk, RowClock.toAcquiring]
  · intro e
    simp only [e]
  · intro e r p n
    simp only [e]
    rw [if_pos ⟨r, p.symm, n⟩]
    exact toAcquiring_reverted ch e
  · intro e n
    simp only [e]
    rw [if_neg]
    rintro ⟨r, p, _⟩
    rcases n with n | n
    · rw [r] at n
      cases n
    · exact n p.symm

end Sys2Proof.Machine
end

