-- ==== Sys2Proof/Tests/Slice0.lean ====
section
/-! SUPPORT. Tests of the model: the well-formedness checks, one step of each command on a small state, the worked examples of
the spec, and states and operands that meet the hypotheses of the statements. -/

namespace Sys2Proof.Tests

open Sys2Proof Sys2Proof.Machine

set_option Elab.async false

/-! ### Builders -/

/-- The state after one command. -/
def after (c : Instr) (s : State) : State :=
  match exec c s with
  | .next t => t
  | .fault _ => s
  | .refused _ => s

/-- Three samples that agree. -/
def sure (b : Bool) : BitSamples := ⟨b, b, b⟩

/-- A clean character. -/
def char (b : Byte) (mark : Bool) : RxChar :=
  ⟨sure false, sure (b.getLsbD 0), sure (b.getLsbD 1), sure (b.getLsbD 2), sure (b.getLsbD 3), sure (b.getLsbD 4),
    sure (b.getLsbD 5), sure (b.getLsbD 6), sure (b.getLsbD 7), sure mark, sure true⟩

/-- A capture of row time 0. -/
def edge0 : Capture := ⟨⟨0, 0⟩, 0⟩

/-- The characters of a line frame. -/
def chars : List Byte → List RxChar
  | [] => []
  | b :: rest => char b true :: rest.map (fun b => char b false)

/-- The sixteen samples of a bit. -/
def samplesOf (b : BitSamples) : List Bool := List.replicate 6 b.value ++ [b.s7, b.s8, b.s9] ++ List.replicate 7 b.value

/-- The first 168 samples of a character: all but the last that decides its stop bit. -/
def early (c : RxChar) : List Bool :=
  ([c.start, c.d0, c.d1, c.d2, c.d3, c.d4, c.d5, c.d6, c.d7, c.mark, c.stop].flatMap samplesOf).take 168

/-- A line that waits for the last sample of the last of these characters, the first of which began at `edge`. -/
def awaiting (edge : Capture) (cs : List RxChar) (l : Line) : Line :=
  { l with rx := cs.dropLast, rxEdge := edge, receiver := .char 0 edge true (early (cs.getLastD (char 0 false))) }

/-- A channel whose time-of-day input waits for the last sample of the last of these characters, with the others assembled. -/
def assembling (cs : List RxChar) (c : RefChannel) : RefChannel :=
  { c with tod := cs.dropLast, todReceiver := .char 4999910000 edge0 false (early (cs.getLastD (char 0 false))) }

/-- The characters of a time-of-day message. -/
def tod (sec : Nat) (status : Byte) : List RxChar :=
  ((0xA5 :: 0x54 :: bytesOf 6 sec) ++ [status, crc8 (0x54 :: bytesOf 6 sec ++ [status])]).map (fun b => char b false)

/-- A REPLY of length 26 from address 9 to transaction 42 that reports sequence 6 with its clock valid. -/
def replyBytes (t2 t3 : RowTime) : List Byte := sealFrame 9 ([0x32, 26, 42, 0x16] ++ timeBytes t2 ++ timeBytes t3)

/-- A REPLY of length 28 that also asks `n` stamps of domain `d`. -/
def askBytes (t2 t3 : RowTime) (d n : Byte) : List Byte :=
  sealFrame 9 ([0x32, 28, 42, 0x56] ++ timeBytes t2 ++ timeBytes t3 ++ [d, n])

/-- An ANNOUNCE. -/
def announceBytes (addr : Nat) (ident : BitVec 32) : List Byte := sealFrame addr ([0x35, 8] ++ bytesOf 4 ident.toNat)

/-- A bare record. -/
def record (slot : Nat) (line : Fin 12) (addr : Nat) (st : RecState) : Endpoint :=
  { newRecord ([BitVec.ofNat 8 line.val, BitVec.ofNat 8 addr, 1, 1] ++ bytesOf 4 100000 ++ List.replicate 8 0) slot line none with
    state := st }

/-- A bare domain. -/
def dom (id : Byte) (tolerance : Nat) (fence : FenceMode) (members : BitVec 12) : Domain :=
  ⟨id, .opened, none, tolerance, fence, members, none, 0, 0, 0, 0, 0⟩

/-- The response that the port is forming. -/
def answer (s : State) : Option (Status × List Byte) := s.port.forming.map (fun r => (r.status, r.body))

/-! ### Well-formedness: an ill-formed term for each check -/

theorem test_no_tod_samples_refused : Instr.wellFormed (.todMessage .a 5 []) = false := by decide
theorem test_no_samples_refused : Instr.wellFormed (.strayCharacter 0 5 []) = false ∧
    Instr.wellFormed (.lineFault 0 ⟨5, []⟩) = false := by decide
theorem test_long_body_refused : Instr.wellFormed (.ack 0 (List.replicate 61 0)) = false := by decide
theorem test_empty_write_refused : Instr.wellFormed (.badFrame 0 [] [true]) = false := by decide
theorem test_read_as_write_refused : Instr.wellFormed (.overlap 0 [0xFF, 0] []) = false := by decide
theorem test_whole_rest_refused : Instr.wellFormed (.badFrame 0 [1] (List.replicate 8 true)) = false := by decide
theorem test_read_code_as_request_refused : Instr.wellFormed (.unknownRequest 0 0xFF []) = false := by decide
theorem test_long_unknown_refused : Instr.wellFormed (.unknownRequest 0 0x77 (List.replicate 61 0)) = false := by decide
theorem test_well_formed : Instr.wellFormed (.announce 0 5 [true, false]) = true := by decide

/-! ### No word spells a command -/

theorem test_no_word : decodeTableWord 32 0xFF00FF = none ∧ State.reset.withFetchWord 32 5 = State.reset := by decide +kernel

/-! ### Encodings -/

theorem test_crc8 : crc8 [0x31, 0x32, 0x33, 0x34, 0x35, 0x36, 0x37, 0x38, 0x39] = 0xF4 := by decide +kernel
theorem test_crc16 : crc16 [0x31, 0x32, 0x33, 0x34, 0x35, 0x36, 0x37, 0x38, 0x39] = 0x29B1 := by decide +kernel
theorem test_signed : signedBytes 4 (-2) = [0xFF, 0xFF, 0xFF, 0xFE] ∧ signedField32 [0xFF, 0xFF, 0xFF, 0xFE] 0 = -2 := by
  decide +kernel
theorem test_good_reply : judgeFrame (chars (replyBytes ⟨1, 2⟩ ⟨3, 4⟩)) =
    .reply 9 ⟨42, 6, true, false, ⟨1, 2⟩, ⟨3, 4⟩, none⟩ := by decide +kernel
theorem test_asking_reply : judgeFrame (chars (askBytes ⟨1, 2⟩ ⟨3, 4⟩ 12 4)) =
    .reply 9 ⟨42, 6, true, false, ⟨1, 2⟩, ⟨3, 4⟩, some (12, 4)⟩ := by decide +kernel
theorem test_flag_and_length_disagree :
    judgeFrame (chars (sealFrame 9 ([0x32, 26, 42, 0x56] ++ List.replicate 20 0))) = .bad := by decide +kernel
theorem test_good_announce : judgeFrame (chars (announceBytes 12 0x5A31C007)) = .announce 12 0x5A31C007 := by
  decide +kernel
/-- The allowed lengths are those of the table of R186, for all five types. -/
theorem test_allowed_lengths : ((List.range 256).map (fun t => (BitVec.ofNat 8 t, allowedLengths (BitVec.ofNat 8 t)))).filter
    (fun x => x.2.isSome) = [(0x31, some [5]), (0x32, some [26, 28]), (0x33, some [6, 8, 15, 17, 24, 33]), (0x34, some [5]),
      (0x35, some [8])] := by decide +kernel
theorem test_good_tod : judgeTod (tod 800000 0) = some ⟨800000, true⟩ ∧ judgeTod (tod 800000 7) = some ⟨800000, false⟩ := by
  decide +kernel
theorem test_close_lengths : (closeFrame 9 42 none none).length = 6 ∧
    (closeFrame 9 42 none (some (.refusal 12 .uncertain))).length = 8 ∧
    (closeFrame 9 42 (some ⟨7, .slew, -300⟩) none).length = 15 ∧
    (closeFrame 9 42 (some ⟨7, .slew, -300⟩) (some (.grant ⟨12, 1, ⟨5, 6⟩, 4, 90, true⟩))).length = 33 := by decide +kernel
theorem test_frame_bits : frameBits [9, 0x31] =
    [false, true, false, false, true, false, false, false, false, true, true,
     false, true, false, false, false, true, true, false, false, false, true] := by decide
theorem test_samples : RxChar.ofSamples (early (char 0xA7 true) ++ [true]) = char 0xA7 true := by decide +kernel

/-! ### States -/

/-- A clock that is LOCKED on A, 5 s of local time after reset, at 30 ns past a row second; A has held its message. -/
def locked : State := { State.reset with
  localNs := 5000000000
  chanA := { State.reset.chanA with
    state := .qualified, good := 4, prevEdge := some 4000000000, edgeSec := some 99, held := some ⟨100, true⟩
    lossDeadline := some 5500000000 }
  clk := { State.reset.clk with
    state := .locked, row := ⟨100, 30⟩, selected := some .a, u := 50, hasLocked := true, lockCount := 8 } }

/-- `locked` with the clock's state and counts changed. -/
def clocked (st : ClockState) (steps locks : Nat) (ns : Nat) : State := { locked with
  clk := { locked.clk with state := st, stepCount := steps, lockCount := locks, row := ⟨100, ns⟩ } }

/-- Line 3 as `f` makes it, with a TRACKING record in slot 5 at address 9. -/
def onLine (f : Line → Line) : State :=
  { State.reset with records := [record 5 3 9 .tracking] }.modLine 3 (fun l => f { l with enable := true, faultWatch := some 0 })

/-- The transaction of slot 5. -/
def txn : Transaction := ⟨5, 200, false⟩

/-- Line 3 in POLLING with its window open, t1 captured at row time 100.000250000. -/
def polling : State := { onLine (fun l => { l with
    state := .polling, phase := .list, pollList := [5], pollPos := 1, txNumber := 42, transaction := some txn, rxOpen := true,
    windowEnd := some 200000, period := 1000 }) with
  latches := State.reset.latches.set 3 ⟨none, ⟨⟨100, 250000⟩, 0⟩⟩ }

/-- Line 3 in CLOSING. -/
def closing : State := onLine (fun l => { l with
  state := .closing, phase := .list, pollList := [5], pollPos := 1, txNumber := 42, transaction := some txn,
  tx := some ⟨closeFrame 9 42 none none, 0, 66000⟩ })

/-- Line 3 in DISCOVERING with its window open. -/
def discovering : State := onLine (fun l => { l with
  state := .discovering, phase := .discovery, discLength := 1000, rxOpen := true, windowEnd := some 1000000 })

/-- A rack state: rack 6 with `w`, due for its sweep, over the records `rs`. -/
def watched (rs : List Endpoint) (f : Rack → Rack) : State :=
  { State.reset with records := rs }.modRack 6 (fun r => f { r with sweepDue := true })

/-- A record of rack 6 with an estimate below its baseline. -/
def drifting (slot : Nat) (d : Int) : Endpoint := { record slot 6 slot .tracking with freq := d, baseline := some 0 }

/-- Row time set. -/
def at_ (row : RowTime) (u : Nat) (s : State) : State := { s with clk := { s.clk with row := row, u := u } }

theorem reset_takes : State.reset.TakesFrames := ⟨rfl, by decide⟩
theorem at_takes (row : RowTime) (u : Nat) : (at_ row u State.reset).TakesFrames := ⟨rfl, nofun⟩

/-! ### Worked example 7.8: host stamps after a backward step -/

/-- Domain 40 after the step. -/
def domain40 (last : RowTime) : State := { State.reset with
  domains := [{ dom 40 20000 .off 0x030 with lastIssued := some last }]
  clk := { State.reset.clk with epoch := 8, u := 230 } }

theorem test_H1 : answer (after (.stamp 0 [40, 1]) (at_ ⟨900004, 400000⟩ 230 (domain40 ⟨900004, 2650003⟩))) =
    some (.ok, [11, 40]) := by decide +kernel
theorem test_H2 : answer (after (.stamp 0 [40, 1]) (at_ ⟨900004, 2630000⟩ 230 (domain40 ⟨900004, 2650003⟩))) =
    some (.ok, [11, 40]) := by decide +kernel
theorem test_H3 :
    answer (after (.stamp 0 [40, 2]) (at_ ⟨900004, 2640000⟩ 230 (domain40 ⟨900004, 2650003⟩))) =
      some (.ok, [0, 40, 1, 0, 8] ++ bytesOf 6 900004 ++ bytesOf 4 2650004 ++ [2] ++ bytesOf 4 10234) ∧
    ((after (.stamp 0 [40, 2]) (at_ ⟨900004, 2640000⟩ 230 (domain40 ⟨900004, 2650003⟩))).domains.map Domain.lastIssued) =
      [some ⟨900004, 2650005⟩] := by decide +kernel
theorem test_H4 : answer (after (.stamp 0 [40, 1]) (at_ ⟨900004, 3100000⟩ 230 (domain40 ⟨900004, 2650005⟩))) =
    some (.ok, [0, 40, 0, 0, 8] ++ bytesOf 6 900004 ++ bytesOf 4 3100000 ++ [1] ++ bytesOf 4 230) := by decide +kernel

/-! ### Worked example 8.9: sweeps of a warming rack, and 6.6: the fence -/

/-- The nine TRACKING records of sweep 4. -/
def sweep4 : List Endpoint := [drifting 80 (-380), drifting 81 (-410), drifting 82 (-455), drifting 83 (-420),
  drifting 85 (-395), drifting 86 (-440), drifting 88 (-430), drifting 89 (-405), drifting 90 (-470)]

theorem test_sweep4_drift : ((watched sweep4 id).indicators 6).d = -422 ∧ ((watched sweep4 id).indicators 6).tracking = 9 := by
  decide +kernel

theorem test_sweep4 :
    let r := (after (.rackSweep 6) (watched sweep4 (fun r => { r with watch := .watch, dwell := 2 }))).rack 6
    r.watch = .warn ∧ r.dwell = 0 ∧ r.sweptD = -422 ∧ r.changed = true := by decide +kernel

theorem test_sweep5 :
    let s := { watched [drifting 80 (-1060)] (fun r => { r with watch := .warn, latch := some .leading, walk := 9 }) with
      domains := [dom 12 5000 .freezeDomain 0x040, dom 20 20000 .refuseRack 0x0C0] }
    let t := after (.rackSweep 6) s
    (t.rack 6).watch = .alarm ∧ (t.rack 6).cause = some .drift ∧ (t.rack 6).walk = 9 ∧ (t.rack 6).latch = none ∧
      t.domains.map Domain.state = [.frozen, .opened] ∧ t.domains.map Domain.cause = [some (.rack 6), none] ∧
      t.port.isPending .domain = true ∧ t.port.isPending .rack = true := by decide +kernel

/-! ### Worked example 5.9: a slew -/

theorem test_slew : slewDelta 600 500 = -300 ∧ slewDelta 450 500 = -225 := by decide

/-! ### The queue and time -/

theorem test_idle : step State.reset = .next State.reset := rfl
theorem witness_calm : State.reset.due.tick = false ∧ State.reset.rollovers (5 - 1) = 0 := by decide +kernel
theorem witness_second : (clocked .locked 0 8 30).localNs % 1000000000 = 0 ∧ (clocked .locked 0 8 30).clk.applied.natAbs ≤ 100000 := by
  decide +kernel
theorem test_second_tick :
    let t := after .secondTick { (clocked .holdover 0 0 30) with localNs := 5 }
    t.clk.row = ⟨101, 0⟩ ∧ t.clk.u = 100 ∧ t.localNs = 999999975 := by decide +kernel
theorem test_local_second :
    let s := { locked with localNs := 5000000400, clk := { locked.clk with applied := 1000000, next := 7 } }
    let t := after .localSecondStart s
    t.localNs = 6000000000 ∧ t.clk.applied = 7 := by decide +kernel

/-- `clocked .holdover 0 0 30` with domain 12, 999,999,970 ns before a second tick. -/
def ticking : State := { clocked .holdover 0 0 30 with domains := [dom 12 20000 .off 8] }

/-- A host stamp and a second tick of one instant are taken in either order (R150). -/
theorem test_tick_and_stamp :
    let stampFirst := after (.stamp 999999970 [12, 1]) ticking
    let tickFirst := after (.stamp 0 [12, 1]) (after .secondTick ticking)
    answer stampFirst = some (.ok, [0, 12, 0, 0, 0] ++ bytesOf 6 101 ++ bytesOf 4 0 ++ [1] ++ bytesOf 4 50) ∧
      answer tickFirst = some (.ok, [0, 12, 0, 0, 0] ++ bytesOf 6 101 ++ bytesOf 4 0 ++ [1] ++ bytesOf 4 100) ∧
      (after .secondTick stampFirst).clk.u = 100 ∧ (after .secondTick stampFirst).localNs = tickFirst.localNs := by
  decide +kernel
theorem witness_due_tick : let s := { clocked .holdover 0 0 30 with due := ⟨true, false⟩ }
    s.due.tick = true ∧ (after .secondTick s).clk.u = 100 ∧ (after .secondTick s).localNs = s.localNs ∧
      (s.advance 1).clk.u = 100 ∧ s.advance 0 = s := by decide +kernel
theorem witness_due_start :
    let s := { locked with due := ⟨false, true⟩, clk := { locked.clk with applied := 1000000, next := -1000000 } }
    s.due.start = true ∧ s.localNs % 1000000000 = 0 ∧ (after .localSecondStart s).clk.applied = -1000000 ∧
      (after .localSecondStart s).localNs = s.localNs ∧ (s.advance 5000).clk.row.ns = 30 + 5000 - 5 := by decide +kernel
theorem test_start_is_due : ((clocked .locked 0 8 30).advance 1000000000).due = ⟨false, true⟩ ∧
    ((clocked .locked 0 8 30).advance 999999970).due = ⟨true, false⟩ := by decide +kernel
theorem witness_tick : (clocked .holdover 0 0 30).ClockInRange :=
  ⟨⟨⟨by decide, by decide⟩, by decide, by decide, by decide, by decide, by decide, by decide, by decide, by decide, by decide⟩,
    ⟨by decide, by decide, by decide, by decide⟩, ⟨by decide, by decide, by decide, by decide⟩⟩

/-! ### References and clock -/

theorem witness_good_second : (locked.chan .a).enable = true ∧ (locked.chan .a).state ≠ .down ∧
    (locked.chan .a).GoodSecond (locked.localNs + 0) :=
  ⟨rfl, by decide, _, _, _, rfl, rfl, rfl, by decide, by decide, rfl, by decide, rfl⟩
theorem witness_bad_second : (locked.chan .a).enable = true ∧ (locked.chan .a).state ≠ .down ∧
    ¬(locked.chan .a).GoodSecond (locked.localNs + 60000) :=
  ⟨rfl, by decide, by rintro ⟨e, m, x, h, _, _, _, h2, _⟩; cases h; exact absurd h2 (by decide)⟩
theorem witness_down_edge : (State.reset.chan .b).enable = true ∧ (State.reset.chan .b).state = .down := by decide
theorem witness_disabled_edge : ({ State.reset with chanB := { State.reset.chanB with enable := false } }.chan .b).enable = false :=
  rfl
theorem test_pps_edge : ((after (.ppsEdge .a 0) locked).chanA.state, (after (.ppsEdge .a 0) locked).clk.u,
    (after (.ppsEdge .a 0) locked).clk.integral, (after (.ppsEdge .a 0) locked).clk.next) = (.qualified, 50, -1, -16) := by
  decide +kernel
theorem witness_measure_locked :
    locked.clk.state = .locked ∧ locked.clk.selected = some .a ∧ (locked.chan .a).held.map HeldMessage.sec = some 100 ∧
    phaseOf (locked.advance 0).clk.row = 30 ∧ nearestSecond (locked.advance 0).clk.row = 100 := by decide +kernel
theorem witness_fourth_step :
    (clocked .locked 3 8 5000).clk.state = .locked ∧ phaseOf ((clocked .locked 3 8 5000).advance 0).clk.row = 5000 ∧
    ((clocked .locked 3 8 5000).advance 0).clk.row.sec = 100 := by decide +kernel
theorem test_fourth_step : (after (.ppsEdge .a 0) (clocked .locked 3 8 5000)).clk.state = .acquiring := by decide +kernel
theorem test_acquiring_steps :
    let t := after (.ppsEdge .a 0) (clocked .acquiring 3 0 5000)
    t.clk.row = ⟨100, 0⟩ ∧ t.clk.epoch = 1 ∧ t.port.isPending .step = true := by decide +kernel
theorem witness_step_members :
    let s := { clocked .acquiring 3 0 5000 with records := [record 5 3 9 .tracking, record 6 3 10 .suspect] }.modRack 3
      (fun r => { r with members := ⟨0, 1, 1, 0, 0, 0⟩, walk := 4, latch := some .leading })
    let t := after (.ppsEdge .a 0) s
    (s.records.map Endpoint.slot = [5, 6] ∧ s.countOf 3 .tracking = 1 ∧ s.countOf 3 .suspect = 1) ∧
      t.rack 3 = { s.rack 3 with walk := 0, members := ⟨2, 0, 0, 0, 0, 0⟩ } ∧ t.clk.u = s.clk.u ∧
      t.port = (s.raise .step).port := by decide +kernel
theorem test_acquiring_locks : (after (.ppsEdge .a 0) (clocked .acquiring 0 7 80)).clk.state = .locked := by decide +kernel
theorem test_edge_raises_ref : (after (.ppsEdge .a 60000) locked).port.isPending .ref = true ∧
    (after (.ppsEdge .a 0) locked).port = locked.port := by decide +kernel

/-- `locked` as channel A waits for the last sample of the last of these characters. -/
def timing (cs : List RxChar) : State := { locked with chanA := assembling cs locked.chanA }

/-- `locked` with this receiver at the time-of-day input of A, after a sample at the idle level or not. -/
def timed (r : Receiver) (level : Bool) : State :=
  { locked with chanA := { locked.chanA with todReceiver := r, todLevel := level } }

theorem timing_completes {cs : List RxChar} {c : RxChar} (hc : cs.getLast? = some c) (hs : (early c).length = 168)
    (e : c = RxChar.ofSamples (early c ++ [true])) : ((timing cs).chan .a).Completes 4999910000 c true :=
  ⟨edge0, false, early c, by
    show Receiver.char _ _ _ (early (cs.getLastD (char 0 false))) = _
    rw [List.getLastD_eq_getLast?, hc]
    rfl, hs, e⟩
theorem witness_tod_marker : ((timing [char 0xA5 false]).chan .a).Completes 4999910000 (char 0xA5 false) true ∧
    ((timing [char 0xA5 false]).chan .a).tod = [] ∧ (char 0xA5 false).byte = 0xA5 ∧ (char 0xA4 false).byte ≠ 0xA5 :=
  ⟨timing_completes rfl (by decide +kernel) (by decide +kernel), by decide, by decide, by decide⟩
theorem witness_tod : (∃ c, (tod 101 0).getLast? = some c ∧ ((timing (tod 101 0)).chan .a).Completes 4999910000 c true) ∧
    ((timing (tod 101 0)).chan .a).enable = true ∧ ((timing (tod 101 0)).chan .a).tod.length = 9 ∧
    (∀ c ∈ tod 101 0, c.framing = false ∧ c.marked = false) ∧ field ((tod 101 0).map RxChar.byte) 1 1 = 0x54 ∧
    crc8 ((((tod 101 0).map RxChar.byte).drop 1).take 8) = ((tod 101 0).map RxChar.byte).getD 9 0 :=
  ⟨⟨_, rfl, timing_completes rfl (by decide +kernel) (by decide +kernel)⟩, by decide +kernel, by decide +kernel,
    by decide +kernel, by decide +kernel, by decide +kernel⟩
theorem test_tod : (after (.todMessage .a 5 [true]) (timing (tod 101 0))).chanA.held = some ⟨101, true⟩ ∧
    (after (.todMessage .a 5 [true]) (timing (tod 101 0))).chanA.tod = [] := by decide +kernel
theorem test_bad_tod : (after (.todMessage .a 5 [true]) (timing ((tod 101 0).set 8 (char 1 false)))).chanA.msgFault = true ∧
    (after (.todMessage .a 5 [true]) (timing ((tod 101 0).set 8 (char 0 true)))).chanA.msgFault = true := by decide +kernel
theorem test_tod_begins : (after (.todMessage .a 5 [true]) (timing [char 0xA5 false])).chanA.tod = [char 0xA5 false] ∧
    (after (.todMessage .a 5 [true]) (timing [char 0xA5 false])).chanA.todAt = 5000005486 := by decide +kernel
theorem test_tod_ignores : (after (.todMessage .a 5 [true]) (timing [char 0xA4 false])).chanA.tod = [] := by decide +kernel
theorem test_tod_goes_on : (after (.todMessage .a 5 [true]) (timing [char 0xA5 false, char 0x54 false])).chanA.tod =
    [char 0xA5 false, char 0x54 false] := by decide +kernel
theorem test_tod_framing :
    (after (.todMessage .a 5 [false]) (timing [{ char 0xA5 false with stop := sure false }])).chanA.todReceiver = .held := by
  decide +kernel
theorem test_tod_receiver : (after (.todMessage .a 1 [false]) (timed .waiting true)).chanA.todReceiver =
      .char 5000000542 ⟨⟨100, 572⟩, 0⟩ false [false] ∧
    (after (.todMessage .a 1 [false]) (timed .waiting false)).chanA.todReceiver = .waiting ∧
    (after (.todMessage .a 1 [false]) (timed .held false)).chanA.todReceiver = .held ∧
    (after (.todMessage .a 1 [true]) (timed .held false)).chanA.todReceiver = .waiting := by decide +kernel
theorem test_tod_start_bit :
    let s := timed (.char 5 edge0 false [false, false, false, false, false, false, false, true]) true
    (after (.todMessage .a 1 [true]) s).chanA.todReceiver = .waiting ∧
    (after (.todMessage .a 1 [false]) s).chanA.todReceiver =
      .char 5 edge0 false [false, false, false, false, false, false, false, true, false] := by decide +kernel
theorem test_tod_split :
    after (.todMessage .a 0 [false, true]) (after (.todMessage .a 5 [true, false]) (timed .waiting true)) =
      after (.todMessage .a 5 [true, false, false, true]) (timed .waiting true) := by decide +kernel
theorem test_tod_disabled :
    let s := { timing (tod 101 0) with chanA := { (timing (tod 101 0)).chanA with enable := false, held := none } }
    (after (.todMessage .a 5 [true]) s).chanA.held = none ∧ (after (.todMessage .a 5 [true]) s).localNs = 5000000542 := by
  decide +kernel
theorem test_tod_gap :
    let s := { locked with chanA := { locked.chanA with tod := [char 0xA5 false], todAt := 5000000000 } }
    (after (.todGapTimeout .a) s).chanA.msgFault = true ∧ (after (.todGapTimeout .a) s).localNs = 5000190973 := by
  decide +kernel
theorem test_tod_gap_waits : after (.todGapTimeout .a) (timing [char 0xA5 false, char 0x54 false]) =
    timing [char 0xA5 false, char 0x54 false] := by decide +kernel
theorem test_loss : (after (.lossDeadlineExpiry .a) locked).clk.state = .holdover ∧
    (after (.lossDeadlineExpiry .a) locked).localNs = 5500000000 := by decide +kernel
theorem test_loss_to_other :
    let s := { locked with chanB := { locked.chanB with state := .qualified, good := 4 } }
    (after (.lossDeadlineExpiry .a) s).clk.selected = some .b := by decide +kernel
theorem test_ref_config : answer (after (.refConfig 0 [1, 0, 0, 0, 0, 0, 0, 0, 0]) State.reset) =
    some (.ok, [0, 1, 1, 0] ++ bytesOf 4 1000 ++ bytesOf 4 50 ++ ([0, 0] ++ List.replicate 11 0) ++
      ([1, 0] ++ List.replicate 11 0)) := by decide +kernel
theorem witness_ref_config : refConfigOk [1, 0, 0, 0, 0, 0, 0, 0, 0] = true ∧ refConfigOk [4, 0, 3, 0, 0, 0, 0, 0, 0] = false ∧
    refConfigOk [4, 0, 2, 0, 0, 0, 0, 0, 0] = true ∧ refConfigOk [64, 0, 2, 0, 0, 0, 0, 0, 0] = false := by decide +kernel
theorem test_set_time : (after (.setTime 0 [0, 0, 0, 0, 1, 0]) State.reset).clk.row = ⟨256, 0⟩ ∧
    answer (after (.setTime 0 [0, 0, 0, 0, 1, 0]) State.reset) = some (.ok, [0, 1]) := by decide +kernel
theorem test_set_time_refused : answer (after (.setTime 0 [0, 0, 0, 0, 1, 0]) locked) = some (.wrongState, []) := by
  decide +kernel
theorem witness_locked_takes : locked.TakesFrames ∧ locked.clk.state ≠ .freerun := ⟨⟨rfl, by decide⟩, by decide⟩
theorem test_read_time : (answer (after (.readTime 0 []) locked)).map (fun x => x.2.length) = some 36 := by decide +kernel
theorem test_hard_reset : after (.hardReset true) locked =
    { State.reset with port := { State.reset.port with ignoring := true, link := ⟨true, [], [], none, none⟩ } } := by decide +kernel

/-! ### The drift watch -/

/-- The indicators of rack 6. -/
def ind (s : State) : Indicators := s.indicators 6

/-- Rack 6 is hot (R156). -/
def hot (s : State) : Bool :=
  decide ((ind s).d.natAbs ≥ (s.rack 6).driftWarn ∨ (ind s).lost ≥ (s.rack 6).lostWarn ∨ (ind s).excursion ≠ none)

/-- Rack 6 is cool (R156). -/
def cool (s : State) : Bool :=
  decide ((ind s).d.natAbs ≤ (s.rack 6).driftClear ∧ (ind s).lost < (s.rack 6).lostWarn ∧ (ind s).excursion = none)

/-- No alarm test of rack 6 holds (R159). -/
def calm (s : State) : Bool :=
  decide ((ind s).d.natAbs < (s.rack 6).driftAlarm ∧ (ind s).lost < (s.rack 6).lostAlarm ∧
    ((ind s).excursion = none ∨ (ind s).excursion ≠ (s.rack 6).sweptExcursion))

theorem witness_quiet_hot : let s := watched [drifting 80 (-230)] (fun r => { r with watch := .quiet })
    (s.rack 6).sweepDue = true ∧ (s.rack 6).watch = .quiet ∧ (ind s).d.natAbs ≥ (s.rack 6).driftWarn := by decide +kernel
theorem witness_quiet_lost : let s := watched [] (fun r => { r with watch := .quiet, members := { r.members with lost := 2 } })
    (s.rack 6).watch = .quiet ∧ (ind s).lost ≥ (s.rack 6).lostWarn := by decide +kernel
theorem witness_quiet_mild : let s := watched [drifting 80 (-120)] (fun r => { r with watch := .quiet })
    (s.rack 6).watch = .quiet ∧
      ¬((ind s).d.natAbs ≥ (s.rack 6).driftWarn ∨ (ind s).lost ≥ (s.rack 6).lostWarn ∨ (ind s).excursion ≠ none) := by
  decide +kernel
theorem witness_watch_last : let s := watched [drifting 80 (-200)] (fun r => { r with watch := .watch, dwell := 2 })
    (s.rack 6).watch = .watch ∧ hot s = true ∧ (s.rack 6).dwell + 1 ≥ (s.rack 6).dwellLimit := by
  decide +kernel
theorem witness_watch_hot : let s := watched [drifting 80 (-200)] (fun r => { r with watch := .watch, dwell := 1 })
    hot s = true ∧ (s.rack 6).dwell + 1 < (s.rack 6).dwellLimit := by decide +kernel
theorem witness_watch_cool : let s := watched [drifting 80 50] (fun r => { r with watch := .watch, dwell := 1 })
    hot s = false ∧ cool s = true := by decide +kernel
theorem witness_watch_mild : let s := watched [drifting 80 51] (fun r => { r with watch := .watch, dwell := 1 })
    hot s = false ∧ cool s = false := by decide +kernel
theorem witness_alarm_drift : let s := watched [drifting 80 (-1000)] (fun r => { r with watch := .warn })
    (s.rack 6).watch = .warn ∧ (ind s).d.natAbs ≥ (s.rack 6).driftAlarm := by decide +kernel
theorem witness_alarm_lost : let s := watched [] (fun r => { r with watch := .warn, members := { r.members with lost := 8 } })
    (s.rack 6).watch = .warn ∧ (ind s).d.natAbs < (s.rack 6).driftAlarm ∧ (ind s).lost ≥ (s.rack 6).lostAlarm := by
  decide +kernel
theorem witness_alarm_walk :
    let s := watched [] (fun r => { r with watch := .warn, latch := some .lagging, sweptExcursion := some .lagging })
    (s.rack 6).watch = .warn ∧ (ind s).d.natAbs < (s.rack 6).driftAlarm ∧ (ind s).lost < (s.rack 6).lostAlarm ∧
      (ind s).excursion ≠ none ∧ (ind s).excursion = (s.rack 6).sweptExcursion := by decide +kernel
theorem witness_warn_cool : let s := watched [] (fun r => { r with watch := .warn, dwell := 2 })
    calm s = true ∧ cool s = true ∧
      (s.rack 6).dwell + 1 ≥ (s.rack 6).dwellLimit := by decide +kernel
theorem witness_warn_cooling : let s := watched [] (fun r => { r with watch := .warn, dwell := 1 })
    calm s = true ∧ cool s = true ∧
      (s.rack 6).dwell + 1 < (s.rack 6).dwellLimit := by decide +kernel
theorem witness_warn_hot : let s := watched [drifting 80 999] (fun r => { r with watch := .warn })
    calm s = true ∧ cool s = false ∧ hot s = true ∧
      (s.rack 6).repeatOn = false := by decide +kernel
theorem witness_warn_repeating : let s := watched [drifting 80 999] (fun r => { r with watch := .warn, repeatOn := true })
    calm s = true ∧ cool s = false ∧ hot s = true ∧
      (s.rack 6).repeats + 1 < (s.rack 6).dwellLimit := by decide +kernel
theorem witness_warn_reminds :
    let s := watched [drifting 80 999] (fun r => { r with watch := .warn, repeatOn := true, repeats := 2 })
    calm s = true ∧ cool s = false ∧ hot s = true ∧
      (s.rack 6).repeats + 1 ≥ (s.rack 6).dwellLimit := by decide +kernel
theorem witness_warn_mild : let s := watched [drifting 80 100] (fun r => { r with watch := .warn })
    calm s = true ∧ cool s = false ∧ hot s = false := by
  decide +kernel
theorem witness_in_alarm : let s := watched [] (fun r => { r with watch := .alarm })
    (s.rack 6).sweepDue = true ∧ (s.rack 6).watch = .alarm := by decide +kernel

/-! ### The rack lines -/

/-- A line that is watched, in which nothing disturbs a sample at the idle level. -/
theorem undisturbed {l : Line} (h : l.state ≠ .off ∧ l.state ≠ .fault) : l.Undisturbed true := ⟨h, nofun⟩

/-- A waiting line completes the character it waits for. -/
theorem awaiting_completes {l : Line} {edge : Capture} {cs : List RxChar} {c : RxChar} (h : l.state ≠ .off ∧ l.state ≠ .fault)
    (hc : cs.getLast? = some c) (hs : (early c).length = 168) (e : c = RxChar.ofSamples (early c ++ [true])) :
    (awaiting edge cs l).Completes 0 edge c true :=
  ⟨undisturbed h, true, early c, by simp [awaiting, List.getLastD_eq_getLast?, hc], hs, e⟩

/-- A waiting line completes the frame it waits for. -/
theorem awaiting_frame {l : Line} {edge : Capture} {cs : List RxChar} {c : RxChar} (h : l.state ≠ .off ∧ l.state ≠ .fault)
    (hc : cs.getLast? = some c) (hs : (early c).length = 168) (e : c = RxChar.ofSamples (early c ++ [true]))
    (hm : c.marked = false) (hb : cs.dropLast ≠ []) (hf : frameComplete cs = true) :
    (awaiting edge cs l).CompletesFrame cs true :=
  ⟨hb, ⟨0, edge, c, awaiting_completes h hc hs e, hm, (List.dropLast_append_getLast? c hc).symm⟩,
    (frameComplete_iff cs).1 hf⟩

theorem witness_period : ((polling.modLine 3 (fun l => { l with periodEnd := some 9 })).line 3).periodEnd = some 9 := by
  decide +kernel
theorem test_overrun :
    let t := after (.periodElapsed 3) (polling.modLine 3 (fun l => { l with periodEnd := some 9 }))
    (t.line 3).overrun = true ∧ (t.line 3).counters.overruns = 1 := by decide +kernel
theorem test_elapsed_in_urgent_phase :
    let t := after (.periodElapsed 3) (polling.modLine 3 (fun l => { l with phase := .urgent, periodEnd := some 9 }))
    (t.line 3).periodElapsed = true ∧ (t.line 3).overrun = false ∧ (t.line 3).counters.overruns = 0 := by decide +kernel
theorem test_next_cycle :
    let s := onLine (fun l => { l with state := .idle, phase := .done, periodEnd := some 9, cycle := 4 })
    let t := after (.periodElapsed 3) s
    (t.line 3).state = .polling ∧ (t.line 3).cycle = 5 ∧ (t.line 3).pollList = [5] := by decide +kernel
theorem witness_poll_sent :
    let s := polling.modLine 3 (fun l => { l with rxOpen := false, windowEnd := none, tx := some ⟨[9, 0x31, 5, 42, 1], 0, 55000⟩ })
    (s.line 3).state = .polling ∧ (s.line 3).transaction = some txn ∧
      (((after (.pollSent 3) s).line 3).windowEnd = some 255000) := by decide +kernel
theorem witness_discover_sent :
    let s := discovering.modLine 3 (fun l => { l with rxOpen := false, windowEnd := none, tx := some ⟨discoverFrame 1000, 0, 55000⟩ })
    (s.line 3).state = .discovering ∧ (((after (.discoverSent 3) s).line 3).windowEnd = some 1055000) := by decide +kernel

/-- A whole REPLY of the transaction, from a follower 420 ns ahead. -/
def reply : List RxChar := chars (replyBytes ⟨100, 262680⟩ ⟨100, 342680⟩)

/-- The capture at its first leading edge. -/
def replyEdge : Capture := ⟨⟨100, 354520⟩, 0⟩

/-- `polling` as it waits for the last sample of these characters. -/
def hearing (edge : Capture) (cs : List RxChar) : State := polling.modLine 3 (awaiting edge cs)

/-- The state of a line that stands in POLLING or DISCOVERING is watched. -/
theorem hearing_frame {edge : Capture} {cs : List RxChar} {c : RxChar} (hc : cs.getLast? = some c)
    (hs : (early c).length = 168) (e : c = RxChar.ofSamples (early c ++ [true])) (hm : c.marked = false)
    (hb : cs.dropLast ≠ []) (hf : frameComplete cs = true) : ((hearing edge cs).line 3).CompletesFrame cs true :=
  awaiting_frame (l := polling.line 3) (by decide +kernel) hc hs e hm hb hf

theorem witness_reply_frame : ((hearing replyEdge reply).line 3).CompletesFrame reply true :=
  hearing_frame (c := char (crc8 ((replyBytes ⟨100, 262680⟩ ⟨100, 342680⟩).drop 1).dropLast) false) (by decide +kernel)
    (by decide +kernel) (by decide +kernel) (by decide +kernel) (by decide +kernel) (by decide +kernel)
theorem witness_reply :
    ((hearing replyEdge reply).line 3).state = .polling ∧ ((hearing replyEdge reply).line 3).transaction = some txn ∧
    txn.failed = false ∧ (hearing replyEdge reply).bySlot 5 = some (record 5 3 9 .tracking) ∧
    ((hearing replyEdge reply).line 3).txNumber = 42 ∧ (record 5 3 9 .tracking).withdrawal = .no := by
  decide +kernel
theorem witness_good_reply : GoodReply 9 ⟨42, 6, true, false, ⟨100, 262680⟩, ⟨100, 342680⟩, none⟩ reply :=
  (judgeFrame_reply ..).1 (by decide +kernel)
theorem test_reply :
    let t := after (.replyHandoff 3 286000 [true]) (hearing replyEdge reply)
    (t.line 3).state = .closing ∧
      (t.bySlot 5).map Endpoint.window = some [⟨⟨100, 250000⟩, 420, 24520⟩] ∧
      (t.line 3).tx = some ⟨closeFrame 9 42 (some ⟨1, .slew, -52⟩) none, 286000, 451000⟩ := by decide +kernel
theorem test_reply_walks :
    let s := (hearing replyEdge reply).modRack 3 (fun r => { r with watch := .quiet, walkQuantum := 419, walkLimit := 1 })
    ((after (.replyHandoff 3 286000 [true]) s).rack 3).latch = some .leading := by decide +kernel
theorem test_reply_epoch :
    let s := hearing replyEdge reply
    ((after (.replyHandoff 3 0 [true]) { s with clk := { s.clk with epoch := 1 } }).bySlot 5).map
      (fun r => (r.voids, r.window)) = some (1, []) := by decide +kernel

/-- An ANNOUNCE where a REPLY is waited for. -/
def stranger : List RxChar := chars (announceBytes 9 77)

theorem witness_failed_frame : ((hearing edge0 stranger).line 3).CompletesFrame stranger true :=
  hearing_frame (c := char (crc8 ([0x35, 8] ++ bytesOf 4 77)) false) (by decide +kernel)
    (by decide +kernel) (by decide +kernel) (by decide +kernel) (by decide +kernel) (by decide +kernel)
/-- A frame that is judged to be no REPLY is none of a transaction. -/
theorem not_reply {i : Fin 12} {cs : List RxChar} {s : State} (h : ∀ addr p, judgeFrame cs ≠ .reply addr p) : ¬s.ReplyOf i cs :=
  fun ⟨_, _, _, _, _, _, _, good⟩ => h _ _ ((judgeFrame_reply ..).2 good)

theorem witness_failed_judged : ¬(hearing edge0 stranger).ReplyOf 3 stranger ∧ ¬BadFrame stranger ∧
    ((hearing edge0 stranger).line 3).state = .polling := by
  have judged : judgeFrame stranger = .announce 9 77 := by decide +kernel
  exact ⟨not_reply (by simp [judged]), fun bad => (nomatch judged.symm.trans ((judgeFrame_bad _).2 bad)),
    by decide +kernel⟩
theorem test_failed_frame :
    let t := after (.pollingFrameFailed 3 286000 [true]) (hearing edge0 stranger)
    (t.line 3).transaction = some { txn with failed := true } ∧ (t.line 3).counters.badFrames = 0 := by decide +kernel
/-- A POLL on the receive pair: bad by its type alone, of the length that R186 allows a POLL. -/
def echoed : List RxChar := chars (pollFrame 9 42)

theorem witness_bad_by_type : ((hearing edge0 echoed).line 3).CompletesFrame echoed true ∧ BadFrame echoed ∧
    ¬(hearing edge0 echoed).ReplyOf 3 echoed := by
  have judged : judgeFrame echoed = .bad := by decide +kernel
  exact ⟨hearing_frame (c := char (crc8 [0x31, 5, 42]) false) (by decide +kernel) (by decide +kernel) (by decide +kernel)
    (by decide +kernel) (by decide +kernel) (by decide +kernel), (judgeFrame_bad _).1 judged, not_reply (by simp [judged])⟩
theorem test_bad_by_type_ends_at_its_length :
    let t := after (.pollingFrameFailed 3 55000 [true]) (hearing edge0 echoed)
    (t.line 3).rx = [] ∧ (t.line 3).counters.badFrames = 1 := by decide +kernel
/-- A POLL that states six characters goes on (R28, R186). -/
theorem test_length_not_allowed_runs_on :
    let t := after (.pollingFrameFailed 3 55000 [true]) (hearing edge0 (chars [9, 0x31, 6, 42, 0, 0]))
    (t.line 3).rx.length = 6 ∧ (t.line 3).counters.badFrames = 0 := by decide +kernel
theorem test_failed_late :
    let s := (hearing edge0 stranger).modLine 3 (fun l => { l with windowElapsed := true, windowEnd := none })
    ((after (.pollingFrameFailed 3 286000 [true]) s).line 3).counters.misses = 1 := by decide +kernel

/-- Characters that are not yet a frame. -/
theorem incomplete {cs : List RxChar} (h : frameComplete cs = false) : ¬FrameFull cs :=
  fun full => Bool.false_ne_true (h.symm.trans ((frameComplete_iff cs).2 full))

/-- An address character that breaks into a frame. -/
def broken : State := polling.modLine 3 (fun l => { awaiting edge0 [char 9 true, char 10 true] l with rx := [char 9 true] })

theorem witness_marked : (broken.line 3).Completes 0 edge0 (char 10 true) true ∧ (char 10 true).marked = true ∧
    (broken.line 3).rx ≠ [] ∧ ¬FrameFull (broken.line 3).rx ∧ (broken.line 3).rxOpen = true ∧
    (broken.line 3).windowElapsed = false :=
  ⟨⟨undisturbed (by decide +kernel), true, early (char 10 true), by decide +kernel, by decide +kernel, by decide +kernel⟩,
    by decide +kernel, by decide +kernel, incomplete (by decide +kernel), by decide +kernel, by decide +kernel⟩
theorem test_marked :
    let t := after (.pollingFrameFailed 3 0 [true]) broken
    (t.line 3).counters.badFrames = 1 ∧ (t.line 3).rx = [char 10 true] := by decide +kernel

/-- `s` with the window of line 3 at its end, as the character that arrives began within it or not. -/
def overdue (inWindow : Bool) (s : State) : State := s.modLine 3 (fun l => { l with
  windowElapsed := true, windowEnd := none, receiver := .char 0 edge0 inWindow (early (char 10 true)) })

theorem witness_marked_late : (((overdue false broken).line 3).Completes 0 edge0 (char 10 true) true ∧
      ((overdue false broken).line 3).windowElapsed = true ∧ ((overdue false broken).line 3).charInWindow = false ∧
      ((overdue false broken).line 3).transaction ≠ none) ∧
    ((overdue true broken).line 3).windowElapsed = true ∧ ((overdue true broken).line 3).charInWindow = true :=
  ⟨⟨⟨undisturbed (by decide +kernel), false, early (char 10 true), by decide +kernel, by decide +kernel, by decide +kernel⟩,
    by decide +kernel, by decide +kernel, by decide +kernel⟩, by decide +kernel, by decide +kernel⟩
theorem test_marked_late :
    let c := ((after (.pollingFrameFailed 3 0 [true]) (overdue false broken)).line 3).counters
    (c.badFrames, c.misses, c.stray) = (1, 1, 1) ∧
    ((after (.pollingFrameFailed 3 0 [true]) (overdue true broken)).line 3).rx = [char 10 true] := by decide +kernel
theorem polling_rises : polling.SlotsRise := ⟨by decide +kernel, by decide +kernel⟩
theorem witness_miss : (polling.line 3).windowEnd = some 200000 ∧ (polling.line 3).rx = [] ∧
    (polling.line 3).charInWindow = false ∧ polling.bySlot 5 = some (record 5 3 9 .tracking) := by decide +kernel
theorem witness_miss_waits : ((polling.modLine 3 (fun l => { l with rx := reply.take 4 })).line 3).rx ≠ [] ∧
    ((polling.modLine 3 (fun l => { l with receiver := .char 0 edge0 true [false] })).line 3).charInWindow = true := by
  decide +kernel
theorem witness_miss_withdrawals :
    ({ record 5 3 9 .retiring with withdrawal := .retire }).withdrawal = .retire ∧
    ({ record 5 3 9 .lost with withdrawal := .suspend }).withdrawal = .suspend := by decide
theorem test_miss :
    let t := after (.replyWindowEnd 3) polling
    (t.bySlot 5).map Endpoint.state = some .suspect ∧ (t.line 3).counters.misses = 1 ∧ (t.line 3).transaction = none ∧
      (t.line 3).state = .discovering := by decide +kernel

/-- The record of `polling` after its miss. -/
def missed : Endpoint := { record 5 3 9 .tracking with missCount := 1, missTotal := 1, state := .suspect }

/-- `polling` when its miss has been counted. -/
def missing : State :=
  ((polling.advanceTo 200000).modLine 3 Line.countMiss).updateRecord 5 (Endpoint.missRule (polling.line 3).missLimit)

theorem witness_miss_moves : missing = { (polling.advanceTo 200000).modLine 3 (fun l => { l with
      counters := { l.counters with misses := min 65535 (l.counters.misses + 1) } }) with
    records := polling.records.map (fun q => if q.slot = txn.slot then missed else q), racks := missing.racks
    port := missing.port } ∧
    (polling.advanceTo 200000).MembersMoved 3 .tracking (some .suspect) missing ∧ missing.port = polling.port ∧
    ¬(polling.line 3).missLimit ≤ min 15 ((record 5 3 9 .tracking).missCount + 1) :=
  ⟨by decide +kernel, fun j => ⟨by revert j; decide +kernel, fun st => by cases st <;> revert j <;> decide +kernel⟩,
    by decide +kernel, by decide +kernel⟩
theorem test_last_miss :
    let s := { polling with records := [{ record 5 3 9 .suspect with missCount := 3 }] }
    ((after (.replyWindowEnd 3) s).bySlot 5).map Endpoint.state = some .lost ∧
      (after (.replyWindowEnd 3) s).port.isPending .lost = true := by decide +kernel

theorem test_miss_enrolling :
    let s := { polling with records := [{ record 5 3 9 .enrolling with goodCount := 2 }] }
    ((after (.replyWindowEnd 3) s).bySlot 5).map (fun r => (r.state, r.goodCount, r.missCount)) = some (.enrolling, 0, 1) := by
  decide +kernel
theorem test_miss_quiesces :
    ((after (.replyWindowEnd 3) (polling.modLine 3 (fun l => { l with quiesceReq := true }))).line 3).state = .quiesced := by
  decide +kernel

/-- A grant of domain 20. -/
def grant20 : Grant := ⟨20, 0, ⟨100, 354520⟩, 4, 90, false⟩

theorem witness_close : (closing.line 3).state = .closing ∧ (closing.line 3).transaction = some txn ∧
    closing.bySlot 5 = some (record 5 3 9 .tracking) ∧ (closing.line 3).tx = some ⟨closeFrame 9 42 none none, 0, 66000⟩ := by
  decide +kernel
theorem closing_rises : closing.SlotsRise := ⟨by decide +kernel, by decide +kernel⟩
theorem test_close_retires_domain :
    let s := { closing with
      records := [{ record 5 3 9 .tracking with answer := some (.grant grant20), inTxn := true }]
      domains := [{ dom 20 20000 .refuseRack 8 with state := .retiring, pendingDel := 1 }, dom 12 5000 .off 8] }
    let t := after (.closeSent 3) s
    t.domains.map Domain.id = [12] ∧ (t.bySlot 5).map Endpoint.answer = some none := by decide +kernel
theorem witness_quiesce_at_end :
    ((closing.modLine 3 (fun l => { l with quiesceReq := true })).line 3).quiesceReq = true ∧
    ((after (.closeSent 3) (closing.modLine 3 (fun l => { l with quiesceReq := true }))).line 3).state = .quiesced := by
  decide +kernel

/-! How the line goes on after the transaction -/

/-- `closing` with a second record, LOST, in slot 6 at address 10, and the line as `f` makes it. -/
def between (f : Line → Line) : State :=
  { closing with records := [record 5 3 9 .tracking, record 6 3 10 .lost] }.modLine 3 f

/-- `between` with a list whose next entry has no record, and the one after that has. -/
def listed : State := between (fun l => { l with pollList := [5, 7, 6] })

theorem witness_next_entry : listed.FirstOf (listed.line 3).unreached 2 (record 6 3 10 .lost) ∧ (listed.line 3).phase = .list := by
  have e : listed.bySlot 7 = none := by decide +kernel
  refine ⟨⟨by decide +kernel, by decide, [7], [], by decide +kernel, fun n hn r hr => ?_, rfl⟩, by decide +kernel⟩
  cases List.mem_singleton.1 hn
  cases e.symm.trans hr
theorem test_next_entry : let t := after (.closeSent 3) listed
    (t.line 3).transaction.map Transaction.slot = some 6 ∧ (t.line 3).pollPos = 3 ∧ (t.line 3).phase = .list := by
  decide +kernel
theorem witness_list_over : (between id).NonePollable ((between id).line 3).unreached ∧
    ((between id).line 3).overrun = false ∧ (between id).UrgentCheck 3 ∧ (between id).NonePollable ((between id).line 3).urgent :=
  ⟨nofun, by decide +kernel, Or.inr ⟨by decide +kernel, nofun, by decide +kernel⟩, nofun⟩
theorem test_list_over : ((after (.closeSent 3) (between id)).line 3).state = .discovering ∧
    ((after (.closeSent 3) (between (fun l => { l with discEnable := false }))).line 3).phase = .done := by decide +kernel
theorem test_overrun_over : let t := after (.closeSent 3) (between (fun l => { l with overrun := true, urgent := [6] }))
    (t.line 3).cycle = 1 ∧ (t.line 3).overrun = false ∧ (t.line 3).urgent = [6] := by decide +kernel
theorem test_elapsed_over : let t := after (.closeSent 3) (between (fun l => { l with periodElapsed := true }))
    (t.line 3).cycle = 1 ∧ (t.line 3).periodElapsed = false := by decide +kernel
theorem witness_urgent : let s := between (fun l => { l with urgent := [6, 5] })
    s.FirstOf (s.line 3).urgent 1 (record 6 3 10 .lost) :=
  ⟨by decide +kernel, by decide, [], [5], by decide +kernel, nofun, rfl⟩
theorem test_urgent : let t := after (.closeSent 3) (between (fun l => { l with urgent := [6, 5] }))
    (t.line 3).transaction.map Transaction.slot = some 6 ∧ (t.line 3).urgent = [5] ∧ (t.line 3).phase = .urgent := by
  decide +kernel

/-- `discovering` as it waits for the last sample of these characters. -/
def discovered (cs : List RxChar) : State := discovering.modLine 3 (awaiting edge0 cs)

/-- An ANNOUNCE from this address with identity 77. -/
def announced (addr : Nat) : List RxChar := chars (announceBytes addr 77)

theorem discovered_frame {cs : List RxChar} {c : RxChar} (hc : cs.getLast? = some c) (hs : (early c).length = 168)
    (e : c = RxChar.ofSamples (early c ++ [true])) (hm : c.marked = false) (hb : cs.dropLast ≠ [])
    (hf : frameComplete cs = true) : ((discovered cs).line 3).CompletesFrame cs true :=
  awaiting_frame (l := discovering.line 3) (by decide +kernel) hc hs e hm hb hf

theorem witness_announce_frame : ((discovered (announced 12)).line 3).CompletesFrame (announced 12) true :=
  discovered_frame (c := char (crc8 ([0x35, 8] ++ bytesOf 4 77)) false) (by decide +kernel)
    (by decide +kernel) (by decide +kernel) (by decide +kernel) (by decide +kernel) (by decide +kernel)
theorem witness_announce : ((discovered (announced 12)).line 3).state = .discovering ∧
    (discovered (announced 12)).byKey 3 12 = none ∧ (discovered (announced 12)).newcomers.length < 16 ∧
    (¬∃ n ∈ (discovered (announced 12)).newcomers, n.line = 3 ∧ n.addr = 12) := by decide +kernel
theorem witness_announces : GoodAnnounce 12 77 (announced 12) ∧ GoodAnnounce 9 77 (announced 9) ∧
    GoodAnnounce 48 77 (announced 48) ∧ GoodAnnounce 0 77 (announced 0) ∧
    discovering.byKey 3 9 = some (record 5 3 9 .tracking) :=
  ⟨(judgeFrame_announce ..).1 (by decide +kernel), (judgeFrame_announce ..).1 (by decide +kernel),
    (judgeFrame_announce ..).1 (by decide +kernel), (judgeFrame_announce ..).1 (by decide +kernel), by decide +kernel⟩
theorem test_announce : (after (.announce 3 88000 [true]) (discovered (announced 47))).newcomers = [⟨3, 47, 77, 1, 0⟩] := by
  decide +kernel
theorem test_announce_full :
    let full : List Newcomer := (List.range 16).map (fun k => ⟨3, k + 10, 0, 1, 0⟩)
    full.length = 16 ∧ (after (.announce 3 88000 [true])
      { discovered (announced 47) with newcomers := full }).overflow = true := by decide +kernel

/-- An ANNOUNCE whose check fails. -/
def collided : List RxChar := chars [12, 0x35, 8, 0, 0, 0, 1, 0]

theorem witness_collision : ((discovered collided).line 3).CompletesFrame collided true :=
  discovered_frame (c := char 0 false) (by decide +kernel) (by decide +kernel) (by decide +kernel) (by decide +kernel)
    (by decide +kernel) (by decide +kernel)
theorem witness_collision_judged : BadFrame collided ∧ (∀ addr ident, ¬GoodAnnounce addr ident collided) ∧
    ¬BadFrame reply ∧ ∀ addr ident, ¬GoodAnnounce addr ident reply := by
  have bad : judgeFrame collided = .bad := by decide +kernel
  have good := (judgeFrame_reply ..).2 witness_good_reply
  exact ⟨(judgeFrame_bad _).1 bad, fun _ _ h => (nomatch bad.symm.trans ((judgeFrame_announce ..).2 h)),
    fun h => (nomatch good.symm.trans ((judgeFrame_bad _).2 h)),
    fun _ _ h => (nomatch good.symm.trans ((judgeFrame_announce ..).2 h))⟩
theorem witness_failed_bad : ((hearing edge0 collided).line 3).CompletesFrame collided true ∧
    ¬(hearing edge0 collided).ReplyOf 3 collided :=
  ⟨hearing_frame (c := char 0 false) (by decide +kernel) (by decide +kernel) (by decide +kernel) (by decide +kernel)
    (by decide +kernel) (by decide +kernel),
    not_reply (by simp [show judgeFrame collided = .bad by decide +kernel])⟩
theorem witness_reply_discovered : ((discovered reply).line 3).CompletesFrame reply true :=
  discovered_frame (c := char (crc8 ((replyBytes ⟨100, 262680⟩ ⟨100, 342680⟩).drop 1).dropLast) false) (by decide +kernel)
    (by decide +kernel) (by decide +kernel) (by decide +kernel) (by decide +kernel) (by decide +kernel)
theorem test_collision : ((after (.discoveryCollision 3 88000 [true]) (discovered collided)).line 3).counters.collisions = 1 := by
  decide +kernel
theorem test_collision_late :
    let s := (discovered collided).modLine 3 (fun l => { l with windowElapsed := true, windowEnd := none })
    ((after (.discoveryCollision 3 88000 [true]) s).line 3).phase = .done := by decide +kernel

/-- `discovering` as an address character breaks into a frame. -/
def colliding : State := discovering.modLine 3 (fun l => { awaiting edge0 [char 9 true, char 10 true] l with rx := [char 9 true] })

theorem witness_collision_marked_late : ((overdue false colliding).line 3).Completes 0 edge0 (char 10 true) true ∧
    ((overdue false colliding).line 3).rx ≠ [] ∧ ¬FrameFull ((overdue false colliding).line 3).rx ∧
    ((overdue false colliding).line 3).rxOpen = true ∧ ((overdue false colliding).line 3).state = .discovering ∧
    ((overdue false colliding).line 3).charInWindow = false :=
  ⟨⟨undisturbed (by decide +kernel), false, early (char 10 true), by decide +kernel, by decide +kernel, by decide +kernel⟩,
    by decide +kernel, incomplete (by decide +kernel), by decide +kernel, by decide +kernel, by decide +kernel⟩
theorem test_collision_marked_late :
    let l := (after (.discoveryCollision 3 0 [true]) (overdue false colliding)).line 3
    (l.counters.collisions, l.counters.stray, l.phase) = (1, 1, .done) ∧
    ((after (.discoveryCollision 3 0 [true]) (overdue true colliding)).line 3).rx = [char 10 true] := by decide +kernel
theorem witness_window_end : (discovering.line 3).windowEnd = some 1000000 ∧ (discovering.line 3).phase = .discovery ∧
    (discovering.line 3).rx = [] ∧ (discovering.line 3).charInWindow = false ∧ (discovering.line 3).quiesceReq = false ∧
    (discovering.line 3).periodElapsed = false := by decide +kernel
theorem witness_window_next_cycle :
    let s := discovering.modLine 3 (fun l => { l with periodElapsed := true, cycle := 6 })
    (s.line 3).periodElapsed = true ∧ ((after (.discoveryWindowEnd 3) s).line 3).cycle = 7 := by decide +kernel
theorem test_window_end_quiesces :
    ((after (.discoveryWindowEnd 3) (discovering.modLine 3 (fun l => { l with quiesceReq := true }))).line 3).state = .quiesced := by
  decide +kernel
theorem test_window_end : ((after (.discoveryWindowEnd 3) discovering).line 3).phase = .done := by decide +kernel
theorem witness_gap :
    let s := polling.modLine 3 (fun l => { l with rx := reply.take 4, rxAt := 77000 })
    (s.line 3).rx ≠ [] ∧ ¬FrameFull (s.line 3).rx ∧ (s.line 3).receiver = .waiting ∧
      (s.line 3).state = .polling ∧ (after (.frameGapTimeout 3) s).localNs = 99001 :=
  ⟨by decide +kernel, incomplete (by decide +kernel), by decide +kernel, by decide +kernel, by decide +kernel⟩
theorem witness_gap_discovering :
    let s := discovering.modLine 3 (fun l => { l with rx := collided.take 4, rxAt := 77000 })
    ¬FrameFull (s.line 3).rx ∧ (s.line 3).state = .discovering ∧
      ((after (.frameGapTimeout 3) s).line 3).counters.collisions = 1 :=
  ⟨incomplete (by decide +kernel), by decide +kernel, by decide +kernel⟩
theorem witness_gap_waits :
    let s := polling.modLine 3 (fun l => { l with rx := reply.take 4, receiver := .char 0 edge0 true [false] })
    (s.line 3).receiver = .char 0 edge0 true [false] ∧ after (.frameGapTimeout 3) s = s := by decide +kernel

/-- Line 3 in CLOSING with this receiver, after a sample at the idle level or not. -/
def receiving (r : Receiver) (level : Bool) : State := closing.modLine 3 (fun l => { l with receiver := r, level := level })

theorem witness_receivers : (receiving .waiting true).line 3 ≠ (receiving .held false).line 3 ∧
    ((receiving .waiting true).line 3).Undisturbed true ∧ ((receiving .waiting true).line 3).Undisturbed false :=
  ⟨by decide +kernel, undisturbed (by decide +kernel), ⟨by decide +kernel, fun n h _ => by cases h; decide⟩⟩
theorem test_leading_edge : ((after (.strayCharacter 3 63 [false]) (receiving .waiting true)).line 3).receiver =
    .char 125 ⟨⟨0, 125⟩, 0⟩ false [false] ∧
    ((after (.strayCharacter 3 63 [false]) (receiving .waiting false)).line 3).receiver = .waiting := by decide +kernel
theorem test_held : ((after (.strayCharacter 3 0 [false]) (receiving .held false)).line 3).receiver = .held ∧
    ((after (.strayCharacter 3 0 [true]) (receiving .held false)).line 3).receiver = .waiting := by decide +kernel
theorem witness_start_bit : ([false, false, false, false, false, false, false, true] : List Bool).length = 8 ∧
    ([false, false, false, false, false, false, false, true] : List Bool).drop 6 = [false, true] := by decide
theorem test_false_start :
    let s := receiving (.char 0 edge0 false [false, false, false, false, false, false, false, true]) true
    ((after (.strayCharacter 3 0 [true]) s).line 3).receiver = .waiting ∧
    ((after (.strayCharacter 3 0 [false]) s).line 3).receiver =
      .char 0 edge0 false [false, false, false, false, false, false, false, true, false] := by decide +kernel
theorem test_false_start_ends_window :
    let s := polling.modLine 3 (fun l => { l with
      receiver := .char 0 edge0 true [false, false, false, false, false, false, true, true], windowElapsed := true, windowEnd := none })
    ((after (.strayCharacter 3 0 [true]) s).line 3).counters.misses = 1 := by decide +kernel
theorem witness_stray : ((closing.modLine 3 (awaiting edge0 [char 7 true])).line 3).Completes 0 edge0 (char 7 true) true :=
  awaiting_completes (l := closing.line 3) (by decide +kernel) rfl (by decide +kernel) (by decide +kernel)
theorem test_stray : ((after (.strayCharacter 3 5 [true]) (closing.modLine 3 (awaiting edge0 [char 7 true]))).line 3).counters.stray =
    1 := by decide +kernel
theorem test_first_char : ((after (.strayCharacter 3 5 [true]) (hearing replyEdge [char 7 true])).line 3).rx = [char 7 true] := by
  decide +kernel
theorem test_framing :
    let s := hearing replyEdge [{ char 7 true with stop := sure false }]
    ((after (.strayCharacter 3 5 [false]) s).line 3).receiver = .held := by decide +kernel
theorem test_samples_in_turn :
    let t := after (.strayCharacter 3 5 [true, false, true]) closing
    t.localNs = 187 ∧ (t.line 3).sampledAt = 187 := by decide +kernel

/-- Line 3 in POLLING, its pair at the break level for `n` samples. -/
def breaking (n : Nat) : State := polling.modLine 3 (fun l => { l with faultWatch := some n, level := false, receiver := .held })

theorem witness_line_fault : ((breaking 351).line 3).faultWatch = some 351 ∧ 352 ≤ 351 + 1 ∧ 350 + 1 < 352 ∧
    ((breaking 350).line 3).state = .polling ∧ ((breaking 350).line 3).receiver = .held := by decide +kernel
theorem test_near_fault : ((after (.lineFault 3 ⟨0, [false]⟩) (breaking 350)).line 3).faultWatch = some 351 ∧
    ((after (.lineFault 3 ⟨0, [true]⟩) (breaking 351)).line 3).faultWatch = some 0 := by decide +kernel
theorem test_line_fault :
    let t := after (.lineFault 3 ⟨70000, [false]⟩) ((breaking 351).modRack 3 (fun r => { r with watch := .watch }))
    (t.line 3).state = .fault ∧ (t.bySlot 5).map Endpoint.state = some .lost ∧ (t.rack 3).cause = some .lineFault ∧
      (t.line 3).recoveryWatch = some none := by decide +kernel
theorem test_fault_completes_withdrawals :
    let s := fun w => { breaking 351 with records := [{ record 5 3 9 .tracking with withdrawal := w, inTxn := true }] }
    (after (.lineFault 3 ⟨0, [false]⟩) (s .retire)).records = [] ∧
      ((after (.lineFault 3 ⟨0, [false]⟩) (s .suspend)).bySlot 5).map Endpoint.state = some .suspended ∧
      ((s .retire).line 3).begun = none := by decide +kernel
theorem test_cut_on_a_boundary : let f : TxFrame := ⟨[9, 0x31, 5], 0, 33000⟩
    f.cut 0 11000 = some ⟨[9], 0, 11000⟩ ∧ f.cut 11000 11000 = some ⟨[9, 0x31], 0, 22000⟩ ∧ f.cut 33000 11000 = none := by
  decide
theorem test_fault_cuts :
    let s := (breaking 351).modLine 3 (fun l => { l with tx := some ⟨[9, 0x31, 5, 42, 1], 0, 55000⟩ })
    (((after (.lineFault 3 ⟨12000, [false]⟩) s).line 3).tail) = some ⟨[9, 0x31], 0, 22000⟩ := by decide +kernel

/-! What meets a start at its own instant (R33, R40) -/

theorem not_begun {i : Fin 12} {s : State} (h : (s.line i).begun = none) : ∀ b, ¬s.BegunNow i b :=
  fun _ k => nomatch h.symm.trans k.1

/-- A LINE_RESET of line 3 at the very instant of the sample that brings its fault. -/
def restarted : State := after (.responseFormed 0) (after (.lineReset 62 [3]) (breaking 351))

theorem witness_begun_now :
    (restarted.heard 3 0 false).BegunNow 3 ⟨62, 42, .m1, []⟩ ∧ (∀ b, ¬(polling.heard 3 0 false).BegunNow 3 b) ∧
      (restarted.line 3).faultWatch = some 351 ∧ (restarted.line 3).state = .polling :=
  ⟨⟨by decide +kernel, by decide +kernel, Or.inr ⟨by decide +kernel, ⟨5, 200, false⟩,
      { record 5 3 9 .tracking with inTxn := true, cycleClass := 1 }, by decide +kernel, by decide +kernel, rfl⟩⟩,
    not_begun (by decide +kernel), by decide +kernel, by decide +kernel⟩
theorem test_reset_then_fault :
    let t := after (.lineFault 3 ⟨0, [false]⟩) restarted
    ((restarted.line 3).txNumber, (t.line 3).txNumber, (t.line 3).state, (t.line 3).tail, (t.line 3).cycle) =
        (43, 42, .fault, none, 1) ∧
      (t.bySlot 5).map (fun r => (r.state, r.inTxn)) = some (.lost, false) := by decide +kernel
theorem test_suspend_keeps_the_start :
    let t := after (.lineFault 3 ⟨0, [false]⟩) (after (.suspend 0 [0, 3, 9]) restarted)
    ((t.line 3).txNumber, (t.line 3).tail) = (43, some ⟨[9], 62, 11062⟩) ∧
      (t.bySlot 5).map (fun r => (r.state, r.inTxn)) = some (.suspended, false) := by decide +kernel
theorem test_window_end_then_reset :
    let s := { polling.modLine 3 (fun l => { l with pollList := [5, 6] }) with
      records := [record 5 3 9 .tracking, record 6 3 10 .lost] }
    let u := after (.replyWindowEnd 3) s
    let t := after (.lineReset 0 [3]) u
    (u.line 3).transaction.map Transaction.slot = some 6 ∧ (u.line 3).txNumber = 43 ∧
      ((t.line 3).txNumber, (t.line 3).tail, (t.line 3).cycle) = (43, none, 1) ∧
      (t.line 3).transaction.map Transaction.slot = some 5 ∧
      t.records.map (fun r => (r.missCount, r.inTxn)) = [(1, true), (0, false)] := by decide +kernel

/-- Line 3 in FAULT. -/
def faulted : State := onLine (fun l => { l with state := .fault, recoveryWatch := some (some 0) })

theorem test_recovery :
    let t := after (.lineRecovery 3 9) faulted
    t.localNs = 1000000000 ∧ (t.line 3).state = .polling ∧ (t.line 3).recoveryWatch = none := by decide +kernel
theorem witness_recovery_quiesce : let s := faulted.modLine 3 (fun l => { l with quiesceReq := true })
    (s.line 3).recoveryWatch = some (some 0) ∧ (s.line 3).quiesceReq = true ∧
      ((after (.lineRecovery 3 9) s).line 3).state = .quiesced := by decide +kernel
theorem test_watch_restart : ((after (.recoveryWatchRestart 3 ⟨9, [false]⟩) faulted).line 3).recoveryWatch = some none ∧
    ((after (.recoveryWatchRestart 3 ⟨9, [false, true, true]⟩) faulted).line 3).recoveryWatch = some (some 125) ∧
    (after (.lineRecovery 3 9) (after (.recoveryWatchRestart 3 ⟨9, [false]⟩) faulted)).localNs = 1000000125 := by decide +kernel

/-- LINE_CONFIG that enables line 3. -/
def enable3 : List Byte := [3, 0, 1, 1] ++ List.replicate 18 0

theorem witness_line_config : enable3.length = 22 ∧ field enable3 0 1 = 3 ∧ lineConfigOk enable3 = true ∧
    (field enable3 1 2).testBit 0 = true ∧ flag enable3 3 0 = true ∧ (State.reset.line 3).state = .off ∧
    lineConfigOk ([3, 0, 2, 0, 3] ++ List.replicate 17 0) = false := by decide +kernel
theorem test_line_config : ((after (.lineConfig 0 enable3) State.reset).line 3).state = .discovering := by decide +kernel
theorem witness_line_config_keeps : (field ([3, 0, 4, 0, 0, 1, 0xF4] ++ List.replicate 15 0) 1 2).testBit 0 = false ∧
    (after (.lineConfig 0 ([3, 0, 4, 0, 0, 1, 0xF4] ++ List.replicate 15 0)) closing).line 3 =
      { closing.line 3 with cfgPeriod := 500 } := by decide +kernel
theorem test_line_disable :
    let t := after (.lineConfig 0 ([3, 0, 1, 0] ++ List.replicate 18 0)) polling
    (t.line 3).state = .off ∧ (t.bySlot 5).map Endpoint.state = some .tracking := by decide +kernel
theorem line_takes (f : Line → Line) : (onLine f).TakesFrames := ⟨rfl, nofun⟩
theorem test_quiesce : answer (after (.lineQuiesce 0 [3]) polling) = some (.accepted, []) ∧
    answer (after (.lineQuiesce 0 [3]) State.reset) = some (.wrongState, []) ∧
    ((after (.lineQuiesce 0 [3]) discovering).line 3).state = .quiesced := by decide +kernel
theorem test_quiesce_idle :
    ((after (.lineQuiesce 0 [3]) (onLine (fun l => { l with state := .idle }))).line 3).state = .quiesced ∧
    answer (after (.lineQuiesce 0 [3]) (onLine (fun l => { l with state := .quiesced }))) = some (.ok, []) := by decide +kernel
theorem test_resume : ((after (.lineResume 0 [3]) (onLine (fun l => { l with state := .quiesced }))).line 3).state = .polling ∧
    ((after (.lineResume 0 [3]) (polling.modLine 3 (fun l => { l with quiesceReq := true }))).line 3).quiesceReq = false := by
  decide +kernel
theorem test_line_reset : ((after (.lineReset 0 [3]) closing).line 3).cycle = 1 ∧
    ((after (.lineReset 0 [3]) faulted).line 3).state = .fault := by decide +kernel
theorem test_line_reset_burns :
    let s := { closing with
      records := [{ record 5 3 9 .tracking with answer := some (.grant grant20), inTxn := true }]
      domains := [{ dom 20 20000 .refuseRack 8 with pendingDel := 1 }] }
    ((after (.lineReset 0 [3]) s).domain 20).map (fun d => (d.pendingDel, d.burned)) = some (0, 4) := by decide +kernel

/-! ### The port -/

theorem witness_ignoring : ({ State.reset.port with ignoring := true }).ignoring = true ∧
    Instr.asRequest (.ack 0 [5]) = some (0x49, [1], 0, [5]) := by decide
theorem witness_executing : (after (.mask 0 [1]) State.reset).port.ignoring = false ∧
    (after (.mask 0 [1]) State.reset).port.state = .executing := by decide +kernel
theorem test_overlap :
    let t := after (.overlap 0 [1, 2, 3] [false, true]) (after (.mask 0 [0x80]) State.reset)
    t.port.overlaps = 1 ∧ t.port.attention = true := by decide +kernel
theorem test_bad_frame :
    let t := after (.badFrame 0 [0x49, 1, 0, 0, 0] []) State.reset
    t.port.badFrames = 1 ∧ t.port.held = some ⟨0x49, .badFrame, false, []⟩ := by decide +kernel
theorem witness_bad_frame : frameGood [0x49, 1, 0, 0, 0] false = false ∧ [(0x49 : Byte), 1, 0, 0, 0].length = 5 ∧
    (crc16 (([0x49, 1, 0, 0, 0] : List Byte).take 3)).toNat ≠ field [0x49, 1, 0, 0, 0] 3 2 := by decide +kernel
theorem witness_short_and_long : ([0x49, 1, 0] : List Byte).length < 4 ∧ 64 < (List.replicate 65 (1 : Byte)).length ∧
    60 < (List.replicate 61 (1 : Byte)).length := by decide
theorem test_unknown : answer (after (.unknownRequest 0 0x77 [1]) State.reset) = some (.unknownRequest, []) ∧
    requestOf 0x77 [1] = none := ⟨by decide +kernel, rfl⟩
theorem test_wrong_length : answer (after (.ack 0 []) State.reset) = some (.badField, []) := by decide +kernel
theorem test_formed : (after (.responseFormed 0) (after (.mask 0 [1]) State.reset)).port.held =
    some ⟨0x4A, .ok, false, [0, 0xFF, 1]⟩ := by decide +kernel
theorem test_read :
    let t := after (.responseRead 0 72) (after (.responseFormed 0) (after (.mask 0 [1]) State.reset))
    t.port.state = .ready ∧ t.port.dataOut.drop 8 = wireBits (responseBytes 0x4A 0 false [0, 0xFF, 1]) := by decide +kernel
theorem test_read_cut :
    let t := after (.responseRead 0 71) (after (.responseFormed 0) (after (.mask 0 [1]) State.reset))
    t.port.state = .responseHeld ∧ t.port.link = Link.idle ∧
      (t.port.dataOut.drop 8).take 8 = [false, true, false, false, true, false, true, false] := by decide +kernel
theorem test_read_empty : (after (.responseRead 0 48) State.reset).port.dataOut.drop 8 = wireBits (responseBytes 0 0xE0 false []) := by
  decide +kernel
theorem test_msb_first : msbFirst 0x4A = [false, true, false, false, true, false, true, false] ∧
    byteOfBits [true, false, false, false, false, false, true, false] = 0x82 := by decide +kernel
/-- ACK of cause STEP, bit by bit. -/
def ackBits : List Bool := wireBits (requestBytes 0x49 [1])
theorem test_request_bits : answer (after (.badFrame 0 [] ackBits) (State.reset.raise .step)) = some (.ok, [0, 0xFF, 0]) ∧
    ackBits.take 16 = [false, true, false, false, true, false, false, true] ++ List.replicate 7 false ++ [true] := by
  decide +kernel
theorem test_empty_transaction :
    let t := after (.badFrame 0 [] [true, true, true]) State.reset
    t.port.dataOut.length = 3 ∧ t.port.badFrames = 0 ∧ t.port.state = .ready := by decide +kernel
theorem test_data_out_driven :
    let p := State.reset.clockedPort (msbFirst readCode ++ [true])
    p.link.out = some false ∧ p.link.low = true ∧ p.link.reading = some emptyMarker ∧ p.link.bytes = [0xFF] ∧
      p.link.bits = [true] ∧ State.reset.port.link.out = none ∧ p.selectRises.link.out = none := by decide +kernel
theorem witness_cut : ([true] : List Bool) ≠ [] ∧ ([true] : List Bool).length < 8 ∧ (0x49 : Byte) ≠ 0xFF := by decide
theorem witness_link_bits : (State.reset.clockedPort [true, false]).link.bits.length < 7 := by decide +kernel
theorem test_status : answer (after (.status 0 []) { State.reset with newcomers := [⟨3, 47, 77, 1, 0⟩] }) =
    some (.ok, [0, 0, 0, 0, 255, 255, 255, 255, 0, 255, 0, 0, 0, 1, 0, 0, 0, 0, 0, 0, 0, 0]) := by decide +kernel
theorem test_status_line : (answer (after (.status 0 [3]) polling)).map (fun x => x.2.take 4) = some [3, 2, 1, 0] ∧
    answer (after (.status 0 [12]) polling) = some (.badField, []) := by decide +kernel
theorem test_ack : answer (after (.ack 0 [1]) (((State.reset.raise .step).raise .lost))) = some (.ok, [0x20, 5, 0]) := by
  decide +kernel
theorem test_restart :
    let t := after (.restart 0 []) polling
    t.records = [] ∧ (t.line 3).state = .discovering ∧ (t.line 3).cycle = 1 := by decide +kernel
theorem witness_restart_states :
    let go := fun (s : State) => ((after (.restart 12000 []) s).line 3)
    let resting := onLine (fun l => { l with state := .idle, phase := .done, discEnable := false, urgent := [5], cycle := 7 })
    ((go resting).state, (go resting).phase, (go resting).cycle, (go resting).urgent) = (.idle, .done, 1, []) ∧
      (go (onLine (fun l => { l with state := .quiesced, cycle := 7 }))).cycle = 0 ∧
      (go (closing.modLine 3 (fun l => { l with quiesceReq := true }))).state = .quiesced := by decide +kernel
theorem test_restart_cuts :
    let l := (after (.restart 12000 []) closing).line 3
    (closing.line 3).quiesceReq = false ∧ l.state = .discovering ∧ l.tail.map TxFrame.finish = some 22000 ∧
      l.tx.map TxFrame.start = some 22000 ∧ l.txNumber = 42 ∧ l.transaction = none := by decide +kernel
theorem test_restart_off : ((after (.restart 0 []) State.reset).line 3) = State.reset.line 3 := by decide +kernel

/-! ### Records -/

/-- ENROLL of line 5, address 12, base class 2, corrections enabled, threshold 100,000. -/
def enrollBody : List Byte := [5, 12, 2, 1] ++ bytesOf 4 100000 ++ List.replicate 8 0

theorem witness_enroll : enrollBody.length = 16 ∧ field enrollBody 0 1 = 5 ∧ addrOk (field enrollBody 1 1) = true ∧
    enrollOk enrollBody = true ∧ enrollOk ([5, 12, 4, 1] ++ bytesOf 4 100000 ++ List.replicate 8 0) = false := by decide +kernel
theorem test_enroll :
    let s := { polling with newcomers := [⟨5, 12, 0x5A31C007, 2, 0⟩] }
    let t := after (.enroll 0 enrollBody) s
    t.records.map Endpoint.slot = [0, 5] ∧ (t.bySlot 0).map Endpoint.identity = some (some 0x5A31C007) ∧ t.newcomers = [] ∧
      answer t = some (.ok, [0, 0]) := by decide +kernel
theorem test_enroll_exists : answer (after (.enroll 0 enrollBody) (after (.enroll 0 enrollBody) State.reset |>.modPort
    (fun p => { p with state := .ready }))) = some (.exists, []) := by decide +kernel
/-- What a record name names: a slot, or the status of the refusal. -/
def nameOf (s : State) (body : List Byte) : Status × Option Nat :=
  match s.named body with
  | .ok r => (.ok, some r.slot)
  | .error st => (st, none)

theorem witness_named : nameOf polling [0, 3, 9] = (.ok, some 5) ∧ nameOf polling [1, 0, 5] = (.ok, some 5) ∧
    nameOf polling [0, 3, 48] = (.badField, none) ∧ nameOf polling [1, 2, 0] = (.badField, none) ∧
    nameOf polling [2, 0, 0] = (.badField, none) ∧ nameOf polling [0, 3, 47] = (.notFound, none) ∧
    nameOf polling [1, 1, 255] = (.notFound, none) := by decide +kernel
theorem test_lookup : (answer (after (.lookup 0 [1, 0, 5]) polling)).map (fun x => x.2.take 5) = some [0, 5, 3, 9, 1] := by
  decide +kernel
theorem test_lookup_bound :
    (at_ ⟨800101, 500000000⟩ 35 State.reset).errorBound
      { record 17 3 9 .tracking with window := [⟨⟨800100, 250000⟩, 410, 24480⟩] } ⟨800101, 500000000⟩ = 12804 := by decide +kernel
theorem witness_amend : amendOk ([0, 3, 9, 3, 0, 2] ++ List.replicate 8 0) = true ∧
    amendOk ([0, 3, 9, 1, 0, 4] ++ List.replicate 8 0) = false := by decide +kernel
theorem test_amend :
    let s := { polling with records := [{ record 5 3 9 .tracking with cmdSeq := 7, ackSeq := 6, toSend := some ⟨7, .slew, 5⟩ }] }
    ((after (.amend 0 ([0, 3, 9, 3, 0, 2] ++ List.replicate 8 0)) s).bySlot 5).map
      (fun r => (r.baseClass, r.corrEnabled, r.ackSeq, r.toSend)) = some (2, false, 7, none) := by decide +kernel
theorem test_suspend : ((after (.suspend 0 [0, 3, 9]) closing).bySlot 5).map Endpoint.state = some .suspended := by
  decide +kernel
theorem test_suspend_pending :
    let t := after (.suspend 0 [0, 3, 9]) { closing with records := [{ record 5 3 9 .tracking with inTxn := true }] }
    (t.bySlot 5).map (fun r => (r.state, r.withdrawal)) = some (.tracking, .suspend) ∧ answer t = some (.accepted, []) := by
  decide +kernel
theorem test_record_resume :
    ((after (.resume 0 [0, 3, 9]) { closing with records := [record 5 3 9 .suspended] }).bySlot 5).map Endpoint.state =
      some .enrolling ∧ answer (after (.resume 0 [0, 3, 9]) closing) = some (.wrongState, []) := by decide +kernel
theorem test_retire : (after (.retire 0 [0, 3, 9]) closing).records = [] := by decide +kernel
theorem test_member_counts :
    let s := fun st m => ({ closing with records := [record 5 3 9 st] }.modRack 3 (fun r => { r with members := m })).rack 3
    let go := fun c st m => (after c ({ closing with records := [record 5 3 9 st] }.modRack 3
      (fun r => { r with members := m }))).rack 3
    go (.suspend 0 [0, 3, 9]) .tracking ⟨2, 4, 0, 0, 0, 0⟩ = s .tracking ⟨2, 3, 0, 0, 1, 0⟩ ∧
      go (.resume 0 [0, 3, 9]) .suspended ⟨2, 4, 0, 0, 1, 0⟩ = s .tracking ⟨3, 4, 0, 0, 0, 0⟩ ∧
      go (.retire 0 [0, 3, 9]) .tracking ⟨2, 4, 0, 0, 1, 0⟩ = s .tracking ⟨2, 3, 0, 0, 1, 0⟩ := by decide +kernel
theorem test_retire_pending :
    let t := after (.retire 0 [0, 3, 9]) { closing.modLine 3 (fun l => { l with pollList := [5, 6, 5], urgent := [5, 6] }) with
      records := [{ record 5 3 9 .tracking with inTxn := true }] }
    (t.bySlot 5).map Endpoint.state = some .retiring ∧ (t.line 3).pollList = [5, 6] ∧ (t.line 3).urgent = [6] := by
  decide +kernel
theorem test_retire_suspending :
    let s := { closing.modLine 3 (fun l => { l with urgent := [6] }) with
      records := [{ record 5 3 9 .tracking with inTxn := true, withdrawal := .suspend }] }
    let t := after (.retire 0 [0, 3, 9]) s
    (t.bySlot 5).map (fun r => (r.state, r.withdrawal)) = some (.retiring, .retire) ∧ t.line 3 = s.line 3 := by decide +kernel
theorem test_scan : answer (after (.scan 0 [2, 255, 0, 5]) polling) = some (.ok, [1, 0, 5, 3, 9, 1, 255, 255]) ∧
    answer (after (.scan 0 [0, 255, 0, 5]) polling) = some (.badField, []) := by decide +kernel
theorem test_newcomers : answer (after (.newcomers 0 []) { State.reset with newcomers := [⟨3, 47, 77, 1, 0⟩], overflow := true }) =
    some (.ok, [1, 3, 47, 0, 0, 0, 77, 1, 0, 0, 0, 0, 0, 0, 1]) := by decide +kernel
theorem test_dismiss : (after (.dismiss 0 [3, 47]) { State.reset with newcomers := [⟨3, 47, 77, 1, 0⟩] }).newcomers = [] ∧
    answer (after (.dismiss 0 [3, 47]) State.reset) = some (.notFound, []) ∧
    answer (after (.dismiss 0 [3, 48]) State.reset) = some (.badField, []) := by decide +kernel

/-! ### Domains -/

/-- Rack 2 in ALARM, with domains 12 and 20. -/
def fenced : State := { State.reset.modRack 2 (fun r => { r with watch := .alarm }) with
  domains := [{ dom 12 5000 .freezeDomain 0x00C with state := .frozen, cause := some (.rack 2) },
    { dom 20 20000 .refuseRack 0x084 with pendingDel := 1 }, dom 31 50000 .off 4] }

theorem fenced_takes : fenced.TakesFrames := ⟨rfl, by decide⟩
theorem witness_domains : fenced.domain 12 ≠ none ∧ fenced.domain 20 ≠ none ∧ fenced.inAlarm 2 = true ∧
    fenced.inAlarm 3 = false := by decide +kernel
theorem test_domain_open :
    let t := after (.domainOpen 0 [7, 0, 0, 0, 100, 2, 0, 0x0C]) fenced
    (t.domain 7).map (fun d => (d.state, d.cause)) = some (.frozen, some (.rack 2)) ∧ answer t = some (.ok, [1]) ∧
      answer (after (.domainOpen 0 [12, 0, 0, 0, 100, 2, 0, 0x0C]) fenced) = some (.exists, []) := by decide +kernel
theorem test_domain_open_refused : answer (after (.domainOpen 0 [7, 0, 0, 0, 99, 2, 0, 0x0C]) fenced) = some (.badField, []) ∧
    answer (after (.domainOpen 0 [7, 0, 0, 0, 100, 3, 0, 0x0C]) fenced) = some (.badField, []) ∧
    answer (after (.domainOpen 0 [7, 0, 0, 0, 100, 2, 16, 0]) fenced) = some (.badField, []) := by decide +kernel
theorem test_domain_amend :
    let t := after (.domainAmend 0 [31, 2, 0, 0, 0, 0, 2, 0, 0]) fenced
    (t.domain 31).map (fun d => (d.state, d.cause)) = some (.frozen, some (.rack 2)) ∧ answer t = some (.ok, [1]) := by
  decide +kernel
theorem test_domain_freeze : ((after (.domainFreeze 0 [31]) fenced).domain 31).map Domain.cause = some (some .host) ∧
    ((after (.domainFreeze 0 [12]) fenced).domain 12).map Domain.cause = some (some (.rack 2)) := by decide +kernel
theorem test_domain_thaw : answer (after (.domainThaw 0 [12]) fenced) = some (.wrongState, []) ∧
    ((after (.domainThaw 0 [12]) (fenced.modRack 2 (fun r => { r with watch := .watch }))).domain 12).map Domain.state =
      some .opened := by decide +kernel
theorem test_domain_retire : answer (after (.domainRetire 0 [20]) fenced) = some (.accepted, []) ∧
    (after (.domainRetire 0 [31]) fenced).domain 31 = none ∧
    answer (after (.domainRetire 0 [0]) fenced) = some (.badField, []) := by decide +kernel
theorem test_domain_lookup : answer (after (.domainLookup 0 [12]) fenced) = some (.ok,
    [12, 1, 0x12, 0, 0, 0x13, 0x88, 2, 0, 0x0C] ++ List.replicate 11 0 ++ List.replicate 18 0 ++ [0, 0, 4]) := by decide +kernel
theorem test_stamp_order : answer (after (.stamp 0 [12, 0]) fenced) = some (.ok, [1, 12]) ∧
    answer (after (.stamp 0 [0, 1]) fenced) = some (.ok, [2, 0]) ∧ answer (after (.stamp 0 [12, 16]) fenced) = some (.ok, [4, 12]) ∧
    answer (after (.stamp 0 [20, 17]) fenced) = some (.ok, [1, 20]) := by decide +kernel
theorem test_line_stamp :
    let s := { polling with
      domains := [dom 12 20000 .off 8]
      clk := { polling.clk with u := 35, row := ⟨100, 400000⟩ } }
    let t := after (.replyHandoff 3 0 [true])
      (s.modLine 3 (awaiting ⟨⟨100, 354500⟩, 0⟩ (chars (askBytes ⟨100, 262250⟩ ⟨100, 342250⟩ 12 4))))
    (t.bySlot 5).map Endpoint.answer = some (some (.grant ⟨12, 0, ⟨100, 354500⟩, 4, 12785, false⟩)) ∧
      t.domains.map Domain.pendingDel = [1] := by decide +kernel

/-! ### Racks -/

/-- RACK_CONFIG that enables the watch of rack 6. -/
def watch6 : List Byte := [6, 0, 1, 1] ++ List.replicate 22 0

theorem witness_rack_config : watch6.length = 26 ∧ field watch6 0 1 = 6 ∧ rackConfigRanges watch6 = true ∧
    (State.reset.rack 6).watch = .off ∧
    rackConfigRanges ([6, 4, 0, 0] ++ List.replicate 20 0 ++ [0, 0]) = false := by decide +kernel
theorem test_rack_config : ((after (.rackConfig 0 watch6) State.reset).rack 6).watch = .quiet ∧
    (after (.rackConfig 0 watch6) State.reset).port.isPending .rack = true := by decide +kernel
theorem test_rack_order : answer (after (.rackConfig 0 ([6, 0, 8, 0, 0, 0, 0, 200] ++ List.replicate 18 0)) State.reset) =
    some (.badField, []) := by decide +kernel
theorem test_rack_lookup : ((after (.rackLookup 0 [6]) (watched [] (fun r => { r with changed := true }))).rack 6).changed = false :=
  rfl
theorem test_rack_clear : ((after (.rackClear 0 [2]) fenced).rack 2).watch = .watch ∧
    ((after (.rackClear 0 [2]) fenced).domain 12).map Domain.state = some .frozen ∧
    answer (after (.rackClear 0 [3]) fenced) = some (.wrongState, []) := by decide +kernel
theorem test_rebase :
    let t := after (.rackRebase 0 [6]) { State.reset with records := [drifting 80 (-380), record 81 6 81 .lost] }
    t.records.map Endpoint.baseline = [some (-380), none] ∧ answer t = some (.ok, [1]) := by decide +kernel
theorem test_rack_disable :
    let t := after (.rackConfig 0 ([2, 0, 1, 0] ++ List.replicate 22 0)) fenced
    (t.rack 2).watch = .off ∧ (t.rack 2).changed = true ∧ (t.domain 12).map Domain.state = some .frozen := by decide +kernel
theorem witness_rebase : State.SlotsRise { State.reset with records := [drifting 80 (-380), record 81 6 81 .lost] } :=
  ⟨by decide +kernel, by decide +kernel⟩

/-! ### More forms that the statements speak of -/

/-- A RETIRING domain 20 with one delivery pending. -/
def ending : State := { State.reset with domains := [{ dom 20 20000 .refuseRack 0x084 with state := .retiring, pendingDel := 1 }] }

theorem test_retiring_domain : answer (after (.domainFreeze 0 [20]) ending) = some (.wrongState, []) ∧
    answer (after (.domainThaw 0 [20]) ending) = some (.wrongState, []) ∧
    answer (after (.domainRetire 0 [20]) ending) = some (.wrongState, []) ∧
    answer (after (.domainAmend 0 [20, 0, 0, 0, 0, 0, 0, 0, 0]) ending) = some (.wrongState, []) ∧
    answer (after (.stamp 0 [20, 1]) ending) = some (.ok, [3, 20]) := by decide +kernel
theorem witness_domain_amend_range : domainAmendOk [31, 2, 0, 0, 0, 0, 3, 0, 0] = false ∧
    domainAmendOk [31, 8, 0, 0, 0, 0, 0, 0, 0] = false ∧ domainAmendOk [31, 0, 9, 9, 9, 9, 9, 9, 9] = true := by decide +kernel
theorem test_miss_retires :
    let s := { polling with records := [{ record 5 3 9 .retiring with withdrawal := .retire, inTxn := true }] }
    (after (.replyWindowEnd 3) s).records = [] := by decide +kernel
theorem test_miss_suspends :
    let s := { polling with records := [{ record 5 3 9 .tracking with withdrawal := .suspend, inTxn := true }] }
    ((after (.replyWindowEnd 3) s).bySlot 5).map (fun r => (r.state, r.withdrawal, r.missCount)) =
      some (.suspended, .no, 1) := by decide +kernel

/-! ### States that have the invariants -/

/-- The part with one record enrolled and the request answered. -/
def enrolled : State := after (.responseFormed 0) (after (.enroll 0 enrollBody) State.reset)

theorem enrolled_rises : enrolled.SlotsRise := ⟨by decide +kernel, by decide +kernel⟩
theorem enrolled_keys : enrolled.KeysDiffer := by unfold State.KeysDiffer; decide +kernel
theorem enrolled_apart : enrolled.NewcomersApart := ⟨by decide +kernel, by decide +kernel, by decide +kernel⟩
theorem enrolled_counts : enrolled.CountsAgree := by
  intro i st
  cases st <;> revert i <;> decide +kernel
theorem enrolled_walk : enrolled.WalkInside := by unfold State.WalkInside; decide +kernel
theorem enrolled_sequences : enrolled.SequencesClose := by unfold State.SequencesClose; decide +kernel
theorem enrolled_port : enrolled.PortHolds := ⟨by decide +kernel, by decide +kernel, by decide +kernel⟩
theorem fenced_ids : fenced.IdsDiffer := by unfold State.IdsDiffer; decide +kernel
theorem fenced_holds : fenced.FenceHolds := by unfold State.FenceHolds; decide +kernel
theorem locked_in_range : locked.ClockInRange :=
  ⟨⟨⟨by decide, by decide⟩, by decide, by decide, by decide, by decide, by decide, by decide, by decide, by decide, by decide⟩,
    ⟨by decide, by decide, by decide, by decide⟩, ⟨by decide, by decide, by decide, by decide⟩⟩
theorem locked_held : locked.RefHeld := ⟨by decide, fun _ => ⟨.a, rfl, rfl⟩⟩
theorem witness_stamps_step :
    let s := (domain40 ⟨900004, 2650003⟩).withCommand (.stamp 0 [40, 2])
    (s.domain 40).map Domain.lastIssued = some (some ⟨900004, 2650003⟩) ∧ s.pending.length = 1 := by decide +kernel

/-! ### Clauses that the statements hold apart -/

/-- t1 of line 3 to be captured at local time 500. -/
def capturing : State := { State.reset with latches := State.reset.latches.set 3 ⟨some 500, edge0⟩ }

theorem witness_capture : capturing.latches[(3 : Fin 12)].due = some 500 ∧ capturing.localNs ≤ 500 ∧
    (capturing.advance 900).latches[(3 : Fin 12)] = ⟨none, ⟨⟨0, 500⟩, 0⟩⟩ ∧
    (capturing.advance 499).latches[(3 : Fin 12)] = ⟨some 500, edge0⟩ := by decide +kernel

/-- `locked` before its clock has a reference: A needs one more good second. -/
def qualifying (st : ClockState) : State := { locked with
  chanA := { locked.chanA with state := .qualifying, good := 3 }
  clk := { locked.clk with state := st, selected := none } }

theorem qualifying_held : (qualifying .freerun).RefHeld ∧ (qualifying .holdover).RefHeld :=
  ⟨⟨by decide, by decide⟩, ⟨by decide, by decide⟩⟩
theorem test_gained : (after (.ppsEdge .a 0) (qualifying .freerun)).clk.state = .acquiring ∧
    (after (.ppsEdge .a 0) (qualifying .holdover)).clk.origin = .holdover := by decide +kernel
theorem test_lost_by_edge : (after (.ppsEdge .a 60000) locked).clk.state = .holdover := by decide +kernel

/-- LOCKED on B, where A is preferred and QUALIFIED too. -/
def onOther : State := { locked with
  chanB := { locked.chanA with held := none }, clk := { locked.clk with selected := some .b, revertive := true } }

theorem test_unselected_edge : (onOther.chan .a).state = .qualified ∧ onOther.clk.selected ≠ some .a ∧
    ((after (.ppsEdge .a 0) onOther).chan .a).state = .qualified ∧ (after (.ppsEdge .a 0) onOther).clk = onOther.clk := by
  decide +kernel
theorem onOther_held : onOther.RefHeld := ⟨by decide, fun _ => ⟨.b, rfl, rfl⟩⟩
theorem test_revert : (after (.refConfig 0 [8, 4, 0, 0, 0, 0, 0, 0, 0]) onOther).clk.selected = some .a ∧
    (after (.refConfig 0 [4, 0, 1, 0, 0, 0, 0, 0, 0]) onOther).clk.selected = some .a ∧
    (after (.refConfig 0 [0, 0, 0, 0, 0, 0, 0, 0, 0]) onOther).clk.selected = some .b ∧
    (after (.refConfig 0 [8, 0, 0, 0, 0, 0, 0, 0, 0]) onOther).clk.selected = some .b := by decide +kernel
theorem witness_ref_changed : onOther.RefChanged (after (.refConfig 0 [8, 4, 0, 0, 0, 0, 0, 0, 0]) onOther) ∧
    ¬onOther.RefChanged (after (.refConfig 0 [16, 0, 0, 0, 0, 1, 0, 0, 0]) onOther) := by
  unfold State.RefChanged
  decide +kernel
theorem test_ref_cause : (after (.refConfig 0 [8, 4, 0, 0, 0, 0, 0, 0, 0]) onOther).port.isPending .ref = true ∧
    (after (.refConfig 0 [16, 0, 0, 0, 0, 1, 0, 0, 0]) onOther).port.causes = onOther.port.causes := by decide +kernel
theorem test_disable_selected : (after (.refConfig 0 [2, 0, 0, 0, 0, 0, 0, 0, 0]) onOther).clk.selected = some .a ∧
    (after (.refConfig 0 [1, 0, 0, 0, 0, 0, 0, 0, 0]) locked).clk.state = .holdover := by decide +kernel
theorem test_step_keeps_records :
    let t := after (.setTime 0 [0, 0, 0, 0, 1, 0]) { State.reset with records := [record 5 3 9 .tracking, record 6 3 8 .lost] }
    t.records.map (fun r => (r.slot, r.state)) = [(5, .enrolling), (6, .lost)] := by decide +kernel
theorem test_no_line : answer (after (.lineConfig 0 (12 :: enable3.tail)) State.reset) = some (.badField, []) ∧
    answer (after (.lineQuiesce 0 [12]) State.reset) = some (.badField, []) ∧
    answer (after (.lineResume 0 [12]) State.reset) = some (.badField, []) ∧
    answer (after (.lineReset 0 [12]) State.reset) = some (.badField, []) := by decide +kernel
theorem test_line_rate :
    let t := after (.lineConfig 0 ([3, 0, 3, 1, 2] ++ List.replicate 17 0)) State.reset
    (t.line 3).rate = (t.line 3).cfgRate ∧ (t.line 3).rate ≠ (State.reset.line 3).rate := by decide +kernel
theorem test_reset_urgent :
    ((after (.lineReset 0 [3]) (closing.modLine 3 (fun l => { l with urgent := [5] }))).line 3).urgent = [] := by decide +kernel
theorem test_transmits :
    let l := { (closing.line 3) with tx := some ⟨[9, 0x31, 5, 42, 1], 1000, 56000⟩ }
    l.transmits 999 = none ∧ l.transmits 1000 = some false ∧ l.transmits 10000 = some true ∧ l.transmits 56000 = none := by
  decide +kernel
/-- A line that has sent one character of five, and 1000 ns of the second. -/
def midFrame : Line := { closing.line 3 with tx := some ⟨[9, 0x31, 5, 42, 1], 0, 55000⟩ }

theorem witness_cut_off : midFrame.CutOff 12000 (some ⟨[9, 0x31], 0, 22000⟩) ∧ (midFrame.hush 12000).tx = none ∧
    (midFrame.hush 12000).tail = some ⟨[9, 0x31], 0, 22000⟩ ∧ 55000 = 0 + 5 * (11 * midFrame.rate.bitNs) ∧
    22000 = 0 + ((12000 - 0) / (11 * midFrame.rate.bitNs) + 1) * (11 * midFrame.rate.bitNs) :=
  ⟨cutTail_cutOff 12000 midFrame, rfl, by decide +kernel, by decide +kernel, by decide +kernel⟩
theorem test_cut_goes_out : let n := midFrame.hush 12000
    n.driverEnabled 21999 = true ∧ n.transmits 21999 = some true ∧ n.transmits 12000 = midFrame.transmits 12000 ∧
      n.driverEnabled 22000 = false ∧ n.transmits 22000 = none ∧ midFrame.driverEnabled 22000 = true := by decide +kernel
theorem test_cut_before_next :
    let s := discovering.modLine 3 (fun l => { l with rxOpen := false, windowEnd := none, tx := some ⟨discoverFrame 1000, 0, 55000⟩ })
    let t := after (.lineReset 3000 [3]) s
    (t.line 3).tail = some ⟨[0], 0, 11000⟩ ∧ (t.line 3).tx.map TxFrame.start = some 11000 ∧
      t.latches[(3 : Fin 12)].due = some 11000 := by decide +kernel
theorem test_want_poll :
    let s := hearing replyEdge (chars (sealFrame 9 ([0x32, 26, 42, 0x36] ++ timeBytes ⟨100, 262680⟩ ++ timeBytes ⟨100, 342680⟩)))
    ((after (.replyHandoff 3 0 [true]) s).line 3).urgent = [5] := by decide +kernel
theorem test_refused_line_stamp :
    let s := { hearing replyEdge (chars (askBytes ⟨100, 262680⟩ ⟨100, 342680⟩ 12 17)) with domains := [dom 12 20000 .off 8] }
    let t := after (.replyHandoff 3 0 [true]) s
    (t.bySlot 5).map Endpoint.answer = some (some (.refusal 12 .badCount)) ∧ t.domains.map Domain.refusals = [1] := by
  decide +kernel

/-- `closing` with a grant pending. -/
def granted : State := { closing with
  records := [{ record 5 3 9 .tracking with answer := some (.grant grant20), inTxn := true }]
  domains := [{ dom 20 20000 .refuseRack 8 with pendingDel := 1 }] }

theorem test_fault_burns_and_freezes :
    let s := { (granted.modLine 3 (fun l => { l with faultWatch := some 351 })).modRack 3 (fun r => { r with watch := .quiet }) with
      domains := [{ dom 20 20000 .freezeDomain 8 with pendingDel := 1 }, dom 21 20000 .freezeDomain 4] }
    let t := after (.lineFault 3 ⟨0, [false]⟩) s
    t.domains.map (fun d => (d.state, d.cause, d.pendingDel, d.burned)) =
        [(.frozen, some (.rack 3), 0, 4), (.opened, none, 0, 0)] ∧
      t.port.isPending .domain = true ∧ t.rack 4 = s.rack 4 ∧ t.line 4 = s.line 4 := by decide +kernel
theorem witness_granted : (∀ b, ¬(granted.accepting 0 1).BegunNow 3 b) ∧ granted.TakesFrames ∧
    (granted.line 3).transaction = some txn ∧ (granted.bySlot 5).map Endpoint.answer = some (some (.grant grant20)) :=
  ⟨not_begun (by decide +kernel), ⟨rfl, nofun⟩, by decide +kernel, by decide +kernel⟩
theorem granted_subjects : ∀ i, granted.SubjectHeld i := by
  have h : ∀ i : Fin 12, (∀ x, (granted.line i).transaction = some x → i = 3 ∧ x = txn) ∧
      ((granted.line i).pollList.drop (granted.line i).pollPos = [] ∧ (granted.line i).urgent = []) ∧
      (i ≠ 3 → (granted.line i).pollList = []) ∧ (granted.line i).recoveryWatch = none := by decide +kernel
  intro i
  obtain ⟨subject, ⟨polled, urgent⟩, other, recovery⟩ := h i
  refine ⟨fun x hx => ?_, by simp [polled, urgent], fun rest => ?_, by simp [recovery]⟩
  · obtain ⟨rfl, rfl⟩ := subject x hx
    exact ⟨Or.inr (by decide +kernel), by decide +kernel, _, List.mem_singleton.2 rfl, rfl, rfl, rfl⟩
  · by_cases h3 : i = 3
    · subst h3
      revert rest
      decide +kernel
    · exact other h3
theorem granted_answers : granted.AnswersHeld :=
  ⟨by decide +kernel, by
    intro r hr g hg
    cases List.mem_singleton.1 hr
    cases hg
    exact ⟨_, List.mem_singleton.2 rfl, rfl⟩⟩
theorem granted_deliveries : granted.DeliveriesAgree := by unfold State.DeliveriesAgree; decide +kernel
theorem granted_rises : granted.SlotsRise ∧ granted.IdsDiffer :=
  ⟨⟨by decide +kernel, by decide +kernel⟩, by unfold State.IdsDiffer; decide +kernel⟩

end Sys2Proof.Tests
end

/-! SUPPORT. READ_TIME (R25): its request comes to its owning block, and the row clock it answers with is the clock of its
acceptance, of which time has changed row time, the applied rate and U alone. -/

namespace Sys2Proof.Machine

open Sys2Proof

theorem exec_readTime (dt : Nat) (body : List Byte) (s : State) :
    exec (.readTime dt body) s = .next ((s.advance dt).request 0x12 [0] body readTimeBlock) := rfl

/-- The owning block answers with the clock's 36 bytes, and leaves the part as it was at the acceptance (R25). -/
theorem form_readTimeBlock (s : State) : State.form 0x12 (readTimeBlock s) = s.answering 0x12 .ok s.clk.body :=
  form_answering 0x12 (readTimeBlock s)

/-- READ_TIME with an empty body is taken in every clock state, and answered with the clock at its acceptance (R25, R176). -/
theorem exec_readTime_taken {s : State} (frames : s.TakesFrames) (dt : Nat) :
    exec (.readTime dt []) s = .next ((s.accepting dt 0).answering 0x12 .ok (s.advance dt).clk.body) := by
  have taken := request_taken frames (code := 0x12) (by decide) dt [0] [] readTimeBlock (by simp) (by simp)
  rw [exec_readTime, taken, form_readTimeBlock, accepting_clk, List.length_nil]

/-- What READ_TIME reads after some time: row time, U and the applied rate as time has left them, and every other field as it
stood before (R7, R9, R10, R21, R25). -/
theorem advance_clk_body (d : Nat) (s : State) :
    (s.advance d).clk.body =
      timeBytes (s.advance d).clk.row ++ bytesOf 2 s.clk.epoch.toNat ++ byte1 s.clk.state.value
        ++ byte1 (refValue s.clk.selected) ++ bytesOf 4 (s.advance d).clk.u ++ signedBytes 4 s.clk.integral
        ++ signedBytes 4 (s.advance d).clk.applied ++ bytesOf 4 s.clk.entryValue ++ bytesOf 6 s.clk.entrySec := by
  obtain ⟨row, applied, u, flowed⟩ := advance_clk d s
  rw [flowed]
  rfl

/-- Settles O15: the request is taken, and of what it reads time changes row time, U and the applied rate alone. The values
of 10.5 that the statement writes out for the clock state and the reference are those of `ClockState.value` and `refValue`. -/
theorem readTimeAnswersTheClock : Obligations.ReadTimeAnswersTheClock := by
  intro dt s frames
  rw [exec_readTime_taken frames, advance_clk_body]
  rfl

end Sys2Proof.Machine

/-! SUPPORT. SCAN (R92): when its body is in range, which records it lists, and the next slot it answers. -/

namespace Sys2Proof.Machine

open Sys2Proof

/-- A SCAN body that the owning block refuses: an empty or unknown state set, a line above 11 that is not *any*, or a start
slot above 511 (R92, R191). -/
def ScanOutOfRange (body : List Byte) : Prop :=
  field body 0 1 = 0 ∨ 63 < field body 0 1 ∨ 11 < field body 1 1 ∧ field body 1 1 ≠ 255 ∨ 511 < field body 2 2

theorem exec_scan (dt : Nat) (body : List Byte) (s : State) :
    exec (.scan dt body) s = .next ((s.advance dt).request 0x28 [4] body (scanBlock body)) := rfl

/-- A SCAN body of four bytes is its owning block's, on the part at the acceptance (R176). -/
theorem exec_scan_taken {s : State} (frames : s.TakesFrames) (dt : Nat) {body : List Byte} (len : body.length = 4) :
    exec (.scan dt body) s = .next (State.form 0x28 (scanBlock body (s.accepting dt 4))) := by
  rw [exec_scan, request_taken frames (by decide) dt [4] body (scanBlock body) (by simp [len]) (by omega), len]

theorem scanBlock_outOfRange {body : List Byte} (out : ScanOutOfRange body) (s : State) :
    scanBlock body s = refuse .badField s := by
  unfold ScanOutOfRange at out
  refine if_neg ?_
  simp only [within, Bool.and_eq_true, Bool.or_eq_true, decide_eq_true_eq, beq_iff_eq]
  omega

theorem scanBlock_inRange {body : List Byte} (ok : ¬ScanOutOfRange body) (s : State) :
    scanBlock body s = (s, .ok, byte1 (s.scanned body).length
      ++ (s.scanned body).flatMap (fun r => bytesOf 2 r.slot ++ byte1 r.line.val ++ byte1 r.addr ++ byte1 r.state.value)
      ++ bytesOf 2 (nextSlot (s.scanned body))) := by
  unfold ScanOutOfRange at ok
  refine if_pos ?_
  simp only [within, Bool.and_eq_true, Bool.or_eq_true, decide_eq_true_eq, beq_iff_eq]
  omega

/-- Time and the port change no record, so SCAN lists at the acceptance what the table held before it. -/
@[simp] theorem accepting_scanned (dt n : Nat) (s : State) (body : List Byte) :
    (s.accepting dt n).scanned body = s.scanned body := by
  unfold State.scanned
  rw [accepting_records]

/-- The test that SCAN makes of a record, in the words of R92. -/
theorem scanned_eq (s : State) (body : List Byte) :
    s.scanned body = (s.records.filter (fun r => decide (field body 2 2 ≤ r.slot ∧
      (field body 0 1).testBit r.state.value = true ∧ (field body 1 1 = 255 ∨ field body 1 1 = r.line.val)))).take 8 := by
  unfold State.scanned
  refine congrArg (List.take 8) (List.filter_congr fun r _ => ?_)
  rw [Bool.eq_iff_iff]
  simp only [Bool.and_eq_true, Bool.or_eq_true, decide_eq_true_eq, beq_iff_eq, and_assoc]

theorem scanned_length_le (s : State) (body : List Byte) : (s.scanned body).length ≤ 8 := List.length_take_le 8 _

/-- SCAN keeps the order of the table. -/
theorem scanned_rises {s : State} (rises : s.SlotsRise) (body : List Byte) :
    (s.scanned body).Pairwise (fun a b => a.slot < b.slot) := (rises.1.filter _).take

/-- With an eighth record listed, the next slot is the one after it, unless it is the last slot of the table (R92). -/
theorem nextSlot_of_eighth {rs : List Endpoint} {r : Endpoint} (most : rs.length ≤ 8) (eighth : rs[7]? = some r) :
    nextSlot rs = if r.slot < 511 then r.slot + 1 else 65535 := by
  obtain ⟨more, -⟩ := List.getElem?_eq_some_iff.1 eighth
  have full : rs.length = 8 := by omega
  have last : rs.getLast? = some r := by rw [List.getLast?_eq_getElem?, full, eighth]
  simp [nextSlot, last, full]

/-- With fewer than eight records listed, slot 511 has been examined, and the next slot is *end* (R92). -/
theorem nextSlot_of_fewer {rs : List Endpoint} (fewer : rs[7]? = none) : nextSlot rs = 65535 := by
  have short : rs.length ≠ 8 := by
    have := List.getElem?_eq_none_iff.1 fewer
    omega
  unfold nextSlot
  split
  · exact if_neg fun both => short both.1
  · rfl

/-- Settles O46: the request is taken, and its block tests the fields of the body, lists the records and finds the next slot
as R92 says. Both answers leave the part as it was at the acceptance. -/
theorem scanListsBySlot : Obligations.ScanListsBySlot := by
  intro dt body s frames len
  rw [exec_scan_taken frames dt len]
  refine ⟨fun out => ?_, fun rs states line start listed => ?_⟩
  · rw [scanBlock_outOfRange out]
    rfl
  · have ok : ¬ScanOutOfRange body := by
      unfold ScanOutOfRange
      omega
    rw [← scanned_eq] at listed
    subst listed
    refine ⟨fun rises => scanned_rises rises body, ?_⟩
    rw [scanBlock_inRange ok, form_answering, accepting_scanned]
    cases eighth : (s.scanned body)[7]? with
    | none =>
      rw [nextSlot_of_fewer eighth]
      rfl
    | some r =>
      rw [nextSlot_of_eighth (scanned_length_le s body) eighth]
      rfl

end Sys2Proof.Machine

/-! SUPPORT. DOMAIN_AMEND, DOMAIN_FREEZE, DOMAIN_THAW, DOMAIN_RETIRE and DOMAIN_LOOKUP (R122, R125 to R127, R129): how they find
the domain that they name, what the owning block does with it in each domain state, and what DOMAIN_LOOKUP answers. -/

namespace Sys2Proof.Machine

open Sys2Proof

/-! ### The domain that a request names (R122) -/

theorem namedDomain_zero (s : State) (rest : List Byte) : s.namedDomain (0 :: rest) = .error .badField := rfl

/-- A domain id other than 0 is looked up in the table (R122). -/
theorem namedDomain_nonzero {b : Byte} (nonzero : b ≠ 0) (s : State) (rest : List Byte) :
    s.namedDomain (b :: rest) = (s.domain b).elim (.error .notFound) .ok := by
  have first : field (b :: rest) 0 1 = b.toNat := field_byte (b :: rest) 0
  have present : b.toNat ≠ 0 := fun zero => nonzero (BitVec.eq_of_toNat_eq zero)
  unfold State.namedDomain
  rw [first, if_neg present, BitVec.ofNat_toNat, BitVec.setWidth_eq]
  cases s.domain b <;> rfl

theorem namedDomain_found {s : State} {b : Byte} {d : Domain} (nonzero : b ≠ 0) (found : s.domain b = some d)
    (rest : List Byte) : s.namedDomain (b :: rest) = .ok d := by
  rw [namedDomain_nonzero nonzero, found, Option.elim_some]

theorem namedDomain_missing {s : State} {b : Byte} (nonzero : b ≠ 0) (missing : ∀ d ∈ s.domains, d.id ≠ b)
    (rest : List Byte) : s.namedDomain (b :: rest) = .error .notFound := by
  have none : s.domain b = none := List.find?_eq_none.2 fun d held same => missing d held (beq_iff_eq.1 same)
  rw [namedDomain_nonzero nonzero, none, Option.elim_none]

/-! ### The requests at their owning blocks (R176) -/

theorem exec_domainAmend_taken {s : State} (frames : s.TakesFrames) (dt : Nat) {body : List Byte} (len : body.length = 9) :
    exec (.domainAmend dt body) s = .next (State.form 0x31 (domainAmendBlock body (s.accepting dt 9))) := by
  show Host.Outcome.next ((s.advance dt).request 0x31 [9] body (domainAmendBlock body)) = _
  rw [request_taken frames (by decide) dt [9] body _ (by simp [len]) (by omega), len]

theorem exec_domainFreeze_taken {s : State} (frames : s.TakesFrames) (dt : Nat) (b : Byte) :
    exec (.domainFreeze dt [b]) s = .next (State.form 0x32 (domainFreezeBlock [b] (s.accepting dt 1))) :=
  congrArg _ (request_taken frames (by decide) dt [1] [b] (domainFreezeBlock [b]) (by simp) (by simp))

theorem exec_domainThaw_taken {s : State} (frames : s.TakesFrames) (dt : Nat) (b : Byte) :
    exec (.domainThaw dt [b]) s = .next (State.form 0x33 (domainThawBlock [b] (s.accepting dt 1))) :=
  congrArg _ (request_taken frames (by decide) dt [1] [b] (domainThawBlock [b]) (by simp) (by simp))

theorem exec_domainRetire_taken {s : State} (frames : s.TakesFrames) (dt : Nat) (b : Byte) :
    exec (.domainRetire dt [b]) s = .next (State.form 0x34 (domainRetireBlock [b] (s.accepting dt 1))) :=
  congrArg _ (request_taken frames (by decide) dt [1] [b] (domainRetireBlock [b]) (by simp) (by simp))

theorem exec_domainLookup_taken {s : State} (frames : s.TakesFrames) (dt : Nat) (b : Byte) :
    exec (.domainLookup dt [b]) s = .next (State.form 0x35 (domainLookupBlock [b] (s.accepting dt 1))) :=
  congrArg _ (request_taken frames (by decide) dt [1] [b] (domainLookupBlock [b]) (by simp) (by simp))

/-! ### A block that names no domain refuses (R122) -/

section unnamed

variable {s : State} {body : List Byte} {st : Status} (unnamed : s.namedDomain body = .error st)
include unnamed

theorem domainAmendBlock_unnamed : domainAmendBlock body s = refuse st s := by
  unfold domainAmendBlock
  rw [unnamed]

theorem domainFreezeBlock_unnamed : domainFreezeBlock body s = refuse st s := by
  unfold domainFreezeBlock
  rw [unnamed]

theorem domainThawBlock_unnamed : domainThawBlock body s = refuse st s := by
  unfold domainThawBlock
  rw [unnamed]

theorem domainRetireBlock_unnamed : domainRetireBlock body s = refuse st s := by
  unfold domainRetireBlock
  rw [unnamed]

theorem domainLookupBlock_unnamed : domainLookupBlock body s = refuse st s := by
  unfold domainLookupBlock
  rw [unnamed]

end unnamed

/-! ### What a block does with the domain it names (R125 to R127, R129) -/

section named

variable {s : State} {body : List Byte} {d : Domain} (named : s.namedDomain body = .ok d)
include named

theorem domainFreezeBlock_opened (st : d.state = .opened) : domainFreezeBlock body s =
    (s.modDomain d.id (fun d => { d with state := .frozen, cause := some .host }), .ok, []) := by
  simp only [domainFreezeBlock, named, st]

theorem domainFreezeBlock_frozen (st : d.state = .frozen) : domainFreezeBlock body s = (s, .ok, []) := by
  simp only [domainFreezeBlock, named, st]

theorem domainFreezeBlock_retiring (st : d.state = .retiring) : domainFreezeBlock body s = refuse .wrongState s := by
  simp only [domainFreezeBlock, named, st]

theorem domainThawBlock_fenced (st : d.state = .frozen) (fenced : d.fence = .freezeDomain ∧ s.alarmedOf d.members ≠ []) :
    domainThawBlock body s = refuse .wrongState s := by
  simp only [domainThawBlock, named, st, if_pos fenced]

theorem domainThawBlock_frozen (st : d.state = .frozen) (free : ¬(d.fence = .freezeDomain ∧ s.alarmedOf d.members ≠ [])) :
    domainThawBlock body s = (s.modDomain d.id (fun d => { d with state := .opened, cause := none }), .ok, []) := by
  simp only [domainThawBlock, named, st, if_neg free]

theorem domainThawBlock_opened (st : d.state = .opened) : domainThawBlock body s = (s, .ok, []) := by
  simp only [domainThawBlock, named, st]

theorem domainThawBlock_retiring (st : d.state = .retiring) : domainThawBlock body s = refuse .wrongState s := by
  simp only [domainThawBlock, named, st]

theorem domainRetireBlock_idle (st : d.state ≠ .retiring) (idle : d.pendingDel = 0) :
    domainRetireBlock body s = (s.dropDomain d.id, .ok, []) := by
  simp only [domainRetireBlock, named, if_neg st, if_pos idle]

theorem domainRetireBlock_delivering (st : d.state ≠ .retiring) (delivering : d.pendingDel ≠ 0) : domainRetireBlock body s =
    (s.modDomain d.id (fun d => { d with state := .retiring, cause := none }), .accepted, []) := by
  simp only [domainRetireBlock, named, if_neg st, if_neg delivering]

theorem domainRetireBlock_retiring (st : d.state = .retiring) : domainRetireBlock body s = refuse .wrongState s := by
  simp only [domainRetireBlock, named, if_pos st]

theorem domainLookupBlock_named : domainLookupBlock body s = (s, .ok, s.domainBody d) := by
  simp only [domainLookupBlock, named]

end named

/-- Time and the port change no domain, so dropping one at the acceptance leaves the table without it. -/
theorem accepting_dropDomain (dt n : Nat) (s : State) (id : Byte) : (s.accepting dt n).dropDomain id =
    { s.accepting dt n with domains := s.domains.filter (fun d => d.id != id) } := by
  unfold State.dropDomain
  rw [accepting_domains]

/-! ### The members in ALARM (R120, R129) -/

theorem alarmedOf_ne_nil_iff (s : State) (members : BitVec 12) :
    s.alarmedOf members ≠ [] ↔ ∃ i : Fin 12, members.getLsbD i = true ∧ s.inAlarm i = true := by
  unfold State.alarmedOf
  simp [mem_all12]

/-- The set of the members in ALARM as a number: a sum over the racks (10.5). -/
theorem rackSet_alarmedOf (s : State) (members : BitVec 12) : rackSet (s.alarmedOf members) =
    (all12.map (fun i : Fin 12 => if members.getLsbD i && s.inAlarm i then 2 ^ i.val else 0)).sum := by
  unfold rackSet State.alarmedOf
  rw [List.sum_map_ite]
  simp

@[simp] theorem accepting_domainBody (dt n : Nat) (s : State) (d : Domain) :
    (s.accepting dt n).domainBody d = s.domainBody d := by
  unfold State.domainBody
  rw [accepting_alarmedOf]

/-! ### The statements -/

/-- Settles O50: the body names `d`, and each clause is the block's row for the state of `d`. -/
theorem domainStatesFollowTheHost : Obligations.DomainStatesFollowTheHost := by
  intro dt b d s frames nonzero found
  obtain rfl : d.id = b := domain_id found
  have named : (s.accepting dt 1).namedDomain [d.id] = .ok d := by
    rw [accepting_namedDomain, namedDomain_found nonzero found]
  have fence : (d.fence = .freezeDomain ∧ (s.accepting dt 1).alarmedOf d.members ≠ []) ↔
      d.fence = .freezeDomain ∧ ∃ n : Fin 12, d.members.getLsbD n = true ∧ s.inAlarm n = true := by
    rw [accepting_alarmedOf, alarmedOf_ne_nil_iff]
  rw [exec_domainFreeze_taken frames, exec_domainThaw_taken frames, exec_domainRetire_taken frames]
  simp only [form_answering]
  refine ⟨fun st => ?_, fun st => ?_, fun st => ?_, fun st fenced => ?_, fun st free => ?_, fun st => ?_, fun st => ?_,
    fun st idle => ?_, fun st delivering => ?_, fun st => ?_⟩
  · rw [domainFreezeBlock_opened named st]
  · rw [domainFreezeBlock_frozen named st]
  · rw [domainFreezeBlock_retiring named st, refuse]
  · rw [domainThawBlock_fenced named st (fence.2 fenced), refuse]
  · rw [domainThawBlock_frozen named st (mt fence.1 free)]
  · rw [domainThawBlock_opened named st]
  · rw [domainThawBlock_retiring named st, refuse]
  · rw [domainRetireBlock_idle named st idle, accepting_dropDomain]
  · rw [domainRetireBlock_delivering named st delivering]
  · rw [domainRetireBlock_retiring named st, refuse]

/-- Settles O51: without a domain each block refuses; with one DOMAIN_LOOKUP answers its fields, whose numbers of 10.5 the
statement writes out, and the members in ALARM as a sum over the racks. -/
theorem domainIdsAreCheckedAndLookedUp : Obligations.DomainIdsAreCheckedAndLookedUp := by
  refine ⟨fun dt b rest st s frames len refused => ?_, fun dt b d s frames nonzero found => ?_⟩
  · have unnamed : ∀ (n : Nat) (more : List Byte), (s.accepting dt n).namedDomain (b :: more) = .error st := by
      intro n more
      rw [accepting_namedDomain]
      obtain ⟨rfl, rfl⟩ | ⟨nonzero, missing, rfl⟩ := refused
      · exact namedDomain_zero s more
      · exact namedDomain_missing nonzero missing more
    refine ⟨?_, ?_, ?_, ?_, ?_⟩
    · rw [exec_domainAmend_taken frames dt (by simp [len]), domainAmendBlock_unnamed (unnamed 9 rest)]
      rfl
    · rw [exec_domainFreeze_taken frames, domainFreezeBlock_unnamed (unnamed 1 [])]
      rfl
    · rw [exec_domainThaw_taken frames, domainThawBlock_unnamed (unnamed 1 [])]
      rfl
    · rw [exec_domainRetire_taken frames, domainRetireBlock_unnamed (unnamed 1 [])]
      rfl
    · rw [exec_domainLookup_taken frames, domainLookupBlock_unnamed (unnamed 1 [])]
      rfl
  · have named : (s.accepting dt 1).namedDomain [b] = .ok d := by
      rw [accepting_namedDomain, namedDomain_found nonzero found]
    rw [exec_domainLookup_taken frames, domainLookupBlock_named named, form_answering, accepting_domainBody, ← rackSet_alarmedOf]
    unfold State.domainBody
    cases d.lastIssued with
    | none => rfl
    | some l => rfl

end Sys2Proof.Machine

/-! SUPPORT. STATUS (R182): the requests at their owning block, the line that a byte names, the first cause (R178), and what time
before the acceptance leaves of the fields that STATUS reports. -/

namespace Sys2Proof.Machine

open Sys2Proof

/-! ### The first cause (R178) -/

/-- The first cause is the first set bit, in the order of R178. -/
theorem firstCause_eq_find (p : Port) : p.firstCause = ((List.range 8).find? p.causes.getLsbD).getD 255 := by
  have step : ∀ (k : Nat) (ks : List Nat), ((k :: ks).find? p.causes.getLsbD).getD 255 =
      if p.causes.getLsbD k then k else (ks.find? p.causes.getLsbD).getD 255 := by
    intro k ks
    rw [List.find?_cons]
    cases p.causes.getLsbD k <;> rfl
  rw [show List.range 8 = [0, 1, 2, 3, 4, 5, 6, 7] from rfl]
  simp only [step]
  rfl

/-- A number that is the lowest pending cause where one is pending, and 255 where none is, is the first cause. -/
theorem firstCause_eq {p : Port} {f : Nat}
    (lowest : ∀ k, k < 8 → p.causes.getLsbD k = true → (∀ j, j < k → p.causes.getLsbD j = false) → f = k)
    (absent : p.causes = 0 → f = 255) : p.firstCause = f := by
  rw [firstCause_eq_find]
  cases found : (List.range 8).find? p.causes.getLsbD with
  | some k =>
    obtain ⟨pending, low, below⟩ := List.find?_range_eq_some.1 found
    exact (lowest k (List.mem_range.1 low) pending fun j lt => by simpa using below j lt).symm
  | none =>
    have clear : ∀ k, k < 8 → p.causes.getLsbD k = false := by simpa using found
    have unset : ∀ k, p.causes.getLsbD k = false := fun k =>
      (Nat.lt_or_ge k 8).elim (clear k) (BitVec.getLsbD_of_ge p.causes k)
    exact (absent (BitVec.zero_iff_eq_false.2 unset)).symm

/-! ### The line that a byte names -/

theorem lineOf_val (i : Fin 12) : lineOf i.val = some i := dif_pos i.isLt

theorem lineOf_above {n : Nat} (above : 11 < n) : lineOf n = none := dif_neg (by omega)

/-! ### STATUS at its owning block (R176, R182) -/

theorem exec_status_taken {s : State} (frames : s.TakesFrames) (dt : Nat) {body : List Byte} (len : body.length ≤ 1) :
    exec (.status dt body) s = .next (State.form 0x48 (statusBlock body (s.accepting dt body.length))) :=
  congrArg _ (request_taken frames (by decide) dt [0, 1] body (statusBlock body)
    (by simpa using Nat.le_one_iff_eq_zero_or_eq_one.1 len) (by omega))

theorem statusBlock_part (s : State) : statusBlock [] s = (s, .ok, s.statusBody) := if_pos rfl

theorem statusBlock_line {b : Byte} {i : Fin 12} (names : b.toNat = i.val) (s : State) :
    statusBlock [b] s = (s, .ok, (s.line i).statusBody i) := by
  have first : field [b] 0 1 = i.val := (field_byte [b] 0).trans names
  simp only [statusBlock, List.cons_ne_nil, if_false, first, lineOf_val]

theorem statusBlock_above {b : Byte} (above : 11 < b.toNat) (s : State) : statusBlock [b] s = refuse .badField s := by
  have first : field [b] 0 1 = b.toNat := field_byte [b] 0
  simp only [statusBlock, List.cons_ne_nil, if_false, first, lineOf_above above]

/-! ### What STATUS reports at the acceptance -/

/-- The racks' changed flags are none of what time changes (R155, R163). -/
theorem accepting_changedSet (dt n : Nat) (s : State) : (s.accepting dt n).changedSet = s.changedSet := by
  have flags : ∀ i : Fin 12, ((s.accepting dt n).rack i).changed = (s.rack i).changed := by
    intro i
    obtain ⟨c, b, kept⟩ := advance_rack dt s i
    rw [accepting_rack, kept]
  unfold State.changedSet
  simp only [flags]

/-- The port at the acceptance: EXECUTING, nothing held, and the attention fields and counts as they stood (R174). -/
theorem accepting_port (dt n : Nat) (s : State) : (s.accepting dt n).port =
    { s.port with
      state := .executing, held := none, overlapMark := false
      dataOut := (s.accepting dt n).port.dataOut, link := Link.idle } := by
  rw [← advance_port s dt]
  rfl

@[simp] theorem accepting_causes (dt n : Nat) (s : State) : (s.accepting dt n).port.causes = s.port.causes := by
  rw [accepting_port]

@[simp] theorem accepting_mask (dt n : Nat) (s : State) : (s.accepting dt n).port.mask = s.port.mask := by
  rw [accepting_port]

/-- STATUS reports U as time has left it, and every other field as it stood before (R10, R182). -/
theorem accepting_statusBody (dt n : Nat) (s : State) : (s.accepting dt n).statusBody =
    byte1 s.clk.state.value ++ byte1 (refValue s.clk.selected) ++ bytesOf 2 s.clk.epoch.toNat ++ bytesOf 4 (s.advance dt).clk.u
      ++ [s.port.causes] ++ byte1 s.port.firstCause ++ [s.port.mask] ++ bytesOf 2 s.changedSet
      ++ byte1 s.newcomers.length ++ bool1 s.overflow ++ bytesOf 2 s.records.length ++ byte1 s.domains.length
      ++ bytesOf 2 s.port.badFrames ++ bytesOf 2 s.port.overlaps := by
  obtain ⟨row, applied, u, flowed⟩ := advance_clk dt s
  unfold State.statusBody
  rw [accepting_changedSet, accepting_port, accepting_clk, accepting_newcomers, accepting_overflow, accepting_records,
    accepting_domains, flowed]
  rfl

/-- Settles O38: the block's three rows, by the body. The values of 10.5 that the statement writes out are those of
`ClockState.value`, `refValue` and `LineState.value`, and the first cause is pinned by its two premises. -/
theorem statusReportsAndChangesNothing : Obligations.StatusReportsAndChangesNothing := by
  refine ⟨fun dt f s frames lowest absent => ?_, fun dt b s frames above => ?_, fun dt b i s frames names => ?_⟩
  · rw [exec_status_taken frames dt (by simp), statusBlock_part, form_answering, accepting_statusBody,
      firstCause_eq lowest absent]
    rfl
  · rw [exec_status_taken frames dt (by simp), statusBlock_above above]
    rfl
  · rw [exec_status_taken frames dt (by simp), statusBlock_line names, form_answering, accepting_line]
    rfl

end Sys2Proof.Machine

/-! SUPPORT. ACK and MASK (R180, R181): the requests at their owning blocks, what each leaves of the pending set and the mask, and
how the single bits of both decide the attention line (R179). -/

namespace Sys2Proof.Machine

open Sys2Proof

/-! ### Single causes (R178, R179) -/

theorem cause_bit_lt (c : Cause) : c.bit < 8 := by cases c <;> decide

/-- Raising a cause sets its own bit of the pending set and no other (R178). -/
theorem raise_causes_getLsbD (c : Cause) (s : State) (k : Nat) :
    (s.raise c).port.causes.getLsbD k = (s.port.causes.getLsbD k || decide (c.bit = k)) := by
  rw [raise_port, BitVec.getLsbD_or, ← BitVec.twoPow_eq, BitVec.getLsbD_twoPow, decide_eq_true (cause_bit_lt c), Bool.true_and]

/-- A cause that the set names is not in the pending set once the set is cleared (R180). -/
theorem getLsbD_cleared (causes : Byte) {set : Byte} {k : Nat} (named : set.getLsbD k = true) :
    (causes &&& ~~~set).getLsbD k = false := by
  simp [named]

/-- The attention line is asserted while the pending set and the mask have a bit in common (R179). -/
theorem attention_iff (p : Port) :
    p.attention = true ↔ ∃ k, p.causes.getLsbD k = true ∧ p.mask.getLsbD k = true := by
  have silent : p.causes &&& p.mask = 0 ↔ ∀ k, (p.causes &&& p.mask).getLsbD k = false := BitVec.zero_iff_eq_false
  unfold Port.attention
  rw [bne_iff_ne, ne_eq, silent, not_forall]
  simp only [BitVec.getLsbD_and, Bool.not_eq_false, Bool.and_eq_true]

/-- The attention line depends on the pending set and the mask alone. -/
theorem attention_congr {p q : Port} (causes : p.causes = q.causes) (mask : p.mask = q.mask) : p.attention = q.attention := by
  unfold Port.attention
  rw [causes, mask]

/-- Raising a cause does not change whether the port takes a frame. -/
theorem raise_takesFrames {s : State} (frames : s.TakesFrames) (c : Cause) : (s.raise c).TakesFrames :=
  ⟨frames.heeded, frames.waiting⟩

/-! ### ACK and MASK at their owning blocks (R176, R180, R181) -/

/-- ACK of one byte: the named causes are cleared, and the answer tells the causes and the mask of the port after it. -/
theorem exec_ack_taken {s : State} (frames : s.TakesFrames) (dt : Nat) (b : Byte) :
    exec (.ack dt [b]) s = .next (((s.accepting dt 1).clearCauses b).answering 0x49 .ok
      ((s.accepting dt 1).clearCauses b).port.causesBody) := by
  have taken := request_taken frames (code := 0x49) (by decide) dt [1] [b] (ackBlock [b]) (by simp) (by simp)
  have set : BitVec.ofNat 8 (field [b] 0 1) = b := by simp [field_byte]
  refine congrArg _ (taken.trans ?_)
  rw [form_answering, ackBlock, set]
  rfl

/-- MASK of one byte: the set becomes the mask, and the answer tells the causes and the mask of the port after it. -/
theorem exec_mask_taken {s : State} (frames : s.TakesFrames) (dt : Nat) (b : Byte) :
    exec (.mask dt [b]) s = .next (((s.accepting dt 1).setMask b).answering 0x4A .ok
      ((s.accepting dt 1).setMask b).port.causesBody) := by
  have taken := request_taken frames (code := 0x4A) (by decide) dt [1] [b] (maskBlock [b]) (by simp) (by simp)
  have set : BitVec.ofNat 8 (field [b] 0 1) = b := by simp [field_byte]
  refine congrArg _ (taken.trans ?_)
  rw [form_answering, maskBlock, set]
  rfl

/-- The body of both answers, where `f` is the first cause (10.5). -/
theorem causesBody_eq {p : Port} {f : Nat} (first : p.firstCause = f) : p.causesBody = [p.causes, BitVec.ofNat 8 f, p.mask] := by
  simp [Port.causesBody, byte1, bytesOf, first]

/-! ### What ACK and MASK leave (R180, R181) -/

/-- Clearing causes at the acceptance, in the pending set that stood before it. -/
theorem accepting_clearCauses (dt n : Nat) (s : State) (set : Byte) : (s.accepting dt n).clearCauses set =
    (s.accepting dt n).modPort (fun p => { p with causes := s.port.causes &&& ~~~set }) := by
  rw [← accepting_causes dt n s]
  rfl

theorem clearCauses_causes (set : Byte) (s : State) : (s.clearCauses set).port.causes = s.port.causes &&& ~~~set := rfl

theorem clearCauses_mask (set : Byte) (s : State) : (s.clearCauses set).port.mask = s.port.mask := rfl

theorem setMask_causes (set : Byte) (s : State) : (s.setMask set).port.causes = s.port.causes := rfl

theorem setMask_mask (set : Byte) (s : State) : (s.setMask set).port.mask = set := rfl

theorem answering_causes (code : Byte) (st : Status) (body : List Byte) (s : State) :
    (s.answering code st body).port.causes = s.port.causes := rfl

theorem answering_mask (code : Byte) (st : Status) (body : List Byte) (s : State) :
    (s.answering code st body).port.mask = s.port.mask := rfl

/-! ### The clauses of R180 and R181 -/

/-- ACK, where `f` is the first cause of what it leaves pending. -/
theorem exec_ack_answer {s : State} (frames : s.TakesFrames) (dt : Nat) (b : Byte) {f : Nat}
    (lowest : ∀ k, k < 8 → (s.port.causes &&& ~~~b).getLsbD k = true →
      (∀ j, j < k → (s.port.causes &&& ~~~b).getLsbD j = false) → f = k)
    (absent : s.port.causes &&& ~~~b = 0 → f = 255) :
    exec (.ack dt [b]) s = .next (((s.accepting dt 1).modPort (fun p => { p with
      causes := s.port.causes &&& ~~~b })).answering 0x49 .ok
        [s.port.causes &&& ~~~b, BitVec.ofNat 8 f, s.port.mask]) := by
  have left : ((s.accepting dt 1).clearCauses b).port.causes = s.port.causes &&& ~~~b := by
    rw [clearCauses_causes, accepting_causes]
  have first : ((s.accepting dt 1).clearCauses b).port.firstCause = f := by
    apply firstCause_eq <;> rwa [left]
  rw [exec_ack_taken frames, causesBody_eq first, left, clearCauses_mask, accepting_mask, accepting_clearCauses]

/-- MASK, where `f` is the first cause of the pending set. -/
theorem exec_mask_answer {s : State} (frames : s.TakesFrames) (dt : Nat) (b : Byte) {f : Nat}
    (lowest : ∀ k, k < 8 → s.port.causes.getLsbD k = true → (∀ j, j < k → s.port.causes.getLsbD j = false) → f = k)
    (absent : s.port.causes = 0 → f = 255) :
    exec (.mask dt [b]) s = .next (((s.accepting dt 1).modPort (fun p => { p with mask := b })).answering 0x4A .ok
      [s.port.causes, BitVec.ofNat 8 f, b]) := by
  have kept : ((s.accepting dt 1).setMask b).port.causes = s.port.causes := by rw [setMask_causes, accepting_causes]
  have first : ((s.accepting dt 1).setMask b).port.firstCause = f := by
    apply firstCause_eq <;> rwa [kept]
  rw [exec_mask_taken frames, causesBody_eq first, kept, setMask_mask]
  rfl

/-- An ACK after a raise of a cause that it names leaves the cause not pending. -/
theorem exec_ack_after_raise {s : State} (frames : s.TakesFrames) (dt : Nat) {b : Byte} {c : Cause}
    (named : b.getLsbD c.bit = true) :
    ∃ t, exec (.ack dt [b]) (s.raise c) = .next t ∧ t.port.isPending c = false := by
  refine ⟨_, exec_ack_taken (raise_takesFrames frames c) dt b, ?_⟩
  unfold Port.isPending
  rw [answering_causes, clearCauses_causes, getLsbD_cleared _ named]

/-- A raise before a MASK and one after it leave the same pending set and the same mask. -/
theorem exec_mask_raise_comm {s : State} (frames : s.TakesFrames) (dt : Nat) (b : Byte) (c : Cause) : ∃ t u,
    exec (.mask dt [b]) (s.raise c) = .next t ∧ exec (.mask dt [b]) s = .next u ∧
    t.port.causes = (u.raise c).port.causes ∧ t.port.mask = (u.raise c).port.mask := by
  refine ⟨_, _, exec_mask_taken (raise_takesFrames frames c) dt b, exec_mask_taken frames dt b, ?_, ?_⟩
  · simp only [raise_port, answering_causes, setMask_causes, accepting_causes]
  · simp only [raise_port, answering_mask, setMask_mask]

/-- Settles O39: the two requests clause by clause, with the attention line and a single raise read bit by bit. -/
theorem ackClearsAndMaskReplaces : Obligations.AckClearsAndMaskReplaces := by
  refine ⟨fun dt f b s frames lowest absent => exec_ack_answer frames dt b lowest absent,
    fun dt f b s frames lowest absent => exec_mask_answer frames dt b lowest absent, attention_iff, fun c s => ?_,
    fun dt b c s frames named => exec_ack_after_raise frames dt named, fun dt b c s frames => ?_⟩
  · refine ⟨?_, rfl, fun k other => ?_⟩
    · rw [Port.isPending, raise_causes_getLsbD, decide_eq_true rfl, Bool.or_true]
    · rw [raise_causes_getLsbD, decide_eq_false (Ne.symm other), Bool.or_false]
  · obtain ⟨t, u, raised, plain, causes, mask⟩ := exec_mask_raise_comm frames dt b c
    exact ⟨t, u, raised, plain, causes, mask, attention_congr causes mask⟩

end Sys2Proof.Machine

/-! SUPPORT. The queue, the reset state, and the invariants that follow from the list of moves of a step: sequences, domains,
stamps and references. -/

namespace Sys2Proof.Machine

open Sys2Proof

/-! ### The queue and reset -/

/-- Settles O1: the two cases of `step`. -/
theorem stepRunsTheFrontCommand : Obligations.StepRunsTheFrontCommand :=
  ⟨fun _ _ _ => rfl, fun _ => rfl⟩

/-- The queue is none of what a step's moves change. -/
theorem move_pending {o : Kinds} {s t : State} (m : Move o s t) : t.pending = s.pending := by
  cases m with
  | alarm i c => unfold State.alarmNotice; split <;> rfl
  | record => exact updateRecord_pending ..
  | remove => exact removeRecord_pending ..
  | add => exact addRecord_pending ..
  | stampLine slot =>
    unfold State.stampLine
    split
    · rfl
    · exact updateRecord_pending ..
  | port | refs | time | fill | latches | line | newcomers | classes | rack | stampHost | settle | drop | opened | amended
  | frozen | thawed | retired | restart | hardReset => rfl

/-- Settles O2: every command reaches its next state by moves, and no move touches the queue. -/
theorem everyCommandCompletes : Obligations.EveryCommandCompletes := by
  intro c s
  obtain ⟨t, completes, moves⟩ := exec_moves (o := ⟨true, true⟩) c s (Or.inl rfl) (Or.inl rfl)
  refine ⟨t, completes, moves.keeps (P := fun u => u.pending = s.pending) (fun u v m kept => ?_) rfl⟩
  exact (move_pending m).trans kept

theorem reset_line (i : Fin 12) : State.reset.line i = Line.reset := by
  simp [State.line, State.reset]

theorem reset_rack (i : Fin 12) : State.reset.rack i = Rack.reset := by
  simp [State.rack, State.reset]

theorem reset_chan (ch : Chan) : State.reset.chan ch = RefChannel.reset := by cases ch <;> rfl

/-- Settles O3: both states are written out, and each field of the reset values is read. -/
theorem hardResetLeavesTheResetValues : Obligations.HardResetLeavesTheResetValues := by
  refine ⟨fun _ _ => rfl, fun ch => ?_, rfl, rfl, fun i => ?_, rfl, rfl, rfl, rfl, fun i => ?_, rfl, rfl, rfl, rfl, rfl, rfl,
    rfl, rfl, rfl⟩
  · rw [reset_chan]
    exact ⟨rfl, rfl, rfl, rfl, rfl, rfl, rfl, rfl, rfl, rfl⟩
  · rw [reset_line]
    exact ⟨rfl, rfl, rfl, rfl, rfl, rfl, rfl, rfl, rfl, rfl, rfl, rfl, rfl, rfl, rfl, rfl, rfl, rfl, rfl, rfl, rfl, rfl, rfl,
      fun _ => rfl⟩
  · rw [reset_rack]
    exact ⟨rfl, rfl, rfl, rfl, rfl, rfl, rfl, rfl, rfl, rfl, rfl, rfl, rfl, rfl, rfl, rfl, rfl, rfl, rfl, rfl, rfl, rfl, rfl,
      rfl⟩

theorem refChannel_reset_inRange : RefChannel.reset.InRange :=
  ⟨by decide, by decide, by decide, by decide⟩

theorem rowClock_reset_inRange : RowClock.reset.InRange :=
  ⟨⟨by decide, by decide⟩, by decide, by decide, by decide, by decide, by decide, by decide, by decide, by decide, by decide⟩

theorem reset_clockInRange : State.reset.ClockInRange :=
  ⟨rowClock_reset_inRange, refChannel_reset_inRange, refChannel_reset_inRange⟩

theorem reset_refHeld : State.reset.RefHeld where
  resting _ := ⟨rfl, rfl, rfl⟩
  running h := by rcases h with h | h <;> cases h

theorem reset_subjectHeld (i : Fin 12) : State.reset.SubjectHeld i := by
  refine ⟨fun x hx => ?_, fun n hn => ?_, fun _ => ?_, fun h => ?_⟩ <;> rw [reset_line] at *
  · cases hx
  · rcases hn with hn | hn <;> cases hn
  · rfl
  · exact absurd rfl h

/-- Settles O4: the tables are empty, and every rack, line, channel and the clock hold their reset values. -/
theorem resetHasEveryInvariant : Obligations.ResetHasEveryInvariant := by
  have noRecords : State.reset.records = [] := rfl
  have noDomains : State.reset.domains = [] := rfl
  have noNewcomers : State.reset.newcomers = [] := rfl
  refine ⟨?_, reset_clockInRange, reset_refHeld, ⟨?_, ?_⟩, ?_, ⟨?_, ?_, ?_⟩, fun i st => ?_, fun i => ?_, ?_, ?_, ?_,
    reset_subjectHeld, ⟨?_, ?_⟩, ?_⟩
  · simp [State.SequencesClose, noRecords]
  · simp [noRecords]
  · simp [noRecords]
  · simp [State.KeysDiffer, noRecords]
  · simp [noNewcomers]
  · simp [noNewcomers]
  · simp [noNewcomers]
  · rw [reset_rack, State.countOf, noRecords]
    cases st <;> rfl
  · rw [reset_rack]
    decide
  · simp [State.IdsDiffer, noDomains]
  · simp [State.FenceHolds, noDomains]
  · simp [State.DeliveriesAgree, noDomains]
  · simp [noRecords]
  · simp [noRecords]
  · exact ⟨by decide, by decide, rfl⟩

/-! ### Sequences (R97) -/

/-- A rule leaves the commanded sequence, and at most brings the acknowledged one up to it. -/
def Endpoint.Settles (r q : Endpoint) : Prop := q.cmdSeq = r.cmdSeq ∧ (q.ackSeq = r.ackSeq ∨ q.ackSeq = r.cmdSeq)

/-- The commanded sequence equals the acknowledged one or is one past it (R97). -/
def Endpoint.SeqClose (r : Endpoint) : Prop := r.cmdSeq = r.ackSeq ∨ r.cmdSeq = r.ackSeq + 1

theorem Endpoint.Settles.refl (r : Endpoint) : r.Settles r := ⟨rfl, Or.inl rfl⟩

theorem Endpoint.Settles.trans {r q p : Endpoint} (h : r.Settles q) (k : q.Settles p) : r.Settles p := by
  obtain ⟨hc, ha⟩ := h
  obtain ⟨kc, ka⟩ := k
  refine ⟨kc.trans hc, ?_⟩
  rcases ka with ka | ka
  · rw [ka]
    exact ha
  · exact Or.inr (ka.trans hc)

theorem Endpoint.Settles.close {r q : Endpoint} (h : r.Settles q) (close : r.SeqClose) : q.SeqClose := by
  obtain ⟨hc, ha | ha⟩ := h
  · unfold Endpoint.SeqClose
    rw [hc, ha]
    exact close
  · exact Or.inl (hc.trans ha.symm)

theorem acknowledge_settles (r : Endpoint) : r.Settles r.acknowledge := by
  unfold Endpoint.acknowledge
  dsimp only
  split <;> exact ⟨rfl, Or.inr rfl⟩

theorem judgeAck_settles (seq : BitVec 4) (r : Endpoint) : r.Settles (r.judgeAck seq) := by
  unfold Endpoint.judgeAck
  dsimp only
  split
  · split
    · exact (acknowledge_settles { r with repSeq := seq })
    · split
      · exact ⟨rfl, Or.inr rfl⟩
      · exact ⟨rfl, Or.inl rfl⟩
  · exact ⟨rfl, Or.inl rfl⟩

theorem acceptRule_settles (x : Sample) (sn : Bool) (r : Endpoint) : r.Settles (r.acceptRule x sn) := by
  unfold Endpoint.acceptRule
  dsimp only
  split
  · split
    · exact ⟨rfl, Or.inl rfl⟩
    · split
      · exact ⟨rfl, Or.inl rfl⟩
      · split <;> exact ⟨rfl, Or.inl rfl⟩
  · exact ⟨rfl, Or.inl rfl⟩
  · split <;> exact ⟨rfl, Or.inl rfl⟩
  all_goals exact ⟨rfl, Or.inl rfl⟩

theorem rejectRule_settles (r : Endpoint) : r.Settles r.rejectRule := by
  unfold Endpoint.rejectRule
  dsimp only
  split <;> exact ⟨rfl, Or.inl rfl⟩

theorem takeReply_settles (v : Verdict) (seq : BitVec 4) (r : Endpoint) : r.Settles (r.takeReply v seq) := by
  refine (judgeAck_settles seq r).trans ?_
  unfold Endpoint.takeReply
  cases v with
  | void => exact ⟨rfl, Or.inl rfl⟩
  | rejected => exact rejectRule_settles _
  | accepted x => exact acceptRule_settles x _ ((r.judgeAck seq).append x)

theorem withdraw_settles (assembled : Bool) (r : Endpoint) : r.Settles (r.withdraw assembled) := by
  unfold Endpoint.withdraw
  split
  · exact ⟨rfl, Or.inr rfl⟩
  · exact Endpoint.Settles.refl r

theorem stepRule_settles (assembled : Bool) (r : Endpoint) : r.Settles (r.stepRule assembled) := by
  refine (withdraw_settles assembled r).trans ?_
  unfold Endpoint.stepRule
  dsimp only
  split <;> exact ⟨rfl, Or.inl rfl⟩

theorem missRule_settles (limit : Nat) (r : Endpoint) : r.Settles (r.missRule limit) := by
  unfold Endpoint.missRule
  dsimp only
  split <;> (try split) <;> exact ⟨rfl, Or.inl rfl⟩

theorem faultRule_settles (r : Endpoint) : r.Settles r.faultRule := by
  unfold Endpoint.faultRule
  split <;> exact ⟨rfl, Or.inl rfl⟩

theorem settle_settles (how : TxnEnd) (r : Endpoint) : r.Settles (r.settle how) := by
  unfold Endpoint.settle
  split
  · exact ⟨rfl, Or.inl rfl⟩
  · exact Endpoint.Settles.refl r
  · exact Endpoint.Settles.refl r
  · exact withdraw_settles false r

theorem endRule_settles (how : TxnEnd) (r : Endpoint) : r.Settles (r.endRule how) := by
  refine (settle_settles how { r with inTxn := false }).trans ?_
  unfold Endpoint.endRule
  dsimp only
  split <;> exact ⟨rfl, Or.inl rfl⟩

theorem amend_settles (body : List Byte) (assembled : Bool) (r : Endpoint) : r.Settles (r.amend body assembled) := by
  unfold Endpoint.amend
  dsimp only
  split
  · exact withdraw_settles assembled _
  · exact ⟨rfl, Or.inl rfl⟩

/-- COR commands only a record with no correction in flight (R98, R101). -/
theorem correct_seqClose (accepted : Bool) (interval : Nat) {r : Endpoint} (close : r.SeqClose) :
    (r.correct accepted interval).SeqClose := by
  unfold Endpoint.correct
  split
  · rename_i free
    have settled : r.ackSeq = r.cmdSeq := by
      simp only [Bool.and_eq_true, Bool.not_eq_true', Endpoint.inFlight, bne_eq_false_iff_eq] at free
      exact free.2
    have commanded : ∀ k v, (r.command k v).SeqClose := fun k v => Or.inr (by simp [Endpoint.command, settled])
    split
    · split
      · exact commanded ..
      · exact close
    · split
      · exact commanded ..
      · split
        · exact close
        · exact commanded ..
    · exact close
  · exact close

/-- Every rule of a record keeps R97. -/
theorem recordRule_seqClose {f : Endpoint → Endpoint} (rule : RecordRule f) (r : Endpoint) (close : r.SeqClose) :
    (r.keepKey (f r)).SeqClose := by
  show (f r).SeqClose
  cases rule with
  | inTxn | conflict | rebase | answer | resumed => exact close
  | takeReply v seq => exact (takeReply_settles v seq r).close close
  | correct a n => exact correct_seqClose a n close
  | fault => exact (faultRule_settles r).close close
  | step g => exact (stepRule_settles (g r) r).close close
  | miss limit => exact (missRule_settles limit r).close close
  | ended how => exact (endRule_settles how r).close close
  | amend body b => exact (amend_settles body b r).close close
  | suspendLater b | suspendNow b | retireLater b => exact (withdraw_settles b r).close close

/-- Settles O55: every rule of a record keeps R97, and a record starts with both sequences equal. -/
theorem sequencesStayClose : Obligations.SequencesStayClose := by
  intro s t close e
  refine step_keeps (P := State.SequencesClose) (fun u v m => ?_) (fun _ _ h => h) e close
  exact move_records (P := Endpoint.SeqClose) (fun f rule r => recordRule_seqClose rule r) (fun r n h => h)
    (fun r settled _ => Or.inl settled.symm) m

/-! ### The references (R1, R8) -/

/-- A move replaces the references, comes from a reset, or leaves the references alone. -/
theorem move_refs {o : Kinds} {s t : State} (m : Move o s t) (inv : s.ClockInRange ∧ s.RefHeld) :
    t.ClockInRange ∧ t.RefHeld := by
  have kept : ∀ {u : State}, u.clk = s.clk → u.chanA = s.chanA → u.chanB = s.chanB → u.ClockInRange ∧ u.RefHeld := by
    intro u clk chanA chanB
    obtain ⟨range, held⟩ := inv
    refine ⟨⟨by rw [clk]; exact range.clk, by rw [chanA]; exact range.chanA, by rw [chanB]; exact range.chanB⟩, ?_⟩
    have quals : ∀ d, u.qualified d = s.qualified d := by
      intro d
      cases d
      · simp [State.qualified, State.chan, chanA]
      · simp [State.qualified, State.chan, chanB]
    rw [refHeld_iff] at held ⊢
    rw [quals, quals, clk]
    exact held
  cases m with
  | refs a b c _ range held => exact ⟨range inv.1, held inv.2⟩
  | hardReset => exact ⟨⟨rowClock_reset_inRange, refChannel_reset_inRange, refChannel_reset_inRange⟩,
      ⟨reset_refHeld.resting, reset_refHeld.running⟩⟩
  | record => exact kept (updateRecord_clk ..) (updateRecord_chanA ..) (updateRecord_chanB ..)
  | remove => exact kept (removeRecord_clk ..) (removeRecord_chanA ..) (removeRecord_chanB ..)
  | add => exact kept (addRecord_clk ..) (addRecord_chanA ..) (addRecord_chanB ..)
  | alarm i c =>
    unfold State.alarmNotice
    split
    · exact kept rfl rfl rfl
    · exact kept rfl rfl rfl
  | stampLine slot =>
    unfold State.stampLine
    split
    · exact inv
    · exact kept (updateRecord_clk ..) (updateRecord_chanA ..) (updateRecord_chanB ..)
  | port | time | fill | latches | line | newcomers | classes | rack | stampHost | settle | drop | opened | amended
  | frozen | thawed | retired | restart => exact kept rfl rfl rfl

/-- Settles O59: a move that replaces the references keeps both invariants, and the others leave the references alone. -/
theorem referencesStayHeld : Obligations.ReferencesStayHeld := fun _ _ inv e =>
  step_keeps (P := fun s => s.ClockInRange ∧ s.RefHeld) (fun _ _ m => move_refs m)
    (fun _ _ h => ⟨⟨h.1.clk, h.1.chanA, h.1.chanB⟩, ⟨h.2.resting, h.2.running⟩⟩) e inv

end Sys2Proof.Machine

/-! SUPPORT. The stamp domains along a step: their ids and fences (R115, R121), and the last issued stamps and counters of a
domain's life (R117, R118, R139). -/

namespace Sys2Proof.Machine

open Sys2Proof

/-! ### A domain's life (R117, R118, R139) -/

/-- The last issued stamp and the counters of a domain have not fallen, and the counters stay at or below their caps. -/
structure Domain.Rises (d e : Domain) : Prop where
  last : ∀ l, d.lastIssued = some l → ∃ m, e.lastIssued = some m ∧ l.toNs ≤ m.toNs
  grants : d.grants ≤ 4294967295 → d.grants ≤ e.grants ∧ e.grants ≤ 4294967295
  stamps : d.stamps ≤ 281474976710655 → d.stamps ≤ e.stamps ∧ e.stamps ≤ 281474976710655
  refusals : d.refusals ≤ 4294967295 → d.refusals ≤ e.refusals ∧ e.refusals ≤ 4294967295
  burned : d.burned ≤ 4294967295 → d.burned ≤ e.burned ∧ e.burned ≤ 4294967295

/-- A change that leaves the last issued stamp and the counters. -/
theorem Domain.Rises.of_kept {d e : Domain} (last : e.lastIssued = d.lastIssued) (grants : e.grants = d.grants)
    (stamps : e.stamps = d.stamps) (refusals : e.refusals = d.refusals) (burned : e.burned = d.burned) : d.Rises e := by
  refine ⟨fun l h => ⟨l, last.trans h, le_rfl⟩, ?_, ?_, ?_, ?_⟩ <;> omega

theorem Domain.Rises.refl (d : Domain) : d.Rises d := .of_kept rfl rfl rfl rfl rfl

theorem Domain.Rises.trans {d e f : Domain} (h : d.Rises e) (k : e.Rises f) : d.Rises f where
  last l hl := by
    obtain ⟨m, hm, le⟩ := h.last l hl
    obtain ⟨n, hn, le'⟩ := k.last m hm
    exact ⟨n, hn, le.trans le'⟩
  grants low := ⟨(h.grants low).1.trans (k.grants (h.grants low).2).1, (k.grants (h.grants low).2).2⟩
  stamps low := ⟨(h.stamps low).1.trans (k.stamps (h.stamps low).2).1, (k.stamps (h.stamps low).2).2⟩
  refusals low := ⟨(h.refusals low).1.trans (k.refusals (h.refusals low).2).1, (k.refusals (h.refusals low).2).2⟩
  burned low := ⟨(h.burned low).1.trans (k.burned (h.burned low).2).1, (k.burned (h.burned low).2).2⟩

theorem satAdd_rises {top c : Nat} (n : Nat) (low : c ≤ top) : c ≤ satAdd top c n ∧ satAdd top c n ≤ top := by
  unfold satAdd
  omega

theorem settled_rises (how : TxnEnd) (n : Nat) (d : Domain) : d.Rises (d.settled how n) where
  last l hl := ⟨l, hl, le_rfl⟩
  grants low := ⟨le_rfl, low⟩
  stamps low := ⟨le_rfl, low⟩
  refusals low := ⟨le_rfl, low⟩
  burned low := by
    show d.burned ≤ (if how = .abandoned then _ else _) ∧ (if how = .abandoned then _ else _) ≤ 4294967295
    split
    · exact satAdd_rises n low
    · exact ⟨le_rfl, low⟩

/-- A grant passes check 11: its run starts past the last issued stamp and ends within row time (R138, R141). -/
theorem valueGrant_last {d : Domain} {bound : Nat} {t : Capture} {count : Nat} {g : Grant} (one : 1 ≤ count)
    (granted : d.valueGrant bound t count = .grant g) {l : RowTime} (last : d.lastIssued = some l) :
    l.toNs ≤ (RowTime.ofNs (g.base.toNs + g.count - 1)).toNs := by
  unfold Domain.valueGrant at granted
  split at granted
  · rename_i within
    cases granted
    have past : l.toNs + 1 ≤ baseStamp d.lastIssued t.time := by
      unfold baseStamp
      rw [last]
      dsimp only
      split <;> omega
    have top := within.2
    unfold maxRowNs secMod second at top
    show l.toNs ≤ (RowTime.ofNs ((RowTime.ofNs (baseStamp d.lastIssued t.time)).toNs + count - 1)).toNs
    rw [toNs_ofNs, toNs_ofNs, Nat.mod_eq_of_lt (by omega : baseStamp d.lastIssued t.time < _), Nat.mod_eq_of_lt (by omega)]
    omega
  · cases granted

/-- A decision's record raises the domain, when a grant's run ends past the last issued stamp. -/
theorem book_rises (line : Bool) {a : Answer} {d : Domain} (past : ∀ g, a = .grant g → ∀ l, d.lastIssued = some l →
    l.toNs ≤ (RowTime.ofNs (g.base.toNs + g.count - 1)).toNs) : d.Rises (d.book line a) := by
  cases a with
  | refusal id code =>
    exact ⟨fun l hl => ⟨l, hl, le_rfl⟩, fun low => ⟨le_rfl, low⟩, fun low => ⟨le_rfl, low⟩, satAdd_rises 1,
      fun low => ⟨le_rfl, low⟩⟩
  | grant g =>
    exact ⟨fun l hl => ⟨_, rfl, past g rfl l hl⟩, satAdd_rises 1, satAdd_rises g.count, fun low => ⟨le_rfl, low⟩,
      fun low => ⟨le_rfl, low⟩⟩

/-- The common checks pass a request of the domain found under its id, for one stamp or more (R134). -/
theorem commonChecks_spec {s : State} {id : Byte} {count : Nat} {d : Domain} (ok : s.commonChecks id count = .ok d) :
    1 ≤ count ∧ s.domain id = some d := by
  unfold State.commonChecks at ok
  split at ok
  · cases ok
  · rename_i counted
    split at ok
    · cases ok
    · split at ok
      · cases ok
      · rename_i found
        split at ok <;> cases ok
        exact ⟨by omega, found⟩

theorem decideHost_past {s : State} {id : Byte} {count : Nat} {g : Grant} (granted : s.decideHost id count = .grant g)
    {d : Domain} (found : s.domain id = some d) {l : RowTime} (last : d.lastIssued = some l) :
    l.toNs ≤ (RowTime.ofNs (g.base.toNs + g.count - 1)).toNs := by
  unfold State.decideHost at granted
  split at granted
  · cases granted
  · rename_i d' ok
    obtain ⟨one, found'⟩ := commonChecks_spec ok
    cases found.symm.trans found'
    exact valueGrant_last one granted last

theorem decideLine_past {s : State} {r : Endpoint} {ev : Bool} {t4 : Capture} {id : Byte} {count : Nat} {g : Grant}
    (granted : s.decideLine r ev t4 id count = .grant g) {d : Domain} (found : s.domain id = some d) {l : RowTime}
    (last : d.lastIssued = some l) : l.toNs ≤ (RowTime.ofNs (g.base.toNs + g.count - 1)).toNs := by
  unfold State.decideLine at granted
  split at granted
  · cases granted
  · rename_i d' ok
    obtain ⟨one, found'⟩ := commonChecks_spec ok
    cases found.symm.trans found'
    split at granted
    · cases granted
    · exact valueGrant_last one granted last

/-- No domain comes into the table, and a domain that stays has risen. -/
def State.DomainsLive (s t : State) : Prop :=
  ∀ id, (s.domain id = none → t.domain id = none) ∧
    ∀ d e, s.domain id = some d → t.domain id = some e → d.Rises e

theorem State.DomainsLive.of_kept {s t : State} (kept : t.domains = s.domains) : s.DomainsLive t := by
  intro id
  have same : t.domain id = s.domain id := by
    unfold State.domain
    rw [kept]
  refine ⟨fun h => same.trans h, fun d e hd he => ?_⟩
  cases hd.symm.trans (same.symm.trans he)
  exact .refl d

theorem State.DomainsLive.trans {s t u : State} (h : s.DomainsLive t) (k : t.DomainsLive u) : s.DomainsLive u := by
  intro id
  refine ⟨fun none => (k id).1 ((h id).1 none), fun d e hd he => ?_⟩
  cases ht : t.domain id with
  | none => cases ((k id).1 ht).symm.trans he
  | some c => exact ((h id).2 d c hd ht).trans ((k id).2 c e ht he)

theorem domainsLive_modDomain (id : Byte) {f : Domain → Domain} {s : State}
    (rises : ∀ d, s.domain id = some d → d.Rises (f d)) : s.DomainsLive (s.modDomain id f) := by
  intro id'
  rw [modDomain_find]
  by_cases same : id' = id
  · subst same
    rw [if_pos rfl]
    refine ⟨fun none => by rw [none]; rfl, fun d e hd he => ?_⟩
    rw [hd] at he
    cases he
    obtain ⟨last, grants, stamps, refusals, burned⟩ := rises d hd
    exact ⟨last, grants, stamps, refusals, burned⟩
  · rw [if_neg same]
    refine ⟨fun h => h, fun d e hd he => ?_⟩
    cases hd.symm.trans he
    exact .refl d

theorem domainsLive_dropDomain (id : Byte) (s : State) : s.DomainsLive (s.dropDomain id) := by
  intro id'
  rw [dropDomain_find]
  by_cases same : id' = id
  · rw [if_pos same]
    exact ⟨fun _ => rfl, fun d e _ he => by cases he⟩
  · rw [if_neg same]
    refine ⟨fun h => h, fun d e hd he => ?_⟩
    cases hd.symm.trans he
    exact .refl d

/-- A table that a rule has been applied to, which keeps ids, holds the changed domain under each id. -/
theorem find_map_domain {g : Domain → Domain} (ids : ∀ d, (g d).id = d.id) (id : Byte) (l : List Domain) :
    (l.map g).find? (fun d => d.id == id) = (l.find? (fun d => d.id == id)).map g := by
  rw [List.find?_map]
  exact congrArg (fun p => Option.map g (List.find? p l)) (funext fun d => by simp [ids])

theorem domainsLive_alarmNotice (i : Fin 12) (s : State) : s.DomainsLive (s.alarmNotice i) := by
  unfold State.alarmNotice
  split
  · intro id
    have found : State.domain (State.raise .domain { s with domains := s.domains.map (fun d =>
        if d.fencedBy i then { d with state := .frozen, cause := some (.rack i) } else d) }) id =
        (s.domain id).map (fun d => if d.fencedBy i then { d with state := .frozen, cause := some (.rack i) } else d) :=
      find_map_domain (fun d => by split <;> rfl) id s.domains
    rw [found]
    refine ⟨fun none => by rw [none]; rfl, fun d e hd he => ?_⟩
    rw [hd] at he
    cases he
    dsimp only
    split
    · exact .of_kept rfl rfl rfl rfl rfl
    · exact .refl d
  · exact .of_kept rfl

/-- The domains live through every move but DOMAIN_OPEN's. -/
theorem move_domainsLive {s t : State} (m : Move ⟨false, true⟩ s t) : s.DomainsLive t := by
  cases m with
  | record => exact .of_kept (updateRecord_domains ..)
  | remove => exact .of_kept (removeRecord_domains ..)
  | add => exact .of_kept (addRecord_domains ..)
  | alarm i c => exact domainsLive_alarmNotice i (s.modRack i (Rack.toAlarm c))
  | stampHost id count =>
    exact domainsLive_modDomain id fun d hd => book_rises false fun g hg l hl => decideHost_past hg hd hl
  | stampLine slot ev t4 id count =>
    unfold State.stampLine
    split
    · exact .of_kept rfl
    · rename_i r _
      exact (domainsLive_modDomain id fun d hd => book_rises true fun g hg l hl =>
        decideLine_past hg hd hl).trans (.of_kept (updateRecord_domains ..))
  | settle id how n => exact domainsLive_modDomain id fun d _ => settled_rises how n d
  | drop id => exact domainsLive_dropDomain id s
  | opened _ _ _ _ closed => cases closed
  | amended id body =>
    refine domainsLive_modDomain id fun d _ => ?_
    unfold State.fence
    split
    · split <;> exact .of_kept rfl rfl rfl rfl rfl
    · exact .of_kept rfl rfl rfl rfl rfl
  | frozen id | retired id => exact domainsLive_modDomain id fun d _ => .of_kept rfl rfl rfl rfl rfl
  | thawed d => exact domainsLive_modDomain d.id fun d _ => .of_kept rfl rfl rfl rfl rfl
  | restart | hardReset => exact fun id => ⟨fun _ => rfl, fun d e _ he => by cases he⟩
  | port | refs | time | fill | latches | line | newcomers | classes | rack => exact .of_kept rfl

theorem moves_domainsLive {s t : State} (m : Moves ⟨false, true⟩ s t) : s.DomainsLive t :=
  m.keeps (P := fun u => s.DomainsLive u) (fun _ _ move live => live.trans (move_domainsLive move)) (.of_kept rfl)

/-- A domain that stands before and after a step has risen: DOMAIN_OPEN leaves the domains that stand. -/
theorem exec_rises {c : Instr} {s t : State} (e : exec c s = .next t) {id : Byte} {d f : Domain} (hd : s.domain id = some d)
    (hf : t.domain id = some f) : d.Rises f := by
  rcases exec_grows e with moves | ⟨new, _, _, appended⟩
  · exact (moves_domainsLive moves id).2 d f hd hf
  · have found : t.domain id = some d := by
      unfold State.domain at hd ⊢
      rw [appended, List.find?_append, hd]
      rfl
    cases hf.symm.trans found
    exact .refl d

/-- Settles O58: a list of moves lets no domain fall, and DOMAIN_OPEN adds a domain alone. -/
theorem stampsNeverFall : Obligations.StampsNeverFall := by
  intro s t id d e run hd he
  have rises : d.Rises e := by
    unfold step at run
    split at run
    · cases run
      cases hd.symm.trans he
      exact .refl d
    · exact exec_rises run hd he
  exact ⟨rises.last, fun low => (rises.grants low).1, fun low => (rises.stamps low).1, fun low => (rises.refusals low).1,
    fun low => (rises.burned low).1⟩

/-! ### What lies behind R119 outside the runs of the part -/

/-- A line in FAULT that keeps the end mark of a cycle: the premises of R119 do not exclude it, and no run reaches it. -/
def faultedAtRest : Line := { Line.reset with
  state := .fault, phase := .done, periodEnd := some 0, recoveryWatch := some none, discEnable := false }

/-- The part with that line as line 0, and the end of its period as the next command. -/
def faultedPart : State := { State.reset.setLine 0 faultedAtRest with pending := [.periodElapsed 0] }

theorem faultedPart_line (i : Fin 12) : faultedPart.line i = if i = 0 then faultedAtRest else Line.reset := by
  show (State.reset.setLine 0 faultedAtRest).line i = _
  rw [setLine_line, reset_line]
  exact if_congr eq_comm rfl rfl

theorem faultedPart_subjectHeld (i : Fin 12) : faultedPart.SubjectHeld i := by
  have line := faultedPart_line i
  split at line
  · refine ⟨fun x hx => ?_, fun n hn => ?_, fun _ => ?_, fun _ => ?_⟩ <;> rw [line] at *
    · cases hx
    · rcases hn with hn | hn <;> cases hn
    · rfl
    · rfl
  · refine ⟨fun x hx => ?_, fun n hn => ?_, fun _ => ?_, fun h => ?_⟩ <;> rw [line] at *
    · cases hx
    · rcases hn with hn | hn <;> cases hn
    · rfl
    · exact absurd rfl h

/-- The end of the period starts a cycle on the line, which rests at once, its recovery watch still running. -/
theorem faultedPart_step : ∃ t, step faultedPart = .next t ∧ (t.line 0).recoveryWatch = some none ∧ (t.line 0).state = .idle := by
  refine ⟨_, rfl, ?_, ?_⟩ <;> rfl

/-- Refutes O57: PERIOD_ELAPSED on a line in FAULT that keeps the end mark of a cycle, which the premises allow, starts a
cycle on it, and its recovery watch then runs outside FAULT. -/
theorem not_fencesHold : ¬Obligations.FencesHold := by
  intro holds
  obtain ⟨t, run, watching, idle⟩ := faultedPart_step
  have premises : faultedPart.SlotsRise ∧ faultedPart.IdsDiffer ∧ (∀ i, faultedPart.SubjectHeld i) ∧ faultedPart.AnswersHeld ∧
      faultedPart.DeliveriesAgree := by
    refine ⟨⟨List.Pairwise.nil, ?_⟩, List.Pairwise.nil, faultedPart_subjectHeld, ⟨?_, ?_⟩, ?_⟩
    · exact fun r hr => absurd hr List.not_mem_nil
    · exact fun r hr => absurd hr List.not_mem_nil
    · exact fun r hr => absurd hr List.not_mem_nil
    · exact fun d hd => absurd hd List.not_mem_nil
  have held := ((holds.2 faultedPart t premises run).1 0).recovery
  rw [watching, idle] at held
  cases held (by simp)

end Sys2Proof.Machine

/-! SUPPORT. What every operation but the request port's own leaves of the port and of the newcomer set: of the port nothing but
its causes and its mask changes, and the set stays apart from the records (R93, R173). -/

namespace Sys2Proof.Machine

open Sys2Proof

/-- Of the port nothing but its causes and its mask differs, newcomers stay apart from the records, and no time passes. -/
structure State.Orderly (s t : State) : Prop where
  port : t.port = { s.port with causes := t.port.causes, mask := t.port.mask }
  newcomers : s.NewcomersApart → t.NewcomersApart
  instant : t.localNs = s.localNs ∧ t.pending = s.pending

theorem State.Orderly.refl (s : State) : s.Orderly s := ⟨rfl, fun h => h, rfl, rfl⟩

theorem State.Orderly.trans {s t u : State} (h : s.Orderly t) (k : t.Orderly u) : s.Orderly u := by
  refine ⟨?_, fun apart => k.newcomers (h.newcomers apart), k.instant.1.trans h.instant.1, k.instant.2.trans h.instant.2⟩
  have port := k.port
  rw [h.port] at port
  exact port

/-- The newcomer set stays apart while it stays and no key comes into the table. -/
theorem newcomersApart_of_keys {s t : State} (newcomers : t.newcomers = s.newcomers)
    (keys : ∀ q ∈ t.records, ∃ r ∈ s.records, r.line = q.line ∧ r.addr = q.addr) (apart : s.NewcomersApart) :
    t.NewcomersApart := by
  obtain ⟨few, once, free⟩ := apart
  unfold State.NewcomersApart
  rw [newcomers]
  refine ⟨few, once, fun n hn q hq same => ?_⟩
  obtain ⟨r, hr, line, addr⟩ := keys q hq
  exact free n hn r hr ⟨line.trans same.1, addr.trans same.2⟩

theorem State.Orderly.of_keys {s t : State} (port : t.port = s.port) (newcomers : t.newcomers = s.newcomers)
    (keys : ∀ q ∈ t.records, ∃ r ∈ s.records, r.line = q.line ∧ r.addr = q.addr)
    (instant : t.localNs = s.localNs ∧ t.pending = s.pending) : s.Orderly t :=
  ⟨by rw [port], newcomersApart_of_keys newcomers keys, instant⟩

/-- A change that leaves the port, the newcomers and the records is orderly. -/
theorem State.Orderly.of_kept {s t : State} (port : t.port = s.port) (newcomers : t.newcomers = s.newcomers)
    (records : t.records = s.records) (instant : t.localNs = s.localNs ∧ t.pending = s.pending) : s.Orderly t :=
  .of_keys port newcomers (fun q hq => ⟨q, records ▸ hq, rfl, rfl⟩) instant

/-! ### The primitive changes -/

theorem orderly_modLine (i : Fin 12) (f : Line → Line) (s : State) : s.Orderly (s.modLine i f) :=
  .of_kept rfl rfl rfl ⟨rfl, rfl⟩

theorem orderly_modRack (i : Fin 12) (f : Rack → Rack) (s : State) : s.Orderly (s.modRack i f) :=
  .of_kept rfl rfl rfl ⟨rfl, rfl⟩

theorem orderly_modClk (f : RowClock → RowClock) (s : State) : s.Orderly (s.modClk f) := .of_kept rfl rfl rfl ⟨rfl, rfl⟩

theorem orderly_modDomain (id : Byte) (f : Domain → Domain) (s : State) : s.Orderly (s.modDomain id f) :=
  .of_kept rfl rfl rfl ⟨rfl, rfl⟩

theorem orderly_raise (c : Cause) (s : State) : s.Orderly (s.raise c) :=
  ⟨rfl, newcomersApart_of_keys rfl fun q hq => ⟨q, hq, rfl, rfl⟩, rfl, rfl⟩

theorem orderly_setChan (ch : Chan) (c : RefChannel) (s : State) : s.Orderly (s.setChan ch c) :=
  .of_kept (setChan_port ..) (setChan_newcomers ..) (setChan_records ..) ⟨setChan_localNs .., setChan_pending ..⟩

theorem State.Orderly.line (i : Fin 12) (f : Line → Line) {s t : State} (h : s.Orderly t) : s.Orderly (t.modLine i f) :=
  h.trans (orderly_modLine i f t)

theorem State.Orderly.raise (c : Cause) {s t : State} (h : s.Orderly t) : s.Orderly (t.raise c) := h.trans (orderly_raise c t)

theorem orderly_updateRecord (slot : Nat) (f : Endpoint → Endpoint) (s : State) : s.Orderly (s.updateRecord slot f) :=
  .of_keys (updateRecord_port ..) (updateRecord_newcomers ..)
    (forall_updateRecord slot f s (fun _ h => h) fun r hr => ⟨r, hr, rfl, rfl⟩)
    ⟨updateRecord_localNs .., updateRecord_pending ..⟩

theorem orderly_removeRecord (slot : Nat) (s : State) : s.Orderly (s.removeRecord slot) := by
  refine .of_keys (removeRecord_port ..) (removeRecord_newcomers ..) (fun q hq => ⟨q, ?_, rfl, rfl⟩)
    ⟨removeRecord_localNs .., removeRecord_pending ..⟩
  rw [removeRecord_records] at hq
  split at hq
  · exact hq
  · exact (List.mem_filter.1 hq).1

theorem orderly_takeClasses (i : Fin 12) (s : State) : s.Orderly (s.takeClasses i) := by
  refine .of_keys rfl rfl (fun q hq => ?_) ⟨rfl, rfl⟩
  obtain ⟨r, hr, rfl⟩ := List.mem_map.1 hq
  refine ⟨r, hr, ?_⟩
  split <;> exact ⟨rfl, rfl⟩

theorem orderly_foldl {α : Type} {f : State → α → State} (hf : ∀ (s : State) a, s.Orderly (f s a)) (l : List α) (s : State) :
    s.Orderly (l.foldl f s) := by
  induction l generalizing s with
  | nil => exact .refl s
  | cons a l ih => exact (hf s a).trans (ih _)

theorem orderly_forAll12 {f : Fin 12 → State → State} (hf : ∀ i (s : State), s.Orderly (f i s)) (s : State) :
    s.Orderly (s.forAll12 f) := orderly_foldl (fun s i => hf i s) _ s

/-! ### The endpoint table and the newcomer set -/

theorem orderly_updateAll (p : Endpoint → Bool) (f : Endpoint → Endpoint) (s : State) : s.Orderly (s.updateAll p f) :=
  orderly_foldl (fun s n => orderly_updateRecord n f s) _ s

theorem orderly_eptMiss (slot limit : Nat) (s : State) : s.Orderly (s.eptMiss slot limit) := by
  unfold State.eptMiss
  split
  · exact .refl s
  · split
    · exact (orderly_updateRecord ..).raise _
    · exact orderly_updateRecord ..

theorem orderly_eptEnd (slot : Nat) (how : TxnEnd) (s : State) : s.Orderly (s.eptEnd slot how) := by
  unfold State.eptEnd
  split
  · exact .refl s
  · split
    · exact orderly_removeRecord ..
    · exact orderly_updateRecord ..

/-- A newcomer's entry changes its identity and its count alone. -/
theorem newcomersApart_map {s t : State} {g : Newcomer → Newcomer} (key : ∀ n, (g n).line = n.line ∧ (g n).addr = n.addr)
    (newcomers : t.newcomers = s.newcomers.map g) (records : t.records = s.records) (apart : s.NewcomersApart) :
    t.NewcomersApart := by
  obtain ⟨few, once, free⟩ := apart
  unfold State.NewcomersApart
  rw [newcomers, records, List.length_map, List.pairwise_map]
  refine ⟨few, once.imp fun {a b} differ => ?_, fun n hn r hr => ?_⟩
  · rwa [(key a).1, (key a).2, (key b).1, (key b).2]
  · obtain ⟨m, hm, rfl⟩ := List.mem_map.1 hn
    rw [(key m).1, (key m).2]
    exact free m hm r hr

/-- A key that neither an entry nor a record has may join a set that is not full (R94). -/
theorem newcomersApart_append {s t : State} {n : Newcomer} (newcomers : t.newcomers = s.newcomers ++ [n])
    (records : t.records = s.records) (room : s.newcomers.length < 16)
    (new : ∀ m ∈ s.newcomers, ¬(m.line = n.line ∧ m.addr = n.addr))
    (unheld : ∀ r ∈ s.records, ¬(r.line = n.line ∧ r.addr = n.addr)) (apart : s.NewcomersApart) : t.NewcomersApart := by
  obtain ⟨few, once, free⟩ := apart
  unfold State.NewcomersApart
  rw [newcomers, records]
  refine ⟨by simp; omega, ?_, fun m hm r hr => ?_⟩
  · rw [List.pairwise_append]
    refine ⟨once, List.pairwise_singleton .., fun a ha b hb => ?_⟩
    rw [List.mem_singleton.1 hb]
    exact new a ha
  · rcases List.mem_append.1 hm with hm | hm
    · exact free m hm r hr
    · rw [List.mem_singleton.1 hm]
      exact unheld r hr

theorem newcomersApart_filter {s t : State} {p : Newcomer → Bool} (newcomers : t.newcomers = s.newcomers.filter p)
    (records : t.records = s.records) (apart : s.NewcomersApart) : t.NewcomersApart := by
  obtain ⟨few, once, free⟩ := apart
  unfold State.NewcomersApart
  rw [newcomers, records]
  exact ⟨(List.length_filter_le ..).trans few, once.filter _, fun n hn => free n (List.mem_filter.1 hn).1⟩

theorem byKey_none {s : State} {i : Fin 12} {addr : Nat} (h : s.byKey i addr = none) :
    ∀ r ∈ s.records, ¬(r.line = i ∧ r.addr = addr) := by
  intro r hr same
  have := List.find?_eq_none.1 h r hr
  simp [same.1, same.2] at this

theorem orderly_newcomer (i : Fin 12) (addr : Nat) (ident : BitVec 32) {s : State} (unheld : s.byKey i addr = none) :
    s.Orderly (s.newcomer i addr ident) := by
  unfold State.newcomer
  split
  · refine ⟨rfl, newcomersApart_map (fun n => ?_) rfl rfl, rfl, rfl⟩
    split <;> exact ⟨rfl, rfl⟩
  · rename_i unlisted
    split
    · rename_i room
      refine ⟨rfl, newcomersApart_append rfl rfl room (fun m hm same => unlisted ?_) (byKey_none unheld),
        rfl, rfl⟩
      exact List.any_eq_true.2 ⟨m, hm, by simp [same.1, same.2]⟩
    · exact .of_kept rfl rfl rfl ⟨rfl, rfl⟩

theorem orderly_eptAnnounce (i : Fin 12) (addr : Nat) (ident : BitVec 32) (s : State) :
    s.Orderly (s.eptAnnounce i addr ident) := by
  unfold State.eptAnnounce
  split
  · exact orderly_updateRecord ..
  · rename_i unheld
    exact orderly_newcomer i addr ident unheld

/-! ### Stamp domains and racks -/

theorem orderly_removeRetired (id : Byte) (s : State) : s.Orderly (s.removeRetired id) := by
  unfold State.removeRetired
  split
  · split
    · exact .of_kept rfl rfl rfl ⟨rfl, rfl⟩
    · exact .refl s
  · exact .refl s

theorem orderly_stsEnd (slot : Nat) (held : Option Answer) (how : TxnEnd) (s : State) : s.Orderly (s.stsEnd slot held how) := by
  unfold State.stsEnd
  split
  · exact .refl s
  · exact orderly_updateRecord ..
  · exact ((orderly_modDomain ..).trans (orderly_removeRetired ..)).trans (orderly_updateRecord ..)

theorem orderly_rackChanged (i : Fin 12) (s : State) : s.Orderly (s.rackChanged i) := (orderly_modRack ..).raise _

theorem orderly_alarmNotice (i : Fin 12) (s : State) : s.Orderly (s.alarmNotice i) := by
  unfold State.alarmNotice
  split
  · refine State.Orderly.trans ?_ (orderly_raise ..)
    exact .of_kept rfl rfl rfl ⟨rfl, rfl⟩
  · exact .refl s

theorem orderly_enterAlarm (i : Fin 12) (c : AlarmCause) (s : State) : s.Orderly (s.enterAlarm i c) :=
  ((orderly_modRack ..).trans (orderly_alarmNotice ..)).trans (orderly_rackChanged ..)

theorem orderly_rackLineFault (i : Fin 12) (s : State) : s.Orderly (s.rackLineFault i) := by
  unfold State.rackLineFault
  split
  · exact .refl s
  · exact .refl s
  all_goals exact orderly_enterAlarm ..

theorem orderly_sweepQuiet (i : Fin 12) (x : Indicators) (s : State) : s.Orderly (s.sweepQuiet i x) := by
  unfold State.sweepQuiet
  split
  · exact (orderly_modRack ..).trans (orderly_rackChanged ..)
  · exact orderly_modRack ..

theorem orderly_sweepWatch (i : Fin 12) (x : Indicators) (s : State) : s.Orderly (s.sweepWatch i x) := by
  unfold State.sweepWatch
  split
  · split
    · exact (orderly_modRack ..).trans (orderly_rackChanged ..)
    · exact orderly_modRack ..
  · split
    · exact (orderly_modRack ..).trans (orderly_rackChanged ..)
    · exact .refl s

theorem orderly_sweepWarn (i : Fin 12) (x : Indicators) (s : State) : s.Orderly (s.sweepWarn i x) := by
  unfold State.sweepWarn
  split
  · exact orderly_enterAlarm ..
  · split
    · split
      · exact (orderly_modRack ..).trans (orderly_rackChanged ..)
      · exact orderly_modRack ..
    · split
      · split
        · split
          · exact (orderly_modRack ..).trans (orderly_rackChanged ..)
          · exact orderly_modRack ..
        · exact orderly_modRack ..
      · exact .refl s

theorem orderly_sweep (i : Fin 12) (s : State) : s.Orderly (s.sweep i) := by
  unfold State.sweep
  refine State.Orderly.trans ?_ (orderly_modRack ..)
  unfold State.sweepRule
  split
  · exact .refl s
  · exact orderly_sweepQuiet ..
  · exact orderly_sweepWatch ..
  · exact orderly_sweepWarn ..
  · exact .refl s

/-! ### Lines -/

theorem orderly_beginTransaction (i : Fin 12) (r : Endpoint) (s : State) : s.Orderly (s.beginTransaction i r) :=
  ((State.Orderly.of_kept (captureT1_port ..) (captureT1_newcomers ..) (captureT1_records ..)
    ⟨captureT1_localNs .., captureT1_pending ..⟩).line i _).trans
    (orderly_updateRecord ..)

theorem orderly_urgentPhase (i : Fin 12) (s : State) : s.Orderly (s.urgentPhase i).1 := by
  unfold State.urgentPhase
  split
  · exact orderly_beginTransaction ..
  · split <;> exact orderly_modLine ..

theorem orderly_goOn (i : Fin 12) (s : State) : s.Orderly (s.goOn i).1 := by
  unfold State.goOn
  split
  · split
    · exact (orderly_modLine ..).trans (orderly_beginTransaction ..)
    · split
      · exact orderly_modLine ..
      · exact (orderly_modLine ..).trans (orderly_urgentPhase ..)
  · exact orderly_urgentPhase ..
  · exact orderly_modLine ..
  · exact .refl s
  · exact .refl s

theorem orderly_newCycle (i : Fin 12) (s : State) : s.Orderly (s.newCycle i) :=
  ((orderly_takeClasses i s).line i _).trans (orderly_goOn ..)

theorem orderly_proceed (i : Fin 12) (s : State) : s.Orderly (s.proceed i) := by
  unfold State.proceed
  split
  · exact (orderly_goOn ..).trans (orderly_newCycle ..)
  · exact orderly_goOn ..

theorem orderly_endTransaction (i : Fin 12) (how : TxnEnd) (s : State) : s.Orderly (s.endTransaction i how) := by
  unfold State.endTransaction
  split
  · exact .refl s
  · exact ((orderly_eptEnd ..).trans (orderly_stsEnd ..)).line i _

theorem orderly_afterEnd (i : Fin 12) (s : State) : s.Orderly (s.afterEnd i) := by
  unfold State.afterEnd
  split
  · exact orderly_modLine ..
  · exact (orderly_modLine ..).trans (orderly_proceed ..)

theorem orderly_miss (i : Fin 12) (s : State) : s.Orderly (s.miss i) := by
  unfold State.miss
  split
  · exact .refl s
  · exact (((orderly_modLine ..).trans (orderly_eptMiss ..)).trans (orderly_endTransaction ..)).trans (orderly_afterEnd ..)

theorem orderly_foundIdle (i : Fin 12) (s : State) : s.Orderly (s.foundIdle i) := by
  unfold State.foundIdle
  split
  · exact .refl s
  · split
    · split
      · exact orderly_modLine ..
      · exact (orderly_modLine ..).trans (orderly_updateRecord ..)
    · exact .refl s

theorem orderly_abandon (i : Fin 12) (s : State) : s.Orderly (s.abandon i) :=
  (orderly_modLine ..).trans (orderly_endTransaction ..)

theorem orderly_endDiscovery (i : Fin 12) (s : State) : s.Orderly (s.endDiscovery i) :=
  (orderly_modLine ..).trans (orderly_afterEnd ..)

theorem orderly_wantPoll (i : Fin 12) (slot : Nat) (s : State) : s.Orderly (s.wantPoll i slot) := by
  unfold State.wantPoll
  split
  · exact .refl s
  · split
    · exact .refl s
    · split <;> exact orderly_modLine ..

theorem orderly_sendClose (i : Fin 12) (slot : Nat) (s : State) : s.Orderly (s.sendClose i slot) := by
  unfold State.sendClose
  split
  · exact .refl s
  · exact orderly_modLine ..

theorem orderly_reportSample (i : Fin 12) (v : Verdict) (slot : Nat) (s : State) : s.Orderly (s.reportSample i v slot) := by
  unfold State.reportSample
  split
  · exact orderly_modRack ..
  · exact .refl s

theorem orderly_decideCorrection (i : Fin 12) (v : Verdict) (slot : Nat) (s : State) :
    s.Orderly (s.decideCorrection i v slot) := by
  unfold State.decideCorrection
  split
  · exact orderly_updateRecord ..
  · exact .refl s

theorem orderly_stampLine (slot : Nat) (ev : Bool) (t4 : Capture) (id : Byte) (n : Nat) (s : State) :
    s.Orderly (s.stampLine slot ev t4 id n) := by
  unfold State.stampLine
  split
  · exact .refl s
  · exact (orderly_modDomain ..).trans (orderly_updateRecord ..)

theorem orderly_decideStamp (ev : Bool) (t4 : Capture) (p : Reply) (slot : Nat) (s : State) :
    s.Orderly (s.decideStamp ev t4 p slot) := by
  unfold State.decideStamp
  split
  · exact orderly_stampLine ..
  · exact .refl s

theorem orderly_exchange (i : Fin 12) (v : Verdict) (ev : Bool) (slot : Nat) (p : Reply) (t4 : Capture) (s : State) :
    s.Orderly (s.exchange i v ev slot p t4) :=
  (((orderly_updateRecord ..).trans (orderly_reportSample ..)).trans (orderly_decideCorrection ..)).trans
    (orderly_decideStamp ..)

theorem orderly_askPoll (i : Fin 12) (p : Reply) (slot : Nat) (s : State) : s.Orderly (s.askPoll i p slot) := by
  unfold State.askPoll
  split
  · exact orderly_wantPoll ..
  · exact .refl s

theorem orderly_handoff (i : Fin 12) (p : Reply) (t4 : Capture) (s : State) : s.Orderly (s.handoff i p t4) := by
  unfold State.handoff
  split
  · exact .refl s
  · split
    · exact .refl s
    · exact ((orderly_exchange ..).trans (orderly_askPoll ..)).trans (orderly_sendClose ..)

theorem orderly_missIfOver (i : Fin 12) (s : State) : s.Orderly (s.missIfOver i) := by
  unfold State.missIfOver
  split
  · exact orderly_miss ..
  · exact .refl s

theorem orderly_failFrame (i : Fin 12) (bad : Bool) (s : State) : s.Orderly (s.failFrame i bad) :=
  (orderly_modLine ..).trans (orderly_missIfOver ..)

theorem orderly_pollingFrame (i : Fin 12) (f : FollowerFrame) (edge : Capture) (s : State) :
    s.Orderly (s.pollingFrame i f edge) := by
  unfold State.pollingFrame
  split
  · exact orderly_failFrame ..
  · exact orderly_failFrame ..
  · split
    · exact orderly_handoff ..
    · exact orderly_failFrame ..

theorem orderly_takeAnnounce (i : Fin 12) (f : FollowerFrame) (s : State) : s.Orderly (s.takeAnnounce i f) := by
  unfold State.takeAnnounce
  split
  · exact orderly_modLine ..
  · split
    · exact orderly_eptAnnounce ..
    · exact .refl s
  · exact .refl s

theorem orderly_endIfOver (i : Fin 12) (s : State) : s.Orderly (s.endIfOver i) := by
  unfold State.endIfOver
  split
  · exact orderly_endDiscovery ..
  · exact .refl s

theorem orderly_handFrame (i : Fin 12) (f : FollowerFrame) (edge : Capture) (s : State) :
    s.Orderly (s.handFrame i f edge) := by
  unfold State.handFrame
  split
  · exact orderly_pollingFrame ..
  · exact (orderly_takeAnnounce ..).trans (orderly_endIfOver ..)
  all_goals exact .refl s

theorem orderly_frameEnded (i : Fin 12) (cs : List RxChar) (s : State) : s.Orderly (s.frameEnded i cs) := by
  unfold State.frameEnded
  split
  · exact .refl s
  · exact (orderly_modLine ..).trans (orderly_handFrame ..)

theorem orderly_firstChar (i : Fin 12) (start : Nat) (edge : Capture) (c : RxChar) (s : State) :
    s.Orderly (s.firstChar i start edge c) := by
  unfold State.firstChar
  split <;> exact orderly_modLine ..

theorem orderly_nextChar (i : Fin 12) (start : Nat) (c : RxChar) (s : State) : s.Orderly (s.nextChar i start c) := by
  unfold State.nextChar
  split
  · exact orderly_frameEnded ..
  · exact orderly_modLine ..

theorem orderly_receiveChar (i : Fin 12) (start : Nat) (edge : Capture) (c : RxChar) (s : State) :
    s.Orderly (s.receiveChar i start edge c) := by
  unfold State.receiveChar
  split
  · exact (orderly_modLine ..).trans (orderly_firstChar ..)
  · split
    · exact ((orderly_frameEnded ..).trans (orderly_firstChar ..)).line i _
    · exact (orderly_modLine ..).trans (orderly_nextChar ..)

theorem orderly_lineFault (i : Fin 12) (s : State) : s.Orderly (s.lineFault i) :=
  (((((orderly_foundIdle ..).trans (orderly_abandon ..)).line i _).trans (orderly_updateAll ..)).trans
    (orderly_rackLineFault ..)).raise _

theorem orderly_settleWindow (i : Fin 12) (s : State) : s.Orderly (s.settleWindow i) := by
  unfold State.settleWindow
  split
  · split
    · exact orderly_missIfOver ..
    · exact orderly_endIfOver ..
    all_goals exact .refl s
  · exact .refl s

theorem orderly_listen (i : Fin 12) (was v : Bool) (s : State) : s.Orderly (s.listen i was v) := by
  unfold State.listen
  split
  · exact orderly_modLine ..
  · exact (orderly_modLine ..).trans (orderly_settleWindow ..)
  · exact orderly_receiveChar ..

theorem orderly_sampled (i : Fin 12) (was v : Bool) (s : State) : s.Orderly (s.sampled i was v) := by
  unfold State.sampled
  split
  · exact .refl s
  · split
    · exact orderly_modLine ..
    · split
      · exact orderly_lineFault ..
      · exact orderly_listen ..

theorem orderly_restartFrom (i : Fin 12) (st : LineState) (quiesce : Bool) (s : State) :
    s.Orderly (s.restartFrom i st quiesce) := by
  unfold State.restartFrom
  split
  · exact .refl s
  · exact .refl s
  · exact .refl s
  · exact orderly_newCycle ..
  · exact orderly_newCycle ..
  all_goals
    split
    · exact orderly_modLine ..
    · exact orderly_newCycle ..

theorem orderly_lineRestart (i : Fin 12) (s : State) : s.Orderly (s.lineRestart i) :=
  ((orderly_abandon ..).line i _).trans (orderly_restartFrom ..)

theorem orderly_resumeCycle (i : Fin 12) (s : State) : s.Orderly (s.resumeCycle i) := by
  unfold State.resumeCycle
  split
  · exact orderly_modLine ..
  · exact orderly_newCycle ..

theorem orderly_recover (i : Fin 12) (s : State) : s.Orderly (s.recover i) :=
  ((orderly_modLine ..).trans (orderly_resumeCycle ..)).raise _

/-! ### What a command keeps (R93, R173) -/

/-- The port stays consistent and newcomers stay apart. -/
structure State.Steady (s t : State) : Prop where
  port : s.PortHolds → t.PortHolds
  newcomers : s.NewcomersApart → t.NewcomersApart

theorem State.Steady.refl (s : State) : s.Steady s := ⟨fun h => h, fun h => h⟩

theorem State.Steady.trans {s t u : State} (h : s.Steady t) (k : t.Steady u) : s.Steady u :=
  ⟨fun p => k.port (h.port p), fun n => k.newcomers (h.newcomers n)⟩

theorem State.Orderly.steady {s t : State} (h : s.Orderly t) : s.Steady t := by
  refine ⟨fun holds => ?_, h.newcomers⟩
  unfold State.PortHolds
  rw [h.port]
  exact holds

theorem steady_foldl {α : Type} {f : State → α → State} (hf : ∀ (s : State) a, s.Steady (f s a)) (l : List α) (s : State) :
    s.Steady (l.foldl f s) := by
  induction l generalizing s with
  | nil => exact .refl s
  | cons a l ih => exact (hf s a).trans (ih _)

/-! ### Time and the references -/

theorem steady_advance (d : Nat) (s : State) : s.Steady (s.advance d) := by
  refine ⟨fun holds => ?_, newcomersApart_of_keys (advance_newcomers ..) fun q hq => ⟨q, advance_records s d ▸ hq, rfl, rfl⟩⟩
  unfold State.PortHolds
  rw [advance_port]
  exact holds

theorem orderly_tick (s : State) : s.Orderly s.tick :=
  .of_kept (tick_port ..) (tick_newcomers ..) (tick_records ..) ⟨tick_localNs .., tick_pending ..⟩

theorem orderly_takeTick (s : State) : s.Orderly s.takeTick := by
  unfold State.takeTick
  split
  · refine State.Orderly.trans ?_ (orderly_tick _)
    exact .of_kept rfl rfl rfl ⟨rfl, rfl⟩
  · exact .refl s

theorem orderly_takeStart (s : State) : s.Orderly s.takeStart := by
  unfold State.takeStart
  split
  · exact .of_kept rfl rfl rfl ⟨rfl, rfl⟩
  · exact .refl s

theorem steady_reachTick (s : State) : s.Steady s.reachTick := by
  unfold State.reachTick
  split
  · exact .refl s
  · exact steady_advance ..

theorem steady_reachStart (s : State) : s.Steady s.reachStart := by
  unfold State.reachStart
  split
  · exact .refl s
  · exact steady_advance ..

theorem steady_samples (i : Fin 12) (levels : List Bool) (s : State) : s.Steady (s.samples i levels) :=
  steady_foldl (fun _ v => (steady_advance ..).trans ((orderly_modLine i _ _).trans (orderly_sampled i _ v _)).steady) levels s

theorem orderly_rowStep (row : RowTime) (s : State) : s.Orderly (s.rowStep row) := by
  unfold State.rowStep State.eptStep State.walkReset
  exact (((orderly_modClk ..).raise _).trans (orderly_updateAll ..)).trans (orderly_forAll12 (fun _ _ => orderly_modRack ..) _)

theorem orderly_measure (ch : Chan) (p : Int) (n x : Nat) (s : State) : s.Orderly (s.measure ch p n x) := by
  unfold State.measure
  split
  · unfold State.measureAcquiring
    split
    · exact (orderly_rowStep ..).trans (orderly_modClk ..)
    · split <;> exact orderly_modClk ..
  · unfold State.measureLocked
    split
    · exact (orderly_modClk ..).trans (orderly_modClk ..)
    · exact orderly_modClk ..
  · exact .refl s
  · exact .refl s

theorem orderly_reportChan (old : State) (ch : Chan) (s : State) : s.Orderly (State.reportChan old ch s) := by
  rw [reportChan_clk]
  exact .of_kept rfl rfl rfl ⟨rfl, rfl⟩

theorem orderly_noteRef (old s : State) : s.Orderly (State.noteRef old s) := by
  unfold State.noteRef
  split
  · exact orderly_raise ..
  · exact .refl s

theorem orderly_handMeasure (old : State) (ch : Chan) (s : State) : s.Orderly (State.handMeasure old ch s) := by
  unfold State.handMeasure
  split
  · split
    · exact orderly_measure ..
    · exact .refl s
  · exact .refl s

theorem orderly_takeEdge (ch : Chan) (s : State) : s.Orderly (s.takeEdge ch) := by
  unfold State.takeEdge State.ppsEdge State.chanEdge
  split
  · exact (((orderly_setChan ..).trans (orderly_reportChan ..)).trans (orderly_handMeasure ..)).trans (orderly_noteRef ..)
  · exact .refl s

theorem steady_todSamples (ch : Chan) (levels : List Bool) (s : State) : s.Steady (s.todSamples ch levels) :=
  steady_foldl (fun _ _ => (steady_advance ..).trans (orderly_setChan ..).steady) levels s

theorem orderly_loseChan (ch : Chan) (s : State) : s.Orderly (s.loseChan ch) :=
  ((orderly_setChan ..).trans (orderly_reportChan ..)).trans (orderly_noteRef ..)

theorem orderly_revertIfCarried (body : List Byte) (s : State) : s.Orderly (s.revertIfCarried body) := by
  unfold State.revertIfCarried State.revertTest
  split
  · split
    · exact orderly_modClk ..
    · exact .refl s
  · exact .refl s

theorem orderly_refConfigured (body : List Byte) (s : State) : s.Orderly (s.refConfigured body) := by
  have enables : s.Orderly (s.setEnables body) := .of_kept rfl rfl rfl ⟨rfl, rfl⟩
  exact ((((enables.trans (orderly_reportChan ..)).trans (orderly_reportChan ..)).trans (orderly_modClk ..)).trans
    (orderly_revertIfCarried ..)).trans (orderly_noteRef ..)

end Sys2Proof.Machine

/-! SUPPORT. The owning blocks and the request port along a step: the port stays consistent and newcomers stay apart (R93, R173),
and what the moves of a step keep of the endpoint table and of the racks (R68, R152). -/

namespace Sys2Proof.Machine

open Sys2Proof

/-! ### The owning blocks -/

/-- A block's work is orderly. -/
def OrderlyBlock (block : State → Done) : Prop := ∀ s : State, s.Orderly (block s).1

theorem orderly_lineEnable (i : Fin 12) (c on : Bool) (s : State) : s.Orderly (s.lineEnable i c on) := by
  unfold State.lineEnable
  split
  · split
    · split
      · exact (orderly_modLine ..).trans (orderly_newCycle ..)
      · exact .refl s
    · split
      · exact .refl s
      · exact (orderly_abandon ..).line i _
  · exact .refl s

theorem orderlyBlock_refConfig (body : List Byte) : OrderlyBlock (refConfigBlock body) := by
  intro s
  unfold refConfigBlock
  split
  · exact orderly_refConfigured body s
  · exact .refl s

theorem orderlyBlock_setTime (body : List Byte) : OrderlyBlock (setTimeBlock body) := by
  intro s
  unfold setTimeBlock
  split
  · exact orderly_rowStep ..
  · exact .refl s

theorem orderlyBlock_lineConfig (body : List Byte) : OrderlyBlock (lineConfigBlock body) := by
  intro s
  unfold lineConfigBlock
  split
  · exact .refl s
  · split
    · exact (orderly_modLine ..).trans (orderly_lineEnable ..)
    · exact .refl s

theorem orderlyBlock_lineQuiesce (body : List Byte) : OrderlyBlock (lineQuiesceBlock body) := by
  intro s
  unfold lineQuiesceBlock
  split
  · exact .refl s
  · unfold State.lineQuiesce
    split
    · exact .of_kept rfl rfl rfl ⟨rfl, rfl⟩
    · exact .of_kept rfl rfl rfl ⟨rfl, rfl⟩
    · exact .of_kept rfl rfl rfl ⟨rfl, rfl⟩
    · exact .of_kept rfl rfl rfl ⟨rfl, rfl⟩
    · exact .of_kept rfl rfl rfl ⟨rfl, rfl⟩
    · exact .refl s
    · exact .refl s

theorem orderlyBlock_lineResume (body : List Byte) : OrderlyBlock (lineResumeBlock body) := by
  intro s
  unfold lineResumeBlock
  split
  · exact .refl s
  · show s.Orderly (s.lineResume _)
    unfold State.lineResume
    split
    · exact orderly_newCycle ..
    · exact orderly_modLine ..

theorem orderly_lineCleared (i : Fin 12) (s : State) : s.Orderly (s.lineCleared i) := by
  have wiped : s.Orderly (((s.foundIdle i).abandon i).modLine i Line.wipe) :=
    ((orderly_foundIdle ..).trans (orderly_abandon ..)).line i _
  exact wiped.trans ⟨rfl, newcomersApart_filter rfl rfl, rfl, rfl⟩

theorem orderlyBlock_lineReset (body : List Byte) : OrderlyBlock (lineResetBlock body) := by
  intro s
  unfold lineResetBlock
  split
  · exact .refl s
  · show s.Orderly (s.lineReset _)
    unfold State.lineReset
    split
    · exact orderly_lineCleared ..
    · exact (orderly_lineCleared ..).trans (orderly_newCycle ..)

theorem orderly_dropNewcomer (i : Fin 12) (addr : Nat) (s : State) : s.Orderly (s.dropNewcomer i addr) :=
  ⟨rfl, newcomersApart_filter rfl rfl, rfl, rfl⟩

/-- A key whose newcomer entry has left the set may come into the table (R96). -/
theorem newcomersApart_enroll (r : Endpoint) {s : State} (apart : s.NewcomersApart) :
    ((s.dropNewcomer r.line r.addr).addRecord r).NewcomersApart := by
  obtain ⟨few, once, free⟩ := (orderly_dropNewcomer r.line r.addr s).newcomers apart
  unfold State.NewcomersApart
  rw [addRecord_newcomers, addRecord_records]
  refine ⟨few, once, fun n hn q hq => ?_⟩
  rcases mem_insertRecord.1 hq with rfl | hq
  · have other := (List.mem_filter.1 hn).2
    intro same
    simp [same.1, same.2] at other
  · exact free n hn q hq

theorem orderlyBlock_enroll (body : List Byte) : OrderlyBlock (enrollBlock body) := by
  intro s
  unfold enrollBlock
  split
  · exact .refl s
  · split
    · unfold State.enroll
      dsimp only
      split
      · exact .refl s
      · split
        · exact .refl s
        · refine ⟨?_, newcomersApart_enroll (newRecord body s.freeSlot _ _),
            addRecord_localNs .., addRecord_pending ..⟩
          rw [addRecord_port]
          rfl
    · exact .refl s

theorem orderlyBlock_lookup (body : List Byte) : OrderlyBlock (lookupBlock body) := by
  intro s
  unfold lookupBlock
  split <;> exact .refl s

theorem orderlyBlock_amend (body : List Byte) : OrderlyBlock (amendBlock body) := by
  intro s
  unfold amendBlock
  split
  · exact .refl s
  · split
    · split
      · exact .refl s
      · exact orderly_updateRecord ..
    · exact .refl s

theorem orderlyBlock_suspend (body : List Byte) : OrderlyBlock (suspendBlock body) := by
  intro s
  unfold suspendBlock
  split
  · exact .refl s
  · unfold State.suspend
    split
    · exact .refl s
    · exact .refl s
    all_goals
      split
      · exact .refl s
      · split <;> exact orderly_updateRecord ..

theorem orderlyBlock_resume (body : List Byte) : OrderlyBlock (resumeBlock body) := by
  intro s
  unfold resumeBlock
  split
  · exact .refl s
  · split
    · exact orderly_updateRecord ..
    · exact .refl s

theorem orderlyBlock_retire (body : List Byte) : OrderlyBlock (retireBlock body) := by
  intro s
  unfold retireBlock
  split
  · exact .refl s
  · unfold State.retire
    split
    · exact .refl s
    · split
      · exact orderly_updateRecord ..
      · exact orderly_removeRecord ..

theorem orderlyBlock_scan (body : List Byte) : OrderlyBlock (scanBlock body) := by
  intro s
  unfold scanBlock
  split <;> exact .refl s

theorem orderlyBlock_dismiss (body : List Byte) : OrderlyBlock (dismissBlock body) := by
  intro s
  unfold dismissBlock
  split
  · exact .refl s
  · split
    · split
      · exact orderly_dropNewcomer ..
      · exact .refl s
    · exact .refl s

theorem orderlyBlock_domainOpen (body : List Byte) : OrderlyBlock (domainOpenBlock body) := by
  intro s
  unfold domainOpenBlock
  split
  · split
    · exact .refl s
    · split
      · exact .refl s
      · exact .of_kept rfl rfl rfl ⟨rfl, rfl⟩
  · exact .refl s

theorem orderlyBlock_domainAmend (body : List Byte) : OrderlyBlock (domainAmendBlock body) := by
  intro s
  unfold domainAmendBlock
  split
  · exact .refl s
  · split
    · split
      · exact .refl s
      · exact orderly_modDomain ..
    · exact .refl s

theorem orderlyBlock_domainFreeze (body : List Byte) : OrderlyBlock (domainFreezeBlock body) := by
  intro s
  unfold domainFreezeBlock
  split
  · exact .refl s
  · split
    · exact orderly_modDomain ..
    · exact .refl s
    · exact .refl s

theorem orderlyBlock_domainThaw (body : List Byte) : OrderlyBlock (domainThawBlock body) := by
  intro s
  unfold domainThawBlock
  split
  · exact .refl s
  · split
    · split
      · exact .refl s
      · exact orderly_modDomain ..
    · exact .refl s
    · exact .refl s

theorem orderlyBlock_domainRetire (body : List Byte) : OrderlyBlock (domainRetireBlock body) := by
  intro s
  unfold domainRetireBlock
  split
  · exact .refl s
  · split
    · exact .refl s
    · split
      · exact .of_kept rfl rfl rfl ⟨rfl, rfl⟩
      · exact orderly_modDomain ..

theorem orderlyBlock_domainLookup (body : List Byte) : OrderlyBlock (domainLookupBlock body) := by
  intro s
  unfold domainLookupBlock
  split <;> exact .refl s

theorem orderly_rackEnable (i : Fin 12) (c on : Bool) (s : State) : s.Orderly (s.rackEnable i c on) := by
  unfold State.rackEnable
  split
  · split
    · split
      · exact (orderly_modRack ..).trans (orderly_rackChanged ..)
      · exact .refl s
    · split
      · exact .refl s
      · exact (orderly_modRack ..).trans (orderly_rackChanged ..)
  · exact .refl s

theorem orderlyBlock_rackConfig (body : List Byte) : OrderlyBlock (rackConfigBlock body) := by
  intro s
  unfold rackConfigBlock
  split
  · exact .refl s
  · split
    · exact (orderly_modRack ..).trans (orderly_rackEnable ..)
    · exact .refl s

theorem orderlyBlock_rackLookup (body : List Byte) : OrderlyBlock (rackLookupBlock body) := by
  intro s
  unfold rackLookupBlock
  split
  · exact .refl s
  · exact .of_kept rfl rfl rfl ⟨rfl, rfl⟩

theorem orderlyBlock_rackClear (body : List Byte) : OrderlyBlock (rackClearBlock body) := by
  intro s
  unfold rackClearBlock
  split
  · exact .refl s
  · split
    · exact (orderly_modRack ..).trans (orderly_rackChanged ..)
    · exact .refl s

theorem orderlyBlock_rackRebase (body : List Byte) : OrderlyBlock (rackRebaseBlock body) := by
  intro s
  unfold rackRebaseBlock
  split
  · exact .refl s
  · exact orderly_updateAll ..

theorem orderlyBlock_status (body : List Byte) : OrderlyBlock (statusBlock body) := by
  intro s
  unfold statusBlock
  split
  · exact .refl s
  · split <;> exact .refl s

/-- A change of the causes or the mask alone. -/
theorem orderly_modPort {f : Port → Port} {s : State}
    (calm : f s.port = { s.port with causes := (f s.port).causes, mask := (f s.port).mask }) : s.Orderly (s.modPort f) :=
  ⟨calm, newcomersApart_of_keys rfl fun q hq => ⟨q, hq, rfl, rfl⟩, rfl, rfl⟩

theorem orderlyBlock_restart : OrderlyBlock restartBlock := by
  intro s
  have emptied : s.Orderly s.emptyTables :=
    ⟨rfl, fun _ => ⟨Nat.zero_le _, List.Pairwise.nil, fun n hn => absurd hn List.not_mem_nil⟩, rfl, rfl⟩
  have restarted := emptied.trans (orderly_forAll12 orderly_lineRestart s.emptyTables)
  unfold restartBlock
  exact restarted.trans (orderly_modPort (f := fun p => { p with causes := 0, mask := 0 }) rfl)

theorem orderlyBlock_ack (body : List Byte) : OrderlyBlock (ackBlock body) := by
  intro s
  exact orderly_modPort (f := fun p => { p with causes := p.causes &&& ~~~BitVec.ofNat 8 (field body 0 1) }) rfl

theorem orderlyBlock_mask (body : List Byte) : OrderlyBlock (maskBlock body) := by
  intro s
  exact orderly_modPort (f := fun p => { p with mask := BitVec.ofNat 8 (field body 0 1) }) rfl

theorem requestOf_orderly (code : Nat) (body : List Byte) {lengths : List Nat} {block : State → Done}
    (h : requestOf code body = some (lengths, block)) : OrderlyBlock block := by
  unfold requestOf at h
  split at h <;> cases h
  · exact orderlyBlock_refConfig body
  · exact orderlyBlock_setTime body
  · exact State.Orderly.refl
  · exact orderlyBlock_lineConfig body
  · exact orderlyBlock_lineQuiesce body
  · exact orderlyBlock_lineResume body
  · exact orderlyBlock_lineReset body
  · exact orderlyBlock_enroll body
  · exact orderlyBlock_lookup body
  · exact orderlyBlock_amend body
  · exact orderlyBlock_suspend body
  · exact orderlyBlock_resume body
  · exact orderlyBlock_retire body
  · exact orderlyBlock_scan body
  · exact fun s => .of_kept rfl rfl rfl ⟨rfl, rfl⟩
  · exact orderlyBlock_dismiss body
  · exact orderlyBlock_domainOpen body
  · exact orderlyBlock_domainAmend body
  · exact orderlyBlock_domainFreeze body
  · exact orderlyBlock_domainThaw body
  · exact orderlyBlock_domainRetire body
  · exact orderlyBlock_domainLookup body
  · exact fun s => orderly_modDomain ..
  · exact orderlyBlock_rackConfig body
  · exact orderlyBlock_rackLookup body
  · exact orderlyBlock_rackClear body
  · exact orderlyBlock_rackRebase body
  · exact orderlyBlock_status body
  · exact orderlyBlock_ack body
  · exact orderlyBlock_mask body
  · exact orderlyBlock_restart

/-! ### The request port (R171 to R176, R184) -/

/-- A change of the port that leaves it consistent. -/
theorem steady_modPort {f : Port → Port} {s : State} (holds : s.PortHolds → (s.modPort f).PortHolds) :
    s.Steady (s.modPort f) := ⟨holds, newcomersApart_of_keys rfl fun q hq => ⟨q, hq, rfl, rfl⟩⟩

theorem steady_dropWrite (s : State) : s.Steady s.dropWrite :=
  (steady_modPort fun holds => holds).trans (orderly_raise ..).steady

theorem steady_holdBadFrame (first : Byte) {s : State} (idle : s.port.state ≠ .executing) : s.Steady (s.holdBadFrame first) := by
  refine State.Steady.trans (steady_modPort fun holds => ?_) (orderly_raise ..).steady
  obtain ⟨_, forming, link⟩ := holds
  have none : s.port.forming.isSome ≠ true := fun some => idle (forming.2 some)
  exact ⟨⟨fun _ => rfl, fun _ => rfl⟩, ⟨fun st => (by cases st), fun some => absurd some none⟩, link⟩

/-- A request that is carried out leaves the port in EXECUTING, with its response to form (R176). -/
theorem steady_form (code : Byte) (st : Status) (body : List Byte) {s t : State} (h : s.enterExecuting.Orderly t) :
    s.Steady (State.form code (t, st, body)) := by
  refine ⟨fun holds => ?_, fun apart => ?_⟩
  · have port : (State.form code (t, st, body)).port =
        { s.port with
          state := .executing, held := none, overlapMark := false, causes := t.port.causes, mask := t.port.mask
          forming := some ⟨code, st, false, body⟩ } :=
      congrArg (fun p : Port => { p with forming := some ⟨code, st, false, body⟩ }) h.port
    unfold State.PortHolds
    rw [port]
    exact ⟨⟨fun e => (by cases e), fun e => (by cases e)⟩, ⟨fun _ => rfl, fun _ => rfl⟩, holds.2.2⟩
  · exact h.newcomers apart

theorem steady_carryOut (code : Byte) (lengths : List Nat) (body : List Byte) {block : State → Done} (hb : OrderlyBlock block)
    (s : State) : s.Steady (s.carryOut code lengths body block) := by
  unfold State.carryOut
  split
  · exact steady_form code _ _ (hb _)
  · exact steady_form code _ _ (.refl _)

theorem steady_acceptFrame (code : Byte) (body : List Byte) (s : State) : s.Steady (s.acceptFrame code body) := by
  unfold State.acceptFrame
  split
  · rename_i h
    exact steady_carryOut _ _ _ (requestOf_orderly _ _ h) s
  · exact steady_form code _ _ (.refl _)

theorem steady_takeRequest (code : Byte) (lengths : List Nat) (body : List Byte) {block : State → Done}
    (hb : OrderlyBlock block) (s : State) : s.Steady (s.takeRequest code lengths body block) := by
  by_cases executing : s.port.state = .executing
  · unfold State.takeRequest
    rw [executing]
    exact steady_dropWrite s
  · rw [takeRequest_waiting executing]
    split
    · exact steady_holdBadFrame code executing
    · exact steady_carryOut code lengths body hb s

theorem steady_takeWrite (first : Byte) (bytes : List Byte) (cut : Bool) (s : State) : s.Steady (s.takeWrite first bytes cut) := by
  unfold State.takeWrite
  split
  · exact steady_dropWrite s
  all_goals
    rename_i state
    split
    · exact steady_acceptFrame ..
    · exact steady_holdBadFrame first (by rw [state]; decide)

theorem steady_endRead (n : Nat) (s : State) : s.Steady (s.endRead n) := by
  unfold State.endRead
  split
  · rename_i state _
    split
    · refine steady_modPort fun holds => ?_
      obtain ⟨_, forming, link⟩ := holds
      have none : s.port.forming.isSome ≠ true := fun some => by
        have executing := forming.2 some
        rw [state] at executing
        cases executing
      exact ⟨⟨fun st => (by cases st), fun some => (by cases some)⟩, ⟨fun st => (by cases st), fun some => absurd some none⟩, link⟩
    · exact .refl s
  · exact .refl s

theorem steady_takeBytes (bytes : List Byte) (cut : Bool) (s : State) : s.Steady (s.takeBytes bytes cut) := by
  unfold State.takeBytes
  split
  · exact .refl s
  · split
    · exact steady_endRead ..
    · exact steady_takeWrite ..

/-- A transaction ends with data out at high impedance, whether the port takes it or ignores it (R171, R184). -/
theorem steady_transfer (bits : List Bool) {take : List Byte → Bool → State → State}
    (ht : ∀ bytes cut (s : State), s.Steady (take bytes cut s)) (s : State) : s.Steady (s.transfer bits take) := by
  unfold State.transfer State.unlessIgnored
  split
  · refine steady_modPort fun holds => ?_
    obtain ⟨held, forming, _⟩ := holds
    exact ⟨held, forming, rfl⟩
  · rename_i heeded
    refine State.Steady.trans ?_ (ht ..)
    refine ⟨fun holds => ?_, newcomersApart_of_keys rfl fun q hq => ⟨q, hq, rfl, rfl⟩⟩
    have clocked := (clockedPort_clocked bits s).rest
    obtain ⟨held, forming, _⟩ := holds
    unfold State.PortHolds
    rw [deselect_port, clocked]
    refine ⟨held, forming, ?_⟩
    show Link.idle = { Link.idle with low := s.port.ignoring }
    rw [Bool.eq_false_iff.2 heeded]
    rfl

theorem steady_transaction (bits : List Bool) (s : State) : s.Steady (s.transaction bits) :=
  steady_transfer bits steady_takeBytes s

theorem steady_request (code : Byte) (lengths : List Nat) (body : List Byte) {block : State → Done} (hb : OrderlyBlock block)
    (s : State) : s.Steady (s.request code lengths body block) :=
  steady_transfer _ (fun _ _ => steady_takeRequest code lengths body hb) s

theorem steady_holdResponse (s : State) : s.Steady s.holdResponse := by
  unfold State.holdResponse
  split
  · refine steady_modPort fun holds => ?_
    exact ⟨⟨fun _ => rfl, fun _ => rfl⟩, ⟨fun st => (by cases st), fun some => (by cases some)⟩, holds.2.2⟩
  · exact .refl s

theorem steady_hardReset (csLow : Bool) {s t : State} (e : execHardReset csLow s = .next t) : s.Steady t := by
  cases e
  exact ⟨fun _ => ⟨⟨fun e => (by cases e), fun e => (by cases e)⟩, ⟨fun e => (by cases e), fun e => (by cases e)⟩, rfl⟩,
    fun _ => ⟨Nat.zero_le _, List.Pairwise.nil, fun n hn => absurd hn List.not_mem_nil⟩⟩

/-- A request's command, as time before it and a frame at the port. -/
theorem exec_asRequest {c : Instr} {code : Byte} {lengths : List Nat} {dt : Nat} {body : List Byte}
    (h : Instr.asRequest c = some (code, lengths, dt, body)) :
    ∃ block, requestOf code.toNat body = some (lengths, block) ∧
      ∀ s, exec c s = .next ((s.advance dt).request code lengths body block) := by
  cases c <;> cases h <;> exact ⟨_, rfl, fun _ => rfl⟩

/-- Every command keeps the port consistent and newcomers apart. -/
theorem exec_steady {c : Instr} {s t : State} (e : exec c s = .next t) : s.Steady t := by
  have adv : ∀ d, s.Steady (s.advance d) := fun d => steady_advance d s
  have reach : ∀ d, s.Steady (s.advanceTo d) := fun d => steady_advance _ s
  cases request : Instr.asRequest c with
  | some x =>
    obtain ⟨code, lengths, dt, body⟩ := x
    obtain ⟨block, known, runs⟩ := exec_asRequest request
    rw [runs] at e
    cases e
    exact (adv dt).trans (steady_request _ _ _ (requestOf_orderly _ _ known) _)
  | none =>
    cases c <;> simp only [Instr.asRequest, reduceCtorEq] at request <;> dsimp only [exec] at e
    case hardReset csLow => exact steady_hardReset csLow e
    case ppsEdge ch dt =>
      cases e
      exact (adv dt).trans (orderly_takeEdge ..).steady
    case todMessage ch dt vs =>
      cases e
      exact (adv dt).trans (steady_todSamples ..)
    case todGapTimeout ch =>
      unfold execTodGapTimeout at e
      split at e <;> cases e
      · exact (reach _).trans (orderly_setChan ..).steady
      · exact .refl s
    case lossDeadlineExpiry ch =>
      unfold execLossDeadlineExpiry at e
      split at e <;> cases e
      · exact .refl s
      · exact (reach _).trans (orderly_loseChan ..).steady
    case localSecondStart =>
      cases e
      exact (steady_reachStart s).trans (orderly_takeStart _).steady
    case secondTick =>
      cases e
      exact (steady_reachTick s).trans (orderly_takeTick _).steady
    case rackSweep i =>
      cases e
      split
      · exact (orderly_sweep i s).steady
      · exact .refl s
    case periodElapsed i =>
      unfold execPeriodElapsed State.cycleIfDone at e
      split at e <;> cases e
      · exact .refl s
      · split
        · exact (reach _).trans ((orderly_modLine ..).trans (orderly_newCycle ..)).steady
        · exact (reach _).trans (orderly_modLine ..).steady
    case pollSent i =>
      unfold execPollSent at e
      split at e <;> cases e
      · exact (reach _).trans (orderly_modLine ..).steady
      · exact .refl s
    case replyWindowEnd i =>
      unfold execReplyWindowEnd State.replyWindowOver at e
      split at e <;> cases e
      · split
        · exact (reach _).trans (orderly_modLine ..).steady
        · exact (reach _).trans (orderly_miss ..).steady
      · exact .refl s
    case closeSent i =>
      unfold execCloseSent at e
      split at e <;> cases e
      · exact (reach _).trans (((orderly_modLine ..).trans (orderly_endTransaction ..)).trans (orderly_afterEnd ..)).steady
      · exact .refl s
    case discoverSent i =>
      unfold execDiscoverSent at e
      split at e <;> cases e
      · exact (reach _).trans (orderly_modLine ..).steady
      · exact .refl s
    case discoveryWindowEnd i =>
      unfold execDiscoveryWindowEnd State.discoveryWindowOver at e
      split at e <;> cases e
      · split
        · exact (reach _).trans (orderly_modLine ..).steady
        · exact (reach _).trans (orderly_endDiscovery ..).steady
      · exact .refl s
    case frameGapTimeout i =>
      unfold execFrameGapTimeout at e
      split at e <;> cases e
      · exact .refl s
      · exact (reach _).trans (orderly_frameEnded ..).steady
    case lineRecovery i dt =>
      unfold execLineRecovery at e
      split at e <;> cases e
      · exact adv dt
      · exact ((adv dt).trans (steady_advance ..)).trans (orderly_recover ..).steady
    case responseFormed dt =>
      cases e
      exact (adv dt).trans (steady_holdResponse _)
    case responseRead dt n =>
      cases e
      exact (adv dt).trans (steady_transfer _ (fun _ _ => steady_endRead _) _)
    case replyHandoff | pollingFrameFailed | announce | discoveryCollision | strayCharacter | lineFault
        | recoveryWatchRestart =>
      cases e
      exact (adv _).trans (steady_samples ..)
    case badFrame | overlap | unknownRequest =>
      cases e
      exact (adv _).trans (steady_transaction ..)

theorem step_steady {s t : State} (e : step s = .next t) : s.Steady t := by
  unfold step at e
  split at e
  · cases e
    exact .refl s
  · obtain ⟨port, newcomers⟩ := exec_steady e
    exact ⟨port, newcomers⟩

/-- Settles O60: every command but the port's own leaves the port but for its causes and mask, and the port's own take it from
one consistent state to another. -/
theorem portStaysConsistent : Obligations.PortStaysConsistent := fun _ _ holds e => (step_steady e).port holds

/-! ### The endpoint table and the racks along the moves (R68, R152) -/

/-- The table stands by rising slot with no key twice, and the racks' member counts and walk counters agree with it. -/
structure State.TablesHold (s : State) : Prop where
  slots : s.SlotsRise
  keys : s.KeysDiffer
  counts : s.CountsAgree
  walk : s.WalkInside

theorem countIn_append (a b : List Endpoint) (i : Fin 12) (st : RecState) :
    countIn (a ++ b) i st = countIn a i st + countIn b i st := by
  unfold countIn
  rw [List.filter_append, List.length_append]

theorem countIn_cons (r : Endpoint) (l : List Endpoint) (i : Fin 12) (st : RecState) :
    countIn (r :: l) i st = (if r.line = i ∧ r.state = st then 1 else 0) + countIn l i st := by
  unfold countIn
  rw [List.filter_cons]
  by_cases h : r.line = i ∧ r.state = st
  · rw [if_pos h, if_pos (by simp [h.1, h.2]), List.length_cons, Nat.add_comm]
  · rw [if_neg h, if_neg (by simpa using h), Nat.zero_add]

/-- The table around one record: no other record has its slot. -/
theorem records_around {s : State} (rise : s.SlotsRise) {r : Endpoint} (h : r ∈ s.records) :
    ∃ a b, s.records = a ++ r :: b ∧ ∀ q ∈ a ++ b, q.slot ≠ r.slot := by
  obtain ⟨a, b, split⟩ := List.append_of_mem h
  refine ⟨a, b, split, fun q hq => ?_⟩
  have order := rise.1
  rw [split, List.pairwise_append, List.pairwise_cons] at order
  rcases List.mem_append.1 hq with hq | hq
  · exact (order.2.2 q hq r List.mem_cons_self).ne
  · exact (order.2.1.1 q hq).ne'

theorem insertRecord_perm (r : Endpoint) (l : List Endpoint) : (insertRecord r l).Perm (r :: l) := by
  induction l with
  | nil => exact .refl _
  | cons x l ih =>
    unfold insertRecord
    split
    · exact .refl _
    · exact (ih.cons x).trans (.swap ..)

theorem insertRecord_rises {r : Endpoint} {l : List Endpoint} (rise : l.Pairwise (fun a b => a.slot < b.slot))
    (fresh : ∀ q ∈ l, q.slot ≠ r.slot) : (insertRecord r l).Pairwise (fun a b => a.slot < b.slot) := by
  induction l with
  | nil => exact List.pairwise_singleton ..
  | cons x l ih =>
    obtain ⟨below, rest⟩ := List.pairwise_cons.1 rise
    unfold insertRecord
    split
    · rename_i first
      refine List.pairwise_cons.2 ⟨fun q hq => ?_, rise⟩
      rcases List.mem_cons.1 hq with rfl | hq
      · exact first
      · exact first.trans (below q hq)
    · rename_i later
      have apart := fresh x List.mem_cons_self
      refine List.pairwise_cons.2 ⟨fun q hq => ?_, ih rest fun q hq => fresh q (List.mem_cons_of_mem x hq)⟩
      rcases mem_insertRecord.1 hq with rfl | hq
      · omega
      · exact below q hq

/-- A change that leaves the table, and of every rack the member counts and the walk counter's place. -/
theorem tablesHold_of_racks {s t : State} (records : t.records = s.records) (racks : ∀ i, RackKept (s.rack i) (t.rack i))
    (hold : s.TablesHold) : t.TablesHold := by
  obtain ⟨⟨rise, top⟩, keys, counts, walk⟩ := hold
  refine ⟨⟨by rwa [records], by rwa [records]⟩, ?_, fun i st => ?_, fun i => (racks i).walk (walk i)⟩
  · unfold State.KeysDiffer
    rwa [records]
  · rw [(racks i).members, counts]
    unfold State.countOf
    rw [records]

theorem RackKept.refl (r : Rack) : RackKept r r := ⟨rfl, fun h => h, fun h => h⟩

theorem tablesHold_of_kept {s t : State} (records : t.records = s.records) (racks : t.racks = s.racks) (hold : s.TablesHold) :
    t.TablesHold := by
  refine tablesHold_of_racks records (fun i => ?_) hold
  unfold State.rack
  rw [racks]
  exact .refl _

/-- A rule that changes no record's slot, key or state keeps the table, with the racks. -/
theorem tablesHold_map {s t : State} {g : Endpoint → Endpoint}
    (key : ∀ r, (g r).slot = r.slot ∧ (g r).line = r.line ∧ (g r).addr = r.addr ∧ (g r).state = r.state)
    (records : t.records = s.records.map g) (racks : t.racks = s.racks) (hold : s.TablesHold) : t.TablesHold := by
  obtain ⟨⟨rise, top⟩, keys, counts, walk⟩ := hold
  have same : ∀ i, t.rack i = s.rack i := fun i => by
    unfold State.rack
    rw [racks]
  refine ⟨⟨?_, fun r hr => ?_⟩, ?_, fun i st => ?_, fun i => by rw [same]; exact walk i⟩
  · rw [records, List.pairwise_map]
    exact rise.imp fun {a b} lt => by rw [(key a).1, (key b).1]; exact lt
  · rw [records] at hr
    obtain ⟨q, hq, rfl⟩ := List.mem_map.1 hr
    rw [(key q).1]
    exact top q hq
  · unfold State.KeysDiffer
    rw [records, List.pairwise_map]
    refine keys.imp fun {a b} differ => ?_
    rw [(key a).2.1, (key a).2.2.1, (key b).2.1, (key b).2.2.1]
    exact differ
  · rw [same, counts]
    unfold State.countOf
    rw [records, List.filter_map, List.length_map]
    refine congrArg List.length (List.filter_congr fun r _ => ?_)
    simp [(key r).2.1, (key r).2.2.2]

/-- The racks follow a record's change of state, or its removal (R69, R152). -/
theorem countsAgree_moved {s t : State} {a b : List Endpoint} {r : Endpoint} {new : Option Endpoint}
    (here : s.records = a ++ r :: b) (there : t.records = a ++ new.toList ++ b) (line : ∀ q, new = some q → q.line = r.line)
    (moved : s.MembersMoved r.line r.state (new.map Endpoint.state) t) (counts : s.CountsAgree) : t.CountsAgree := by
  intro i st
  rw [(moved i).2 st, counts]
  show _ = countIn t.records i st
  have before : s.countOf i st = countIn a i st + ((if r.line = i ∧ r.state = st then 1 else 0) + countIn b i st) := by
    show countIn s.records i st = _
    rw [here, countIn_append, countIn_cons]
  rw [before, there]
  cases new with
  | none =>
    rw [Option.toList_none, List.append_nil, countIn_append]
    by_cases own : i = r.line
    · subst own
      by_cases state : st = r.state
      · subst state
        simp
        omega
      · simp [state, Ne.symm state]
    · simp [own, Ne.symm own]
  | some q =>
    rw [Option.toList_some, countIn_append, countIn_append, countIn_cons, line q rfl]
    by_cases own : i = r.line
    · subst own
      by_cases still : q.state = r.state
      · simp [still, countIn]
        omega
      · by_cases old : st = r.state
        · subst old
          simp [still, countIn]
          omega
        · by_cases now : q.state = st
          · subst now
            simp [still, Ne.symm old, countIn]
            omega
          · simp [still, Ne.symm old, old, now, countIn]
    · simp [own, Ne.symm own, countIn]

theorem walkInside_moved {i : Fin 12} {old : RecState} {new : Option RecState} {s t : State} (moved : s.MembersMoved i old new t)
    (walk : s.WalkInside) : t.WalkInside := by
  intro j
  rw [(moved j).1]
  exact walk j

theorem tablesHold_updateRecord (slot : Nat) (f : Endpoint → Endpoint) {s : State} (hold : s.TablesHold) :
    (s.updateRecord slot f).TablesHold := by
  have map := updateRecord_map slot f hold.slots
  cases found : s.bySlot slot with
  | none =>
    have same : s.updateRecord slot f = s := by
      unfold State.updateRecord
      rw [found]
    rwa [same]
  | some r =>
    obtain ⟨mem, rfl⟩ := bySlot_spec found
    have moved := updateRecord_moved found f
    obtain ⟨a, b, here, others⟩ := records_around hold.slots mem
    refine ⟨slotsRise_updateRecord r.slot f hold.slots, ?_, ?_, walkInside_moved moved hold.walk⟩
    · have key : ∀ x : Endpoint, (if x.slot = r.slot then x.keepKey (f x) else x).line = x.line ∧
          (if x.slot = r.slot then x.keepKey (f x) else x).addr = x.addr := fun x => by
        split <;> exact ⟨rfl, rfl⟩
      unfold State.KeysDiffer
      rw [map, List.pairwise_map]
      refine hold.keys.imp fun {x y} differ => ?_
      rw [(key x).1, (key x).2, (key y).1, (key y).2]
      exact differ
    · refine countsAgree_moved (new := some (r.keepKey (f r))) here ?_ (fun q hq => by cases hq; rfl) moved hold.counts
      have still : ∀ l : List Endpoint, (∀ q ∈ l, q.slot ≠ r.slot) →
          l.map (fun x => if x.slot = r.slot then x.keepKey (f x) else x) = l := fun l apart =>
        (List.map_congr_left fun q hq => if_neg (apart q hq)).trans (List.map_id l)
      rw [map, here, List.map_append, List.map_cons, if_pos rfl, still a fun q hq => others q (List.mem_append_left b hq),
        still b fun q hq => others q (List.mem_append_right a hq)]
      simp

theorem removeRecord_rack {slot : Nat} {s : State} {r : Endpoint} (found : s.bySlot slot = some r) :
    s.MembersMoved r.line r.state none (s.removeRecord slot) := by
  unfold State.removeRecord
  rw [found]
  exact report_moved r.line r.state (by simp) { s with records := s.records.filter (fun x => x.slot != slot) }

theorem tablesHold_removeRecord (slot : Nat) {s : State} (hold : s.TablesHold) : (s.removeRecord slot).TablesHold := by
  cases found : s.bySlot slot with
  | none =>
    have same : s.removeRecord slot = s := by
      unfold State.removeRecord
      rw [found]
    rwa [same]
  | some r =>
    obtain ⟨mem, rfl⟩ := bySlot_spec found
    have moved := removeRecord_rack found
    obtain ⟨a, b, here, others⟩ := records_around hold.slots mem
    have records : (s.removeRecord r.slot).records = s.records.filter (fun x => x.slot != r.slot) := by
      rw [removeRecord_records, found]
    refine ⟨⟨?_, fun q hq => ?_⟩, ?_, ?_, walkInside_moved moved hold.walk⟩
    · rw [records]
      exact hold.slots.1.filter _
    · rw [records] at hq
      exact hold.slots.2 q (List.mem_filter.1 hq).1
    · unfold State.KeysDiffer
      rw [records]
      exact hold.keys.filter _
    · refine countsAgree_moved (new := none) here ?_ (fun q hq => by cases hq) moved hold.counts
      have kept : ∀ l : List Endpoint, (∀ q ∈ l, q.slot ≠ r.slot) → l.filter (fun x => x.slot != r.slot) = l :=
        fun l apart => List.filter_eq_self.2 fun q hq => bne_iff_ne.2 (apart q hq)
      rw [records, here, List.filter_append, List.filter_cons_of_neg (by simp),
        kept a fun q hq => others q (List.mem_append_left b hq), kept b fun q hq => others q (List.mem_append_right a hq)]
      simp

theorem gain_get (st : RecState) (r : Rack) (st' : RecState) :
    (r.gain st).members.get st' = r.members.get st' + if st' = st then 1 else 0 := by
  unfold Rack.gain
  rw [get_set]
  split
  · rename_i same
    rw [same]
  · rfl

theorem tablesHold_addRecord {r : Endpoint} {s : State} (fresh : ∀ q ∈ s.records, q.slot ≠ r.slot) (top : r.slot ≤ 511)
    (unheld : s.byKey r.line r.addr = none) (hold : s.TablesHold) : (s.addRecord r).TablesHold := by
  have records := addRecord_records r s
  have rack : ∀ i, (s.addRecord r).rack i = if r.line = i then (s.rack r.line).gain r.state else s.rack i := fun i =>
    modRack_rack { s with records := insertRecord r s.records } r.line i (Rack.gain r.state)
  refine ⟨⟨?_, fun q hq => ?_⟩, ?_, fun i st => ?_, fun i => ?_⟩
  · rw [records]
    exact insertRecord_rises hold.slots.1 fresh
  · rw [records] at hq
    rcases mem_insertRecord.1 hq with rfl | hq
    · exact top
    · exact hold.slots.2 q hq
  · unfold State.KeysDiffer
    rw [records, (insertRecord_perm r s.records).pairwise_iff fun {a b} differ same => differ ⟨same.1.symm, same.2.symm⟩]
    exact List.pairwise_cons.2 ⟨fun q hq same => byKey_none unheld q hq ⟨same.1.symm, same.2.symm⟩, hold.keys⟩
  · have count : (s.addRecord r).countOf i st = countIn (r :: s.records) i st := by
      unfold State.countOf
      rw [records]
      exact ((insertRecord_perm r s.records).filter _).length_eq
    rw [count, countIn_cons, rack]
    by_cases own : r.line = i
    · subst own
      rw [if_pos rfl, gain_get, hold.counts, Nat.add_comm]
      exact congrArg (· + s.countOf r.line st) (if_congr (by simp [eq_comm]) rfl rfl)
    · rw [if_neg own, if_neg (fun both => own both.1), hold.counts, Nat.zero_add]
      rfl
  · rw [rack]
    split
    · rename_i own
      subst own
      exact hold.walk r.line
    · exact hold.walk i

theorem reset_tablesHold {t : State} (records : t.records = []) (racks : t.racks = Vector.replicate 12 Rack.reset) :
    t.TablesHold := by
  have rack : ∀ i, t.rack i = Rack.reset := fun i => by
    simp [State.rack, racks]
  refine ⟨⟨?_, ?_⟩, ?_, fun i st => ?_, fun i => ?_⟩
  · simp [records]
  · simp [records]
  · simp [State.KeysDiffer, records]
  · rw [rack, State.countOf, records]
    cases st <;> rfl
  · rw [rack]
    decide

theorem alarmNotice_kept (i : Fin 12) (s : State) : (s.alarmNotice i).records = s.records ∧ (s.alarmNotice i).racks = s.racks := by
  unfold State.alarmNotice
  split <;> exact ⟨rfl, rfl⟩

/-- Every move keeps the table and the racks in agreement. -/
theorem move_tablesHold {o : Kinds} {s t : State} (m : Move o s t) (hold : s.TablesHold) : t.TablesHold := by
  cases m with
  | record slot f => exact tablesHold_updateRecord slot f hold
  | classes i =>
    refine tablesHold_map (g := fun r => if r.line = i then { r with cycleClass := r.baseClass } else r) (fun r => ?_) rfl rfl hold
    split <;> exact ⟨rfl, rfl, rfl, rfl⟩
  | remove slot => exact tablesHold_removeRecord slot hold
  | add r _ fresh top unheld =>
    exact tablesHold_addRecord (fun q hq => bne_iff_ne.1 (List.all_eq_true.1 fresh q hq)) top unheld hold
  | rack i f _ kept =>
    refine tablesHold_of_racks (s := s) rfl (fun j => ?_) hold
    rw [modRack_rack]
    split
    · rename_i same
      subst same
      exact kept
    · exact .refl _
  | alarm i c =>
    obtain ⟨records, racks⟩ := alarmNotice_kept i (s.modRack i (Rack.toAlarm c))
    have moved : (s.modRack i (Rack.toAlarm c)).TablesHold := by
      obtain ⟨slots, keys, counts, walk⟩ := hold
      refine ⟨slots, keys, fun j st => ?_, fun j => ?_⟩
      · rw [modRack_rack]
        split
        · rename_i same
          subst same
          exact counts i st
        · exact counts j st
      · rw [modRack_rack]
        split
        · rename_i same
          subst same
          exact walk i
        · exact walk j
    exact tablesHold_of_kept records racks moved
  | stampLine slot =>
    unfold State.stampLine
    split
    · exact hold
    · exact tablesHold_updateRecord slot _ (tablesHold_of_kept (s := s) rfl rfl hold)
  | restart | hardReset => exact reset_tablesHold rfl rfl
  | port | refs | time | fill | latches | line | newcomers | stampHost | settle | drop | opened | amended | frozen | thawed
  | retired => exact tablesHold_of_kept (s := s) rfl rfl hold

/-- Settles O56: every move keeps the table and the racks in agreement, and every command keeps newcomers apart. -/
theorem tablesStayInOrder : Obligations.TablesStayInOrder := by
  intro s t ⟨slots, keys, apart, counts, walk⟩ e
  have hold : t.TablesHold := step_keeps (P := State.TablesHold) (fun _ _ m => move_tablesHold m)
    (fun _ _ h => ⟨h.slots, h.keys, h.counts, h.walk⟩) e ⟨slots, keys, counts, walk⟩
  exact ⟨hold.slots, hold.keys, (step_steady e).newcomers apart, hold.counts, hold.walk⟩

end Sys2Proof.Machine

/-! SUPPORT. The passage of time, and the two commands that bring it to a local second's start and to a second tick
(R7, R9, R10, R21, R155). -/

namespace Sys2Proof.Machine

open Sys2Proof

/-! ### The second ticks' work -/

/-- A second tick changes U of the clock alone (R21). -/
theorem rowClock_tick (c : RowClock) : c.tick = { c with
    u := if c.state = .holdover ∨ c.state = .acquiring ∧ c.origin ≠ .freerun then min 4294967295 (c.u + c.holdRate) else c.u } := by
  unfold RowClock.tick
  split
  case h_1 state => rw [if_pos (.inl state)]; rfl
  case h_2 state origin => rw [if_pos (.inr ⟨state, by rw [origin]; decide⟩)]; rfl
  case h_3 state origin => rw [if_pos (.inr ⟨state, by rw [origin]; decide⟩)]; rfl
  case h_4 state origin => rw [if_neg (by rw [state, origin]; decide)]
  case h_5 state => rw [if_neg (by rw [state]; simp)]
  case h_6 state => rw [if_neg (by rw [state]; simp)]

theorem foldl_modRack_only (f : Rack → Rack) (l : List (Fin 12)) (s : State) :
    l.foldl (fun s i => s.modRack i f) s = { s with racks := (l.foldl (fun s i => s.modRack i f) s).racks } := by
  induction l generalizing s with
  | nil => rfl
  | cons i l ih => exact ih (s.modRack i f)

/-- A second tick changes the clock's U and the racks (R10). -/
theorem tick_only (s : State) : s.tick = { s with clk := s.clk.tick, racks := s.tick.racks } :=
  foldl_modRack_only Rack.tick all12 (s.modClk RowClock.tick)

/-- U after several ticks (R21). -/
theorem ticks_u (n : Nat) (s : State) (cap : s.clk.u ≤ 4294967295) : (State.ticks n s).clk.u =
    if s.clk.state = .holdover ∨ s.clk.state = .acquiring ∧ s.clk.origin ≠ .freerun
      then min 4294967295 (s.clk.u + n * s.clk.holdRate) else s.clk.u := by
  induction n generalizing s with
  | zero =>
    show s.clk.u = _
    split
    · rw [Nat.zero_mul, Nat.add_zero, Nat.min_eq_right cap]
    · rfl
  | succ n ih =>
    have clk : s.tick.clk = _ := (tick_clk s).trans (rowClock_tick s.clk)
    show (State.ticks n s.tick).clk.u = _
    by_cases grows : s.clk.state = .holdover ∨ s.clk.state = .acquiring ∧ s.clk.origin ≠ .freerun
    · rw [if_pos grows] at clk ⊢
      rw [ih _ (by rw [clk]; exact Nat.min_le_left ..), clk, if_pos grows, Nat.succ_mul]
      dsimp only
      omega
    · rw [if_neg grows] at clk ⊢
      rw [ih _ (by rw [clk]; exact cap), clk, if_neg grows]

/-! ### What time brings to t1 (R20, R53) -/

theorem advance_latch_waits (d : Nat) (s : State) (i : Fin 12)
    (waits : ∀ e, s.latches[i].due = some e → s.localNs + d < e) : (s.advance d).latches[i] = s.latches[i] := by
  cases d with
  | zero => rfl
  | succ d =>
    have mapped : (s.advance (d + 1)).latches[i] = s.captured (s.localNs + (d + 1)) s.latches[i] := by
      simp [advance_latches]
    rw [mapped]
    unfold State.captured
    split
    · rename_i e due
      have := waits e due
      rw [if_neg (by omega)]
    · rfl

theorem advance_latch_captures (d e : Nat) (s : State) (i : Fin 12) (due : s.latches[i].due = some e) (later : s.localNs < e)
    (reached : e ≤ s.localNs + d) :
    (s.advance d).latches[i] = ⟨none, ⟨(s.advance (e - s.localNs)).clk.row, s.clk.epoch⟩⟩ := by
  obtain ⟨d, rfl⟩ : ∃ k, d = k + 1 := ⟨d - 1, by omega⟩
  obtain ⟨k, there⟩ : ∃ k, e - s.localNs = k + 1 := ⟨e - s.localNs - 1, by omega⟩
  have mapped : (s.advance (d + 1)).latches[i] = s.captured (s.localNs + (d + 1)) s.latches[i] := by
    simp [advance_latches]
  rw [mapped, there, advance_row]
  unfold State.captured
  rw [due]
  show (if e ≤ s.localNs + (d + 1) then _ else _) = _
  rw [if_pos reached, there]

/-- Settles O5. -/
theorem timePassesAlone : Obligations.TimePassesAlone := by
  intro d s
  refine ⟨rfl, advance_localNs s d, ?_, fun i => ?_, fun noTick noRollover => ?_, fun n cap pos count => ?_, fun pos => ?_,
    fun i waits => advance_latch_waits d s i waits,
    fun i e due later reached => advance_latch_captures d e s i due later reached, advance_chanA s d, advance_chanB s d,
    advance_lines s d, advance_records s d, advance_newcomers s d, advance_overflow s d, advance_domains s d, advance_port s d,
    advance_freeCount s d, advance_pending s d⟩
  · obtain ⟨row, r, u, clk⟩ := advance_clk d s
    rw [clk]
  · obtain ⟨c, b, rack⟩ := advance_rack d s i
    rw [rack]
  · cases d with
    | zero => exact ⟨rfl, fun _ => rfl⟩
    | succ d =>
      have none : s.ticksBefore d = 0 := by
        unfold State.ticksBefore
        rw [noTick, show s.rollovers d = 0 from noRollover]
        rfl
      rw [advance_quiet d s none]
      exact ⟨by rw [flow_clk], flow_rack d s⟩
  · obtain ⟨d, rfl⟩ : ∃ k, d = k + 1 := ⟨d - 1, by omega⟩
    have before : s.ticksBefore d = n := by
      rw [count]
      unfold State.ticksBefore
      cases s.due.tick <;> rfl
    show (State.ticks (s.ticksBefore d) (s.flow d)).clk.u = _
    rw [before, ticks_u n _ (by rw [flow_clk]; exact cap), flow_clk]
  · obtain ⟨d, rfl⟩ : ∃ k, d = k + 1 := ⟨d - 1, by omega⟩
    rw [advance_due]
    simp [second, bne, beq_eq_decide]

/-! ### Row time along local seconds (R9) -/

theorem spread_second (r : Int) : spread r 1000000000 = r := by
  unfold spread
  exact Int.mul_tdiv_cancel r (by decide)

theorem spread_zero (r : Int) : spread r 0 = 0 := by simp [spread]

/-- Row time's whole count of ns after a gain, the seconds modulo 2^48 (R10). -/
theorem rowAfter_toNs (d : Nat) (s : State) : (s.rowAfter d).toNs =
    (s.clk.row.toNs + rowGain s.rate s.clk.next (s.localNs % second) d) % (281474976710656 * 1000000000) := toNs_ofNs _

theorem rowGain_within {r r' : Int} {d : Nat} (hr : r.natAbs ≤ 100000) (h : d ≤ 1000000000) :
    (rowGain r r' 0 d : Int) = d + spread r d := by
  have bound := spread_bound r d hr
  unfold rowGain
  rw [Nat.zero_add, spread_zero]
  unfold second
  by_cases full : d = 1000000000
  · subst full
    rw [spread_second] at bound ⊢
    rw [if_neg (by decide), Nat.sub_self, spread_zero]
    omega
  · rw [if_pos (by omega)]
    omega

theorem rowGain_beyond {r r' : Int} {d : Nat} (hr : r.natAbs ≤ 100000) (hr' : r'.natAbs ≤ 100000) :
    (rowGain r r' 0 (1000000000 + d) : Int) = 1000000000 + r + d + spread r' d := by
  have bound := spread_bound r' d hr'
  unfold rowGain
  rw [Nat.zero_add, spread_zero]
  unfold second
  rw [if_neg (by omega), Nat.add_sub_cancel_left]
  omega

/-- Settles O6. -/
theorem rowTimeFollowsTheAppliedRate : Obligations.RowTimeFollowsTheAppliedRate := by
  intro r s whole applied next rate
  have rate : s.rate = r := by
    rw [rate]
    rfl
  have hr : r.natAbs ≤ 100000 := by
    rw [← rate]
    unfold State.rate
    split
    · exact next
    · exact applied
  have start : s.localNs % second = 0 := whole
  have within : ∀ d : Nat, 0 < d → d ≤ 1000000000 → ((s.advance d).clk.row.toNs : Int) =
      ((s.clk.row.toNs : Int) + d + (r * d).tdiv 1000000000) % (281474976710656 * 1000000000) := by
    intro d pos le
    obtain ⟨d, rfl⟩ : ∃ k, d = k + 1 := ⟨d - 1, by omega⟩
    have gain := rowGain_within (r' := s.clk.next) hr le
    rw [advance_row, rowAfter_toNs, rate, start]
    unfold spread at gain
    push_cast at gain ⊢
    rw [gain, ← Int.add_assoc]
  refine ⟨fun d pos le => ⟨within d pos le, ?_, ?_⟩, ?_, fun d pos le => ⟨?_, ?_⟩⟩
  · obtain ⟨d, rfl⟩ : ∃ k, d = k + 1 := ⟨d - 1, by omega⟩
    rw [advance_applied]
    unfold State.appliedAfter
    rw [start, if_pos (by unfold second; omega), rate]
  · obtain ⟨d, rfl⟩ : ∃ k, d = k + 1 := ⟨d - 1, by omega⟩
    rw [advance_due]
    show ((s.localNs + (d + 1)) % second == 0) = true ↔ _
    unfold second
    rw [beq_iff_eq]
    omega
  · have full := within 1000000000 (by decide) le_rfl
    rw [full]
    congr 2
    exact Int.mul_tdiv_cancel r (by decide)
  · obtain ⟨d, rfl⟩ : ∃ k, d = k + 1 := ⟨d - 1, by omega⟩
    have gain := rowGain_beyond (d := d + 1) hr next
    rw [← Nat.add_assoc, advance_row, rowAfter_toNs, rate, start, Nat.add_assoc]
    unfold spread at gain
    push_cast at gain ⊢
    rw [gain]
    congr 1
    omega
  · obtain ⟨d, rfl⟩ : ∃ k, d = k + 1 := ⟨d - 1, by omega⟩
    rw [← Nat.add_assoc, advance_applied]
    unfold State.appliedAfter
    rw [start, if_neg (by unfold second; omega)]

/-! ### The next rollover (R10) -/

/-- How far row time is in a local second at rate `r`, `y` ns into it (R9). -/
def rowInto (r : Int) (y : Nat) : Int := y + spread r y

theorem rowInto_of_nonneg {r : Int} (h : 0 ≤ r) (y : Nat) : rowInto r y = ((y * (1000000000 + r.natAbs) / 1000000000 : Nat) : Int) := by
  obtain ⟨n, rfl⟩ := Int.eq_ofNat_of_zero_le h
  unfold rowInto spread
  rw [Int.natAbs_natCast, Nat.mul_add]
  have cast : ((n : Int) * (y : Int)).tdiv 1000000000 = ((y * n / 1000000000 : Nat) : Int) := by
    rw [Nat.mul_comm y n]
    exact_mod_cast rfl
  rw [cast]
  omega

theorem rowInto_of_neg {r : Int} (h : r < 0) (y : Nat) : rowInto r y = (y : Int) - ((y * r.natAbs / 1000000000 : Nat) : Int) := by
  obtain ⟨n, rfl⟩ : ∃ n : Nat, r = -(n : Int) := ⟨r.natAbs, by omega⟩
  unfold rowInto spread
  rw [Int.natAbs_neg, Int.natAbs_natCast, Int.neg_mul, Int.neg_tdiv]
  have cast : ((n : Int) * (y : Int)).tdiv 1000000000 = ((y * n / 1000000000 : Nat) : Int) := by
    rw [Nat.mul_comm y n]
    exact_mod_cast rfl
  rw [cast]
  omega

/-- `leastElapsed` is the first instant of a local second at which row time has gained `m` ns (R9). -/
theorem leastElapsed_le_iff {r : Int} {m : Nat} (hr : r.natAbs ≤ 100000) (hm : 0 < m) (y : Nat) :
    leastElapsed r m ≤ y ↔ (m : Int) ≤ rowInto r y := by
  unfold leastElapsed second
  by_cases sign : 0 ≤ r
  · rw [if_pos sign, rowInto_of_nonneg sign, Int.ofNat_le, Nat.le_div_iff_mul_le (by decide),
      ← Nat.lt_succ_iff, Nat.div_lt_iff_lt_mul (by omega), Nat.succ_mul]
    omega
  · rw [if_neg sign, rowInto_of_neg (by omega)]
    have cap : y * r.natAbs / 1000000000 ≤ y := by
      have := Nat.mul_le_mul_left y hr
      omega
    rw [show (m : Int) ≤ (y : Int) - ((y * r.natAbs / 1000000000 : Nat) : Int) ↔ m - 1 < y - y * r.natAbs / 1000000000 by omega,
      Nat.add_one_le_iff, Nat.div_lt_iff_lt_mul (by omega), Nat.mul_sub]
    have bound := Nat.mul_le_mul_left y hr
    omega

theorem rowInto_succ_le {r : Int} (hr : r.natAbs ≤ 100000) (y : Nat) :
    rowInto r y ≤ rowInto r (y + 1) ∧ rowInto r (y + 1) ≤ rowInto r y + 2 := by
  by_cases sign : 0 ≤ r
  · rw [rowInto_of_nonneg sign, rowInto_of_nonneg sign, Nat.succ_mul]
    omega
  · rw [rowInto_of_neg (by omega), rowInto_of_neg (by omega), Nat.succ_mul]
    omega

theorem rowInto_mono {r : Int} (hr : r.natAbs ≤ 100000) : Monotone (rowInto r) :=
  monotone_nat_of_le_succ fun y => (rowInto_succ_le hr y).1

/-- At the first instant that row time has gained `m` ns it has gained at most one more (R9). -/
theorem rowInto_leastElapsed {r : Int} {m : Nat} (hr : r.natAbs ≤ 100000) (hm : 0 < m) :
    (m : Int) ≤ rowInto r (leastElapsed r m) ∧ rowInto r (leastElapsed r m) ≤ m + 1 := by
  refine ⟨(leastElapsed_le_iff hr hm _).1 le_rfl, ?_⟩
  obtain zero | ⟨y, hy⟩ : leastElapsed r m = 0 ∨ ∃ y, leastElapsed r m = y + 1 := by
    cases leastElapsed r m with
    | zero => exact .inl rfl
    | succ y => exact .inr ⟨y, rfl⟩
  · rw [zero]
    unfold rowInto
    rw [spread_zero]
    omega
  · have early := (leastElapsed_le_iff hr hm y).not.1 (by omega)
    have step := (rowInto_succ_le hr y).2
    rw [hy]
    omega

/-- Row time's gain, from `x` ns into a local second, by how far it is in the local seconds (R9). -/
theorem rowGain_eq {r r' : Int} {x d : Nat} (hr : r.natAbs ≤ 100000) (hr' : r'.natAbs ≤ 100000) (hx : x < 1000000000) :
    (rowGain r r' x d : Int) = if x + d ≤ 1000000000 then rowInto r (x + d) - rowInto r x
      else rowInto r 1000000000 - rowInto r x + rowInto r' (x + d - 1000000000) := by
  have mono := rowInto_mono hr
  have low := mono (Nat.le_add_right x d)
  have high := mono hx.le
  have beyond := rowInto_mono hr' (Nat.zero_le (x + d - 1000000000))
  unfold rowGain second
  unfold rowInto at *
  rw [spread_second] at *
  rw [spread_zero] at *
  by_cases inside : x + d < 1000000000
  · rw [if_pos inside, if_pos inside.le]
    push_cast at *
    omega
  · rw [if_neg inside]
    by_cases full : x + d = 1000000000
    · rw [if_pos full.le, full, Nat.sub_self, spread_zero, spread_second]
      push_cast at *
      omega
    · rw [if_neg (by omega)]
      push_cast at *
      omega

theorem rowInto_zero (r : Int) : rowInto r 0 = 0 := by
  unfold rowInto
  rw [spread_zero]
  rfl

/-- Row time gains what is left of its second in `toRollover` ns, with at most one ns more, and not before (R10). -/
theorem rowGain_toRollover {s : State} (row : s.clk.row.ns < 1000000000) (rate : s.rate.natAbs ≤ 100000)
    (next : s.clk.next.natAbs ≤ 100000) :
    (1000000000 ≤ s.clk.row.ns + rowGain s.rate s.clk.next (s.localNs % second) s.toRollover ∧
      s.clk.row.ns + rowGain s.rate s.clk.next (s.localNs % second) s.toRollover ≤ 1000000001) ∧
    ∀ e, e < s.toRollover → s.clk.row.ns + rowGain s.rate s.clk.next (s.localNs % second) e < 1000000000 := by
  have hx : s.localNs % second < 1000000000 := Nat.mod_lt _ (by decide)
  have gain := fun d => rowGain_eq (d := d) rate next hx
  unfold State.toRollover
  generalize s.localNs % second = x at *
  generalize s.rate = r at *
  generalize s.clk.next = r' at *
  generalize s.clk.row.ns = ns at *
  have mono := rowInto_mono rate
  have begun : 0 ≤ rowInto r x := rowInto_zero r ▸ mono (Nat.zero_le x)
  have need : ((second - ns : Nat) : Int) + x + spread r x = ((1000000000 - ns : Nat) : Int) + rowInto r x := by
    unfold rowInto second
    omega
  dsimp only
  rw [need]
  generalize target : (((1000000000 - ns : Nat) : Int) + rowInto r x).toNat = m
  have pos : 0 < m := by omega
  have reach := fun y => leastElapsed_le_iff rate pos y
  have near := rowInto_leastElapsed rate pos
  generalize leastElapsed r m = y at *
  have after : x < y := by
    by_contra early
    have := (reach x).1 (by omega)
    omega
  by_cases here : y ≤ second
  · rw [if_pos here]
    unfold second at here
    have there := gain (y - x)
    rw [if_pos (by omega), Nat.add_sub_cancel' after.le] at there
    refine ⟨by omega, fun e he => ?_⟩
    have early := (reach (x + e)).not.1 (by omega)
    have before := gain e
    rw [if_pos (by omega)] at before
    omega
  · rw [if_neg here]
    unfold second at here ⊢
    have short := (reach 1000000000).not.1 (by omega)
    have whole := gain (1000000000 - x)
    rw [if_pos (by omega), Nat.add_sub_cancel' hx.le] at whole
    have left : 0 < 1000000000 - ns - rowGain r r' x (1000000000 - x) := by omega
    have reach' := fun z => leastElapsed_le_iff next left z
    have near' := rowInto_leastElapsed next left
    generalize leastElapsed r' (1000000000 - ns - rowGain r r' x (1000000000 - x)) = z at *
    have later : 0 < z := by
      by_contra none
      have := (reach' 0).1 (by omega)
      rw [rowInto_zero] at this
      omega
    have there := gain (1000000000 - x + z)
    rw [if_neg (by omega), show x + (1000000000 - x + z) - 1000000000 = z by omega] at there
    refine ⟨by omega, fun e he => ?_⟩
    have before := gain e
    by_cases inside : x + e ≤ 1000000000
    · rw [if_pos inside] at before
      have := mono inside
      omega
    · rw [if_neg inside] at before
      have early := (reach' (x + e - 1000000000)).not.1 (by omega)
      omega

theorem rate_inRange {s : State} (h : s.clk.InRange) : s.rate.natAbs ≤ 100000 := by
  unfold State.rate
  split
  · exact h.next
  · exact h.applied

/-- `toRollover` leads to the first instant at which row time's ns count has rolled over, once (R10). -/
theorem rollovers_toRollover {s : State} (h : s.clk.InRange) :
    s.rollovers s.toRollover = 1 ∧ ∀ e, e < s.toRollover → s.rollovers e = 0 := by
  obtain ⟨⟨reached, close⟩, before⟩ := rowGain_toRollover h.row.2 (rate_inRange h) h.next
  refine ⟨?_, fun e he => Nat.div_eq_of_lt (before e he)⟩
  unfold State.rollovers second at *
  omega

/-! ### The two commands -/

theorem reachStart_due (s : State) : s.reachStart.due.start = true := by
  unfold State.reachStart
  split
  · assumption
  · obtain ⟨d, there⟩ : ∃ d, s.toLocalSecond = d + 1 := by
      refine ⟨s.toLocalSecond - 1, ?_⟩
      unfold State.toLocalSecond second
      omega
    rw [there, advance_due]
    show ((s.localNs + (d + 1)) % second == 0) = true
    unfold State.toLocalSecond second at there
    unfold second
    rw [beq_iff_eq]
    omega

theorem reachStart_next (s : State) : s.reachStart.clk.next = s.clk.next := by
  unfold State.reachStart
  split
  · rfl
  · obtain ⟨row, r, u, clk⟩ := advance_clk s.toLocalSecond s
    rw [clk]

theorem takeStart_taken {s : State} (due : s.due.start = true) : s.takeStart =
    { s with clk := { s.clk with applied := s.clk.next }, due := { s.due with start := false } } := by
  unfold State.takeStart
  rw [if_pos due]
  rfl

/-- A second tick comes due at the next rollover, and nothing of a tick is done before it (R10, assumption 35). -/
theorem reachTick_due {s : State} (h : s.clk.InRange) : s.reachTick.due.tick = true ∧ s.reachTick.clk =
    { s.clk with row := s.reachTick.clk.row, applied := s.reachTick.clk.applied } ∧ ∀ i, s.reachTick.rack i = s.rack i := by
  unfold State.reachTick
  split
  · rename_i due
    exact ⟨due, rfl, fun _ => rfl⟩
  · rename_i noTick
    obtain ⟨rolled, before⟩ := rollovers_toRollover h
    generalize s.toRollover = d at *
    cases d with
    | zero =>
      have : s.rollovers 0 = 0 := by
        unfold State.rollovers rowGain
        rw [Nat.add_zero, if_pos (Nat.mod_lt _ (by decide))]
        refine Nat.div_eq_of_lt ?_
        have := h.row.2
        omega
      omega
    | succ d =>
      have none : s.rollovers d = 0 := before d (Nat.lt_succ_self d)
      have quiet : s.ticksBefore d = 0 := by
        unfold State.ticksBefore
        rw [none, Bool.eq_false_iff.2 noTick]
        rfl
      refine ⟨?_, ?_, fun i => ?_⟩
      · rw [advance_due, none, rolled]
        rfl
      · rw [advance_quiet d s quiet, flow_clk]
      · rw [advance_quiet d s quiet, flow_rack]

theorem takeTick_taken {s : State} (due : s.due.tick = true) : s.takeTick =
    { s with clk := s.clk.tick, due := { s.due with tick := false }, racks := s.takeTick.racks } := by
  unfold State.takeTick
  rw [if_pos due]
  exact tick_only _

theorem takeTick_rack {s : State} (due : s.due.tick = true) (i : Fin 12) : s.takeTick.rack i = (s.rack i).tick := by
  unfold State.takeTick
  rw [if_pos due]
  exact tick_rack _ i

/-- Settles O7. -/
theorem localSecondsStartAndSecondsTick : Obligations.LocalSecondsStartAndSecondsTick := by
  intro s
  refine ⟨⟨_, s.reachStart, rfl, fun due => ?_, fun notDue => ?_, ?_⟩, fun range =>
    ⟨_, s.reachTick, rfl, fun due => ?_, fun notDue => ?_, ?_, ?_, fun i => ?_⟩⟩
  · unfold State.reachStart
    rw [if_pos due]
  · have reached : s.reachStart = s.advance (1000000000 - s.localNs % 1000000000) := by
      unfold State.reachStart
      rw [if_neg (by simp [notDue])]
      rfl
    refine ⟨reached, ?_, reachStart_due s⟩
    rw [takeStart_taken (reachStart_due s), reached, advance_localNs]
    omega
  · rw [takeStart_taken (reachStart_due s), reachStart_next]
  · unfold State.reachTick
    rw [if_pos due]
  · obtain ⟨due, clk, racks⟩ := reachTick_due range.clk
    obtain ⟨rolled, before⟩ := rollovers_toRollover range.clk
    refine ⟨due, by rw [clk], racks, s.toRollover, ?_, rolled, before⟩
    unfold State.reachTick
    rw [if_neg (by simp [notDue])]
  · obtain ⟨due, clk, racks⟩ := reachTick_due range.clk
    rw [takeTick_taken due, rowClock_tick]
  · obtain ⟨due, clk, racks⟩ := reachTick_due range.clk
    rw [takeTick_taken due, rowClock_tick, clk]
  · obtain ⟨due, clk, racks⟩ := reachTick_due range.clk
    rw [takeTick_rack due, racks]
    rfl

end Sys2Proof.Machine

/-! SUPPORT. The references: what an edge, a measurement, a lost channel and a row step leave of the part (R3 to R6, R11 to R19,
R22, R24, R81). -/

namespace Sys2Proof.Machine

open Sys2Proof

/-! ### A row step settles every record (R81, R108) -/

/-- A record without a window, and with no correction in flight. -/
def Endpoint.Emptied (r : Endpoint) : Prop := r.window = [] ∧ r.ackSeq = r.cmdSeq

theorem stepRule_emptied (b : Bool) (r : Endpoint) : (r.keepKey (r.stepRule b)).Emptied := by
  rw [stepRule_atRowStep]
  exact ⟨rfl, rfl⟩

theorem updateRecord_emptied (b : Endpoint → Bool) (n : Nat) {ns : List Nat} {s : State}
    (h : ∀ r ∈ s.records, r.slot ∈ n :: ns ∨ r.Emptied) :
    ∀ r ∈ (s.updateRecord n (fun r => r.stepRule (b r))).records, r.slot ∈ ns ∨ r.Emptied := by
  intro r hr
  rw [updateRecord_records] at hr
  split at hr
  · rename_i absent
    refine (h r hr).imp (fun listed => ?_) id
    exact (List.mem_cons.1 listed).resolve_left fun same =>
      absurd (List.find?_eq_none.1 absent r hr) (by simpa using same)
  · obtain ⟨x, hx, rfl⟩ := List.mem_map.1 hr
    split
    · exact .inr (stepRule_emptied ..)
    · rename_i other
      exact (h x hx).imp (fun listed => (List.mem_cons.1 listed).resolve_left (by simpa using other)) id

theorem foldl_stepRule_emptied (b : Endpoint → Bool) (ns : List Nat) {s : State}
    (h : ∀ r ∈ s.records, r.slot ∈ ns ∨ r.Emptied) :
    ∀ r ∈ (ns.foldl (fun s n => s.updateRecord n (fun r => r.stepRule (b r))) s).records, r.Emptied := by
  induction ns generalizing s with
  | nil => exact fun r hr => (h r hr).resolve_left List.not_mem_nil
  | cons n ns ih => exact ih (updateRecord_emptied b n h)

theorem eptStep_emptied (s : State) : ∀ r ∈ s.eptStep.records, r.Emptied := by
  refine foldl_stepRule_emptied s.closeAssembled _ fun r hr => .inl ?_
  exact List.mem_map_of_mem (List.mem_filter.2 ⟨hr, rfl⟩)

theorem walkReset_records (s : State) : s.walkReset.records = s.records := by rw [(walkReset_frame s).1]

/-- A row step leaves no window and no correction in flight, whatever the order of the table (R81, R108). -/
theorem rowStep_emptied (row : RowTime) (s : State) : ∀ r ∈ (s.rowStep row).records, r.Emptied := by
  unfold State.rowStep
  rw [walkReset_records]
  exact eptStep_emptied _

/-! ### SET_TIME (R24) -/

theorem exec_setTime_taken {s : State} (frames : s.TakesFrames) (dt : Nat) {body : List Byte} (len : body.length = 6) :
    exec (.setTime dt body) s = .next (State.form 0x11 (setTimeBlock body (s.accepting dt 6))) := by
  have taken := request_taken frames (code := 0x11) (by decide) dt [6] body (setTimeBlock body) (by simp [len]) (by omega)
  rw [len] at taken
  exact congrArg _ taken

theorem advance_clk_fields (dt : Nat) (s : State) : (s.advance dt).clk =
    { s.clk with row := (s.advance dt).clk.row, applied := (s.advance dt).clk.applied, u := (s.advance dt).clk.u } := by
  obtain ⟨row, r, u, clk⟩ := advance_clk dt s
  rw [clk]

@[simp] theorem advance_clk_state (dt : Nat) (s : State) : (s.advance dt).clk.state = s.clk.state := by rw [advance_clk_fields]

@[simp] theorem advance_clk_selected (dt : Nat) (s : State) : (s.advance dt).clk.selected = s.clk.selected := by
  rw [advance_clk_fields]

@[simp] theorem advance_clk_epoch (dt : Nat) (s : State) : (s.advance dt).clk.epoch = s.clk.epoch := by rw [advance_clk_fields]

/-- Time changes no member count. -/
theorem advance_members (dt : Nat) (s : State) (i : Fin 12) : ((s.advance dt).rack i).members = (s.rack i).members := by
  obtain ⟨c, b, rack⟩ := advance_rack dt s i
  rw [rack]

/-- The member counts at a row step, from a state with the same records and member counts. -/
theorem membersAtStep_from {s u t : State} (records : u.records = s.records)
    (members : ∀ i, (u.rack i).members = (s.rack i).members) (h : u.MembersAtStep t) : s.MembersAtStep t := by
  intro i st
  have count : ∀ i st, u.countOf i st = s.countOf i st := fun i st => by
    unfold State.countOf
    rw [records]
  refine (h i st).trans ?_
  cases st <;> simp only [count, members]

theorem natOf_field (body : List Byte) {n : Nat} (len : body.length = n) : field body 0 n = natOf body := by
  unfold field
  rw [List.drop_zero, ← len, List.take_length]

/-- Settles O14. -/
theorem setTimeStepsInFreerun : Obligations.SetTimeStepsInFreerun := by
  intro dt body s frames len
  rw [exec_setTime_taken frames dt len]
  have state : (s.accepting dt 6).clk.state = s.clk.state := advance_clk_state dt s
  unfold setTimeBlock
  refine ⟨fun other => ?_, fun free => ?_⟩
  · rw [if_neg (by rw [state]; exact other)]
    rfl
  · rw [if_pos (state.trans free)]
    obtain ⟨only, racks, rising⟩ := rowStep_spec ⟨field body 0 6, 0⟩ (s.accepting dt 6)
    have emptied := rowStep_emptied ⟨field body 0 6, 0⟩ (s.accepting dt 6)
    have clk : ((s.accepting dt 6).rowStep ⟨field body 0 6, 0⟩).clk = { (s.advance dt).clk with
        row := ⟨natOf body, 0⟩, epoch := s.clk.epoch + 1, integral := 0, next := 0 } := by
      rw [only]
      show RowClock.step _ (s.advance dt).clk = _
      unfold RowClock.step
      rw [advance_clk_state, free, natOf_field body len, advance_clk_epoch]
      simp [free]
    generalize (s.accepting dt 6).rowStep ⟨field body 0 6, 0⟩ = t at *
    refine ⟨t, ?_, ?_, emptied, fun rise => ?_, racks, ?_, ?_, ?_, ?_, ?_, ?_, ?_, ?_⟩
    · rw [accepting_clk, advance_clk_epoch]
      rfl
    · rw [← clk]
      exact only.trans (by rw [only])
    · obtain ⟨records, members⟩ := rising (by unfold State.SlotsRise at rise ⊢; rwa [accepting_records])
      refine ⟨?_, membersAtStep_from (accepting_records dt 6 s) (advance_members dt s) members⟩
      rw [records, accepting_records]
      simp only [accepting_closeAssembled]
    · rw [clk]
      exact (advance_clk_state dt s).trans free
    · rw [only]
      exact advance_localNs s dt
    · rw [only]
      exact advance_chanA s dt
    · rw [only]
      exact advance_chanB s dt
    · rw [only]
      exact advance_lines s dt
    · rw [only]
      exact advance_newcomers s dt
    · rw [only]
      exact advance_overflow s dt
    · rw [only]
      exact advance_domains s dt

/-! ### Cause REF (R22) -/

theorem refChanged_advance (dt : Nat) (s t : State) : (s.advance dt).RefChanged t ↔ s.RefChanged t := by
  unfold State.RefChanged
  rw [advance_clk_state, advance_clk_selected, advance_chanA, advance_chanB]

theorem noteRef_only (old s : State) : State.noteRef old s = { s with port := (State.noteRef old s).port } := by
  unfold State.noteRef
  split <;> rfl

theorem noteRef_changed {old s : State} (h : old.RefChanged s) : State.noteRef old s = s.raise .ref := if_pos h

theorem noteRef_unchanged {old s : State} (h : ¬old.RefChanged s) : State.noteRef old s = s := if_neg h

theorem refChanged_noteRef (old s : State) : old.RefChanged (State.noteRef old s) ↔ old.RefChanged s := by
  rw [noteRef_only]
  rfl

theorem raise_isPending (c d : Cause) (s : State) :
    (s.raise c).port.isPending d = true ↔ s.port.isPending d = true ∨ c.bit = d.bit := by
  unfold Port.isPending
  rw [raise_causes_getLsbD]
  simp

theorem noteRef_isPending (old s : State) :
    (State.noteRef old s).port.isPending .ref = true ↔ s.port.isPending .ref = true ∨ old.RefChanged s := by
  by_cases h : old.RefChanged s
  · rw [noteRef_changed h, raise_isPending]
    simp [h]
  · rw [noteRef_unchanged h]
    simp [h]

/-! ### Reports and measurements (R6, R11, R14, R16) -/

/-- A report takes the clock to ACQUIRING, to HOLDOVER or to FREERUN, or leaves it (R12, R15, R17, R18). -/
theorem reportChan_moves (old : State) (ch : Chan) (s : State) :
    (State.reportChan old ch s).clk = s.clk ∨ (∃ c, (State.reportChan old ch s).clk = s.clk.toAcquiring c 0) ∨
      (State.reportChan old ch s).clk = s.clk.toHoldover ∨ (State.reportChan old ch s).clk = s.clk.toFreerun := by
  unfold State.reportChan State.becameQualified State.stoppedQualified
  split
  · exact .inl rfl
  · split
    · split
      · exact .inr (.inl ⟨_, rfl⟩)
      · exact .inr (.inl ⟨_, rfl⟩)
      · exact .inl rfl
      · split
        · exact .inr (.inl ⟨_, rfl⟩)
        · exact .inl rfl
    · split
      · exact .inl rfl
      · split
        · split
          · exact .inr (.inl ⟨_, rfl⟩)
          · split
            · exact .inr (.inr (.inl rfl))
            · exact .inr (.inr (.inr rfl))
        · split
          · exact .inr (.inl ⟨_, rfl⟩)
          · exact .inr (.inr (.inl rfl))
        · exact .inl rfl
        · exact .inl rfl

/-- The epoch and the configured fields of the clock (R19, R23). -/
structure RowClock.SameSetup (c d : RowClock) : Prop where
  epoch : d.epoch = c.epoch
  preferred : d.preferred = c.preferred
  revertive : d.revertive = c.revertive
  stepLimit : d.stepLimit = c.stepLimit
  holdRate : d.holdRate = c.holdRate

theorem RowClock.toAcquiring_sameSetup (ch : Chan) (n : Nat) (c : RowClock) : c.SameSetup (c.toAcquiring ch n) := by
  unfold RowClock.toAcquiring
  dsimp only
  split <;> exact ⟨rfl, rfl, rfl, rfl, rfl⟩

theorem RowClock.toHoldover_sameSetup (c : RowClock) : c.SameSetup c.toHoldover := by
  unfold RowClock.toHoldover
  dsimp only
  split <;> exact ⟨rfl, rfl, rfl, rfl, rfl⟩

/-- No report moves the epoch, or a configured field (R19, R23). -/
theorem reportChan_sameSetup (old : State) (ch : Chan) (s : State) : s.clk.SameSetup (State.reportChan old ch s).clk := by
  rcases reportChan_moves old ch s with clk | ⟨c, clk⟩ | clk | clk
  · rw [clk]
    exact ⟨rfl, rfl, rfl, rfl, rfl⟩
  · rw [clk]
    exact RowClock.toAcquiring_sameSetup ..
  · rw [clk]
    exact RowClock.toHoldover_sameSetup _
  · rw [clk]
    exact ⟨rfl, rfl, rfl, rfl, rfl⟩

/-- What a measurement or its absence leaves of the part: only the clock moves, or row time steps (R11, R14, R16, R19). -/
inductive State.Measured (s : State) : State → Prop where
  | quiet (c : RowClock) (same : c.epoch = s.clk.epoch) : s.Measured (s.withRefs s.chanA s.chanB c)
  | stepped (t : State) (epoch : t.clk.epoch = s.clk.epoch + 1)
    (only : t = { s with clk := t.clk, records := t.records, racks := t.racks, port := (s.raise .step).port }) : s.Measured t

theorem State.Measured.refl (s : State) : s.Measured s := .quiet s.clk rfl

theorem measureAcquiring_stepped {p : Int} {near x : Nat} {s : State} (step : s.clk.nextStepCount p near x = 4) :
    s.measureAcquiring p near x =
      { s.rowStep (s.clk.row.move (-(stepDistance p near x))) with
        clk := (s.clk.step (s.clk.row.move (-(stepDistance p near x)))).clearCounts } := by
  unfold State.measureAcquiring
  rw [if_pos step]
  have clk : (s.rowStep (s.clk.row.move (-(stepDistance p near x)))).clk =
      s.clk.step (s.clk.row.move (-(stepDistance p near x))) := by rw [(rowStep_spec _ s).1]
  unfold State.modClk
  rw [clk]

theorem measure_measured (ch : Chan) (p : Int) (near x : Nat) (s : State) : s.Measured (s.measure ch p near x) := by
  unfold State.measure
  split
  · by_cases step : s.clk.nextStepCount p near x = 4
    · rw [measureAcquiring_stepped step]
      refine .stepped _ rfl ?_
      have only := (rowStep_spec (s.clk.row.move (-(stepDistance p near x))) s).1
      generalize s.rowStep _ = t at *
      rw [only]
    · unfold State.measureAcquiring
      rw [if_neg step]
      split
      · exact .quiet _ rfl
      · exact .quiet _ rfl
  · unfold State.measureLocked
    split
    · exact .quiet _ (RowClock.toAcquiring_sameSetup ..).epoch
    · exact .quiet _ rfl
  · exact .refl s
  · exact .refl s

theorem handMeasure_measured (old : State) (ch : Chan) (s : State) : s.Measured (State.handMeasure old ch s) := by
  unfold State.handMeasure
  split
  · split
    · exact measure_measured ..
    · exact .refl s
  · exact .refl s

/-- Without a selected and QUALIFIED channel no measurement is handed on (R6). -/
theorem handMeasure_none {old s : State} {ch : Chan} (h : old.clk.selected ≠ some ch ∨ s.qualified ch = false) :
    State.handMeasure old ch s = s := by
  unfold State.handMeasure
  split
  · rw [if_neg]
    rintro ⟨selected, qualified⟩
    rcases h with h | h
    · exact h selected
    · rw [h] at qualified
      cases qualified
  · rfl

theorem handMeasure_some {old s : State} {ch : Chan} {x : Nat} (edge : (s.chan ch).edgeSec = some x)
    (selected : old.clk.selected = some ch) (qualified : s.qualified ch = true) : State.handMeasure old ch s =
    s.measure ch (phaseOf old.clk.row) (nearestSecond old.clk.row) x := by
  unfold State.handMeasure
  rw [edge]
  exact if_pos ⟨selected, qualified⟩

/-! ### An edge (R3, R4) -/

theorem goodSecond_iff (now : Nat) (c : RefChannel) : c.goodSecond now = true ↔ c.GoodSecond now := by
  unfold RefChannel.goodSecond RefChannel.GoodSecond
  cases c.prevEdge <;> cases c.held <;> cases c.edgeSec <;> simp [within, secMod, and_assoc]

theorem chanEdge_only (ch : Chan) (s : State) :
    s.chanEdge ch = { s with chanA := (s.chanEdge ch).chanA, chanB := (s.chanEdge ch).chanB } := by
  cases ch <;> rfl

theorem ppsEdge_measured (ch : Chan) (s : State) :
    (State.reportChan s ch (s.chanEdge ch)).Measured (s.ppsEdge ch) := handMeasure_measured ..

/-- An edge leaves the epoch but for a row step, which alone touches the tables, the racks and the port (R19). -/
structure State.EdgeTaken (ch : Chan) (s t : State) : Prop where
  chans : ∀ d, t.chan d = (s.chanEdge ch).chan d
  only : t = { s with chanA := t.chanA, chanB := t.chanB, clk := t.clk, records := t.records, racks := t.racks, port := t.port }
  port : t.port = s.port ∨ t.port = (s.raise .step).port
  unstepped : t.clk.epoch = s.clk.epoch → t.records = s.records ∧ t.racks = s.racks ∧ t.port = s.port

theorem ppsEdge_taken (ch : Chan) (s : State) : s.EdgeTaken ch (s.ppsEdge ch) := by
  have measured := ppsEdge_measured ch s
  have reported := reportChan_clk s ch (s.chanEdge ch)
  have epoch : (State.reportChan s ch (s.chanEdge ch)).clk.epoch = s.clk.epoch :=
    (reportChan_sameSetup s ch _).epoch.trans (by rw [chanEdge_only])
  generalize State.reportChan s ch (s.chanEdge ch) = v at *
  rw [chanEdge_only] at reported
  generalize s.ppsEdge ch = t at *
  cases measured with
  | quiet c same =>
    refine ⟨fun d => ?_, ?_, .inl ?_, fun _ => ?_⟩
    · rw [reported]
      cases d <;> rfl
    · rw [reported]
      rfl
    · rw [reported]
      rfl
    · rw [reported]
      exact ⟨rfl, rfl, rfl⟩
  | stepped _ next only =>
    refine ⟨fun d => ?_, ?_, .inr ?_, fun still => ?_⟩
    · rw [only, reported]
      cases d <;> rfl
    · rw [only, reported]
      rfl
    · rw [only, reported]
      rfl
    · rw [next, epoch] at still
      exact absurd still (by simp)

theorem qualified_iff (ch : Chan) (s : State) : s.qualified ch = true ↔ (s.chan ch).state = .qualified := by
  unfold State.qualified
  exact beq_iff_eq

theorem qualified_false_iff (ch : Chan) (s : State) : s.qualified ch = false ↔ (s.chan ch).state ≠ .qualified := by
  rw [← Bool.not_eq_true, qualified_iff]

@[simp] theorem advance_qualified (dt : Nat) (ch : Chan) (s : State) : (s.advance dt).qualified ch = s.qualified ch := by
  unfold State.qualified
  rw [advance_chan]

theorem refHeld_advance {s : State} (dt : Nat) (held : s.RefHeld) : (s.advance dt).RefHeld := by
  refine ⟨fun rest => ?_, fun run => ?_⟩
  · rw [advance_clk_state] at rest
    rw [advance_clk_selected, advance_qualified, advance_qualified]
    exact held.resting rest
  · rw [advance_clk_state] at run
    simp only [advance_clk_selected, advance_qualified]
    exact held.running run

/-- The selected channel is QUALIFIED (R8). -/
theorem State.RefHeld.selected_qualified {s : State} (held : s.RefHeld) {ch : Chan} (selected : s.clk.selected = some ch) :
    s.qualified ch = true := by
  cases state : s.clk.state
  case freerun => rw [(held.resting (.inl state)).1] at selected; cases selected
  case holdover => rw [(held.resting (.inr state)).1] at selected; cases selected
  case acquiring =>
    obtain ⟨c, other, qualified⟩ := held.running (.inl state)
    rw [selected] at other
    cases other
    exact qualified
  case locked =>
    obtain ⟨c, other, qualified⟩ := held.running (.inr state)
    rw [selected] at other
    cases other
    exact qualified

/-- In FREERUN and HOLDOVER no channel is QUALIFIED (R8). -/
theorem State.RefHeld.resting_unqualified {s : State} (held : s.RefHeld) (rest : s.clk.state = .freerun ∨ s.clk.state = .holdover)
    (ch : Chan) : s.qualified ch = false := by
  obtain ⟨_, a, b⟩ := held.resting rest
  cases ch
  · exact a
  · exact b

/-- A channel that becomes QUALIFIED (R12, R13, R15, R17). -/
theorem reportChan_gained {s u : State} {ch : Chan} (held : s.RefHeld) (clk : u.clk = s.clk)
    (other : u.chan ch.other = s.chan ch.other) (before : s.qualified ch = false) (now : u.qualified ch = true) :
    s.clk.Gained ch (State.reportChan s ch u).clk := by
  have reported : State.reportChan s ch u = u.becameQualified ch := by
    unfold State.reportChan
    rw [if_neg (by rw [before, now]; decide), if_pos now]
  rw [reported, ← clk]
  refine becameQualified_gained now fun rest => ?_
  rw [clk] at rest
  unfold State.qualified
  rw [other]
  exact held.resting_unqualified rest ch.other

/-- The selected channel stops being QUALIFIED (R15, R17). -/
theorem reportChan_lost {s u : State} {ch : Chan} (clk : u.clk = s.clk) (before : s.qualified ch = true)
    (now : u.qualified ch = false) (selected : s.clk.selected = some ch) :
    s.clk.Lost (if (u.chan ch.other).state = .qualified then some ch.other else none) (State.reportChan s ch u).clk := by
  have reported : State.reportChan s ch u = u.stoppedQualified ch := by
    unfold State.reportChan
    rw [if_neg (by rw [before, now]; decide), if_neg (by rw [now]; decide)]
  rw [reported, ← clk]
  exact stoppedQualified_lost ch (by rw [clk]; exact selected)

theorem chanEdge_same (ch : Chan) (s : State) : (s.chanEdge ch).chan ch = (s.chan ch).edge s.localNs s.clk.row :=
  setChan_chan_same ..

theorem other_ne (ch : Chan) : ch ≠ ch.other := by cases ch <;> decide

theorem chanEdge_other (ch : Chan) (s : State) : (s.chanEdge ch).chan ch.other = s.chan ch.other :=
  setChan_chan_other _ _ (other_ne ch)

theorem chanEdge_clk (ch : Chan) (s : State) : (s.chanEdge ch).clk = s.clk := setChan_clk ..

/-- The clock after an edge that hands on no measurement: the channel's report alone (R6). -/
theorem ppsEdge_clk_reported {s : State} {ch : Chan}
    (none : s.clk.selected ≠ some ch ∨ ((s.ppsEdge ch).chan ch).state ≠ .qualified) :
    (s.ppsEdge ch).clk = (State.reportChan s ch (s.chanEdge ch)).clk := by
  refine congrArg State.clk (handMeasure_none (none.imp id fun unqualified => ?_))
  rw [reportChan_qualified, qualified_false_iff, ← (ppsEdge_taken ch s).chans]
  exact unqualified

theorem exec_ppsEdge_on {s : State} {ch : Chan} (dt : Nat) (on : (s.chan ch).enable = true) :
    exec (.ppsEdge ch dt) s = .next (State.noteRef (s.advance dt) ((s.advance dt).ppsEdge ch)) := by
  show Host.Outcome.next ((s.advance dt).takeEdge ch) = _
  unfold State.takeEdge
  rw [advance_chan, if_pos on]

/-- What an edge does to its channel (R3, R4). -/
structure RefChannel.Judged (now : Nat) (c d : RefChannel) : Prop where
  fromDown : c.state = .down → d.state = .qualifying ∧ d.good = 0
  good : c.state ≠ .down → c.GoodSecond now →
    d.good = min 4 (c.good + 1) ∧ d.state = if c.good + 1 ≥ 4 then .qualified else c.state
  bad : c.state ≠ .down → ¬c.GoodSecond now → d.good = 0 ∧ d.state = .qualifying

theorem edge_judged (now : Nat) (row : RowTime) (c : RefChannel) : c.Judged now (c.edge now row) := by
  unfold RefChannel.edge RefChannel.judged
  refine ⟨fun down => ?_, fun up good => ?_, fun up bad => ?_⟩
  · rw [if_pos down]
    exact ⟨rfl, rfl⟩
  · rw [if_neg up, if_pos ((goodSecond_iff now c).2 good)]
    exact ⟨rfl, rfl⟩
  · rw [if_neg up, if_neg (fun g => bad ((goodSecond_iff now c).1 g))]
    exact ⟨rfl, rfl⟩

/-- A QUALIFIED channel stays so over a good second (R4). -/
theorem edge_stays_qualified {c : RefChannel} {now : Nat} (row : RowTime) (was : c.state = .qualified) (good : c.GoodSecond now) :
    (c.edge now row).state = .qualified := by
  obtain ⟨_, state⟩ := (edge_judged now row c).good (by rw [was]; decide) good
  rw [state, was]
  split <;> rfl

theorem edge_enable (now : Nat) (row : RowTime) (c : RefChannel) : (c.edge now row).enable = c.enable := by
  unfold RefChannel.edge RefChannel.judged
  dsimp only
  split
  · rfl
  · split <;> rfl

/-- Settles O8. -/
theorem ppsEdgeJudgesTheSecond : Obligations.PpsEdgeJudgesTheSecond := by
  intro ch dt s
  refine ⟨fun on => ⟨_, exec_ppsEdge_on dt on, ?_⟩, fun off => ?_⟩
  · have taken := ppsEdge_taken ch (s.advance dt)
    have reported : (s.advance dt).clk.selected ≠ some ch ∨ _ → _ := ppsEdge_clk_reported (s := s.advance dt) (ch := ch)
    have pending := noteRef_isPending (s.advance dt) ((s.advance dt).ppsEdge ch)
    have raised := noteRef_changed (old := s.advance dt) (s := (s.advance dt).ppsEdge ch)
    have still := noteRef_unchanged (old := s.advance dt) (s := (s.advance dt).ppsEdge ch)
    have only := noteRef_only (s.advance dt) ((s.advance dt).ppsEdge ch)
    rw [← refChanged_noteRef, refChanged_advance] at pending raised still
    generalize (s.advance dt).ppsEdge ch = w at *
    generalize State.noteRef (s.advance dt) w = t at *
    have own : t.chan ch = (s.chan ch).edge (s.localNs + dt) (s.advance dt).clk.row := by
      have := taken.chans ch
      rw [chanEdge_same, advance_chan, advance_localNs] at this
      rw [only, ← this]
      cases ch <;> rfl
    have ownW : w.chan ch = t.chan ch := by
      rw [only]
      cases ch <;> rfl
    have other : t.chan ch.other = s.chan ch.other := by
      have := taken.chans ch.other
      rw [chanEdge_other, advance_chan] at this
      rw [only, ← this]
      cases ch <;> rfl
    have clk : t.clk = w.clk := by rw [only]
    have judged := edge_judged (s.localNs + dt) (s.advance dt).clk.row (s.chan ch)
    have qualifiedThen : ∀ b, (s.advance dt).qualified ch = b ↔ s.qualified ch = b := fun b => by rw [advance_qualified]
    have qualifiedNow : ∀ b, ((s.advance dt).chanEdge ch).qualified ch = b ↔ t.qualified ch = b := fun b => by
      unfold State.qualified
      rw [← taken.chans, ownW]
    refine ⟨?_, other, ?_, ?_, ?_, ?_, ?_, ?_, ?_, ?_, ?_, ?_, fun held => ⟨fun before now => ?_, fun before now => ⟨fun sel => ?_,
      fun unsel => ?_⟩, fun before now => ?_⟩, fun before now unsel => ?_, ?_, fun epoch => ?_, ?_, ?_, ?_, ?_, ?_, ?_⟩
    · rw [only, taken.only]
      exact advance_localNs s dt
    · rw [own, edge_enable]
      exact on
    · rw [own]
      rfl
    · rw [own]
      rfl
    · rw [own]
      rfl
    · rw [own]
      rfl
    · rw [own]
      rfl
    · rw [own]
      rfl
    · rw [own]
      exact judged.fromDown
    · rw [own]
      exact judged.good
    · rw [own]
      exact judged.bad
    · rw [clk, reported (.inl ?_)]
      · exact reportChan_gained (refHeld_advance dt held) (chanEdge_clk ..) (chanEdge_other ..)
          ((qualifiedThen _).2 ((qualified_false_iff ch s).2 before)) ((qualifiedNow _).2 ((qualified_iff ch t).2 now))
      · rw [advance_clk_selected]
        exact fun sel => before ((qualified_iff ch s).1 (held.selected_qualified sel))
    · rw [clk, reported (.inr (by rw [ownW]; exact now))]
      have lost := reportChan_lost (chanEdge_clk ch (s.advance dt))
        ((qualifiedThen _).2 ((qualified_iff ch s).2 before)) ((qualifiedNow _).2 ((qualified_false_iff ch t).2 now))
        (by rw [advance_clk_selected]; exact sel)
      rwa [chanEdge_other, advance_chan] at lost
    · rw [clk, reported (.inr (by rw [ownW]; exact now)), stopped_other
        ((qualifiedThen _).2 ((qualified_iff ch s).2 before)) ((qualifiedNow _).2 ((qualified_false_iff ch t).2 now))
        (by rw [chanEdge_clk, advance_clk_selected]; exact unsel), chanEdge_clk]
    · rw [clk, reported (.inr (by rw [ownW]; exact now)), reportChan_same, chanEdge_clk]
      rw [(qualifiedThen _).2 ((qualified_false_iff ch s).2 before), (qualifiedNow _).2 ((qualified_false_iff ch t).2 now)]
    · rw [clk, reported (.inl (by rw [advance_clk_selected]; exact unsel)), reportChan_same, chanEdge_clk]
      rw [(qualifiedThen _).2 ((qualified_iff ch s).2 before), (qualifiedNow _).2 ((qualified_iff ch t).2 now)]
    · rw [pending]
      refine or_congr ?_ Iff.rfl
      rcases taken.port with port | port
      · rw [port, advance_port]
      · rw [port, raise_isPending, advance_port]
        exact or_iff_left (by decide)
    · obtain ⟨records, racks, port⟩ := taken.unstepped (by rw [← clk, advance_clk_epoch]; exact epoch)
      rw [advance_port] at port
      refine ⟨?_, ?_, fun changed => ?_, fun same => ?_⟩
      · rw [only, records, advance_records]
      · rw [only, racks]
      · rw [raised changed, raise_port, raise_port, port]
      · rw [still same, port]
    · exact only.trans (taken.only ▸ by rw [only])
    · rw [only, taken.only]
      exact advance_lines s dt
    · rw [only, taken.only]
      exact advance_newcomers s dt
    · rw [only, taken.only]
      exact advance_overflow s dt
    · rw [only, taken.only]
      exact advance_domains s dt
    · rw [only, taken.only]
      exact advance_pending s dt
  · show Host.Outcome.next ((s.advance dt).takeEdge ch) = _
    unfold State.takeEdge
    rw [advance_chan, if_neg (by simp [off])]

/-! ### Measurements (R11, R14, R16) -/

/-- A good second of a selected and QUALIFIED channel is a measurement (R6). -/
theorem ppsEdge_measures {s : State} {ch : Chan} {x : Nat} (was : (s.chan ch).state = .qualified)
    (good : (s.chan ch).GoodSecond s.localNs) (edge : (s.chan ch).held.map HeldMessage.sec = some x)
    (selected : s.clk.selected = some ch) :
    s.ppsEdge ch = (s.chanEdge ch).measure ch (phaseOf s.clk.row) (nearestSecond s.clk.row) x := by
  have now : (s.chanEdge ch).qualified ch = true := by
    rw [qualified_iff, chanEdge_same]
    exact edge_stays_qualified _ was good
  have same : State.reportChan s ch (s.chanEdge ch) = s.chanEdge ch :=
    reportChan_same (((qualified_iff ch s).2 was).trans now.symm)
  unfold State.ppsEdge
  rw [same]
  refine handMeasure_some ?_ selected now
  rw [chanEdge_same]
  exact edge

theorem nextStepCount_eq (p : Int) (near x : Nat) (c : RowClock) : c.nextStepCount p near x =
    if x ≠ near ∨ p.natAbs > c.stepLimit then min 4 (c.stepCount + 1) else 0 := by
  unfold RowClock.nextStepCount RowClock.stepCond
  refine if_congr ?_ rfl rfl
  simp

theorem measureLocked_followed {ch : Chan} {p : Int} {near x : Nat} {s : State} (still : s.clk.nextStepCount p near x ≠ 4) :
    (s.measureLocked ch p near x).clk = s.clk.follow p near x := by
  unfold State.measureLocked
  rw [if_neg still]
  rfl

theorem measureLocked_reacquires {ch : Chan} {p : Int} {near x : Nat} {s : State} (step : s.clk.nextStepCount p near x = 4) :
    (s.measureLocked ch p near x).clk = (s.clk.follow p near x).toAcquiring ch 4 := by
  unfold State.measureLocked
  rw [if_pos step]
  rfl

theorem noteRef_clk (old s : State) : (State.noteRef old s).clk = s.clk := by rw [noteRef_only]

/-- Settles O9. -/
theorem measurementInLocked : Obligations.MeasurementInLocked := by
  intro ch dt x p near n s on was good edge locked selected hp hnear hn
  refine ⟨_, exec_ppsEdge_on dt on, ?_⟩
  have measures : (s.advance dt).ppsEdge ch = _ := ppsEdge_measures (x := x) (by rw [advance_chan]; exact was)
    (by rw [advance_chan, advance_localNs]; exact good) (by rw [advance_chan]; exact edge)
    (by rw [advance_clk_selected]; exact selected)
  have count := nextStepCount_eq p near x (s.advance dt).clk
  rw [noteRef_clk, measures, ← hp, ← hnear]
  unfold State.measure
  rw [chanEdge_clk, advance_clk_state, locked]
  rw [← chanEdge_clk ch (s.advance dt)] at count
  have limits : (s.advance dt).clk.stepLimit = s.clk.stepLimit ∧ (s.advance dt).clk.stepCount = s.clk.stepCount ∧
      (s.advance dt).clk.integral = s.clk.integral := by
    rw [advance_clk_fields]
    exact ⟨rfl, rfl, rfl⟩
  obtain ⟨limit, steps, integral⟩ := limits
  have same : ((s.advance dt).chanEdge ch).clk.nextStepCount p near x = n := by
    rw [count, hn, chanEdge_clk, limit, steps]
  refine ⟨fun few => ?_, fun four => ?_⟩
  · refine (measureLocked_followed (by rw [same]; exact few)).trans ?_
    unfold RowClock.follow
    rw [same, chanEdge_clk]
    unfold RowClock.discipline lockedU
    rw [integral]
    rfl
  · refine (measureLocked_reacquires (same.trans four)).trans ?_
    have floor : max (min 4294967295 (20 + p.natAbs)) 20 = min 4294967295 (20 + p.natAbs) := by omega
    unfold RowClock.follow
    rw [chanEdge_clk]
    unfold RowClock.toAcquiring RowClock.discipline lockedU uCap
    dsimp only
    rw [advance_clk_state, locked, integral, ← selected, advance_clk_fields]
    dsimp only
    rw [floor]

/-- The counts of a measurement, in the clock as time has left it. -/
theorem measureAcquiring_quiet {p : Int} {near x : Nat} {s : State} (still : s.clk.nextStepCount p near x ≠ 4) :
    s.measureAcquiring p near x = s.modClk (fun c =>
      if s.clk.nextLockCount p = 8 then RowClock.lock p c else (c.count p near x).discipline p) := by
  unfold State.measureAcquiring
  rw [if_neg still]
  split <;> rfl

/-- What a row step in ACQUIRING leaves of the clock (R14, R19). -/
theorem stepped_clk {row : RowTime} {c : RowClock} (acquiring : c.state = .acquiring) : (c.step row).clearCounts = { c with
    row := row, epoch := c.epoch + 1, stepCount := 0, lockCount := 0
    integral := if c.origin = .freerun then 0 else c.integral
    next := if c.origin = .freerun then 0 else c.integral } := by
  unfold RowClock.step RowClock.clearCounts
  rw [acquiring]
  cases c.origin <;> rfl

/-- The clock state, the selected reference and the channels' states are all as they were (R22). -/
theorem not_refChanged {s t : State} (state : t.clk.state = s.clk.state) (selected : t.clk.selected = s.clk.selected)
    (chans : ∀ d, (t.chan d).state = (s.chan d).state) : ¬s.RefChanged t := by
  unfold State.RefChanged
  rw [state, selected, show t.chanA.state = s.chanA.state from chans .a, show t.chanB.state = s.chanB.state from chans .b]
  simp

theorem chanEdge_rack (ch : Chan) (s : State) (i : Fin 12) : (s.chanEdge ch).rack i = s.rack i := setChan_rack ..

theorem chanEdge_records (ch : Chan) (s : State) : (s.chanEdge ch).records = s.records := setChan_records ..

theorem chanEdge_closeAssembled (ch : Chan) (s : State) (r : Endpoint) :
    (s.chanEdge ch).closeAssembled r = s.closeAssembled r := by
  rw [chanEdge_only]
  rfl

theorem advance_closeAssembled (dt : Nat) (s : State) (r : Endpoint) :
    (s.advance dt).closeAssembled r = s.closeAssembled r := by
  unfold State.closeAssembled
  simp only [advance_line]

/-- Settles O10. -/
theorem measurementInAcquiring : Obligations.MeasurementInAcquiring := by
  intro ch dt x p near n k s on was good edge acquiring selected hp hnear hn hk
  refine ⟨_, exec_ppsEdge_on dt on, ?_⟩
  have measures : (s.advance dt).ppsEdge ch = _ := ppsEdge_measures (x := x) (by rw [advance_chan]; exact was)
    (by rw [advance_chan, advance_localNs]; exact good) (by rw [advance_chan]; exact edge)
    (by rw [advance_clk_selected]; exact selected)
  have clk : ((s.advance dt).chanEdge ch).clk = (s.advance dt).clk := chanEdge_clk ..
  have state := advance_clk_state dt s
  have step : ((s.advance dt).chanEdge ch).clk.nextStepCount p near x = n := by
    rw [nextStepCount_eq, hn, clk, advance_clk_fields]
  have lock : ((s.advance dt).chanEdge ch).clk.nextLockCount p = k := by
    rw [hk, clk, advance_clk_fields]
    rfl
  have origin : (s.advance dt).clk.origin = s.clk.origin ∧ (s.advance dt).clk.integral = s.clk.integral := by
    rw [advance_clk_fields]
    exact ⟨rfl, rfl⟩
  have kept : ∀ d, (((s.advance dt).chanEdge ch).chan d).state = ((s.advance dt).chan d).state := fun d => by
    by_cases own : d = ch
    · subst own
      rw [chanEdge_same, advance_chan, advance_localNs, was]
      exact edge_stays_qualified _ was good
    · exact congrArg RefChannel.state (setChan_chan_other _ _ (Ne.symm own))
  rw [measures, ← hp, ← hnear]
  unfold State.measure
  rw [clk, state, acquiring]
  dsimp only
  refine ⟨fun four => ?_, fun few => ?_, fun few eight => ?_, fun few fewer => ?_⟩
  · rw [measureAcquiring_stepped (step.trans four), clk]
    obtain ⟨only, racks, rising⟩ := rowStep_spec ((s.advance dt).clk.row.move (-(stepDistance p near x)))
      ((s.advance dt).chanEdge ch)
    have emptied := rowStep_emptied ((s.advance dt).clk.row.move (-(stepDistance p near x))) ((s.advance dt).chanEdge ch)
    generalize State.rowStep _ ((s.advance dt).chanEdge ch) = w at *
    have unchanged : ¬(s.advance dt).RefChanged { w with
        clk := ((s.advance dt).clk.step ((s.advance dt).clk.row.move (-(stepDistance p near x)))).clearCounts } := by
      refine not_refChanged rfl rfl fun d => ?_
      rw [← kept d, only]
      cases d <;> rfl
    rw [noteRef_unchanged unchanged]
    refine ⟨?_, ?_, emptied, fun rise => ?_, fun i => ?_⟩
    · refine (stepped_clk (state.trans acquiring)).trans ?_
      rw [origin.1, origin.2, advance_clk_epoch]
      rfl
    · show w.port = _
      rw [only, raise_port, raise_port, show ((s.advance dt).chanEdge ch).port = (s.advance dt).port from setChan_port ..,
        advance_port]
    · obtain ⟨records, members⟩ := rising (by
        unfold State.SlotsRise at rise ⊢
        rwa [chanEdge_records, advance_records])
      refine ⟨?_, membersAtStep_from ((chanEdge_records ..).trans (advance_records ..)) (fun i => ?_) members⟩
      · show w.records = _
        rw [records, chanEdge_records, advance_records]
        simp only [chanEdge_closeAssembled, advance_closeAssembled]
      · rw [chanEdge_rack, advance_members]
    · have rack := racks i
      rw [chanEdge_rack] at rack
      exact rack
  · rw [noteRef_only, measureAcquiring_quiet (by rw [step]; exact few)]
    exact (chanEdge_records ..).trans (advance_records ..)
  · rw [noteRef_clk, measureAcquiring_quiet (by rw [step]; exact few), modClk_clk, if_pos (lock.trans eight), clk]
    rfl
  · rw [noteRef_clk, measureAcquiring_quiet (by rw [step]; exact few), modClk_clk, if_neg (by rw [lock]; exact fewer)]
    unfold RowClock.count RowClock.discipline
    rw [step, lock, clk]
    dsimp only
    rw [origin.2]

/-! ### A lost channel (R5) -/

/-- Settles O12. -/
theorem lossDeadlineTakesTheChannelDown : Obligations.LossDeadlineTakesTheChannelDown := by
  intro ch d s deadline
  have e : exec (.lossDeadlineExpiry ch) s = .next ((s.advanceTo d).loseChan ch) := by
    show execLossDeadlineExpiry ch s = _
    unfold execLossDeadlineExpiry
    rw [deadline]
  refine ⟨_, e, ?_⟩
  have own : ((s.advanceTo d).setChan ch (s.chan ch).lose).chan ch = (s.chan ch).lose := setChan_chan_same ..
  have other : ((s.advanceTo d).setChan ch (s.chan ch).lose).chan ch.other = s.chan ch.other :=
    (setChan_chan_other _ _ (other_ne ch)).trans (advanceTo_chan ..)
  have clk : ((s.advanceTo d).setChan ch (s.chan ch).lose).clk = (s.advanceTo d).clk := setChan_clk ..
  have before : (s.advanceTo d).qualified ch = s.qualified ch := advance_qualified ..
  have selected : (s.advanceTo d).clk.selected = s.clk.selected := advance_clk_selected ..
  unfold State.loseChan
  rw [advanceTo_chan]
  have only : (s.advanceTo d).setChan ch (s.chan ch).lose = { s.advanceTo d with
      chanA := ((s.advanceTo d).setChan ch (s.chan ch).lose).chanA
      chanB := ((s.advanceTo d).setChan ch (s.chan ch).lose).chanB } := by cases ch <;> rfl
  generalize (s.advanceTo d).setChan ch (s.chan ch).lose = u at *
  have down : u.qualified ch = false := by
    rw [qualified_false_iff, own]
    exact ChanState.noConfusion
  have reported := reportChan_clk (s.advanceTo d) ch u
  have noted := noteRef_only (s.advanceTo d) (State.reportChan (s.advanceTo d) ch u)
  have pending := noteRef_isPending (s.advanceTo d) (State.reportChan (s.advanceTo d) ch u)
  have lost := reportChan_lost (s := s.advanceTo d) (ch := ch) clk
  have chan : ∀ c, (State.noteRef (s.advanceTo d) (State.reportChan (s.advanceTo d) ch u)).chan c = u.chan c := fun c => by
    rw [noted, reported]
    cases c <;> rfl
  have same : s.clk.selected ≠ some ch ∨ (s.chan ch).state ≠ .qualified → State.reportChan (s.advanceTo d) ch u = u := by
    intro h
    cases was : s.qualified ch with
    | false => exact reportChan_same (by rw [before, was, down])
    | true =>
      refine stopped_other (before.trans was) down ?_
      rw [clk, selected]
      exact h.resolve_right fun no => no ((qualified_iff ch s).1 was)
  rw [other] at lost
  rw [← refChanged_noteRef] at pending
  refine ⟨?_, (chan _).trans own, (chan _).trans other, fun up => pending.2 (.inr ?_), fun sel was => ?_, fun h => ?_, ?_, ?_, ?_, ?_,
    ?_, ?_⟩
  · rw [noted, reported, only]
    exact advanceTo_localNs s d
  · have changed : ((State.noteRef (s.advanceTo d) (State.reportChan (s.advanceTo d) ch u)).chan ch).state ≠
        ((s.advanceTo d).chan ch).state := by
      rw [chan, own, advanceTo_chan]
      exact Ne.symm up
    by_contra still
    unfold State.RefChanged at still
    simp only [ne_eq, not_or, not_not] at still
    obtain ⟨_, _, a, b⟩ := still
    cases ch
    · exact changed a
    · exact changed b
  · rw [noteRef_clk]
    exact lost (before.trans ((qualified_iff ch s).2 was)) down (selected.trans sel)
  · rw [noteRef_clk, same h, clk]
  · rw [noted, reported, only]
    exact advanceTo_lines s d
  · rw [noted, reported, only]
    exact advanceTo_records s d
  · rw [noted, reported, only]
    exact advanceTo_newcomers s d
  · rw [noted, reported, only]
    exact advanceTo_overflow s d
  · rw [noted, reported, only]
    exact advanceTo_domains s d
  · rw [noted, reported, only]
    exact advanceTo_pending s d

end Sys2Proof.Machine

/-! SUPPORT. REF_CONFIG (R23), and the time-of-day inputs (R2, R27). -/

namespace Sys2Proof.Machine

open Sys2Proof

/-! ### The channels' enables (R23) -/

/-- What the enable field of one channel does to it (R23). -/
structure RefChannel.Enabled (carried on : Bool) (c d : RefChannel) : Prop where
  enable : d.enable = if carried = true then on else c.enable
  changed : d.enable ≠ c.enable → d.state = (if d.enable = true then .down else .disabled) ∧ d.good = 0 ∧ d.prevEdge = none ∧
    d.edgeSec = none ∧ d.held = none ∧ d.msgFault = false ∧ d.lossDeadline = none
  same : d.enable = c.enable → d = c

theorem setEnable_enabled (carried on : Bool) (c : RefChannel) : c.Enabled carried on (c.setEnable carried on) := by
  unfold RefChannel.setEnable
  by_cases act : (carried && (on != c.enable)) = true
  · obtain ⟨isCarried, differs⟩ : carried = true ∧ on ≠ c.enable := by simpa using act
    rw [if_pos act]
    exact ⟨(if_pos isCarried).symm, fun _ => ⟨rfl, rfl, rfl, rfl, rfl, rfl, rfl⟩, fun h => absurd h differs⟩
  · rw [if_neg act]
    refine ⟨?_, fun h => absurd rfl h, fun _ => rfl⟩
    cases carried
    · rfl
    · have still : on = c.enable := by simpa using act
      rw [if_pos rfl, still]

/-- An enable field never makes a channel QUALIFIED (R23). -/
theorem RefChannel.Enabled.unqualified {carried on : Bool} {c d : RefChannel} (h : c.Enabled carried on d)
    (now : d.state = .qualified) : c.state = .qualified := by
  by_cases same : d.enable = c.enable
  · rwa [← h.same same]
  · rw [(h.changed same).1] at now
    split at now <;> cases now

/-! ### The reports that REF_CONFIG brings (R6, R15, R17, R23) -/

/-- Both channels' reports, A's first (R23, assumption 23). -/
def State.reportBoth (old s : State) : State := State.reportChan old .b (State.reportChan old .a s)

theorem reportBoth_only (old s : State) : State.reportBoth old s = { s with clk := (State.reportBoth old s).clk } := by
  have a := reportChan_clk old .a s
  have b := reportChan_clk old .b (State.reportChan old .a s)
  unfold State.reportBoth
  generalize State.reportChan old .a s = v at *
  rw [b, a]
  rfl

/-- Channels that stop being QUALIFIED without being selected leave the clock (R15, R17). -/
theorem reportBoth_unselected {s u : State} (clk : u.clk = s.clk)
    (falls : ∀ ch, u.qualified ch = true → s.qualified ch = true)
    (selected : ∀ ch, s.clk.selected = some ch → u.qualified ch = true) : State.reportBoth s u = u := by
  have one : ∀ ch, State.reportChan s ch u = u := fun ch => by
    cases now : u.qualified ch with
    | true => exact reportChan_same ((falls ch now).trans now.symm)
    | false =>
      cases was : s.qualified ch with
      | false => exact reportChan_same (was.trans now.symm)
      | true =>
        refine stopped_other was now fun sel => ?_
        rw [clk] at sel
        rw [selected ch sel] at now
        cases now
  unfold State.reportBoth
  rw [one .a, one .b]

/-- The clock after its selected channel is lost names the other channel, if that is QUALIFIED, and is not LOCKED (R15, R17). -/
theorem lost_selected {c d : RowClock} {o : Option Chan} (run : c.state = .acquiring ∨ c.state = .locked) (h : c.Lost o d) :
    d.selected = o ∧ d.state ≠ .locked := by
  cases o with
  | some o =>
    rcases run with run | run
    · rw [h.acquiringOther o run rfl]
      exact ⟨rfl, by rw [run]; decide⟩
    · rw [h.lockedOther o run rfl]
      exact ⟨rfl, nofun⟩
  | none =>
    rcases run with run | run
    · cases locked : c.hasLocked with
      | true =>
        rw [h.acquiringHeld run rfl locked]
        exact ⟨rfl, nofun⟩
      | false =>
        rw [h.acquiringFree run rfl locked]
        exact ⟨rfl, nofun⟩
    · rw [h.lockedHeld run rfl]
      exact ⟨rfl, nofun⟩

/-- The selected channel stops being QUALIFIED, whatever becomes of the other (R15, R17). -/
theorem reportBoth_lost {s u : State} (clk : u.clk = s.clk) (falls : ∀ ch, u.qualified ch = true → s.qualified ch = true)
    (run : s.clk.state = .acquiring ∨ s.clk.state = .locked) {ch : Chan} (selected : s.clk.selected = some ch)
    (was : s.qualified ch = true) (now : u.qualified ch = false) :
    s.clk.Lost (if (u.chan ch.other).state = .qualified then some ch.other else none) (State.reportBoth s u).clk := by
  have lost := reportChan_lost clk was now selected
  unfold State.reportBoth
  cases ch with
  | a =>
    suffices same : State.reportChan s .b (State.reportChan s .a u) = State.reportChan s .a u by rwa [same]
    have qualified := reportChan_qualified s .a u .b
    cases other : u.qualified .b with
    | true => exact reportChan_same (by rw [qualified, other, falls .b other])
    | false =>
      cases before : s.qualified .b with
      | false => exact reportChan_same (by rw [qualified, other, before])
      | true =>
        refine stopped_other before (qualified.trans other) ?_
        rw [(lost_selected run lost).1, show Chan.a.other = .b from rfl, if_neg ((qualified_false_iff .b u).1 other)]
        decide
  | b =>
    suffices same : State.reportChan s .a u = u by rwa [same]
    cases other : u.qualified .a with
    | true => exact reportChan_same (by rw [other, falls .a other])
    | false =>
      cases before : s.qualified .a with
      | false => exact reportChan_same (by rw [other, before])
      | true => exact stopped_other before other (by rw [clk, selected]; decide)

/-! ### The clock's fields of REF_CONFIG (R23) -/

theorem lost_configure (body : List Byte) {c d : RowClock} {o : Option Chan} (h : c.Lost o d) :
    (c.configure body).Lost o (d.configure body) where
  acquiringOther o e k := by rw [h.acquiringOther o e k]; rfl
  acquiringHeld e k l := by rw [h.acquiringHeld e k l]; rfl
  acquiringFree e k l := by rw [h.acquiringFree e k l]; rfl
  lockedOther o e k := by rw [h.lockedOther o e k]; rfl
  lockedHeld e k := by rw [h.lockedHeld e k]; rfl

theorem configure_nothing {body : List Byte} (nothing : field body 0 1 = 0) (c : RowClock) : c.configure body = c := by
  unfold RowClock.configure carried
  rw [nothing]
  simp

/-- The configured fields, from a clock with the same ones before (R23). -/
theorem configure_setup (body : List Byte) {c d : RowClock} (h : c.SameSetup d) :
    (c.configure body).SameSetup (d.configure body) := by
  obtain ⟨epoch, preferred, revertive, stepLimit, holdRate⟩ := h
  unfold RowClock.configure
  dsimp only
  rw [preferred, revertive, stepLimit, holdRate]
  exact ⟨epoch, rfl, rfl, rfl, rfl⟩

/-- The clock with the configured fields of another. -/
theorem configured_eq {body : List Byte} {c d : RowClock} (h : (c.configure body).SameSetup d) :
    { c with preferred := d.preferred, revertive := d.revertive, stepLimit := d.stepLimit, holdRate := d.holdRate } =
      c.configure body := by
  rw [h.preferred, h.revertive, h.stepLimit, h.holdRate]
  rfl

/-- The revert test finds the clock LOCKED, revertive, and its preferred channel QUALIFIED and not selected (R17). -/
def State.Reverts (s : State) : Prop := s.clk.state = .locked ∧ s.clk.revertive = true ∧ s.clk.selected ≠ some s.clk.preferred ∧
  (s.chan s.clk.preferred).state = .qualified

theorem revertTest_reverts {s : State} (h : s.Reverts) : s.revertTest = s.modClk (RowClock.toAcquiring s.clk.preferred 0) := by
  obtain ⟨locked, revertive, selected, qualified⟩ := h
  exact if_pos ⟨locked, revertive, selected, (qualified_iff _ s).2 qualified⟩

theorem revertTest_stays {s : State} (h : ¬s.Reverts) : s.revertTest = s :=
  if_neg fun ⟨locked, revertive, selected, qualified⟩ => h ⟨locked, revertive, selected, (qualified_iff _ s).1 qualified⟩

theorem revertIfCarried_carried {body : List Byte} (h : (field body 0 1).testBit 2 = true ∨ (field body 0 1).testBit 3 = true)
    (s : State) : s.revertIfCarried body = s.revertTest := by
  unfold State.revertIfCarried
  rw [if_pos (by simpa using h)]

theorem revertIfCarried_not {body : List Byte} (h : ¬((field body 0 1).testBit 2 = true ∨ (field body 0 1).testBit 3 = true))
    (s : State) : s.revertIfCarried body = s := by
  unfold State.revertIfCarried
  rw [if_neg (by simpa using h)]

theorem revertIfCarried_only (body : List Byte) (s : State) :
    s.revertIfCarried body = { s with clk := (s.revertIfCarried body).clk } ∧
      s.clk.SameSetup (s.revertIfCarried body).clk := by
  by_cases carried : (field body 0 1).testBit 2 = true ∨ (field body 0 1).testBit 3 = true
  · rw [revertIfCarried_carried carried]
    by_cases reverts : s.Reverts
    · rw [revertTest_reverts reverts]
      exact ⟨rfl, RowClock.toAcquiring_sameSetup ..⟩
    · rw [revertTest_stays reverts]
      exact ⟨rfl, rfl, rfl, rfl, rfl, rfl⟩
  · rw [revertIfCarried_not carried]
    exact ⟨rfl, rfl, rfl, rfl, rfl, rfl⟩

/-! ### REF_CONFIG as a whole (R23) -/

theorem refChannel_body (c : RefChannel) : c.body =
    bytesOf 1 (match c.state with | .disabled => 0 | .down => 1 | .qualifying => 2 | .qualified => 3) ++ bytesOf 1 c.good
      ++ signedBytes 4 c.lastPhase ++ (match c.edgeSec with
        | none => List.replicate 7 0
        | some x => [1] ++ bytesOf 6 x) := by
  unfold RefChannel.body
  cases c.state <;> cases c.edgeSec <;> rfl

theorem exec_refConfig_taken {s : State} (frames : s.TakesFrames) (dt : Nat) {body : List Byte} (len : body.length = 9) :
    exec (.refConfig dt body) s = .next (State.form 0x10 (refConfigBlock body (s.accepting dt 9))) := by
  have taken := request_taken frames (code := 0x10) (by decide) dt [9] body (refConfigBlock body) (by simp [len]) (by omega)
  rw [len] at taken
  exact congrArg _ taken

/-- What REF_CONFIG leaves of the part: the channels by their enables, the clock by the reports, its fields and the revert test,
and REF noted (R22, R23). -/
structure State.RefsConfigured (body : List Byte) (s t : State) : Prop where
  only : t = { s with chanA := t.chanA, chanB := t.chanB, clk := t.clk, port := t.port }
  chanA : s.chanA.Enabled ((field body 0 1).testBit 0) (flag body 1 0) t.chanA
  chanB : s.chanB.Enabled ((field body 0 1).testBit 1) (flag body 1 1) t.chanB
  setup : (s.clk.configure body).SameSetup t.clk
  lost : s.RefHeld → ∀ ch, s.clk.selected = some ch → (t.chan ch).state ≠ .qualified →
    (s.clk.configure body).Lost (if (t.chan ch.other).state = .qualified then some ch.other else none) t.clk
  kept : s.RefHeld → (∀ ch, s.clk.selected = some ch → (t.chan ch).state = .qualified) → ∀ c, c = s.clk.configure body →
    (((field body 0 1).testBit 2 = true ∨ (field body 0 1).testBit 3 = true) ∧ c.state = .locked ∧
        c.revertive = true ∧ c.selected ≠ some c.preferred ∧ (t.chan c.preferred).state = .qualified →
      c.Reverted c.preferred t.clk) ∧
    (¬(((field body 0 1).testBit 2 = true ∨ (field body 0 1).testBit 3 = true) ∧ c.state = .locked ∧
        c.revertive = true ∧ c.selected ≠ some c.preferred ∧ (t.chan c.preferred).state = .qualified) →
      t.clk = c)
  raised : s.RefChanged t → t.port = (s.raise .ref).port
  unraised : ¬s.RefChanged t → t.port = s.port

theorem revertIfCarried_unlocked {body : List Byte} {s : State} (h : s.clk.state ≠ .locked) : s.revertIfCarried body = s := by
  by_cases carried : (field body 0 1).testBit 2 = true ∨ (field body 0 1).testBit 3 = true
  · rw [revertIfCarried_carried carried]
    exact revertTest_stays fun reverts => h reverts.1
  · exact revertIfCarried_not carried s

theorem RowClock.SameSetup.trans {c d e : RowClock} (h : c.SameSetup d) (k : d.SameSetup e) : c.SameSetup e :=
  ⟨k.epoch.trans h.epoch, k.preferred.trans h.preferred, k.revertive.trans h.revertive, k.stepLimit.trans h.stepLimit,
    k.holdRate.trans h.holdRate⟩

theorem refConfigured_eq (body : List Byte) (s : State) : s.refConfigured body =
    State.noteRef s (((State.reportBoth s (s.setEnables body)).modClk (RowClock.configure body)).revertIfCarried body) := rfl

theorem refConfigured_spec (body : List Byte) (s : State) : s.RefsConfigured body (s.refConfigured body) := by
  have a := setEnable_enabled ((field body 0 1).testBit 0) (flag body 1 0) s.chanA
  have b := setEnable_enabled ((field body 0 1).testBit 1) (flag body 1 1) s.chanB
  have falls : ∀ ch, (s.setEnables body).qualified ch = true → s.qualified ch = true := fun ch => by
    rw [qualified_iff, qualified_iff]
    cases ch
    · exact a.unqualified
    · exact b.unqualified
  have both := reportBoth_only s (s.setEnables body)
  have setup : s.clk.SameSetup (State.reportBoth s (s.setEnables body)).clk :=
    (reportChan_sameSetup s .a (s.setEnables body)).trans (reportChan_sameSetup s .b (State.reportChan s .a (s.setEnables body)))
  have lost := fun run ch => reportBoth_lost (s := s) (u := s.setEnables body) (ch := ch) rfl falls run
  have unselected := reportBoth_unselected (s := s) (u := s.setEnables body) rfl falls
  have enabled : s.setEnables body = { s with chanA := (s.setEnables body).chanA, chanB := (s.setEnables body).chanB } := rfl
  rw [refConfigured_eq]
  change RefChannel.Enabled _ _ _ (s.setEnables body).chanA at a
  change RefChannel.Enabled _ _ _ (s.setEnables body).chanB at b
  generalize s.setEnables body = u at *
  generalize State.reportBoth s u = v at *
  obtain ⟨tested, same⟩ := revertIfCarried_only body (v.modClk (RowClock.configure body))
  have noted := noteRef_only s ((v.modClk (RowClock.configure body)).revertIfCarried body)
  have raised := noteRef_changed (old := s) (s := (v.modClk (RowClock.configure body)).revertIfCarried body)
  have unraised := noteRef_unchanged (old := s) (s := (v.modClk (RowClock.configure body)).revertIfCarried body)
  rw [← refChanged_noteRef] at raised unraised
  have chan : ∀ ch, (State.noteRef s ((v.modClk (RowClock.configure body)).revertIfCarried body)).chan ch = u.chan ch :=
    fun ch => by
      rw [noted, tested, both]
      cases ch <;> rfl
  have port : ((v.modClk (RowClock.configure body)).revertIfCarried body).port = s.port := by
    rw [tested, both, enabled]
    rfl
  refine ⟨?_, ?_, ?_, ?_, fun held ch selected down => ?_, fun held up => ?_, fun changed => ?_, fun still => ?_⟩
  · rw [noted, tested, both, enabled]
    rfl
  · rw [show (State.noteRef s _).chanA = u.chanA from chan .a]
    exact a
  · rw [show (State.noteRef s _).chanB = u.chanB from chan .b]
    exact b
  · rw [noteRef_clk]
    exact (configure_setup body setup).trans same
  · have run : s.clk.state = .acquiring ∨ s.clk.state = .locked := by
      cases state : s.clk.state
      case freerun => rw [(held.resting (.inl state)).1] at selected; cases selected
      case holdover => rw [(held.resting (.inr state)).1] at selected; cases selected
      case acquiring => exact .inl rfl
      case locked => exact .inr rfl
    rw [chan] at down
    have gone := lost run ch selected (held.selected_qualified selected) ((qualified_false_iff ch u).2 down)
    have unlocked : (v.modClk (RowClock.configure body)).clk.state ≠ .locked := (lost_selected run gone).2
    rw [chan, noteRef_clk, revertIfCarried_unlocked unlocked]
    exact lost_configure body gone
  · intro c hc
    have stays : v = u := unselected fun ch selected => (qualified_iff ch u).2 (chan ch ▸ up ch selected)
    subst stays
    have clk : (v.modClk (RowClock.configure body)).clk = c := by
      rw [hc, enabled]
      rfl
    rw [noteRef_clk, chan]
    refine ⟨fun ⟨carried, reverts⟩ => ?_, fun none => ?_⟩
    · rw [← clk] at reverts
      rw [revertIfCarried_carried carried, revertTest_reverts reverts, modClk_clk, clk]
      exact toAcquiring_reverted _ (clk ▸ reverts.1)
    · by_cases carried : (field body 0 1).testBit 2 = true ∨ (field body 0 1).testBit 3 = true
      · rw [revertIfCarried_carried carried, revertTest_stays fun reverts => none ⟨carried, ?_⟩, clk]
        rw [← clk]
        exact reverts
      · rw [revertIfCarried_not carried, clk]
  · rw [raised changed, raise_port, raise_port, port]
  · rw [unraised still, port]

theorem refConfigured_nothing {body : List Byte} (nothing : field body 0 1 = 0) (s : State) : s.refConfigured body = s := by
  have same : s.setEnables body = s := by
    unfold State.setEnables RefChannel.setEnable
    rw [nothing]
    rfl
  have unreported : State.reportBoth s s = s := by
    unfold State.reportBoth
    rw [reportChan_same (old := s) (s := s) rfl, reportChan_same (old := s) (s := s) rfl]
  have unconfigured : s.modClk (RowClock.configure body) = s := by
    unfold State.modClk
    rw [configure_nothing nothing]
  rw [refConfigured_eq, same, unreported, unconfigured, revertIfCarried_not (by rw [nothing]; decide)]
  exact noteRef_unchanged (not_refChanged rfl rfl fun _ => rfl)

theorem refChanged_accepting (dt n : Nat) (s t : State) : (s.accepting dt n).RefChanged t ↔ s.RefChanged t := by
  unfold State.RefChanged
  rw [accepting_clk, advance_clk_state, advance_clk_selected, accepting_chanA, accepting_chanB]

theorem accepting_chan (dt n : Nat) (s : State) (ch : Chan) : (s.accepting dt n).chan ch = s.chan ch := advance_chan s dt ch

theorem refHeld_accepting {s : State} (dt n : Nat) (held : s.RefHeld) : (s.accepting dt n).RefHeld :=
  ⟨(refHeld_advance dt held).resting, (refHeld_advance dt held).running⟩

theorem accepting_isPending (dt n : Nat) (s : State) (c : Cause) :
    (s.accepting dt n).port.isPending c = s.port.isPending c := by
  unfold Port.isPending
  rw [accepting_causes]

/-- The answer of REF_CONFIG (R23, R192). -/
theorem refConfigBody_eq (t : State) : t.refConfigBody = bytesOf 1 t.chanA.enable.toNat ++ bytesOf 1 t.chanB.enable.toNat
    ++ bytesOf 1 (match t.clk.preferred with | .a => 1 | .b => 2) ++ bytesOf 1 t.clk.revertive.toNat
    ++ bytesOf 4 t.clk.stepLimit ++ bytesOf 4 t.clk.holdRate
    ++ [t.chanA, t.chanB].flatMap (fun c =>
      bytesOf 1 (match c.state with | .disabled => 0 | .down => 1 | .qualifying => 2 | .qualified => 3) ++ bytesOf 1 c.good
        ++ signedBytes 4 c.lastPhase ++ (match c.edgeSec with
          | none => List.replicate 7 0
          | some x => [1] ++ bytesOf 6 x)) := by
  unfold State.refConfigBody bool1 byte1
  rw [refChannel_body, refChannel_body, List.append_assoc]
  cases t.clk.preferred <;> simp [refValue]

/-- Settles O13. -/
theorem refConfigWritesTheCarriedFields : Obligations.RefConfigWritesTheCarriedFields := by
  intro dt body answer s frames len hanswer
  have answers : ∀ t : State, t.refConfigBody = answer t := fun t => by rw [hanswer]; exact refConfigBody_eq t
  rw [exec_refConfig_taken frames dt len]
  unfold refConfigBlock
  refine ⟨fun bad => ?_, fun nothing ok => ?_, fun ok => ?_⟩
  · rw [bad]
    rfl
  · rw [if_pos ok, refConfigured_nothing nothing, answers]
    rfl
  · rw [if_pos ok, answers]
    obtain ⟨only, chanA, chanB, setup, lost, kept, raised, unraised⟩ := refConfigured_spec body (s.accepting dt 9)
    refine ⟨_, rfl, ?_⟩
    generalize (s.accepting dt 9).refConfigured body = t at *
    rw [accepting_chanA] at chanA
    rw [accepting_chanB] at chanB
    rw [accepting_clk] at setup lost kept
    rw [refChanged_accepting] at raised unraised
    have configured := configured_eq setup
    have fields := advance_clk_fields dt s
    have preferred : t.clk.preferred = carried (field body 0 1) 2 ((chanOf (field body 2 1)).getD s.clk.preferred)
        s.clk.preferred := by
      rw [setup.preferred, fields]
      rfl
    have pending : t.port.isPending .ref = true ↔ s.port.isPending .ref = true ∨ s.RefChanged t := by
      rw [← accepting_isPending dt 9 s .ref]
      by_cases changed : s.RefChanged t
      · rw [raised changed, raise_isPending]
        simp [changed]
      · rw [unraised changed]
        simp [changed]
    refine ⟨fun ch named isCarried => ?_, fun absent => ?_, ?_, ?_, ?_, chanA.enable, chanB.enable,
      fun differs => (chanA.changed differs).1, fun differs => (chanB.changed differs).1, fun ch differs => ?_, fun ch same => ?_,
      fun ch c held selected down hc => ?_, fun c held up hc => ?_, pending, raised, unraised, only, ?_, ?_, ?_, ?_, ?_, ?_,
      fun i => ?_⟩
    · rw [preferred, named]
      exact if_pos isCarried
    · rw [preferred]
      exact if_neg (by simp [absent])
    · rw [setup.revertive, fields]
      rfl
    · rw [setup.stepLimit, fields]
      rfl
    · rw [setup.holdRate, fields]
      rfl
    · have switched : (t.chan ch).state = (if (t.chan ch).enable = true then .down else .disabled) ∧ (t.chan ch).good = 0 ∧
          (t.chan ch).prevEdge = none ∧ (t.chan ch).edgeSec = none ∧ (t.chan ch).held = none ∧ (t.chan ch).msgFault = false ∧
          (t.chan ch).lossDeadline = none := by
        cases ch
        · exact chanA.changed differs
        · exact chanB.changed differs
      obtain ⟨state, good, prev, edge, held, fault, deadline⟩ := switched
      refine ⟨good, prev, edge, held, fault, deadline, fun range => pending.2 (.inr ?_)⟩
      have disabled : (s.chan ch).state = .disabled ↔ (s.chan ch).enable = false := by
        cases ch
        · exact range.chanA.disabled
        · exact range.chanB.disabled
      have changed : (t.chan ch).state ≠ (s.chan ch).state := by
        intro still
        rw [← still, state] at disabled
        cases now : (t.chan ch).enable with
        | false =>
          rw [now] at disabled differs
          exact differs (disabled.1 rfl).symm
        | true =>
          rw [now] at disabled differs
          cases was : (s.chan ch).enable with
          | true => exact differs was.symm
          | false => exact ChanState.noConfusion (disabled.2 was)
      by_contra still
      unfold State.RefChanged at still
      simp only [ne_eq, not_or, not_not] at still
      obtain ⟨_, _, a, b⟩ := still
      cases ch
      · exact changed a
      · exact changed b
    · cases ch
      · exact chanA.same same
      · exact chanB.same same
    · rw [hc, configured]
      exact lost (refHeld_accepting dt 9 held) ch ((advance_clk_selected dt s).trans selected) down
    · exact kept (refHeld_accepting dt 9 held) (fun ch selected => up ch ((advance_clk_selected dt s).symm.trans selected)) c
        (hc.trans configured)
    · rw [only]
      exact advance_localNs s dt
    · rw [only]
      exact advance_lines s dt
    · rw [only]
      exact advance_records s dt
    · rw [only]
      exact advance_newcomers s dt
    · rw [only]
      exact advance_overflow s dt
    · rw [only]
      exact advance_domains s dt
    · rw [only]
      rfl

end Sys2Proof.Machine

/-! SUPPORT. The time-of-day inputs (R2, R27). -/

namespace Sys2Proof.Machine

open Sys2Proof

/-! ### When a time-of-day input is read (R2, R27) -/

/-- The sample's instant is the first of the sixteen to a bit time at or after `t` (R2, R27). -/
theorem todSampleFrom_first (t : Nat) : ∃ k, todSampleFrom t = k * 1000000000 / 1843200 ∧ t ≤ todSampleFrom t ∧
    ∀ j, j < k → j * 1000000000 / 1843200 < t := by
  refine ⟨(1843200 * t + 999999999) / 1000000000, rfl, ?_, fun j hj => ?_⟩
  · unfold todSampleFrom
    omega
  · omega

theorem todHeard_localNs (ch : Chan) (dt : Nat) (v : Bool) (s : State) : (s.todHeard ch dt v).localNs =
    todSampleFrom (max (s.localNs + dt) ((s.chan ch).todSampledAt + 1)) := by
  obtain ⟨k, _, later, _⟩ := todSampleFrom_first (max (s.localNs + dt) ((s.chan ch).todSampledAt + 1))
  unfold State.todHeard State.toTodSample RefChannel.todSampleTime
  rw [setChan_localNs, advanceTo_localNs, advance_chan, advance_localNs]
  omega

/-- One sample of a time-of-day input, `dt` ns after the last command. -/
theorem exec_todMessage_one (ch : Chan) (dt : Nat) (v : Bool) {s u : State} (h : u = s.todHeard ch dt v) :
    exec (.todMessage ch dt [v]) s = .next (u.setChan ch
      ((u.chan ch).todListen u.localNs ⟨u.clk.row, s.clk.epoch⟩ (s.chan ch).todLevel v)) :=
  congrArg Host.Outcome.next (todSample_heard ch dt v s h)

theorem setChan_self (ch : Chan) (s : State) : s.setChan ch (s.chan ch) = s := by cases ch <;> rfl

/-! ### What a sample makes of the receiver (R27) -/

variable {c : RefChannel}

theorem todListen_waiting (on : c.enable = true) (waiting : c.todReceiver = .waiting) (now : Nat) (edge : Capture) (was v : Bool) :
    c.todListen now edge was v =
      if was = true ∧ v = false then { c with todReceiver := .char now edge false [false] } else c := by
  unfold RefChannel.todListen
  rw [if_pos on, waiting]
  have still : c.toReceiver .waiting = c := by
    unfold RefChannel.toReceiver
    rw [← waiting]
  cases was <;> cases v
  · exact still
  · exact still
  · rfl
  · exact still

theorem todListen_held (on : c.enable = true) (held : c.todReceiver = .held) (now : Nat) (edge : Capture) (was v : Bool) :
    c.todListen now edge was v = { c with todReceiver := if v then .waiting else .held } := by
  unfold RefChannel.todListen
  rw [if_pos on, held]
  rfl

theorem todListen_going (on : c.enable = true) {start : Nat} {e : Capture} {w : Bool} {taken : List Bool}
    (arriving : c.todReceiver = .char start e w taken) (other : taken.length ≠ 8) (short : taken.length < 168)
    (now : Nat) (edge : Capture) (was v : Bool) :
    c.todListen now edge was v = { c with todReceiver := .char start e w (taken ++ [v]) } := by
  have length : (taken ++ [v]).length = taken.length + 1 := List.length_append
  unfold RefChannel.todListen
  rw [if_pos on, arriving]
  unfold Receiver.hear Receiver.decided
  dsimp only
  rw [if_neg (by rw [length]; omega), if_neg (by rw [length]; omega)]
  rfl

/-- The ninth sample decides the start bit (R27, assumption 34). -/
theorem todListen_startBit (on : c.enable = true) {start : Nat} {e : Capture} {w x y : Bool} {taken : List Bool}
    (arriving : c.todReceiver = .char start e w taken) (eight : taken.length = 8) (last : taken.drop 6 = [x, y])
    (now : Nat) (edge : Capture) (was v : Bool) :
    c.todListen now edge was v = { c with
      todReceiver := if (x && y || x && v || y && v) = true then .waiting else .char start e w (taken ++ [v]) } := by
  have length : (taken ++ [v]).length = 9 := by rw [List.length_append, eight]; rfl
  have bit : BitSamples.ofBit (taken ++ [v]) 0 = ⟨x, y, v⟩ := by
    have split : taken ++ [v] = taken.take 6 ++ [x, y, v] := by
      rw [← List.take_append_drop 6 taken, last]
      simp [eight]
    have six : (taken.take 6).length = 6 := by rw [List.length_take, eight]; rfl
    rw [split]
    unfold BitSamples.ofBit
    simp [List.getD_eq_getElem?_getD, six]
  unfold RefChannel.todListen
  rw [if_pos on, arriving]
  unfold Receiver.hear Receiver.decided
  dsimp only
  rw [bit, length]
  unfold BitSamples.value
  dsimp only
  cases decided : (x && y || x && v || y && v)
  · rw [if_neg (by simp), if_neg (by decide)]
    rfl
  · rw [if_pos ⟨rfl, rfl⟩]
    rfl

/-! ### What a character makes of the message in assembly (R2) -/

theorem todChar_ignored {x : RxChar} (none : c.tod = []) (other : x.byte ≠ 0xA5) (start : Nat) : c.todChar start x = c := by
  unfold RefChannel.todChar
  rw [if_pos none, if_neg other]

theorem todChar_begins {x : RxChar} (none : c.tod = []) (marker : x.byte = 0xA5) (start : Nat) :
    c.todChar start x = { c with tod := [x], todAt := start + 95486 } := by
  unfold RefChannel.todChar
  rw [if_pos none, if_pos marker]
  rfl

theorem todChar_joins {x : RxChar} (some : c.tod ≠ []) (short : c.tod.length < 9) (start : Nat) :
    c.todChar start x = { c with tod := c.tod ++ [x], todAt := start + 95486 } := by
  unfold RefChannel.todChar
  rw [if_neg some, if_neg (by omega)]
  rfl

theorem todChar_completes {x : RxChar} (nine : c.tod.length = 9) (start : Nat) : c.todChar start x = c.todDone (c.tod ++ [x]) := by
  unfold RefChannel.todChar
  rw [if_neg (by intro none; rw [none] at nine; cases nine), if_pos (by omega)]

/-- What makes the characters of a message good (R2, R189). -/
def GoodTod (cs : List RxChar) (bs : List Byte) : Prop :=
  (∀ c ∈ cs, c.framing = false ∧ c.marked = false) ∧ field bs 1 1 = 0x54 ∧ crc8 ((bs.drop 1).take 8) = bs.getD 9 0

theorem judgeTod_good {cs : List RxChar} (good : GoodTod cs (cs.map RxChar.byte)) :
    judgeTod cs = some ⟨field (cs.map RxChar.byte) 2 6, field (cs.map RxChar.byte) 8 1 == 0⟩ := by
  obtain ⟨clean, kind, check⟩ := good
  unfold judgeTod
  dsimp only
  rw [if_pos]
  rw [kind, check]
  simpa using clean

theorem judgeTod_bad {cs : List RxChar} (bad : ¬GoodTod cs (cs.map RxChar.byte)) : judgeTod cs = none := by
  unfold judgeTod
  dsimp only
  rw [if_neg]
  intro h
  simp only [Bool.and_eq_true, List.all_eq_true, Bool.not_eq_true', beq_iff_eq] at h
  obtain ⟨⟨clean, kind⟩, check⟩ := h
  exact bad ⟨clean, kind, check⟩

theorem todDone_good {cs : List RxChar} (good : GoodTod cs (cs.map RxChar.byte)) : c.todDone cs =
    { c with tod := [], held := some ⟨field (cs.map RxChar.byte) 2 6, field (cs.map RxChar.byte) 8 1 == 0⟩ } := by
  unfold RefChannel.todDone
  rw [judgeTod_good good]

theorem todDone_bad {cs : List RxChar} (bad : ¬GoodTod cs (cs.map RxChar.byte)) :
    c.todDone cs = { c with tod := [], msgFault := true } := by
  unfold RefChannel.todDone
  rw [judgeTod_bad bad]

/-! ### The commands (R1, R2) -/

theorem exec_todMessage_off {ch : Chan} {s : State} (off : (s.chan ch).enable = false) (dt : Nat) (v : Bool) :
    exec (.todMessage ch dt [v]) s = .next (s.todHeard ch dt v) := by
  rw [exec_todMessage_one ch dt v rfl, todListen_off, setChan_self]
  rw [todHeard_chan]
  exact off

theorem exec_todGapTimeout_ends {ch : Chan} {s : State} (on : (s.chan ch).enable = true) (begun : (s.chan ch).tod ≠ [])
    (idle : (s.chan ch).todReceiver.busy = false) :
    exec (.todGapTimeout ch) s = .next ((s.advanceTo ((s.chan ch).todAt + 190973)).setChan ch
      { s.chan ch with tod := [], msgFault := true }) := by
  show execTodGapTimeout ch s = _
  unfold execTodGapTimeout State.todGap
  rw [if_pos ⟨on, begun, idle⟩, advanceTo_chan]
  rfl

theorem exec_todGapTimeout_busy {ch : Chan} {s : State} (busy : (s.chan ch).todReceiver.busy = true) :
    exec (.todGapTimeout ch) s = .next s := by
  show execTodGapTimeout ch s = _
  unfold execTodGapTimeout
  rw [if_neg (by simp [busy])]

/-- Settles O11. -/
theorem timeOfDayMessageIsHeld : Obligations.TimeOfDayMessageIsHeld := by
  refine ⟨fun ch dt vs ws s => ⟨rfl, _, rfl, ?_⟩, fun ch dt v s => ⟨?_, fun off => exec_todMessage_off off dt v⟩,
    fun ch dt v u s c on hu hc => ?_, fun ch s on begun => ⟨fun idle => ?_, fun start edge w taken arriving => ?_⟩⟩
  · exact congrArg Host.Outcome.next (todSamples_append ch vs ws (s.advance dt))
  · rw [todHeard_localNs]
    exact todSampleFrom_first _
  · have read : c = (s.chan ch).todRead u.localNs v := by
      rw [hc, hu]
      exact todHeard_chan ch dt v s
    have onNow : c.enable = true := by
      rw [read]
      exact on
    have receiver : c.todReceiver = (s.chan ch).todReceiver := by rw [read]; rfl
    rw [exec_todMessage_one ch dt v hu, ← hc]
    refine ⟨fun waiting => ?_, fun held => ?_, fun start edge w taken arriving other short => ?_,
      fun start edge w taken x y arriving eight last => ?_, fun start x completes => ?_⟩
    · rw [todListen_waiting onNow (receiver.trans waiting)]
      split
      · rfl
      · rw [hc, setChan_self]
    · rw [todListen_held onNow (receiver.trans held)]
    · rw [todListen_going onNow (receiver.trans arriving) other short]
    · rw [todListen_startBit onNow (receiver.trans arriving) eight last]
    · have completesNow : c.Completes start x v := by
        unfold RefChannel.Completes
        rw [receiver]
        exact completes
      rw [todListen_completes onNow completesNow]
      refine ⟨fun none other => ?_, fun none marker => ?_, fun some short => ?_, fun cs bs nine hcs hbs => ⟨fun good => ?_, fun bad => ?_⟩⟩
      · rw [todChar_ignored none other]
        rfl
      · rw [todChar_begins none marker]
        rfl
      · rw [todChar_joins some short]
        rfl
      · subst hcs hbs
        rw [todChar_completes nine, todDone_good good]
        rfl
      · subst hcs hbs
        rw [todChar_completes nine, todDone_bad bad]
        rfl
  · refine exec_todGapTimeout_ends on begun ?_
    rcases idle with idle | idle <;> rw [idle] <;> rfl
  · exact exec_todGapTimeout_busy (by rw [arriving]; rfl)

end Sys2Proof.Machine

/-! SUPPORT. The drift watch's sweeps (R121, R156 to R161, R163). -/

namespace Sys2Proof.Machine

open Sys2Proof

/-! ### The indicators (R156) -/

theorem drifts_eq (s : State) (i : Fin 12) : s.drifts i =
    (s.records.filter (fun r => r.line == i && r.state == .tracking && r.baseline.isSome)).map
      (fun r => r.freq - r.baseline.getD 0) := by
  unfold State.drifts
  induction s.records with
  | nil => rfl
  | cons r rs ih =>
    by_cases member : r.line = i ∧ r.state = .tracking
    · cases baseline : r.baseline with
      | none => simp [member, baseline, ih]
      | some b => simp [member, baseline, ih]
    · have apart : (r.line == i && r.state == .tracking && r.baseline.isSome) = false := by
        rw [← Bool.not_eq_true]
        simp only [Bool.and_eq_true, beq_iff_eq]
        exact fun h => member h.1
      simp [member, apart, ih]

theorem indicators_eq (s : State) (i : Fin 12) {rs : List Endpoint}
    (h : rs = s.records.filter (fun r => r.line == i && r.state == .tracking && r.baseline.isSome)) :
    s.indicators i =
      ⟨if rs.length = 0 then 0 else (rs.map (fun r : Endpoint => r.freq - r.baseline.getD 0)).sum.tdiv rs.length, rs.length,
        (s.rack i).members.lost, (s.rack i).latch⟩ := by
  unfold State.indicators meanDrift
  rw [drifts_eq, ← h, List.length_map]
  congr 1
  exact if_congr (List.map_eq_nil_iff.trans List.length_eq_zero_iff.symm) rfl rfl

/-- Hot, by R156's words. -/
theorem hot_iff (r : Rack) (x : Indicators) :
    r.hot x = true ↔ x.d.natAbs ≥ r.driftWarn ∨ x.lost ≥ r.lostWarn ∨ x.excursion ≠ none := by
  unfold Rack.hot
  simp [Option.isSome_iff_ne_none, or_assoc]

/-- Cool, by R156's words. -/
theorem cool_iff (r : Rack) (x : Indicators) :
    r.cool x = true ↔ x.d.natAbs ≤ r.driftClear ∧ x.lost < r.lostWarn ∧ x.excursion = none := by
  unfold Rack.cool
  simp [and_assoc]

/-- No alarm test holds (R159). -/
theorem alarmTest_none {r : Rack} {x : Indicators} (calm : x.d.natAbs < r.driftAlarm ∧ x.lost < r.lostAlarm ∧
    (x.excursion = none ∨ x.excursion ≠ r.sweptExcursion)) : r.alarmTest x = none := by
  obtain ⟨drift, lost, walk⟩ := calm
  unfold Rack.alarmTest
  rw [if_neg (by omega), if_neg (by omega), if_neg]
  rintro ⟨excursion, same⟩
  rcases walk with none | other
  · rw [none] at excursion
    cases excursion
  · exact other same

/-- The first alarm test that holds (R159). -/
theorem alarmTest_some {r : Rack} {x : Indicators} {c : AlarmCause}
    (h : c = .drift ∧ x.d.natAbs ≥ r.driftAlarm ∨ c = .lost ∧ x.d.natAbs < r.driftAlarm ∧ x.lost ≥ r.lostAlarm ∨
      c = .walk ∧ x.d.natAbs < r.driftAlarm ∧ x.lost < r.lostAlarm ∧ x.excursion ≠ none ∧ x.excursion = r.sweptExcursion) :
    r.alarmTest x = some c := by
  unfold Rack.alarmTest
  rcases h with ⟨rfl, drift⟩ | ⟨rfl, drift, lost⟩ | ⟨rfl, drift, lost, excursion, same⟩
  · rw [if_pos drift]
  · rw [if_neg (by omega), if_pos lost]
  · rw [if_neg (by omega), if_neg (by omega), if_pos ⟨Option.isSome_iff_ne_none.2 excursion, same⟩]

/-! ### A sweep (R156 to R161) -/

variable {i : Fin 12} {s : State}

theorem exec_rackSweep_due (due : (s.rack i).sweepDue = true) (on : (s.rack i).watch ≠ .off) : exec (.rackSweep i) s =
    .next ((s.sweepRule i (s.indicators i)).modRack i (Rack.record (s.indicators i))) := by
  show Host.Outcome.next (if _ then _ else _) = _
  rw [if_pos ⟨due, on⟩]
  rfl

/-- A change of watch state that a sweep then records (R156, R163). -/
theorem rackChanged_modRack (f g : Rack → Rack) (s : State) : ((s.modRack i f).rackChanged i).modRack i g =
    (s.modRack i (fun r => g { f r with changed := true })).raise .rack := by
  unfold State.rackChanged
  rw [modRack_raise, modRack_modRack, modRack_modRack]

/-- Settles O16. -/
theorem sweepOfAQuietRack : Obligations.SweepOfAQuietRack := by
  refine ⟨fun i rs s h => indicators_eq s i h, fun i x s due quiet hx => ?_⟩
  rw [exec_rackSweep_due due (by rw [quiet]; decide), ← hx]
  unfold State.sweepRule
  rw [quiet]
  unfold State.sweepQuiet
  refine ⟨fun hot => ?_, fun other => ?_⟩
  · rw [if_pos ((hot_iff _ x).2 hot), rackChanged_modRack]
    rfl
  · rw [if_neg (mt (hot_iff _ x).1 other), modRack_modRack]
    rfl

/-- Settles O17. -/
theorem sweepOfAWatchedRack : Obligations.SweepOfAWatchedRack := by
  intro i x f hot cool s due watch hx hf isHot isCool
  rw [exec_rackSweep_due due (by rw [watch]; decide), ← hx, show Rack.record x = f from hf.symm]
  rw [← hot_iff] at isHot
  rw [← cool_iff] at isCool
  unfold State.sweepRule
  rw [watch]
  unfold State.sweepWatch
  refine ⟨fun hot limit => ?_, fun hot limit => ?_, fun mild cool => ?_, fun mild warm => ?_⟩
  · rw [if_pos (isHot.1 hot), if_pos limit, rackChanged_modRack]
  · rw [if_pos (isHot.1 hot), if_neg (by omega), modRack_modRack]
  · rw [if_neg (mt isHot.2 mild), if_pos (isCool.1 cool), rackChanged_modRack]
  · rw [if_neg (mt isHot.2 mild), if_neg (mt isCool.2 warm)]

/-! ### The notice of an alarm (R121) -/

theorem fencedBy_iff (d : Domain) (i : Fin 12) :
    d.fencedBy i = true ↔ d.state = .opened ∧ d.fence = .freezeDomain ∧ d.members.getLsbD i = true := by
  unfold Domain.fencedBy
  simp [and_assoc]

/-- The domains after the notice that a rack has entered ALARM: those that it fences are FROZEN (R121). -/
theorem alarmNotice_domains (i : Fin 12) (s : State) : (s.alarmNotice i).domains = s.domains.map (fun d =>
    if d.state = .opened ∧ d.fence = .freezeDomain ∧ d.members.getLsbD i = true then
      { d with state := .frozen, cause := some (.rack i) } else d) := by
  unfold State.alarmNotice
  by_cases fenced : s.domains.any (fun d => d.fencedBy i) = true
  · rw [if_pos fenced, raise_domains]
    exact List.map_congr_left fun d _ => if_congr (fencedBy_iff d i) rfl rfl
  · rw [if_neg fenced]
    refine ((List.map_congr_left fun d hd => if_neg fun h => fenced ?_).trans (List.map_id _)).symm
    exact List.any_eq_true.2 ⟨d, hd, (fencedBy_iff d i).2 h⟩

theorem alarmNotice_pending (i : Fin 12) (s : State) : (s.alarmNotice i).port.isPending .domain = true ↔
    s.port.isPending .domain = true ∨
      ∃ d ∈ s.domains, d.state = .opened ∧ d.fence = .freezeDomain ∧ d.members.getLsbD i = true := by
  have any : s.domains.any (fun d => d.fencedBy i) = true ↔
      ∃ d ∈ s.domains, d.state = .opened ∧ d.fence = .freezeDomain ∧ d.members.getLsbD i = true := by
    rw [List.any_eq_true]
    simp only [fencedBy_iff]
  unfold State.alarmNotice
  by_cases fenced : s.domains.any (fun d => d.fencedBy i) = true
  · rw [if_pos fenced, raise_isPending]
    exact iff_of_true (.inr rfl) (.inr (any.1 fenced))
  · rw [if_neg fenced]
    exact (or_iff_left (mt any.2 fenced)).symm

theorem alarmNotice_only (i : Fin 12) (s : State) :
    s.alarmNotice i = { s with domains := (s.alarmNotice i).domains, port := (s.alarmNotice i).port } := by
  unfold State.alarmNotice
  split <;> rfl

/-- The part after a sweep that takes its rack to ALARM (R121, R159, R161). -/
theorem enterAlarm_recorded (c : AlarmCause) (f : Rack → Rack) (s : State) : (s.enterAlarm i c).modRack i f =
    ((s.alarmNotice i).modRack i (fun r => f { Rack.toAlarm c r with changed := true })).raise .rack := by
  unfold State.enterAlarm
  have moved : (s.modRack i (Rack.toAlarm c)).alarmNotice i = (s.alarmNotice i).modRack i (Rack.toAlarm c) := by
    unfold State.alarmNotice
    rw [modRack_domains]
    split <;> rfl
  rw [moved, rackChanged_modRack]

/-- Settles O18. -/
theorem sweepOfAWarningRack : Obligations.SweepOfAWarningRack := by
  intro i x f hot cool calm s due hx hf isHot isCool isCalm
  rw [← hot_iff] at isHot
  rw [← cool_iff] at isCool
  have swept : (s.rack i).watch = .warn → exec (.rackSweep i) s = .next ((s.sweepWarn i x).modRack i f) := fun warn => by
    rw [exec_rackSweep_due due (by rw [warn]; decide), ← hx, show Rack.record x = f from hf.symm]
    unfold State.sweepRule
    rw [warn]
  have quiet : (s.rack i).watch = .warn → calm → exec (.rackSweep i) s = .next (State.modRack i f
      (if (s.rack i).cool x then
        if (s.rack i).dwell + 1 ≥ (s.rack i).dwellLimit then
          (s.modRack i (fun r => { r with watch := .quiet, dwell := 0, repeats := 0 })).rackChanged i
        else s.modRack i (fun r => { r with dwell := r.dwell + 1, repeats := 0 })
      else if (s.rack i).hot x then
        if (s.rack i).repeatOn then
          if (s.rack i).repeats + 1 ≥ (s.rack i).dwellLimit then
            (s.modRack i (fun r => { r with dwell := 0, repeats := 0 })).rackChanged i
          else s.modRack i (fun r => { r with dwell := 0, repeats := r.repeats + 1 })
        else s.modRack i (fun r => { r with dwell := 0, repeats := 0 })
      else s)) := fun warn calm => by
    rw [swept warn]
    unfold State.sweepWarn
    rw [alarmTest_none (isCalm.1 calm)]
  refine ⟨fun c warn test => ?_, fun warn calm cool limit => ?_, fun warn calm cool limit => ?_,
    fun warn calm warm hot once => ?_, fun warn calm warm hot again limit => ?_, fun warn calm warm hot again limit => ?_,
    fun warn calm warm mild => ?_, fun alarm => ?_⟩
  · have alarms : s.sweepWarn i x = s.enterAlarm i c := by
      unfold State.sweepWarn
      rw [alarmTest_some test]
    refine ⟨_, swept warn, ?_⟩
    rw [alarms, enterAlarm_recorded]
    have only := alarmNotice_only i s
    refine ⟨?_, fun j other => ?_, ?_, ?_, ?_, ?_, ?_, ?_, ?_⟩
    · rw [raise_rack, modRack_rack_same, only]
      rfl
    · rw [raise_rack, modRack_rack_other _ _ (Ne.symm other), only]
      rfl
    · rw [raise_domains, modRack_domains, alarmNotice_domains]
    · rw [raise_isPending]
      exact .inr rfl
    · rw [raise_isPending, modRack_port, alarmNotice_pending]
      exact or_iff_left (by decide)
    · rw [raise_records, modRack_records, only]
    · rw [raise_lines, modRack_lines, only]
    · rw [raise_newcomers, modRack_newcomers, only]
    · rw [raise_clk, modRack_clk, only]
  · rw [quiet warn calm, if_pos (isCool.1 cool), if_pos limit, rackChanged_modRack]
  · rw [quiet warn calm, if_pos (isCool.1 cool), if_neg (by omega), modRack_modRack]
  · rw [quiet warn calm, if_neg (mt isCool.2 warm), if_pos (isHot.1 hot), if_neg (by simp [once]), modRack_modRack]
  · rw [quiet warn calm, if_neg (mt isCool.2 warm), if_pos (isHot.1 hot), if_pos again, if_neg (by omega), modRack_modRack]
  · rw [quiet warn calm, if_neg (mt isCool.2 warm), if_pos (isHot.1 hot), if_pos again, if_pos limit, rackChanged_modRack]
  · rw [quiet warn calm, if_neg (mt isCool.2 warm), if_neg (mt isHot.2 mild)]
  · rw [exec_rackSweep_due due (by rw [alarm]; decide), ← hx, show Rack.record x = f from hf.symm]
    unfold State.sweepRule
    rw [alarm]

end Sys2Proof.Machine

/-! SUPPORT. The requests on records and newcomers (R67 to R70, R84 to R91, R95, R96, R108, R110, R111). -/

namespace Sys2Proof.Machine

open Sys2Proof

/-- A request of its one allowed length at a waiting port comes to its owning block (R174, R176). -/
theorem next_request_taken {s : State} (frames : s.TakesFrames) {code : Byte} (hc : code ≠ readCode) (dt : Nat) {body : List Byte}
    {n : Nat} (len : body.length = n) (top : n ≤ 60) (block : State → Done) :
    (Host.Outcome.next ((s.advance dt).request code [n] body block) : Host.Outcome State Fault Refusal) =
      .next (State.form code (block (s.accepting dt n))) := by
  subst len
  exact congrArg _ (request_taken frames hc dt _ body block (by simp) top)

/-! ### Record names (R84) -/

theorem lineOf_some {n : Nat} {i : Fin 12} : lineOf n = some i ↔ n = i.val := by
  unfold lineOf
  by_cases h : n < 12
  · rw [dif_pos h, Option.some_inj]
    exact ⟨fun e => by rw [← e], fun e => Fin.ext e⟩
  · rw [dif_neg h]
    exact ⟨nofun, fun e => absurd (e ▸ i.isLt) h⟩

theorem addrOk_iff (n : Nat) : addrOk n = true ↔ 1 ≤ n ∧ n ≤ 47 := by
  unfold addrOk within
  simp

theorem byKey_spec {s : State} {i : Fin 12} {addr : Nat} {r : Endpoint} (h : s.byKey i addr = some r) :
    r ∈ s.records ∧ r.line = i ∧ r.addr = addr := by
  unfold State.byKey at h
  have named := List.find?_some h
  simp only [Bool.and_eq_true, beq_iff_eq] at named
  exact ⟨List.mem_of_find?_eq_some h, named.1, named.2⟩

theorem byKey_none_iff {s : State} {i : Fin 12} {addr : Nat} :
    s.byKey i addr = none ↔ ∀ r ∈ s.records, ¬(r.line.val = i.val ∧ r.addr = addr) := by
  unfold State.byKey
  rw [List.find?_eq_none]
  simp [Fin.ext_iff]

theorem bySlot_none_iff {s : State} {n : Nat} : s.bySlot n = none ↔ ∀ r ∈ s.records, r.slot ≠ n := by
  unfold State.bySlot
  rw [List.find?_eq_none]
  simp

/-- How a record name is looked up: by key, or by slot (R84). -/
theorem named_eq (body : List Byte) (s : State) : s.named body =
    if field body 0 1 = 0 then
      if h : field body 1 1 ≤ 11 ∧ 1 ≤ field body 2 1 ∧ field body 2 1 ≤ 47 then
        (s.byKey ⟨field body 1 1, by omega⟩ (field body 2 1)).elim (.error .notFound) .ok
      else .error .badField
    else if field body 0 1 = 1 ∧ field body 1 2 ≤ 511 then
      (s.bySlot (field body 1 2)).elim (.error .notFound) .ok
    else .error .badField := by
  unfold State.named
  by_cases key : field body 0 1 = 0
  · rw [if_pos key, if_pos key]
    by_cases inRange : field body 1 1 ≤ 11 ∧ 1 ≤ field body 2 1 ∧ field body 2 1 ≤ 47
    · rw [dif_pos inRange, show lineOf (field body 1 1) = some ⟨field body 1 1, by omega⟩ from lineOf_some.2 rfl]
      dsimp only
      rw [if_pos ((addrOk_iff _).2 inRange.2)]
      cases s.byKey _ _ <;> rfl
    · rw [dif_neg inRange]
      cases line : lineOf (field body 1 1) with
      | none => rfl
      | some i =>
        have above := lineOf_some.1 line
        have := i.isLt
        dsimp only
        rw [if_neg fun ok => inRange ⟨by omega, (addrOk_iff _).1 ok⟩]
  · rw [if_neg key, if_neg key]
    by_cases slot : field body 0 1 = 1
    · rw [if_pos slot]
      by_cases inRange : field body 1 2 ≤ 511
      · rw [if_pos inRange, if_pos ⟨slot, inRange⟩]
        cases s.bySlot _ <;> rfl
      · rw [if_neg inRange, if_neg fun h => inRange h.2]
    · rw [if_neg slot, if_neg fun h => slot h.1]

theorem named_badField_iff (body : List Byte) (s : State) : s.named body = .error .badField ↔
    field body 0 1 = 0 ∧ ¬(field body 1 1 ≤ 11 ∧ 1 ≤ field body 2 1 ∧ field body 2 1 ≤ 47) ∨
      field body 0 1 = 1 ∧ 511 < field body 1 2 ∨ 1 < field body 0 1 := by
  rw [named_eq]
  by_cases key : field body 0 1 = 0
  · rw [if_pos key]
    by_cases inRange : field body 1 1 ≤ 11 ∧ 1 ≤ field body 2 1 ∧ field body 2 1 ≤ 47
    · rw [dif_pos inRange]
      refine iff_of_false ?_ (by omega)
      cases s.byKey _ _ <;> exact nofun
    · rw [dif_neg inRange]
      exact iff_of_true rfl (.inl ⟨key, inRange⟩)
  · rw [if_neg key]
    by_cases slot : field body 0 1 = 1 ∧ field body 1 2 ≤ 511
    · rw [if_pos slot]
      refine iff_of_false ?_ (by omega)
      cases s.bySlot _ <;> exact nofun
    · rw [if_neg slot]
      exact iff_of_true rfl (by omega)

theorem named_notFound_iff (body : List Byte) (s : State) : s.named body = .error .notFound ↔
    field body 0 1 = 0 ∧ (field body 1 1 ≤ 11 ∧ 1 ≤ field body 2 1 ∧ field body 2 1 ≤ 47) ∧
        (∀ r ∈ s.records, ¬(r.line.val = field body 1 1 ∧ r.addr = field body 2 1)) ∨
      field body 0 1 = 1 ∧ field body 1 2 ≤ 511 ∧ ∀ r ∈ s.records, r.slot ≠ field body 1 2 := by
  rw [named_eq]
  by_cases key : field body 0 1 = 0
  · rw [if_pos key]
    by_cases inRange : field body 1 1 ≤ 11 ∧ 1 ≤ field body 2 1 ∧ field body 2 1 ≤ 47
    · rw [dif_pos inRange]
      have missing := byKey_none_iff (s := s) (i := ⟨field body 1 1, by omega⟩) (addr := field body 2 1)
      cases found : s.byKey ⟨field body 1 1, by omega⟩ (field body 2 1) with
      | none => exact iff_of_true rfl (.inl ⟨key, inRange, missing.1 found⟩)
      | some r =>
        refine iff_of_false nofun ?_
        rintro (⟨_, _, none⟩ | ⟨slot, _⟩)
        · rw [missing.2 none] at found
          cases found
        · omega
    · rw [dif_neg inRange]
      refine iff_of_false nofun ?_
      rintro (⟨_, ok, _⟩ | ⟨slot, _⟩)
      · exact inRange ok
      · omega
  · rw [if_neg key]
    by_cases slot : field body 0 1 = 1 ∧ field body 1 2 ≤ 511
    · rw [if_pos slot]
      cases found : s.bySlot (field body 1 2) with
      | none => exact iff_of_true rfl (.inr ⟨slot.1, slot.2, bySlot_none_iff.1 found⟩)
      | some r =>
        refine iff_of_false nofun ?_
        rintro (⟨zero, _⟩ | ⟨_, _, none⟩)
        · exact key zero
        · rw [bySlot_none_iff.2 none] at found
          cases found
    · rw [if_neg slot]
      refine iff_of_false nofun ?_
      rintro (⟨zero, _⟩ | ⟨one, ok, _⟩)
      · exact key zero
      · exact slot ⟨one, ok⟩

theorem named_ok {body : List Byte} {s : State} {r : Endpoint} (h : s.named body = .ok r) : r ∈ s.records ∧
    (field body 0 1 = 0 ∧ r.line.val = field body 1 1 ∧ r.addr = field body 2 1 ∨
      field body 0 1 = 1 ∧ r.slot = field body 1 2) := by
  rw [named_eq] at h
  split at h
  · rename_i key
    split at h
    · cases found : s.byKey ⟨field body 1 1, by omega⟩ (field body 2 1) with
      | none => rw [found] at h; cases h
      | some q =>
        rw [found] at h
        cases h
        obtain ⟨mem, line, addr⟩ := byKey_spec found
        exact ⟨mem, .inl ⟨key, congrArg Fin.val line, addr⟩⟩
    · cases h
  · split at h
    · rename_i slot
      cases found : s.bySlot (field body 1 2) with
      | none => rw [found] at h; cases h
      | some q =>
        rw [found] at h
        cases h
        obtain ⟨mem, same⟩ := bySlot_spec found
        exact ⟨mem, .inr ⟨slot.1, same⟩⟩
    · cases h

/-- The record that a request names stands in its slot (R67, R84). -/
theorem named_bySlot {body : List Byte} {s : State} {r : Endpoint} (rise : s.SlotsRise) (h : s.named body = .ok r) :
    s.bySlot r.slot = some r := bySlot_of_mem rise (named_ok h).1

/-! ### LOOKUP (R86) -/

/-- The derived fields of a window in a LOOKUP response: its least delay and its filtered offset (R61, R192). -/
def derivedBytes (w : List Sample) : List Byte :=
  optional 4 ((leastDelay w).map (bytesOf 4)) ++ optional 8 ((filteredOffset w).map (signedBytes 8))

theorem boundOf_known {u a drift d : Nat} {f : Int} {w : List Sample} {x : Sample} {now : RowTime} (last : w.getLast? = some x)
    (filtered : Filtered f d w) (earlier : x.t1.toNs ≤ now.toNs) :
    boundOf u a drift w now = min 4294967295 (u + d / 2 + a + (now.toNs - x.t1.toNs) / 1000000 * drift / 1000) := by
  unfold boundOf ageTerm
  rw [((filtered_iff f d w).1 filtered).2, last]
  dsimp only
  rw [if_pos earlier]
  rfl

theorem endpointBody_eq (bound : Nat) (r : Endpoint) : r.body bound =
    bytesOf 2 r.slot ++ bytesOf 1 r.line.val ++ bytesOf 1 r.addr
      ++ bytesOf 1 (match r.state with
        | .enrolling => 0 | .tracking => 1 | .suspect => 2 | .lost => 3 | .suspended => 4 | .retiring => 5)
      ++ bytesOf 1 (match r.withdrawal with | .no => 0 | .suspend => 1 | .retire => 2) ++ bytesOf 1 r.inTxn.toNat
      ++ bytesOf 1 r.baseClass ++ bytesOf 1 r.corrEnabled.toNat ++ bytesOf 4 r.stepThreshold
      ++ (match r.asym with | none => List.replicate 5 0 | some a => [1] ++ signedBytes 4 a)
      ++ (match r.identity with | none => List.replicate 5 0 | some d => [1] ++ bytesOf 4 d.toNat)
      ++ bytesOf 1 r.goodCount ++ bytesOf 1 r.missCount ++ bytesOf 1 r.window.length
      ++ r.window.flatMap (fun x =>
        bytesOf 6 x.t1.sec ++ bytesOf 4 x.t1.ns ++ signedBytes 8 x.theta ++ bytesOf 4 x.delta)
      ++ derivedBytes r.window ++ (match r.lastRaw with | none => List.replicate 9 0 | some y => [1] ++ signedBytes 8 y)
      ++ (match r.lastGood with | none => List.replicate 7 0 | some y => [1] ++ bytesOf 6 y)
      ++ signedBytes 4 r.freq ++ (match r.baseline with | none => List.replicate 5 0 | some y => [1] ++ signedBytes 4 y)
      ++ bytesOf 1 r.cmdSeq.toNat
      ++ (match r.cmd with
        | none => List.replicate 10 0
        | some (k, y) => bytesOf 1 1 ++ bytesOf 1 (match k with | .slew => 0 | .step => 1) ++ signedBytes 8 y)
      ++ (match r.toSend with
        | none => List.replicate 11 0
        | some c => bytesOf 1 1 ++ bytesOf 1 c.seq.toNat ++ bytesOf 1 (match c.kind with | .slew => 0 | .step => 1)
          ++ signedBytes 8 c.value)
      ++ bytesOf 1 r.ackSeq.toNat ++ bytesOf 1 r.repSeq.toNat ++ bytesOf 1 r.unack
      ++ (match r.answer with
        | none => [0]
        | some (.grant g) => [1, g.domain] ++ bytesOf 2 g.epoch.toNat ++ bytesOf 6 g.base.sec ++ bytesOf 4 g.base.ns
          ++ bytesOf 1 g.count ++ bytesOf 4 g.uncertainty
        | some (.refusal d code) => [2, d, match code with
          | .badCount => 1 | .noDomain => 2 | .domainClosed => 3 | .domainFrozen => 4 | .notMember => 5
          | .epochChanged => 6 | .withdrawn => 7 | .rackFenced => 8 | .untracked => 9 | .correcting => 10
          | .uncertain => 11])
      ++ bytesOf 2 r.goodTotal ++ bytesOf 2 r.missTotal ++ bytesOf 2 r.rejected ++ bytesOf 2 r.voids
      ++ bytesOf 2 r.conflicts ++ bytesOf 2 r.corrFaults ++ bytesOf 4 bound := by
  have state : r.state.value = match r.state with
      | .enrolling => 0 | .tracking => 1 | .suspect => 2 | .lost => 3 | .suspended => 4 | .retiring => 5 := by
    cases r.state <;> rfl
  have withdrawal : r.withdrawal.value = match r.withdrawal with | .no => 0 | .suspend => 1 | .retire => 2 := by
    cases r.withdrawal <;> rfl
  have asym : optional 4 (r.asym.map (signedBytes 4)) =
      match r.asym with | none => List.replicate 5 0 | some a => [1] ++ signedBytes 4 a := by
    cases r.asym <;> rfl
  have identity : optional 4 (r.identity.map (fun x => bytesOf 4 x.toNat)) =
      match r.identity with | none => List.replicate 5 0 | some d => [1] ++ bytesOf 4 d.toNat := by
    cases r.identity <;> rfl
  have lastRaw : optional 8 (r.lastRaw.map (signedBytes 8)) =
      match r.lastRaw with | none => List.replicate 9 0 | some y => [1] ++ signedBytes 8 y := by
    cases r.lastRaw <;> rfl
  have lastGood : optional 6 (r.lastGood.map (bytesOf 6)) =
      match r.lastGood with | none => List.replicate 7 0 | some y => [1] ++ bytesOf 6 y := by
    cases r.lastGood <;> rfl
  have baseline : optional 4 (r.baseline.map (signedBytes 4)) =
      match r.baseline with | none => List.replicate 5 0 | some y => [1] ++ signedBytes 4 y := by
    cases r.baseline <;> rfl
  have cmd : optional 9 (r.cmd.map (fun c => kindValueBytes c.1 c.2)) = match r.cmd with
      | none => List.replicate 10 0
      | some (k, y) => bytesOf 1 1 ++ bytesOf 1 (match k with | .slew => 0 | .step => 1) ++ signedBytes 8 y := by
    cases r.cmd with
    | none => rfl
    | some c => obtain ⟨k, y⟩ := c; cases k <;> rfl
  have toSend : optional 10 (r.toSend.map (fun c => bytesOf 1 c.seq.toNat ++ kindValueBytes c.kind c.value)) = match r.toSend with
      | none => List.replicate 11 0
      | some c => bytesOf 1 1 ++ bytesOf 1 c.seq.toNat ++ bytesOf 1 (match c.kind with | .slew => 0 | .step => 1)
        ++ signedBytes 8 c.value := by
    cases r.toSend with
    | none => rfl
    | some c => obtain ⟨q, k, y⟩ := c; cases k <;> rfl
  have answer : answerBytes r.answer = match r.answer with
      | none => [0]
      | some (.grant g) => [1, g.domain] ++ bytesOf 2 g.epoch.toNat ++ bytesOf 6 g.base.sec ++ bytesOf 4 g.base.ns
        ++ bytesOf 1 g.count ++ bytesOf 4 g.uncertainty
      | some (.refusal d code) => [2, d, match code with
        | .badCount => 1 | .noDomain => 2 | .domainClosed => 3 | .domainFrozen => 4 | .notMember => 5
        | .epochChanged => 6 | .withdrawn => 7 | .rackFenced => 8 | .untracked => 9 | .correcting => 10
        | .uncertain => 11] := by
    cases r.answer with
    | none => rfl
    | some a =>
      cases a with
      | grant g => rfl
      | refusal d code => cases code <;> rfl
  unfold Endpoint.body derivedBytes byte1 bool1
  rw [state, withdrawal, asym, identity, lastRaw, lastGood, baseline, cmd, toSend, answer]
  simp only [List.append_assoc]
  rfl

section taken
variable {s : State} (frames : s.TakesFrames) (dt : Nat) {body : List Byte}
include frames

theorem exec_lookup_taken (len : body.length = 3) :
    exec (.lookup dt body) s = .next (State.form 0x21 (lookupBlock body (s.accepting dt 3))) :=
  next_request_taken frames (by decide) dt len (by decide) _

theorem exec_amend_taken (len : body.length = 14) :
    exec (.amend dt body) s = .next (State.form 0x22 (amendBlock body (s.accepting dt 14))) :=
  next_request_taken frames (by decide) dt len (by decide) _

theorem exec_suspend_taken (len : body.length = 3) :
    exec (.suspend dt body) s = .next (State.form 0x23 (suspendBlock body (s.accepting dt 3))) :=
  next_request_taken frames (by decide) dt len (by decide) _

theorem exec_resume_taken (len : body.length = 3) :
    exec (.resume dt body) s = .next (State.form 0x24 (resumeBlock body (s.accepting dt 3))) :=
  next_request_taken frames (by decide) dt len (by decide) _

theorem exec_retire_taken (len : body.length = 3) :
    exec (.retire dt body) s = .next (State.form 0x25 (retireBlock body (s.accepting dt 3))) :=
  next_request_taken frames (by decide) dt len (by decide) _

theorem exec_enroll_taken (len : body.length = 16) :
    exec (.enroll dt body) s = .next (State.form 0x20 (enrollBlock body (s.accepting dt 16))) :=
  next_request_taken frames (by decide) dt len (by decide) _

end taken

section named
variable {s : State} {body : List Byte}

theorem lookupBlock_unnamed {st : Status} (h : s.named body = .error st) : lookupBlock body s = refuse st s := by
  unfold lookupBlock
  rw [h]

theorem amendBlock_unnamed {st : Status} (h : s.named body = .error st) : amendBlock body s = refuse st s := by
  unfold amendBlock
  rw [h]

theorem suspendBlock_unnamed {st : Status} (h : s.named body = .error st) : suspendBlock body s = refuse st s := by
  unfold suspendBlock
  rw [h]

theorem resumeBlock_unnamed {st : Status} (h : s.named body = .error st) : resumeBlock body s = refuse st s := by
  unfold resumeBlock
  rw [h]

theorem retireBlock_unnamed {st : Status} (h : s.named body = .error st) : retireBlock body s = refuse st s := by
  unfold retireBlock
  rw [h]

theorem lookupBlock_named {r : Endpoint} (h : s.named body = .ok r) :
    lookupBlock body s = (s, .ok, r.body (s.errorBound r s.clk.row)) := by
  unfold lookupBlock
  rw [h]

end named

/-- Settles O41. -/
theorem recordNamesAreCheckedAndLookedUp : Obligations.RecordNamesAreCheckedAndLookedUp := by
  refine ⟨fun body s => ⟨named_badField_iff body s, named_notFound_iff body s, fun r h => named_ok h⟩,
    fun dt body st s frames unnamed => ⟨fun len => ⟨?_, ?_, ?_, ?_⟩, fun len => ?_⟩, fun dt body r s frames len named => ?_⟩
  · rw [exec_lookup_taken frames dt len, lookupBlock_unnamed ((accepting_named ..).trans unnamed)]
    rfl
  · rw [exec_suspend_taken frames dt len, suspendBlock_unnamed ((accepting_named ..).trans unnamed)]
    rfl
  · rw [exec_resume_taken frames dt len, resumeBlock_unnamed ((accepting_named ..).trans unnamed)]
    rfl
  · rw [exec_retire_taken frames dt len, retireBlock_unnamed ((accepting_named ..).trans unnamed)]
    rfl
  · rw [exec_amend_taken frames dt len, amendBlock_unnamed ((accepting_named ..).trans unnamed)]
    rfl
  · refine ⟨(s.accepting dt 3).errorBound r (s.accepting dt 3).clk.row, derivedBytes r.window, ?_, fun empty => ?_,
      fun f d filtered => ?_, fun empty => ?_, fun x f d last filtered earlier => ?_⟩
    · rw [exec_lookup_taken frames dt len, lookupBlock_named ((accepting_named ..).trans named), endpointBody_eq]
      rfl
    · rw [empty]
      rfl
    · obtain ⟨offset, least⟩ := (filtered_iff f d _).1 filtered
      unfold derivedBytes
      rw [offset, least, List.append_assoc [1] (bytesOf 4 d) [1], List.append_assoc [1], List.append_assoc]
      rfl
    · unfold State.errorBound
      rw [empty]
      rfl
    · unfold State.errorBound
      rw [accepting_clk, boundOf_known last filtered earlier, accepting_line]

/-! ### Changes of one record in the table (R69) -/

/-- A change that leaves the record's state and withdrawal touches the table alone (R69). -/
theorem updateRecord_only {slot : Nat} {f : Endpoint → Endpoint} {s : State} {r : Endpoint} (found : s.bySlot slot = some r)
    (state : (f r).state = r.state) (withdrawal : (f r).withdrawal = r.withdrawal) :
    s.updateRecord slot f = { s with records := s.records.map (fun x => if x.slot = slot then r.keepKey (f r) else x) } := by
  rw [updateRecord_calm slot f s found state withdrawal]
  unfold State.putRecord
  simp

theorem updateRecord_found {slot : Nat} (f : Endpoint → Endpoint) {s : State} {r : Endpoint} (found : s.bySlot slot = some r) :
    (s.updateRecord slot f).records = s.records.map (fun x => if x.slot = slot then r.keepKey (f r) else x) := by
  rw [updateRecord_records, found]
  simp

/-- A record that stops being pollable leaves its line's lists; no other line changes (R46, R51, R69). -/
theorem updateRecord_line_dropped {slot : Nat} {f : Endpoint → Endpoint} {s : State} {r : Endpoint} (found : s.bySlot slot = some r)
    (was : r.pollable = true) (now : (r.keepKey (f r)).pollable = false) :
    (s.updateRecord slot f).lines = (s.modLine r.line (Line.dropSlot slot)).lines := by
  have slotted : r.slot = slot := (bySlot_spec found).2
  unfold State.updateRecord
  rw [found]
  show ((s.putRecord slot (r.keepKey (f r))).reportChange r (r.keepKey (f r))).lines = _
  unfold State.reportChange State.reportPollable State.reportState
  rw [was, now, slotted, if_pos (show (true && !false) = true from rfl)]
  have lines : ∀ u : State, (if (r.keepKey (f r)).state = r.state then u
      else u.report r.line (some r.state) (some (r.keepKey (f r)).state)).lines = u.lines := fun u => by split <;> rfl
  refine lines_ext fun j => ?_
  unfold State.line State.modLine State.line State.setLine
  dsimp only
  rw [lines]
  rfl

/-- What is left of a line's lists once a slot has left them (R46, R51). -/
theorem dropSlot_lists (slot : Nat) (l : Line) : (l.dropSlot slot).urgent = l.urgent.filter (fun x => x != slot) ∧
    (l.dropSlot slot).pollList.drop l.pollPos = (l.pollList.drop l.pollPos).filter (fun x => x != slot) := by
  refine ⟨rfl, ?_⟩
  unfold Line.dropSlot
  dsimp only
  by_cases beyond : l.pollList.length ≤ l.pollPos
  · rw [List.drop_eq_nil_of_le beyond, List.filter_nil, List.append_nil]
    exact List.drop_eq_nil_of_le (List.length_take_le ..)
  · rw [List.drop_append_of_le_length (by rw [List.length_take]; omega), List.drop_eq_nil_of_le (List.length_take_le ..),
      List.nil_append]

end Sys2Proof.Machine

/-! SUPPORT. ENROLL, AMEND, SUSPEND, RESUME, RETIRE and the newcomer set (R67 to R69, R85, R87 to R91, R95, R96). -/

namespace Sys2Proof.Machine

open Sys2Proof

/-! ### Member counts, lists and tables after one record's change (R46, R51, R69, R152) -/

/-- A rack whose counts no report touches stays as it was (R152). -/
theorem membersMoved_still {i : Fin 12} {old : RecState} {new : Option RecState} {s t : State} (moved : s.MembersMoved i old new t)
    {j : Fin 12} (h : ¬(j = i ∧ new ≠ some old)) : t.rack j = s.rack j := by
  obtain ⟨rack, counts⟩ := moved j
  have members : (t.rack j).members = (s.rack j).members := memberCounts_ext _ _ fun st => by rw [counts st, if_neg h]
  rw [rack, members]

/-- A record's slot has left the rest of its line's poll list and its urgent queue, and no other line has changed (R46, R51). -/
structure State.Unlisted (r : Endpoint) (s t : State) : Prop where
  own : t.line r.line = { s.line r.line with pollList := (t.line r.line).pollList, urgent := (t.line r.line).urgent }
  urgent : (t.line r.line).urgent = (s.line r.line).urgent.filter (fun x => x != r.slot)
  list : (t.line r.line).pollList.drop (s.line r.line).pollPos =
    ((s.line r.line).pollList.drop (s.line r.line).pollPos).filter (fun x => x != r.slot)
  others : ∀ j, j ≠ r.line → t.line j = s.line j

theorem unlisted_of_lines {r : Endpoint} {s t : State} (lines : t.lines = (s.modLine r.line (Line.dropSlot r.slot)).lines) :
    s.Unlisted r t := by
  have line : ∀ j, t.line j = (s.modLine r.line (Line.dropSlot r.slot)).line j := fun j => by
    unfold State.line
    rw [lines]
  have own : t.line r.line = (s.line r.line).dropSlot r.slot := (line _).trans (modLine_line_same ..)
  obtain ⟨urgent, list⟩ := dropSlot_lists r.slot (s.line r.line)
  refine ⟨?_, ?_, ?_, fun j other => (line j).trans (modLine_line_other _ _ (Ne.symm other))⟩
  · rw [own]
    rfl
  · rw [own, urgent]
  · rw [own, list]

theorem keepKey_self {old new : Endpoint} (slot : new.slot = old.slot) (line : new.line = old.line) (addr : new.addr = old.addr) :
    old.keepKey new = new := by
  unfold Endpoint.keepKey
  rw [← slot, ← line, ← addr]

theorem updateRecord_rest (n : Nat) (f : Endpoint → Endpoint) (s : State) : s.updateRecord n f =
    { s with lines := (s.updateRecord n f).lines, records := (s.updateRecord n f).records, racks := (s.updateRecord n f).racks } := by
  have tables : s.updateRecord n f = _ := updateRecord_tables n f s
  rwa [updateRecord_domains] at tables

theorem withdraw_eq (b : Bool) (r : Endpoint) : r.withdraw b = { r with
    ackSeq := r.cmdSeq
    unack := if r.ackSeq = r.cmdSeq then r.unack else 0
    toSend := if r.ackSeq = r.cmdSeq ∨ b = true then r.toSend else none } := by
  unfold Endpoint.withdraw Endpoint.inFlight
  by_cases settled : r.ackSeq = r.cmdSeq
  · rw [if_neg (by simp [settled]), if_pos settled, if_pos (.inl settled)]
    exact congrArg (fun n => ({ r with ackSeq := n } : Endpoint)) settled
  · rw [if_pos (by simpa using settled), if_neg settled]
    have sends : (if b then r.toSend else none) = if r.ackSeq = r.cmdSeq ∨ b = true then r.toSend else none :=
      if_congr (or_iff_right settled).symm rfl rfl
    rw [sends]

/-! ### AMEND (R87, R110) -/

theorem amend_eq (body : List Byte) (b : Bool) (r : Endpoint) : r.amend body b = { r with
    baseClass := if (field body 3 1).testBit 0 then field body 5 1 else r.baseClass
    corrEnabled := if (field body 3 1).testBit 1 then flag body 4 0 else r.corrEnabled
    stepThreshold := if (field body 3 1).testBit 2 then field body 6 4 else r.stepThreshold
    asym := if flag body 4 1 then none
      else if (field body 3 1).testBit 3 then some (signedField32 body 10) else r.asym
    ackSeq := (r.amend body b).ackSeq, unack := (r.amend body b).unack, toSend := (r.amend body b).toSend } := by
  unfold Endpoint.amend
  dsimp only
  split
  · rw [withdraw_eq]
    rfl
  · rfl

theorem amend_withdraws {body : List Byte} {b : Bool} {r : Endpoint} (isCarried : (field body 3 1).testBit 1 = true)
    (off : flag body 4 0 = false) (inFlight : r.ackSeq ≠ r.cmdSeq) : (r.amend body b).ackSeq = r.cmdSeq ∧
      (r.amend body b).unack = 0 ∧ (r.amend body b).toSend = if b then r.toSend else none := by
  unfold Endpoint.amend
  dsimp only
  rw [if_pos (by rw [isCarried, off]; rfl), withdraw_eq]
  dsimp only
  rw [if_neg inFlight]
  exact ⟨rfl, rfl, if_congr (or_iff_right inFlight) rfl rfl⟩

theorem amend_keeps {body : List Byte} {b : Bool} {r : Endpoint}
    (h : (field body 3 1).testBit 1 = false ∨ flag body 4 0 = true ∨ r.ackSeq = r.cmdSeq) :
    (r.amend body b).ackSeq = r.ackSeq ∧ (r.amend body b).unack = r.unack ∧ (r.amend body b).toSend = r.toSend := by
  unfold Endpoint.amend
  dsimp only
  split
  · rename_i withdraws
    obtain ⟨isCarried, off⟩ : (field body 3 1).testBit 1 = true ∧ flag body 4 0 = false := by simpa using withdraws
    have settled : r.ackSeq = r.cmdSeq := by
      rcases h with no | on | settled
      · rw [isCarried] at no; cases no
      · rw [off] at on; cases on
      · exact settled
    rw [withdraw_eq]
    dsimp only
    rw [if_pos settled, if_pos (.inl settled)]
    exact ⟨settled.symm, rfl, rfl⟩
  · exact ⟨rfl, rfl, rfl⟩

theorem accepting_slotsRise {s : State} (dt n : Nat) (rise : s.SlotsRise) : (s.accepting dt n).SlotsRise := by
  unfold State.SlotsRise
  rwa [accepting_records]

theorem amendBlock_named {s : State} {body : List Byte} {r : Endpoint} (h : s.named body = .ok r) : amendBlock body s =
    if amendOk body then
      if r.state = .retiring then refuse .wrongState s
      else (s.updateRecord r.slot (Endpoint.amend body (s.closeAssembled r)), .ok, [])
    else refuse .badField s := by
  unfold amendBlock
  rw [h]

/-- Settles O43. -/
theorem amendWritesTheCarriedFields : Obligations.AmendWritesTheCarriedFields := by
  intro dt body r s frames len named rise
  have named' := (accepting_named dt 14 s body).trans named
  rw [exec_amend_taken frames dt len, amendBlock_named named', accepting_closeAssembled]
  refine ⟨fun bad => ?_, fun ok retiring => ?_, fun ok there =>
    ⟨(s.accepting dt 14).updateRecord r.slot (Endpoint.amend body (s.closeAssembled r)), r.amend body (s.closeAssembled r), ?_, ?_,
      amend_eq .., amend_withdraws, amend_keeps⟩⟩
  · rw [bad]
    rfl
  · rw [if_pos ok, if_pos retiring]
    rfl
  · rw [if_pos ok, if_neg there]
    rfl
  · have found := named_bySlot (accepting_slotsRise dt 14 rise) named'
    have kept : r.keepKey (r.amend body (s.closeAssembled r)) = r.amend body (s.closeAssembled r) := by
      rw [amend_eq]
      rfl
    rw [updateRecord_only found (by rw [amend_eq]) (by rw [amend_eq]), kept, accepting_records]

/-! ### SUSPEND (R88) -/

/-- The record after a SUSPEND that takes it out of service, at once or when its transaction ends (R88, R108, R111). -/
def Endpoint.suspending (assembled : Bool) (r : Endpoint) : Endpoint :=
  if r.inTxn then { r.withdraw assembled with withdrawal := .suspend } else { r.withdraw assembled with state := .suspended }

theorem suspending_eq (b : Bool) {r : Endpoint} (service : r.withdrawal = .no) : r.suspending b = { r with
    state := if r.inTxn then r.state else .suspended
    withdrawal := if r.inTxn then .suspend else .no
    ackSeq := r.cmdSeq
    unack := if r.ackSeq = r.cmdSeq then r.unack else 0
    toSend := if r.ackSeq = r.cmdSeq ∨ b = true then r.toSend else none } := by
  unfold Endpoint.suspending
  rw [withdraw_eq]
  split
  · rfl
  · rw [← service]

theorem pollable_iff (r : Endpoint) :
    r.pollable = true ↔ r.state ≠ .suspended ∧ r.state ≠ .retiring ∧ r.withdrawal = .no := by
  unfold Endpoint.pollable
  cases r.state <;> simp

/-- How SUSPEND changes a record that is in service: the two rows of R88 that do (R88). -/
theorem suspendBlock_takesOut {s : State} {body : List Byte} {r : Endpoint} (named : s.named body = .ok r)
    (found : s.bySlot r.slot = some r) (staying : r.state ≠ .retiring) (there : r.state ≠ .suspended)
    (service : r.withdrawal = .no) : suspendBlock body s =
      (s.updateRecord r.slot (fun _ => r.suspending (s.closeAssembled r)), if r.inTxn then .accepted else .ok, []) := by
  have same : ∀ f : Endpoint → Endpoint, f r = r.suspending (s.closeAssembled r) →
      s.updateRecord r.slot f = s.updateRecord r.slot (fun _ => r.suspending (s.closeAssembled r)) := fun f hf => by
    unfold State.updateRecord
    rw [found]
    dsimp only
    rw [hf]
  have acts : suspendBlock body s = if r.inTxn then
      (s.updateRecord r.slot (fun x => { x.withdraw (s.closeAssembled r) with withdrawal := .suspend }), .accepted, [])
      else (s.updateRecord r.slot (fun x => { x.withdraw (s.closeAssembled r) with state := .suspended }), .ok, []) := by
    unfold suspendBlock
    rw [named]
    show s.suspend r = _
    unfold State.suspend
    cases state : r.state
    case retiring => exact absurd state staying
    case suspended => exact absurd state there
    all_goals
      show (if r.withdrawal = .suspend then _ else _) = _
      rw [if_neg (by rw [service]; decide)]
  rw [acts]
  cases inTxn : r.inTxn
  · rw [if_neg (by decide), if_neg (by decide), same]
    unfold Endpoint.suspending
    rw [inTxn]
    rfl
  · rw [if_pos rfl, if_pos rfl, same]
    unfold Endpoint.suspending
    rw [inTxn]
    rfl

theorem suspendBlock_refuses {s : State} {body : List Byte} {r : Endpoint} (named : s.named body = .ok r)
    (retiring : r.state = .retiring) : suspendBlock body s = refuse .wrongState s := by
  unfold suspendBlock State.suspend
  rw [named]
  dsimp only
  rw [retiring]

theorem suspendBlock_again {s : State} {body : List Byte} {r : Endpoint} (named : s.named body = .ok r)
    (suspended : r.state = .suspended) : suspendBlock body s = (s, .ok, []) := by
  unfold suspendBlock State.suspend
  rw [named]
  dsimp only
  rw [suspended]

theorem suspendBlock_pending {s : State} {body : List Byte} {r : Endpoint} (named : s.named body = .ok r)
    (staying : r.state ≠ .retiring) (there : r.state ≠ .suspended) (pending : r.withdrawal = .suspend) :
    suspendBlock body s = (s, .accepted, []) := by
  unfold suspendBlock
  rw [named]
  show s.suspend r = _
  unfold State.suspend
  cases state : r.state
  case retiring => exact absurd state staying
  case suspended => exact absurd state there
  all_goals exact if_pos pending

/-- Settles O44. -/
theorem suspendTakesTheRecordOut : Obligations.SuspendTakesTheRecordOut := by
  intro dt body r s frames len named rise
  have named' := (accepting_named dt 3 s body).trans named
  rw [exec_suspend_taken frames dt len]
  refine ⟨fun retiring => ?_, fun suspended => ?_, fun staying there pending => ?_, fun staying there service => ?_⟩
  · rw [suspendBlock_refuses named' retiring]
    rfl
  · rw [suspendBlock_again named' suspended]
    rfl
  · rw [suspendBlock_pending named' staying there pending]
    rfl
  · have found := named_bySlot (accepting_slotsRise dt 3 rise) named'
    rw [suspendBlock_takesOut named' found staying there service, accepting_closeAssembled]
    have eq := suspending_eq (s.closeAssembled r) service
    have kept : r.keepKey (r.suspending (s.closeAssembled r)) = r.suspending (s.closeAssembled r) := by
      rw [eq]
      rfl
    have records := updateRecord_found (fun _ => r.suspending (s.closeAssembled r)) found
    have lines := updateRecord_line_dropped (f := fun _ => r.suspending (s.closeAssembled r)) found
      ((pollable_iff r).2 ⟨there, staying, service⟩) (by
        rw [kept, ← Bool.not_eq_true, pollable_iff, eq]
        cases r.inTxn <;> simp)
    have moved := updateRecord_moved found (fun _ => r.suspending (s.closeAssembled r))
    have rest := updateRecord_rest r.slot (fun _ => r.suspending (s.closeAssembled r)) (s.accepting dt 3)
    rw [kept, accepting_records] at records
    generalize (s.accepting dt 3).updateRecord r.slot _ = t at *
    obtain ⟨own, urgent, list, others⟩ := unlisted_of_lines lines
    simp only [accepting_line] at own urgent list others
    refine ⟨t, _, rfl, records, eq, own, urgent, list, fun j other => ⟨others j other, ?_⟩, moved, fun inTxn => ?_, rest, ?_, ?_, ?_⟩
    · exact membersMoved_still moved fun h => other h.1
    · refine membersMoved_still moved fun h => h.2 ?_
      rw [eq]
      simp [inTxn]
    · rw [rest]
      exact accepting_domains dt 3 s
    · rw [rest]
      exact accepting_newcomers dt 3 s
    · rw [rest]
      rfl

/-! ### RESUME and RETIRE (R89, R91) -/

theorem resumeBlock_named {s : State} {body : List Byte} {r : Endpoint} (h : s.named body = .ok r) : resumeBlock body s =
    if r.state = .suspended then (s.updateRecord r.slot Endpoint.resumed, .ok, []) else refuse .wrongState s := by
  unfold resumeBlock
  rw [h]

theorem retireBlock_named {s : State} {body : List Byte} {r : Endpoint} (h : s.named body = .ok r) :
    retireBlock body s = s.retire r := by
  unfold retireBlock
  rw [h]

/-- The record after a RETIRE that finds it in transaction (R89, R108). -/
theorem retiring_eq (b : Bool) (r : Endpoint) : ({ r.withdraw b with state := .retiring, withdrawal := .retire } : Endpoint) =
    { r with
      state := .retiring, withdrawal := .retire, ackSeq := r.cmdSeq
      unack := if r.ackSeq = r.cmdSeq then r.unack else 0
      toSend := if r.ackSeq = r.cmdSeq ∨ b = true then r.toSend else none } := by
  rw [withdraw_eq]

theorem removeRecord_lines {s : State} {r : Endpoint} (found : s.bySlot r.slot = some r) :
    (s.removeRecord r.slot).lines = (s.modLine r.line (Line.dropSlot r.slot)).lines := by
  unfold State.removeRecord
  rw [found]
  rfl

theorem removeRecord_rest {s : State} {r : Endpoint} (found : s.bySlot r.slot = some r) : s.removeRecord r.slot =
    { s with lines := (s.removeRecord r.slot).lines, records := s.records.filter (fun x => x.slot != r.slot)
             racks := (s.removeRecord r.slot).racks } := by
  unfold State.removeRecord
  rw [found]
  rfl

/-- Settles O45. -/
theorem resumeAndRetireFollowTheRecord : Obligations.ResumeAndRetireFollowTheRecord := by
  intro dt body r s frames len named rise
  have named' := (accepting_named dt 3 s body).trans named
  have found := named_bySlot (accepting_slotsRise dt 3 rise) named'
  rw [exec_resume_taken frames dt len, exec_retire_taken frames dt len, resumeBlock_named named', retireBlock_named named']
  unfold State.retire
  rw [accepting_closeAssembled]
  refine ⟨fun suspended => ?_, fun other => ?_, fun retiring => ?_, fun staying free => ?_, fun staying busy => ?_⟩
  · rw [if_pos suspended]
    have records := updateRecord_found Endpoint.resumed found
    have moved := updateRecord_moved found Endpoint.resumed
    have lines := updateRecord_lines found Endpoint.resumed fun pollable => absurd suspended ((pollable_iff r).1 pollable).1
    have rest := updateRecord_rest r.slot Endpoint.resumed (s.accepting dt 3)
    rw [lines] at rest
    rw [accepting_records] at records
    generalize (s.accepting dt 3).updateRecord r.slot _ = t at *
    refine ⟨t, rfl, records, suspended ▸ moved, rest, lines.trans (accepting_lines ..), ?_, ?_, ?_⟩
    · rw [rest]
      exact accepting_domains dt 3 s
    · rw [rest]
      exact accepting_newcomers dt 3 s
    · rw [rest]
      rfl
  · rw [if_neg other]
    rfl
  · rw [if_pos retiring]
    rfl
  · rw [if_neg staying, if_neg (by simp [free])]
    have moved := removeRecord_rack found
    have rest := removeRecord_rest found
    have lines := removeRecord_lines found
    generalize (s.accepting dt 3).removeRecord r.slot = t at *
    obtain ⟨own, urgent, list, others⟩ := unlisted_of_lines lines
    simp only [accepting_line] at own urgent list others
    refine ⟨t, rfl, ?_, moved, fun j other => ⟨others j other, membersMoved_still moved fun h => other h.1⟩, ?_, own, urgent, list,
      ?_, ?_, ?_⟩
    · rw [rest, accepting_records]
    · rw [rest]
    · rw [rest]
      exact accepting_domains dt 3 s
    · rw [rest]
      exact accepting_newcomers dt 3 s
    · rw [rest]
      rfl
  · rw [if_neg staying, if_pos busy]
    generalize hf : (fun x : Endpoint => { x.withdraw (s.closeAssembled r) with state := .retiring, withdrawal := .retire }) = f
    have eq := (congrFun hf r).symm.trans (retiring_eq (s.closeAssembled r) r)
    have kept : r.keepKey (f r) = f r := by rw [eq]; rfl
    have records := updateRecord_found f found
    have moved := updateRecord_moved found f
    have rest := updateRecord_rest r.slot f (s.accepting dt 3)
    have gone : (r.keepKey (f r)).pollable = false := by
      rw [kept, ← Bool.not_eq_true, pollable_iff, eq]
      simp
    have dropped := fun was => unlisted_of_lines (updateRecord_line_dropped (f := f) found was gone)
    have still := fun never => updateRecord_lines found f (fun pollable => absurd pollable never)
    rw [kept, accepting_records] at records
    have state : (f r).state = .retiring := by rw [eq]
    rw [state] at moved
    generalize (s.accepting dt 3).updateRecord r.slot f = t at *
    have whole : s.Unlisted r t ∨ t.lines = s.lines := by
      by_cases was : r.pollable = true
      · obtain ⟨own, urgent, list, others⟩ := dropped was
        simp only [accepting_line] at own urgent list others
        exact .inl ⟨own, urgent, list, others⟩
      · exact .inr ((still was).trans (accepting_lines ..))
    have same : t.lines = s.lines → ∀ j, t.line j = s.line j := fun lines j => by
      unfold State.line
      rw [lines]
    refine ⟨t, f r, rfl, records, eq, ?_, fun service there => ?_, fun out => ?_, fun j other => ⟨?_, ?_⟩, moved, rest, ?_, ?_, ?_⟩
    · rcases whole with unlisted | lines
      · exact unlisted.own
      · rw [same lines]
    · obtain ⟨own, urgent, list, others⟩ := dropped ((pollable_iff r).2 ⟨there, staying, service⟩)
      simp only [accepting_line] at urgent list
      exact ⟨urgent, list⟩
    · refine same ((still fun pollable => ?_).trans (accepting_lines ..)) _
      obtain ⟨there, _, service⟩ := (pollable_iff r).1 pollable
      exact out.elim (fun no => no service) there
    · rcases whole with unlisted | lines
      · exact unlisted.others j other
      · exact same lines j
    · exact membersMoved_still moved fun h => other h.1
    · rw [rest]
      exact accepting_domains dt 3 s
    · rw [rest]
      exact accepting_newcomers dt 3 s
    · rw [rest]
      rfl

/-! ### ENROLL (R67, R85) -/

theorem lowestFree_below {used : List Nat} {k n m : Nat} (from_n : n ≤ m) (below : m < lowestFree used k n) : m ∈ used := by
  induction k generalizing n with
  | zero => exact absurd below (by unfold lowestFree; omega)
  | succ k ih =>
    rw [lowestFree] at below
    split at below
    · rename_i taken
      rcases Nat.eq_or_lt_of_le from_n with same | later
      · subst same
        simpa using taken
      · exact ih later below
    · omega

theorem freeSlot_lowest {s : State} {m : Nat} (below : m < s.freeSlot) : ∃ r ∈ s.records, r.slot = m :=
  List.mem_map.1 (lowestFree_below (Nat.zero_le m) below)

theorem accepting_freeSlot (dt n : Nat) (s : State) : (s.accepting dt n).freeSlot = s.freeSlot := by
  unfold State.freeSlot
  rw [accepting_records]

theorem accepting_newcomerIdentity (dt n : Nat) (s : State) (i : Fin 12) (addr : Nat) :
    (s.accepting dt n).newcomerIdentity i addr = s.newcomerIdentity i addr := by
  unfold State.newcomerIdentity
  rw [accepting_newcomers]

theorem byKey_isSome_iff {s : State} {i : Fin 12} {addr : Nat} :
    (s.byKey i addr).isSome = true ↔ ∃ r ∈ s.records, r.line = i ∧ r.addr = addr := by
  unfold State.byKey
  rw [List.find?_isSome]
  simp

theorem enrollBlock_outOfRange {body : List Byte} {s : State}
    (out : 11 < field body 0 1 ∨ addrOk (field body 1 1) = false ∨ enrollOk body = false) :
    enrollBlock body s = refuse .badField s := by
  unfold enrollBlock
  cases line : lineOf (field body 0 1) with
  | none => rfl
  | some i =>
    have inside := lineOf_some.1 line
    have := i.isLt
    dsimp only
    rw [if_neg]
    rcases out with above | addr | bad
    · omega
    · simp [addr]
    · simp [bad]

theorem enrollBlock_inRange {body : List Byte} {s : State} {i : Fin 12} (line : field body 0 1 = i.val)
    (addr : addrOk (field body 1 1) = true) (ok : enrollOk body = true) : enrollBlock body s = s.enroll i body := by
  unfold enrollBlock
  rw [lineOf_some.2 line]
  dsimp only
  rw [if_pos (by simp [addr, ok])]

theorem mem_insertRecord_iff {q r : Endpoint} {l : List Endpoint} : q ∈ insertRecord r l ↔ q ∈ l ∨ q = r := by
  rw [(insertRecord_perm r l).mem_iff, List.mem_cons, or_comm]

/-- Settles O42. -/
theorem enrollCreatesTheRecord : Obligations.EnrollCreatesTheRecord := by
  intro dt body s frames len
  rw [exec_enroll_taken frames dt len]
  refine ⟨fun out => ?_, fun i line addr ok => ?_⟩
  · rw [enrollBlock_outOfRange out]
    rfl
  · rw [enrollBlock_inRange line addr ok]
    unfold State.enroll
    dsimp only
    rw [accepting_byKey, accepting_records]
    refine ⟨fun held => ?_, fun free full => ?_, fun free room => ?_⟩
    · rw [if_pos (byKey_isSome_iff.2 held)]
      rfl
    · rw [if_neg (mt byKey_isSome_iff.1 free), if_pos full]
      rfl
    · rw [if_neg (mt byKey_isSome_iff.1 free), if_neg (by omega), accepting_freeSlot, accepting_newcomerIdentity]
      obtain ⟨top, fresh⟩ := freeSlot_spec s room
      generalize hq : newRecord body s.freeSlot i (s.newcomerIdentity i (field body 1 1)) = q
      generalize ht : ((s.accepting dt 16).dropNewcomer i (field body 1 1)).addRecord q = t
      have records : t.records = insertRecord q s.records := by
        rw [← ht, addRecord_records]
        exact congrArg _ (accepting_records dt 16 s)
      have place : q.line = i ∧ q.state = .enrolling := by rw [← hq]; exact ⟨rfl, rfl⟩
      have rest : t = { s.accepting dt 16 with
          records := t.records
          newcomers := s.newcomers.filter (fun n => !(n.line == i && n.addr == field body 1 1))
          racks := t.racks } := by
        rw [← ht]
        refine Eq.trans ?_ (congrArg (fun ns : List Newcomer => ({ s.accepting dt 16 with
          records := (((s.accepting dt 16).dropNewcomer i (field body 1 1)).addRecord q).records
          newcomers := ns.filter (fun n => !(n.line == i && n.addr == field body 1 1))
          racks := (((s.accepting dt 16).dropNewcomer i (field body 1 1)).addRecord q).racks } : State))
          (accepting_newcomers dt 16 s))
        rfl
      have racks : ∀ j, t.rack j = if i = j then ((s.advance dt).rack i).gain .enrolling else (s.advance dt).rack j := fun j => by
        rw [← ht]
        unfold State.addRecord
        rw [place.1, place.2]
        exact modRack_rack _ i j (Rack.gain .enrolling)
      refine ⟨t, s.freeSlot, q, rfl, top, fresh, fun m below => freeSlot_lowest below, fun r => ?_, ?_, ?_, place.1, ?_, place.2, ?_⟩
      · rw [records, mem_insertRecord_iff]
      · rw [records, (insertRecord_perm q s.records).length_eq]
        rfl
      · rw [← hq]
        rfl
      · rw [← hq]
        rfl
      · subst hq
        refine ⟨rfl, rfl, rfl, rfl, rfl, rfl, rfl, rfl, rfl, rfl, rfl, rfl, rfl, rfl, rfl, rfl, rfl, rfl, rfl, rfl, rfl, rfl, rfl, rfl,
          rfl, rfl, rfl, rfl, ?_, ?_, fun j other => ?_, ?_, ?_, ?_, ?_, ?_⟩
        · rw [rest]
        · rw [racks, if_pos rfl]
          unfold Rack.gain
          rw [advance_members]
          rfl
        · rw [racks, if_neg (Ne.symm other)]
        · rw [rest]
          exact accepting_lines dt 16 s
        · rw [rest]
          exact accepting_domains dt 16 s
        · rw [rest]
          rfl
        · rw [rest]
          exact accepting_overflow dt 16 s
        · rw [rest]
          exact accepting_causes dt 16 s

/-! ### The newcomer set (R95, R96) -/

theorem exec_dismiss_taken {s : State} (frames : s.TakesFrames) (dt : Nat) (l a : Byte) :
    exec (.dismiss dt [l, a]) s = .next (State.form 0x2A (dismissBlock [l, a] (s.accepting dt 2))) :=
  next_request_taken (n := 2) frames (by decide) dt rfl (by decide) _

/-- DISMISS by its two bytes (R96). -/
theorem dismissBlock_eq (l a : Byte) (s : State) : dismissBlock [l, a] s =
    match lineOf l.toNat with
    | none => refuse .badField s
    | some i =>
      if addrOk a.toNat then
        if s.newcomers.any (fun n => n.line == i && n.addr == a.toNat) then (s.dropNewcomer i a.toNat, .ok, [])
        else refuse .notFound s
      else refuse .badField s := by
  unfold dismissBlock
  rw [field_byte, field_byte]
  rfl

theorem any_newcomer_iff (s : State) (i : Fin 12) (addr : Nat) :
    s.newcomers.any (fun n => n.line == i && n.addr == addr) = true ↔ ∃ n ∈ s.newcomers, n.line.val = i.val ∧ n.addr = addr := by
  rw [List.any_eq_true]
  simp [Fin.ext_iff]

theorem accepting_newcomersBody (dt n : Nat) (s : State) : (s.accepting dt n).newcomersBody = s.newcomersBody := by
  unfold State.newcomersBody
  rw [accepting_newcomers, accepting_overflow]

/-- Settles O47. -/
theorem newcomersAreListedAndDismissed : Obligations.NewcomersAreListedAndDismissed := by
  refine ⟨fun dt s frames => ?_, fun dt l a s frames => ?_⟩
  · have taken : exec (.newcomers dt []) s = .next (State.form 0x29 (newcomersBlock (s.accepting dt 0))) :=
      next_request_taken frames (by decide) dt rfl (by decide) _
    rw [taken]
    unfold newcomersBlock
    rw [accepting_newcomersBody]
    rfl
  · rw [exec_dismiss_taken frames, dismissBlock_eq]
    have known := fun i => any_newcomer_iff (s.accepting dt 2) i a.toNat
    rw [accepting_newcomers] at known
    refine ⟨fun out => ?_, fun line low high absent => ?_, fun line low high present => ?_⟩
    · cases named : lineOf l.toNat with
      | none => rfl
      | some i =>
        have inside := lineOf_some.1 named
        have := i.isLt
        dsimp only
        rw [if_neg (by rw [addrOk_iff]; omega)]
        rfl
    · rw [show lineOf l.toNat = some ⟨l.toNat, by omega⟩ from lineOf_some.2 rfl]
      dsimp only
      rw [if_pos ((addrOk_iff _).2 ⟨low, high⟩), accepting_newcomers,
        if_neg fun any => (let ⟨n, hn, h⟩ := (known _).1 any; absent n hn h)]
      rfl
    · rw [show lineOf l.toNat = some ⟨l.toNat, by omega⟩ from lineOf_some.2 rfl]
      dsimp only
      rw [if_pos ((addrOk_iff _).2 ⟨low, high⟩), accepting_newcomers, if_pos ((known _).2 present)]
      unfold State.dropNewcomer
      rw [accepting_newcomers]
      refine congrArg (fun ns : List Newcomer => Host.Outcome.next (State.answering 0x2A .ok []
        ({ s.accepting dt 2 with newcomers := ns } : State))) (List.filter_congr fun n _ => ?_)
      by_cases same : n.line.val = l.toNat ∧ n.addr = a.toNat
      · simp [same.2, Fin.ext_iff, same.1]
      · rw [decide_eq_true same]
        simp only [Bool.not_eq_true', Bool.and_eq_false_iff, beq_eq_false_iff_ne, ne_eq, Fin.ext_iff]
        exact not_and_or.1 same

end Sys2Proof.Machine

/-! SUPPORT. DOMAIN_OPEN, DOMAIN_AMEND and the host's STAMP (R114, R118, R122 to R124, R132, R134 to R142). -/

namespace Sys2Proof.Machine

open Sys2Proof

/-! ### The fence (R123, R124) -/

theorem all12_rises : all12.Pairwise (· < ·) := by decide

/-- The lowest rack that a test selects stands first among those it selects. -/
theorem filter_all12_lowest {p : Fin 12 → Bool} {n : Fin 12} (here : p n = true) (lowest : ∀ m, m < n → p m = false) :
    ∃ rest, all12.filter p = n :: rest := by
  obtain ⟨a, b, split⟩ := List.append_of_mem (mem_all12 n)
  have order := all12_rises
  rw [split, List.pairwise_append] at order
  have none : a.filter p = [] :=
    List.filter_eq_nil_iff.2 fun m hm => by rw [lowest m (order.2.2 m hm n List.mem_cons_self)]; decide
  exact ⟨b.filter p, by rw [split, List.filter_append, none, List.filter_cons_of_pos here, List.nil_append]⟩

theorem fence_frozen {s : State} {d : Domain} {n : Fin 12} (opened : d.state = .opened) (mode : d.fence = .freezeDomain)
    (member : d.members.getLsbD n = true) (alarm : s.inAlarm n = true)
    (lowest : ∀ m : Fin 12, m < n → d.members.getLsbD m = true → s.inAlarm m = false) :
    s.fence d = { d with state := .frozen, cause := some (.rack n) } := by
  obtain ⟨rest, alarmed⟩ : ∃ rest, s.alarmedOf d.members = n :: rest := by
    refine filter_all12_lowest (by rw [member, alarm]; rfl) fun m below => ?_
    cases h : d.members.getLsbD m with
    | false => rfl
    | true => rw [lowest m below h]; rfl
  unfold State.fence
  rw [if_pos ⟨opened, mode⟩, alarmed]

theorem fence_free {s : State} {d : Domain}
    (h : d.fence ≠ .freezeDomain ∨ ∀ n : Fin 12, d.members.getLsbD n = true → s.inAlarm n = false) : s.fence d = d := by
  unfold State.fence
  split
  · rename_i fenced
    have calm : s.alarmedOf d.members = [] := by
      by_contra alarmed
      obtain ⟨n, member, alarm⟩ := (alarmedOf_ne_nil_iff s d.members).1 alarmed
      rcases h with other | none
      · exact other fenced.2
      · rw [none n member] at alarm
        cases alarm
    rw [calm]
  · rfl

theorem fence_unopened {s : State} {d : Domain} (h : d.state ≠ .opened) : s.fence d = d := if_neg fun k => h k.1

/-- The fence touches the state and the cause alone (R123, R124). -/
theorem fence_only (s : State) (d : Domain) : s.fence d = { d with state := (s.fence d).state, cause := (s.fence d).cause } := by
  unfold State.fence
  split
  · split <;> rfl
  · rfl

theorem fence_state {s : State} {d : Domain} (live : d.state ≠ .retiring) :
    byte1 (s.fence d).state.value = [if (s.fence d).state = .frozen then 1 else 0] := by
  have states : (s.fence d).state = .opened ∨ (s.fence d).state = .frozen := by
    unfold State.fence
    split
    · rename_i fenced
      split
      · exact .inr rfl
      · exact .inl fenced.1
    · cases state : d.state
      · exact .inl rfl
      · exact .inr rfl
      · exact absurd state live
  rcases states with state | state <;> rw [state] <;> rfl

theorem fenceOf_value {n : Nat} (h : n ≤ 2) : ∃ m, fenceOf n = some m ∧ m.value = n := by
  obtain rfl | rfl | rfl : n = 0 ∨ n = 1 ∨ n = 2 := by omega
  · exact ⟨.off, rfl, rfl⟩
  · exact ⟨.refuseRack, rfl, rfl⟩
  · exact ⟨.freezeDomain, rfl, rfl⟩

theorem fenceOf_isSome_iff (n : Nat) : (fenceOf n).isSome = true ↔ n ≤ 2 := by
  refine ⟨fun h => ?_, fun h => ?_⟩
  · by_contra above
    unfold fenceOf at h
    rw [if_neg (by omega), if_neg (by omega), if_neg (by omega)] at h
    cases h
  · obtain ⟨m, known, _⟩ := fenceOf_value h
    rw [known]
    rfl

/-! ### DOMAIN_OPEN (R123) -/

theorem domainOpenOk_iff (body : List Byte) : domainOpenOk body = true ↔
    ¬(field body 0 1 = 0 ∨ field body 1 4 < 100 ∨ 100000000 < field body 1 4 ∨ 2 < field body 5 1 ∨ 4096 ≤ field body 6 2) := by
  unfold domainOpenOk within
  simp only [Bool.and_eq_true, bne_iff_ne, decide_eq_true_eq, fenceOf_isSome_iff]
  omega

theorem domain_isSome_iff (s : State) (id : Byte) : (s.domain id).isSome = true ↔ ∃ d ∈ s.domains, d.id = id := by
  unfold State.domain
  rw [List.find?_isSome]
  simp

theorem exec_domainOpen_taken {s : State} (frames : s.TakesFrames) (dt : Nat) {body : List Byte} (len : body.length = 8) :
    exec (.domainOpen dt body) s = .next (State.form 0x30 (domainOpenBlock body (s.accepting dt 8))) :=
  next_request_taken frames (by decide) dt len (by decide) _

/-- Settles O48. -/
theorem domainOpenCreatesTheDomain : Obligations.DomainOpenCreatesTheDomain := by
  intro dt body id s frames len hid
  rw [exec_domainOpen_taken frames dt len]
  unfold domainOpenBlock
  rw [← hid, accepting_domain, accepting_domains]
  refine ⟨fun out => ?_, fun ok => ⟨fun held => ?_, fun free full => ?_, fun free room => ?_⟩⟩
  · rw [if_neg fun ok => (domainOpenOk_iff body).1 ok out]
    rfl
  · rw [if_pos ((domainOpenOk_iff body).2 ok), if_pos ((domain_isSome_iff s id).2 held)]
    rfl
  · rw [if_pos ((domainOpenOk_iff body).2 ok), if_neg (mt (domain_isSome_iff s id).1 free), if_pos full]
    rfl
  · rw [if_pos ((domainOpenOk_iff body).2 ok), if_neg (mt (domain_isSome_iff s id).1 free), if_neg (by omega), accepting_fence,
      fence_state (d := newDomain body) DomState.noConfusion]
    have only := fence_only s (newDomain body)
    obtain ⟨mode, known, value⟩ := fenceOf_value (n := field body 5 1) (by omega)
    refine ⟨s.fence (newDomain body), rfl, ?_, ?_, ?_, ?_, ?_, ?_, ?_, ?_, ?_, ?_, fun n fenced member alarm lowest => ?_,
      fun free => ?_⟩
    · rw [only]
      exact hid.symm
    · rw [only]
      rfl
    · rw [only]
      show ((fenceOf (field body 5 1)).getD .off).value = _
      rw [known]
      exact value
    · rw [only]
      rfl
    · rw [only]
      rfl
    · rw [only]
      rfl
    · rw [only]
      rfl
    · rw [only]
      rfl
    · rw [only]
      rfl
    · rw [only]
      rfl
    · rw [only] at fenced member lowest
      rw [fence_frozen (d := newDomain body) rfl fenced member alarm lowest]
      exact ⟨rfl, rfl⟩
    · rw [only] at free
      rw [fence_free (d := newDomain body) free]
      exact ⟨rfl, rfl⟩

/-! ### DOMAIN_AMEND (R124) -/

theorem domainAmendBlock_named {s : State} {body : List Byte} {d : Domain} (h : s.namedDomain body = .ok d) :
    domainAmendBlock body s = if domainAmendOk body then
      if d.state = .retiring then refuse .wrongState s
      else (s.modDomain d.id (fun d => s.fence (d.amend body)), .ok, byte1 (s.fence (d.amend body)).state.value)
    else refuse .badField s := by
  unfold domainAmendBlock
  rw [h]

theorem amend_fence_value {body : List Byte} (ok : domainAmendOk body = true) (d : Domain) :
    (d.amend body).fence.value = if (field body 1 1).testBit 1 then field body 6 1 else d.fence.value := by
  unfold domainAmendOk carriedOk at ok
  simp only [Bool.and_eq_true, Bool.or_eq_true, Bool.not_eq_true', fenceOf_isSome_iff] at ok
  unfold Domain.amend carried
  dsimp only
  split
  · rename_i isCarried
    have known := ok.1.2.resolve_left (by rw [isCarried]; decide)
    obtain ⟨mode, named, value⟩ := fenceOf_value known
    rw [named]
    exact value
  · rfl

/-- Settles O49. -/
theorem domainAmendWritesAndFences : Obligations.DomainAmendWritesAndFences := by
  intro dt body d s frames len nonzero found
  have named : (s.accepting dt 9).namedDomain body = .ok d := by
    rw [accepting_namedDomain]
    unfold State.namedDomain
    rw [if_neg nonzero, found]
  have id := domain_id found
  rw [exec_domainAmend_taken frames dt len, domainAmendBlock_named named]
  refine ⟨fun bad => ?_, fun ok retiring => ?_, fun ok live => ?_⟩
  · rw [bad]
    rfl
  · rw [if_pos ok, if_pos retiring]
    rfl
  · have fences : (fun d : Domain => (s.accepting dt 9).fence (d.amend body)) = fun d => s.fence (d.amend body) :=
      funext fun d => accepting_fence ..
    have states : (d.amend body).state = d.state ∧ (d.amend body).cause = d.cause := ⟨rfl, rfl⟩
    rw [if_pos ok, if_neg live, fences, accepting_fence, fence_state (d := d.amend body) live]
    have only := fence_only s (d.amend body)
    refine ⟨(s.accepting dt 9).modDomain d.id (fun d => s.fence (d.amend body)), s.fence (d.amend body), rfl, ?_, fun other ne => ?_,
      rfl, ?_, ?_, fun frozen => ?_, fun n opened fenced member alarm lowest => ?_, fun opened free => ?_⟩
    · rw [modDomain_find, if_pos rfl, accepting_domain, id, found]
      refine congrArg some (show { s.fence (d.amend body) with id := d.id } = s.fence (d.amend body) from ?_)
      have sameId : (s.fence (d.amend body)).id = d.id := by
        rw [only]
        rfl
      rw [← sameId]
    · rw [modDomain_find, if_neg ne, accepting_domain]
    · rw [only]
      rfl
    · rw [only]
      exact amend_fence_value ok d
    · rw [fence_unopened (d := d.amend body) (by rw [states.1, frozen]; decide)]
      exact ⟨frozen, rfl⟩
    · rw [only] at fenced member lowest
      rw [fence_frozen (d := d.amend body) (states.1.trans opened) fenced member alarm lowest]
      exact ⟨rfl, rfl⟩
    · rw [only] at free
      rw [fence_free (d := d.amend body) free]
      exact ⟨opened, rfl⟩

/-! ### STAMP (R132, R134, R138 to R142) -/

theorem exec_stamp_taken {s : State} (frames : s.TakesFrames) (dt : Nat) (b n : Byte) :
    exec (.stamp dt [b, n]) s = .next (State.form 0x38 (stampBlock [b, n] (s.accepting dt 2))) :=
  next_request_taken (n := 2) frames (by decide) dt rfl (by decide) _

theorem stampBlock_eq (b n : Byte) (s : State) :
    stampBlock [b, n] s = (s.stampHost b n.toNat, .ok, (s.decideHost b n.toNat).stampBody) := by
  have id : BitVec.ofNat 8 (field [b, n] 0 1) = b := by
    rw [field_byte]
    exact BitVec.ofNat_toNat ..
  have count : field [b, n] 1 1 = n.toNat := field_byte ..
  unfold stampBlock
  rw [id, count]

/-- A refused STAMP counts as a refusal of the domain that it names (R118, R132, R136). -/
theorem stampBlock_refused {b n : Byte} {s : State} {id : Byte} {code : RefusalCode}
    (refused : s.decideHost b n.toNat = .refusal id code) (own : id = b) : State.form 0x38 (stampBlock [b, n] s) =
      (s.modDomain b (fun d => { d with refusals := min 4294967295 (d.refusals + 1) })).answering 0x38 .ok
        [BitVec.ofNat 8 code.value, b] := by
  rw [stampBlock_eq]
  unfold State.stampHost
  rw [refused, own]
  cases code <;> rfl

/-- The checks that every request meets, by the first that fails (R134). -/
theorem decideHost_unchecked {s : State} {b : Byte} {count : Nat} {code : RefusalCode} (h : s.commonChecks b count = .error code) :
    s.decideHost b count = .refusal b code := by
  unfold State.decideHost
  rw [h]

theorem commonChecks_count {s : State} {b : Byte} {count : Nat} (h : count = 0 ∨ 16 < count) :
    s.commonChecks b count = .error .badCount := by
  unfold State.commonChecks
  rw [if_pos (by omega)]

theorem commonChecks_missing {s : State} {b : Byte} {count : Nat} (one : 1 ≤ count) (top : count ≤ 16)
    (h : b = 0 ∨ ∀ d ∈ s.domains, d.id ≠ b) : s.commonChecks b count = .error .noDomain := by
  unfold State.commonChecks
  rw [if_neg (by omega)]
  by_cases zero : b = 0
  · rw [if_pos zero]
  · have missing : s.domain b = none := by
      rw [← Option.not_isSome_iff_eq_none, domain_isSome_iff]
      rintro ⟨d, hd, same⟩
      exact h.resolve_left zero d hd same
    rw [if_neg zero, missing]

theorem commonChecks_found {s : State} {b : Byte} {count : Nat} {d : Domain} (one : 1 ≤ count) (top : count ≤ 16) (nonzero : b ≠ 0)
    (found : s.domain b = some d) : (d.state = .retiring → s.commonChecks b count = .error .domainClosed) ∧
      (d.state = .frozen → s.commonChecks b count = .error .domainFrozen) ∧ (d.state = .opened → s.commonChecks b count = .ok d) := by
  unfold State.commonChecks
  rw [if_neg (by omega), if_neg nonzero, found]
  dsimp only
  exact ⟨fun h => by rw [h], fun h => by rw [h], fun h => by rw [h]⟩

/-- The base stamp is row time, or the last issued stamp plus 1 ns where that is later (R138). -/
theorem baseStamp_eq {last : Option RowTime} {t : RowTime} {base : Nat} (first : last = none → base = t.toNs)
    (later : ∀ l, last = some l → base = max t.toNs (l.toNs + 1)) : baseStamp last t = base := by
  unfold baseStamp
  cases last with
  | none => exact (first rfl).symm
  | some l =>
    rw [later l rfl]
    dsimp only
    split <;> omega

theorem bytesOf_self (n : Byte) : bytesOf 1 n.toNat = [n] := by
  unfold bytesOf bytesOf
  simp

theorem ofNs_bytes {base : Nat} (small : base < 281474976710656 * 1000000000) :
    timeBytes (RowTime.ofNs base) = bytesOf 6 (base / 1000000000) ++ bytesOf 4 (base % 1000000000) := by
  unfold timeBytes RowTime.ofNs second secMod
  dsimp only
  rw [Nat.mod_eq_of_lt (show base / 1000000000 < 281474976710656 by omega)]

/-- Settles O52. -/
theorem hostStampIsDecidedInOrder : Obligations.HostStampIsDecidedInOrder := by
  intro dt b n s frames
  rw [exec_stamp_taken frames]
  refine ⟨fun code check => ?_, fun d now base gap one top nonzero found opened hnow first later hgap => ?_⟩
  · have refused : ∃ c : RefusalCode, BitVec.ofNat 8 c.value = code ∧ (s.accepting dt 2).commonChecks b n.toNat = .error c := by
      rcases check with ⟨hc, count⟩ | ⟨hc, one, top, missing⟩ | ⟨d, hc, one, top, nonzero, found, state⟩ |
        ⟨d, hc, one, top, nonzero, found, state⟩
      · exact ⟨.badCount, hc.symm, commonChecks_count (by omega)⟩
      · exact ⟨.noDomain, hc.symm, commonChecks_missing one top (by rwa [accepting_domains])⟩
      · exact ⟨.domainClosed, hc.symm, (commonChecks_found one top nonzero ((accepting_domain ..).trans found)).1 state⟩
      · exact ⟨.domainFrozen, hc.symm, (commonChecks_found one top nonzero ((accepting_domain ..).trans found)).2.1 state⟩
    obtain ⟨c, value, checked⟩ := refused
    rw [stampBlock_refused (decideHost_unchecked checked) rfl, value]
  · have id := domain_id found
    have checked : (s.accepting dt 2).commonChecks b n.toNat = .ok d :=
      (commonChecks_found one top nonzero ((accepting_domain ..).trans found)).2.2 opened
    have decided : (s.accepting dt 2).decideHost b n.toNat =
        d.valueGrant (s.advance dt).clk.u ⟨(s.advance dt).clk.row, (s.advance dt).clk.epoch⟩ n.toNat := by
      unfold State.decideHost
      rw [checked, accepting_clk]
    rw [hnow] at first later
    have based := baseStamp_eq first later
    have gapped : uncertaintyOf (s.advance dt).clk.u d.lastIssued (s.advance dt).clk.row = gap := by
      unfold uncertaintyOf uCap
      rw [based, hgap, hnow]
    unfold Domain.valueGrant at decided
    dsimp only at decided
    rw [based, gapped, ← hnow] at decided
    unfold maxRowNs secMod second at decided
    refine ⟨fun uncertain => ?_, fun within room => ?_⟩
    · rw [if_neg (by omega)] at decided
      rw [stampBlock_refused decided id]
      rfl
    · rw [if_pos ⟨within, by omega⟩] at decided
      have whole : (RowTime.ofNs base).toNs = base := by
        rw [toNs_ofNs]
        exact Nat.mod_eq_of_lt (by omega)
      rw [stampBlock_eq]
      unfold State.stampHost
      rw [decided]
      unfold Domain.book Answer.stampBody
      dsimp only
      rw [whole, id, ofNs_bytes (by omega), advance_clk_epoch]
      have counted : byte1 n.toNat = [n] := bytesOf_self n
      have clamped : bool1 (decide (now < base)) = [if now < base then 1 else 0] := by
        by_cases h : now < base
        · rw [decide_eq_true h, if_pos h]
          rfl
        · rw [decide_eq_false h, if_neg h]
          rfl
      rw [counted, clamped]
      simp only [List.append_assoc]
      rfl

end Sys2Proof.Machine

/-! SUPPORT. The requests on racks (R83, R151, R154, R163, R165 to R169). -/

namespace Sys2Proof.Machine

open Sys2Proof

theorem lineOf_none {n : Nat} : lineOf n = none ↔ 11 < n := by
  unfold lineOf
  by_cases h : n < 12
  · rw [dif_pos h]
    exact ⟨nofun, fun above => by omega⟩
  · rw [dif_neg h]
    exact ⟨fun _ => by omega, fun _ => rfl⟩

theorem rackChanged_eq (i : Fin 12) (f : Rack → Rack) (s : State) :
    (s.modRack i f).rackChanged i = (s.modRack i (fun r => { f r with changed := true })).raise .rack := by
  unfold State.rackChanged
  rw [modRack_modRack]

/-! ### RACK_CONFIG (R154, R163, R165, R166) -/

theorem exec_rackConfig_taken {s : State} (frames : s.TakesFrames) (dt : Nat) {body : List Byte} (len : body.length = 26) :
    exec (.rackConfig dt body) s = .next (State.form 0x40 (rackConfigBlock body (s.accepting dt 26))) :=
  next_request_taken frames (by decide) dt len (by decide) _

theorem rackConfigBlock_of {body : List Byte} {i : Fin 12} (h : field body 0 1 = i.val) (s : State) : rackConfigBlock body s =
    if rackConfigRanges body && ((s.rack i).configure body).ordered then
      (s.rackConfigured i body, .ok, ((s.rackConfigured i body).rack i).rackConfigBody)
    else refuse .badField s := by
  unfold rackConfigBlock
  rw [lineOf_some.2 h]

theorem rackConfigBlock_range {body : List Byte} (h : 11 < field body 0 1) (s : State) : rackConfigBlock body s = refuse .badField s := by
  unfold rackConfigBlock
  rw [lineOf_none.2 h]

theorem ordered_iff (r : Rack) : r.ordered = true ↔ r.driftClear < r.driftWarn ∧ r.driftWarn < r.driftAlarm ∧ r.lostWarn ≤ r.lostAlarm := by
  unfold Rack.ordered
  rw [Bool.and_eq_true, Bool.and_eq_true, decide_eq_true_eq, decide_eq_true_eq, decide_eq_true_eq, and_assoc]

theorem rackConfigBody_eq (r : Rack) : r.rackConfigBody = bytesOf 1 (if r.watch = .off then 0 else 1) ++ r.configBody
    ++ bytesOf 1 r.watch.value := by
  unfold Rack.rackConfigBody
  cases r.watch <;> rfl

/-- The rack after the enable field of RACK_CONFIG (R154, R163, R166). -/
theorem rackConfigured_eq (i : Fin 12) (body : List Byte) (s : State) {q : Rack} (hq : q = ((s.rack i).configure body).restart) :
    ((field body 1 2).testBit 0 = true → flag body 3 0 = true → (s.rack i).watch = .off →
      s.rackConfigured i body = (s.setRack i { q with watch := .quiet, changed := true }).raise .rack) ∧
    ((field body 1 2).testBit 0 = true → flag body 3 0 = false → (s.rack i).watch ≠ .off → s.rackConfigured i body =
      (s.setRack i { q with watch := .off, cause := none, sweepDue := false, changed := true }).raise .rack) ∧
    ((field body 1 2).testBit 0 = false ∨ (flag body 3 0 = true ↔ (s.rack i).watch ≠ .off) →
      s.rackConfigured i body = s.setRack i q) := by
  have watch : ((s.modRack i (fun r => (r.configure body).restart)).rack i).watch = (s.rack i).watch := by
    rw [modRack_rack_same]
    rfl
  subst hq
  unfold State.rackConfigured State.rackEnable
  rw [watch]
  refine ⟨fun isCarried on off => ?_, fun isCarried on off => ?_, fun still => ?_⟩
  · rw [if_pos isCarried, if_pos on, if_pos off, rackChanged_eq, modRack_modRack]
    rfl
  · rw [if_pos isCarried, if_neg (by rw [on]; decide), if_neg off, rackChanged_eq, modRack_modRack]
    rfl
  · by_cases isCarried : (field body 1 2).testBit 0 = true
    · have same := still.resolve_left (by rw [isCarried]; decide)
      by_cases on : flag body 3 0 = true
      · rw [if_pos isCarried, if_pos on, if_neg (same.1 on)]
        rfl
      · rw [if_pos isCarried, if_neg on, if_pos (not_not.1 (mt same.2 on))]
        rfl
    · rw [if_neg isCarried]
      rfl

/-- Settles O53. -/
theorem rackConfigWritesTheCarriedFields : Obligations.RackConfigWritesTheCarriedFields := by
  intro dt body s frames len
  rw [exec_rackConfig_taken frames dt len]
  refine ⟨fun range => by rw [rackConfigBlock_range range]; rfl, fun i r q answer hi hr hanswer hq => ?_⟩
  have rack : (s.accepting dt 26).rack i = r := hr.symm
  have configured : q = (((s.accepting dt 26).rack i).configure body).restart := hq.trans (by rw [rack]; rfl)
  have order : (((s.accepting dt 26).rack i).configure body).ordered = q.ordered := by
    rw [configured]
    rfl
  have answers : ∀ r : Rack, r.rackConfigBody = answer r := fun r => by
    rw [rackConfigBody_eq, hanswer]
    unfold Rack.configBody
    simp only [List.append_assoc]
    cases r.watch <;> rfl
  obtain ⟨turnOn, turnOff, still⟩ := rackConfigured_eq i body _ configured
  rw [rack] at turnOn turnOff still
  rw [rackConfigBlock_of hi, order]
  clear hq configured order
  refine ⟨fun bad => ?_, fun ranges clear warn lost => ?_⟩
  · rw [if_neg]
    · rfl
    · rw [Bool.and_eq_true, ordered_iff]
      rintro ⟨ranges, ordered⟩
      have fits := bad.resolve_left (by rw [ranges]; decide)
      omega
  · rw [if_pos (by rw [ranges, (ordered_iff q).2 ⟨clear, warn, lost⟩]; rfl), answers]
    refine ⟨fun isCarried on off => ?_, fun isCarried on off => ?_, fun same => ?_⟩
    · rw [turnOn isCarried on off, raise_rack, setRack_rack_same, hanswer]
      rfl
    · rw [turnOff isCarried on off, raise_rack, setRack_rack_same, hanswer]
      rfl
    · rw [still same, setRack_rack_same]
      rfl

/-! ### RACK_LOOKUP, RACK_CLEAR and RACK_REBASE (R83, R163, R167 to R169) -/

/-- A rule that keeps every record's state and withdrawal touches nothing but the records (R69, R152). -/
theorem foldl_updateRecord_only {f : Endpoint → Endpoint} (state : ∀ r, (f r).state = r.state)
    (withdrawal : ∀ r, (f r).withdrawal = r.withdrawal) (ns : List Nat) (s : State) :
    ns.foldl (fun s n => s.updateRecord n f) s = { s with records := (ns.foldl (fun s n => s.updateRecord n f) s).records } := by
  induction ns generalizing s with
  | nil => rfl
  | cons n ns ih =>
    rw [List.foldl_cons]
    refine (ih _).trans ?_
    cases found : s.bySlot n with
    | none =>
      have same : s.updateRecord n f = s := by
        unfold State.updateRecord
        rw [found]
      rw [same]
    | some r => rw [updateRecord_only found (state r) (withdrawal r)]

theorem eptRebase_eq (i : Fin 12) {s : State} (k : s.SlotsRise) : s.eptRebase i =
    { s with records := s.records.map (fun r =>
        if r.line = i ∧ r.state = .tracking then { r with baseline := some r.freq } else r) } := by
  have records : (s.eptRebase i).records = s.records.map (fun r =>
      if r.line = i ∧ r.state = .tracking then { r with baseline := some r.freq } else r) := by
    refine (updateAll_records _ _ k).trans (List.map_congr_left fun r _ => ?_)
    exact if_congr (by rw [Bool.and_eq_true, beq_iff_eq, beq_iff_eq]) rfl rfl
  have only : s.eptRebase i = { s with records := (s.eptRebase i).records } :=
    foldl_updateRecord_only (f := fun r => { r with baseline := some r.freq }) (fun _ => rfl) (fun _ => rfl) _ s
  rw [only, records]

theorem rackBody_eq (i : Fin 12) (r : Rack) : r.body i = bytesOf 1 i.val ++ bytesOf 1 r.watch.value ++ bytesOf 1 (alarmValue r.cause)
    ++ r.configBody ++ bytesOf 1 r.countdown ++ bytesOf 1 r.dwell ++ bytesOf 1 r.repeats ++ signedBytes 2 r.walk
    ++ [Config.excursionCode r.latch] ++ signedBytes 4 r.sweptD ++ bytesOf 1 r.sweptTracking ++ bytesOf 1 r.sweptLost
    ++ [Config.excursionCode r.sweptExcursion] ++ r.members.body ++ bytesOf 1 r.changed.toNat := rfl

section
variable {s : State} (frames : s.TakesFrames) (dt : Nat) (b : Byte)
include frames

theorem exec_rackLookup_taken :
    exec (.rackLookup dt [b]) s = .next (State.form 0x41 (rackLookupBlock [b] (s.accepting dt 1))) :=
  next_request_taken (n := 1) frames (by decide) dt rfl (by decide) _

theorem exec_rackClear_taken :
    exec (.rackClear dt [b]) s = .next (State.form 0x42 (rackClearBlock [b] (s.accepting dt 1))) :=
  next_request_taken (n := 1) frames (by decide) dt rfl (by decide) _

theorem exec_rackRebase_taken :
    exec (.rackRebase dt [b]) s = .next (State.form 0x43 (rackRebaseBlock [b] (s.accepting dt 1))) :=
  next_request_taken (n := 1) frames (by decide) dt rfl (by decide) _

end

/-- Settles O54. -/
theorem rackRequestsFollowTheWatch : Obligations.RackRequestsFollowTheWatch := by
  intro dt b answer s frames hanswer
  rw [exec_rackLookup_taken frames, exec_rackClear_taken frames, exec_rackRebase_taken frames]
  unfold rackLookupBlock rackClearBlock rackRebaseBlock
  have named : field [b] 0 1 = b.toNat := field_byte ..
  rw [named]
  refine ⟨fun range => ?_, fun i hi => ?_⟩
  · rw [lineOf_none.2 range]
    exact ⟨rfl, rfl, rfl⟩
  · rw [lineOf_some.2 hi]
    refine ⟨?_, fun alarm => ?_, fun calm => ?_, fun rise => ?_⟩
    · have answers : ∀ r : Rack, r.body i = answer i r := fun r => by
        rw [rackBody_eq, hanswer]
        unfold Rack.configBody MemberCounts.body
        simp only [List.append_assoc]
        rfl
      dsimp only
      rw [answers]
      rfl
    · have inAlarm : (s.accepting dt 1).inAlarm i = true := by
        rw [accepting_inAlarm]
        exact beq_iff_eq.2 alarm
      dsimp only
      rw [if_pos inAlarm, rackChanged_eq]
      rfl
    · have free : ¬(s.accepting dt 1).inAlarm i = true := by
        rw [accepting_inAlarm]
        exact fun alarm => calm (beq_iff_eq.1 alarm)
      dsimp only
      rw [if_neg free]
      rfl
    · dsimp only
      rw [eptRebase_eq i (accepting_slotsRise dt 1 rise), accepting_records]
      unfold State.trackingOn
      rw [accepting_records]
      rfl

end Sys2Proof.Machine

/-! SUPPORT. RESTART, and the request port's transactions (R41, R171 to R176, R183, R184). -/

namespace Sys2Proof.Machine

open Sys2Proof

/-! ### RESTART (R41, R183) -/

theorem exec_restart_taken {s : State} (frames : s.TakesFrames) (dt : Nat) :
    exec (.restart dt []) s = .next (State.form 0x4B (restartBlock (s.accepting dt 0))) :=
  next_request_taken (n := 0) frames (by decide) dt rfl (by decide) _

theorem emptyTables_rack (s : State) (i : Fin 12) : s.emptyTables.rack i = Rack.reset := by
  unfold State.rack State.emptyTables
  simp

/-- A line's state after RESTART, in the words of Safety.lean, by the state before (R41). -/
theorem afterRestart_spec (now : Nat) (l : Line) :
    (l.afterRestart now).counters = l.counters ∧ (l.afterRestart now).enable = l.enable ∧ ∃ m : Line,
      m = l.restarted m.tail ∧ l.CutOff now m.tail ∧
      (l.state = .off ∨ l.state = .quiesced ∨ l.state = .fault → l.afterRestart now = m) ∧
      (l.state = .idle ∨ l.state = .discovering ∨ (l.state = .polling ∨ l.state = .closing) ∧ l.quiesceReq = false →
        Line.EmptyCycle now m (l.afterRestart now)) ∧
      (l.state = .polling ∨ l.state = .closing → l.quiesceReq = true → l.afterRestart now = { m with
        pollList := [], pollPos := 0, phase := .stopped, periodEnd := none, periodElapsed := false, overrun := false
        state := .quiesced, quiesceReq := false }) := by
  have empty : Line.EmptyCycle now (l.restarted (l.cutTail now)) ((l.restarted (l.cutTail now)).emptyCycle now) :=
    emptyCycle_empty now ⟨rfl, rfl, rfl⟩ rfl
  have kept : ((l.restarted (l.cutTail now)).emptyCycle now).counters = l.counters ∧
      ((l.restarted (l.cutTail now)).emptyCycle now).enable = l.enable := by
    rw [empty.line]
    exact ⟨rfl, rfl⟩
  unfold Line.afterRestart
  cases state : l.state with
  | off | quiesced | fault =>
    exact ⟨rfl, rfl, l.restarted (l.cutTail now), rfl, cutTail_cutOff now l, fun _ => rfl, by simp, by simp⟩
  | idle | discovering =>
    exact ⟨kept.1, kept.2, l.restarted (l.cutTail now), rfl, cutTail_cutOff now l, by simp, fun _ => empty, by simp⟩
  | polling | closing =>
    cases quiesce : l.quiesceReq with
    | false =>
      exact ⟨kept.1, kept.2, l.restarted (l.cutTail now), rfl, cutTail_cutOff now l, by simp, fun _ => empty, fun _ => nofun⟩
    | true =>
      exact ⟨rfl, rfl, l.restarted (l.cutTail now), rfl, cutTail_cutOff now l, by simp, by simp, fun _ _ => rfl⟩

theorem attention_masked (p : Port) : ({ p with causes := 0, mask := 0 } : Port).attention = false := by
  show ((0 &&& 0 : BitVec 8) != 0) = false
  decide

/-- Settles O40. -/
theorem restartEmptiesTheTables : Obligations.RestartEmptiesTheTables := by
  intro dt s frames
  have tables : (s.accepting dt 0).emptyTables.TablesEmpty (s.localNs + dt) :=
    ⟨advance_localNs s dt, rfl, fun i => by rw [emptyTables_rack]; rfl⟩
  obtain ⟨frame, lines⟩ := forAll12_lineRestart tables
  rw [exec_restart_taken frames]
  unfold restartBlock
  generalize (s.accepting dt 0).emptyTables.forAll12 State.lineRestart = u at frame lines
  have port : (s.accepting dt 0).port.badFrames = s.port.badFrames ∧ (s.accepting dt 0).port.overlaps = s.port.overlaps := by
    have same : (s.advance dt).port = s.port := advance_port ..
    exact ⟨(congrArg Port.badFrames same :), (congrArg Port.overlaps same :)⟩
  have racks : ∀ i, u.rack i = Rack.reset := fun i => by
    rw [frame]
    exact emptyTables_rack (s.accepting dt 0) i
  have kept : u.clk = (s.accepting dt 0).clk ∧ u.chanA = (s.accepting dt 0).chanA ∧ u.chanB = (s.accepting dt 0).chanB ∧
      u.port = (s.accepting dt 0).port := by
    rw [frame]
    exact ⟨rfl, rfl, rfl, rfl⟩
  obtain ⟨clk, chanA, chanB, sharesPort⟩ := kept
  refine ⟨u.modPort (fun p => { p with causes := 0, mask := 0 }), rfl, ?_, racks, attention_masked _,
    (congrArg Port.badFrames sharesPort).trans port.1, (congrArg Port.overlaps sharesPort).trans port.2,
    clk.trans (accepting_clk ..), chanA.trans (accepting_chanA ..), chanB.trans (accepting_chanB ..), fun i => ?_⟩
  · rw [frame]
    rfl
  · have line : (u.modPort (fun p => { p with causes := 0, mask := 0 })).line i = (s.line i).afterRestart (s.localNs + dt) :=
      (lines i).trans (congrArg (Line.afterRestart _) (accepting_line dt 0 s i))
    rw [line]
    exact afterRestart_spec ..

/-! ### Every request at the port (R171 to R174, R176, R184) -/

/-- No request's code is the read code, and no request takes a body of more than 60 bytes (10.5, R190). -/
theorem asRequest_ranges {c : Instr} {code : Byte} {lengths : List Nat} {dt : Nat} {body : List Byte}
    (h : Instr.asRequest c = some (code, lengths, dt, body)) : code ≠ readCode ∧ ∀ n ∈ lengths, n ≤ 60 := by
  cases c <;> cases h <;> exact ⟨by decide, by decide⟩

/-- Settles O35. -/
theorem requestsAreTakenByThePortState : Obligations.RequestsAreTakenByThePortState := by
  intro c code lengths dt body s request
  obtain ⟨block, known, runs⟩ := exec_asRequest request
  obtain ⟨notRead, short⟩ := asRequest_ranges request
  rw [runs]
  refine ⟨fun ignoring => ?_, fun heeded executing => ?_, fun frames long => ?_, fun frames top other => ?_,
    fun frames allowed => ?_⟩
  · rw [request_ignored ignoring]
  · rw [request_dropped heeded executing notRead]
    rfl
  · rw [request_long frames notRead _ _ _ _ long]
    rfl
  · rw [request_length frames notRead _ _ _ _ other top]
  · have orderly := requestOf_orderly _ _ known (s.accepting dt body.length)
    rw [request_taken frames notRead _ _ _ _ allowed (short _ allowed)]
    refine ⟨(block (s.accepting dt body.length)).1, _, _, rfl, ?_, ?_, ?_, ?_, ?_⟩
    · rw [orderly.port]
      rfl
    · rw [orderly.port]
      rfl
    · rw [orderly.port]
      rfl
    · exact orderly.instant.2.trans (accepting_pending ..)
    · exact orderly.instant.1.trans (advance_localNs s dt)

/-- A write transaction whose frame is not good leaves a bad frame in hold (R172, R174). -/
theorem takeWrite_bad {first : Byte} {bytes : List Byte} {cut : Bool} {s : State} (waiting : s.port.state ≠ .executing)
    (bad : frameGood bytes cut = false) : s.takeWrite first bytes cut = s.holdBadFrame first := by
  unfold State.takeWrite
  cases state : s.port.state with
  | executing => exact absurd state waiting
  | ready => exact if_neg (by rw [bad]; decide)
  | responseHeld => exact if_neg (by rw [bad]; decide)

theorem takeWrite_good {first : Byte} {bytes : List Byte} {cut : Bool} {s : State} (waiting : s.port.state ≠ .executing)
    (good : frameGood bytes cut = true) :
    s.takeWrite first bytes cut = s.acceptFrame first ((bytes.drop 2).take (bytes.length - 4)) := by
  unfold State.takeWrite
  cases state : s.port.state with
  | executing => exact absurd state waiting
  | ready => exact if_pos good
  | responseHeld => exact if_pos good

theorem frameGood_eq_false_iff (bytes : List Byte) (rest : List Bool) : frameGood bytes (!rest.isEmpty) = false ↔
    rest ≠ [] ∨ bytes.length < 4 ∨ 64 < bytes.length ∨ bytes.length ≠ field bytes 1 1 + 4 ∨
      (crc16 (bytes.take (bytes.length - 2))).toNat ≠ field bytes (bytes.length - 2) 2 := by
  unfold frameGood within
  rw [← Bool.not_eq_true]
  simp only [Bool.and_eq_true, Bool.not_not, List.isEmpty_iff, decide_eq_true_eq, beq_iff_eq]
  by_cases none : rest = []
  · simp only [none, true_and, ne_eq, not_true_eq_false, false_or]
    omega
  · simp only [none, false_and, not_false_eq_true, ne_eq, true_or]

/-! ### Request frames (R172, R190) -/

/-- The bytes of a request frame before its CRC-16. -/
def requestHead (code : Byte) (body : List Byte) : List Byte := code :: BitVec.ofNat 8 body.length :: body

theorem requestBytes_eq (code : Byte) (body : List Byte) :
    requestBytes code body = requestHead code body ++ bytesOf 2 (crc16 (requestHead code body)).toNat := rfl

theorem requestHead_length (code : Byte) (body : List Byte) : (requestHead code body).length = body.length + 2 := rfl

/-- The frame of a request is good exactly when it is not too long. -/
theorem frameGood_requestBytes (code : Byte) (body : List Byte) :
    frameGood (requestBytes code body) false = decide (body.length ≤ 60) := by
  have len := requestBytes_length code body
  have size : (requestBytes code body).length - 2 = (requestHead code body).length := by rw [len, requestHead_length]; omega
  have head : (requestBytes code body).take ((requestBytes code body).length - 2) = requestHead code body := by
    rw [size, requestBytes_eq, List.take_left]
  have crc : field (requestBytes code body) ((requestBytes code body).length - 2) 2 = (crc16 (requestHead code body)).toNat := by
    unfold field
    rw [size, requestBytes_eq, List.drop_left]
    exact (congrArg natOf (List.take_of_length_le (Nat.le_refl 2))).trans (natOf_bytesOf 2 _ (crc16 (requestHead code body)).isLt)
  have count : field (requestBytes code body) 1 1 = body.length % 256 := by
    rw [field_byte]
    exact BitVec.toNat_ofNat ..
  unfold frameGood within
  rw [head, crc, count, len]
  by_cases short : body.length ≤ 60
  · rw [decide_eq_true short]
    simp
    omega
  · rw [decide_eq_false short]
    simp
    omega

theorem requestBytes_body (code : Byte) (body : List Byte) :
    ((requestBytes code body).drop 2).take ((requestBytes code body).length - 4) = body := by
  rw [requestBytes_length, Nat.add_sub_cancel]
  exact List.take_left (l₁ := body) (l₂ := bytesOf 2 (crc16 (requestHead code body)).toNat)

/-- A write transaction of whole bytes whose first is no read code. -/
theorem write_heeded {s : State} (heeded : s.port.ignoring = false) {first : Byte} (notRead : first ≠ readCode) (dt : Nat)
    (tail : List Byte) {rest : List Bool} (part : rest.length < 8) :
    exec (.badFrame dt (first :: tail) rest) s =
      .next (((s.advance dt).drive [] (8 * (first :: tail).length + rest.length)).takeWrite first (first :: tail) (!rest.isEmpty)) :=
  congrArg Host.Outcome.next (transaction_write heeded notRead dt tail part)

theorem requestBytes_heeded {s : State} (heeded : s.port.ignoring = false) {code : Byte} (notRead : code ≠ readCode) (dt : Nat)
    (body : List Byte) : exec (.unknownRequest dt code body) s = .next (((s.advance dt).drive []
      (8 * (body.length + 4))).takeWrite code (requestBytes code body) false) := by
  have frame := transaction_write heeded notRead dt
    (BitVec.ofNat 8 body.length :: body ++ bytesOf 2 (crc16 (requestHead code body)).toNat) (rest := []) (by decide)
  rw [List.append_nil] at frame
  have len : (code :: (BitVec.ofNat 8 body.length :: body ++ bytesOf 2 (crc16 (requestHead code body)).toNat)).length =
    body.length + 4 := requestBytes_length code body
  rw [len] at frame
  exact congrArg Host.Outcome.next frame

theorem unknownRequest_badFrame (dt : Nat) (code : Byte) (body : List Byte) (s : State) :
    exec (.badFrame dt (requestBytes code body) []) s = exec (.unknownRequest dt code body) s :=
  congrArg (fun bits => Host.Outcome.next ((s.advance dt).transaction bits)) (List.append_nil _)

theorem drive_waiting {s : State} (waiting : s.port.state ≠ .executing) (dt : Nat) (out : List Byte) (n : Nat) :
    ((s.advance dt).drive out n).port.state ≠ .executing := by
  rw [drive_port_state, advance_port]
  exact waiting

/-- A code that no request carries names no request (10.5). -/
theorem requestOf_none {code : Byte} (body : List Byte) (h : ∀ c x, Instr.asRequest c = some x → x.1 ≠ code) :
    requestOf code.toNat body = none := by
  have ne : ∀ n : Nat, n < 256 → (∃ c x, Instr.asRequest c = some x ∧ x.1 = BitVec.ofNat 8 n) → code.toNat ≠ n := by
    rintro n small ⟨c, x, request, named⟩ same
    refine h c x request (named.trans (BitVec.eq_of_toNat_eq ?_))
    rw [same, BitVec.toNat_ofNat]
    exact Nat.mod_eq_of_lt small
  unfold requestOf
  split
  · exact absurd ‹_› (ne _ (by decide) ⟨.refConfig 0 [], _, rfl, rfl⟩)
  · exact absurd ‹_› (ne _ (by decide) ⟨.setTime 0 [], _, rfl, rfl⟩)
  · exact absurd ‹_› (ne _ (by decide) ⟨.readTime 0 [], _, rfl, rfl⟩)
  · exact absurd ‹_› (ne _ (by decide) ⟨.lineConfig 0 [], _, rfl, rfl⟩)
  · exact absurd ‹_› (ne _ (by decide) ⟨.lineQuiesce 0 [], _, rfl, rfl⟩)
  · exact absurd ‹_› (ne _ (by decide) ⟨.lineResume 0 [], _, rfl, rfl⟩)
  · exact absurd ‹_› (ne _ (by decide) ⟨.lineReset 0 [], _, rfl, rfl⟩)
  · exact absurd ‹_› (ne _ (by decide) ⟨.enroll 0 [], _, rfl, rfl⟩)
  · exact absurd ‹_› (ne _ (by decide) ⟨.lookup 0 [], _, rfl, rfl⟩)
  · exact absurd ‹_› (ne _ (by decide) ⟨.amend 0 [], _, rfl, rfl⟩)
  · exact absurd ‹_› (ne _ (by decide) ⟨.suspend 0 [], _, rfl, rfl⟩)
  · exact absurd ‹_› (ne _ (by decide) ⟨.resume 0 [], _, rfl, rfl⟩)
  · exact absurd ‹_› (ne _ (by decide) ⟨.retire 0 [], _, rfl, rfl⟩)
  · exact absurd ‹_› (ne _ (by decide) ⟨.scan 0 [], _, rfl, rfl⟩)
  · exact absurd ‹_› (ne _ (by decide) ⟨.newcomers 0 [], _, rfl, rfl⟩)
  · exact absurd ‹_› (ne _ (by decide) ⟨.dismiss 0 [], _, rfl, rfl⟩)
  · exact absurd ‹_› (ne _ (by decide) ⟨.domainOpen 0 [], _, rfl, rfl⟩)
  · exact absurd ‹_› (ne _ (by decide) ⟨.domainAmend 0 [], _, rfl, rfl⟩)
  · exact absurd ‹_› (ne _ (by decide) ⟨.domainFreeze 0 [], _, rfl, rfl⟩)
  · exact absurd ‹_› (ne _ (by decide) ⟨.domainThaw 0 [], _, rfl, rfl⟩)
  · exact absurd ‹_› (ne _ (by decide) ⟨.domainRetire 0 [], _, rfl, rfl⟩)
  · exact absurd ‹_› (ne _ (by decide) ⟨.domainLookup 0 [], _, rfl, rfl⟩)
  · exact absurd ‹_› (ne _ (by decide) ⟨.stamp 0 [], _, rfl, rfl⟩)
  · exact absurd ‹_› (ne _ (by decide) ⟨.rackConfig 0 [], _, rfl, rfl⟩)
  · exact absurd ‹_› (ne _ (by decide) ⟨.rackLookup 0 [], _, rfl, rfl⟩)
  · exact absurd ‹_› (ne _ (by decide) ⟨.rackClear 0 [], _, rfl, rfl⟩)
  · exact absurd ‹_› (ne _ (by decide) ⟨.rackRebase 0 [], _, rfl, rfl⟩)
  · exact absurd ‹_› (ne _ (by decide) ⟨.status 0 [], _, rfl, rfl⟩)
  · exact absurd ‹_› (ne _ (by decide) ⟨.ack 0 [], _, rfl, rfl⟩)
  · exact absurd ‹_› (ne _ (by decide) ⟨.mask 0 [], _, rfl, rfl⟩)
  · exact absurd ‹_› (ne _ (by decide) ⟨.restart 0 [], _, rfl, rfl⟩)
  · rfl

theorem exec_unknownRequest_known {c : Instr} {code : Byte} {lengths : List Nat} {dt : Nat} {body : List Byte}
    (request : Instr.asRequest c = some (code, lengths, dt, body)) (s : State) : exec (.unknownRequest dt code body) s = exec c s := by
  obtain ⟨block, known, runs⟩ := exec_asRequest request
  have notRead := (asRequest_ranges request).1
  rw [runs]
  cases ignoring : s.port.ignoring with
  | true =>
    rw [request_ignored ignoring]
    exact congrArg Host.Outcome.next (transfer_ignored ignoring dt _ _)
  | false =>
    rw [requestBytes_heeded ignoring notRead]
    by_cases executing : s.port.state = .executing
    · rw [request_dropped ignoring executing notRead]
      have state : ((s.advance dt).drive [] (8 * (body.length + 4))).port.state = .executing := by
        rw [drive_port_state, advance_port, executing]
      unfold State.takeWrite
      rw [state]
    · have waiting := drive_waiting executing dt [] (8 * (body.length + 4))
      rw [request_heeded ignoring notRead, takeRequest_waiting waiting]
      by_cases short : body.length ≤ 60
      · rw [takeWrite_good waiting (by rw [frameGood_requestBytes, decide_eq_true short]), requestBytes_body, if_neg (by omega)]
        unfold State.acceptFrame
        rw [known]
      · rw [takeWrite_bad waiting (by rw [frameGood_requestBytes, decide_eq_false short]), if_pos (by omega)]

theorem msbFirst_eq (b : Byte) : msbFirst b = [b.getLsbD 7, b.getLsbD 6, b.getLsbD 5, b.getLsbD 4, b.getLsbD 3, b.getLsbD 2,
    b.getLsbD 1, b.getLsbD 0] := by
  revert b
  decide +kernel

theorem wireBits_eq (bytes : List Byte) : wireBits bytes = bytes.flatMap (fun b => [b.getLsbD 7, b.getLsbD 6, b.getLsbD 5,
    b.getLsbD 4, b.getLsbD 3, b.getLsbD 2, b.getLsbD 1, b.getLsbD 0]) :=
  congrArg (fun f => bytes.flatMap f) (funext msbFirst_eq)

/-- A transaction that ends inside its first byte counts nowhere (R171). -/
theorem badFrame_empty {s : State} (heeded : s.port.ignoring = false) (dt : Nat) {rest : List Bool} (part : rest.length < 8) :
    exec (.badFrame dt [] rest) s = .next ((s.advance dt).drive [] rest.length) := by
  have taken := transfer_eq (s := s.advance dt) (by rw [advance_port]; exact heeded) [] part State.takeBytes
  rw [if_neg (by simp), List.length_nil, Nat.mul_zero, Nat.zero_add] at taken
  exact congrArg Host.Outcome.next taken

theorem link_bits (k : Nat) (b : Bool) (p : Port) : (p.selectFalls k).link.out = some ((Config.fillByte k).getLsbD 7) ∧
    (p.clockRises b).link.out = p.link.out ∧ (p.clockFalls k).link.out ≠ none ∧ p.selectRises.link.out = none ∧
    (p.link.bits.length < 7 → (p.clockRises b).link.bits = p.link.bits ++ [b]) ∧
    (p.clockFalls k).link.bits = p.link.bits ∧ (p.clockFalls k).link.bytes = p.link.bytes := by
  refine ⟨congrArg some ?_, ?_, nofun, rfl, fun part => ?_, rfl, rfl⟩
  · exact (List.cons.inj (msbFirst_eq (Config.fillByte k))).1
  · show (p.link.take p.readout b).out = p.link.out
    unfold Link.take
    split <;> rfl
  · show (p.link.take p.readout b).bits = p.link.bits ++ [b]
    exact congrArg Link.bits (if_neg (by omega))

/-- Settles O36. -/
theorem writeTransactionsAreJudged : Obligations.WriteTransactionsAreJudged := by
  refine ⟨fun dt first tail bytes rest s notRead hbytes part => ?_, fun dt bytes rest s => ?_,
    fun dt code body s frames notRead short unnamed => ?_, fun c code lengths dt body s request => ?_, fun k b p => link_bits k b p⟩
  · subst hbytes
    refine ⟨fun heeded executing => ?_, fun frames bad => ?_⟩
    · have state : ((s.advance dt).drive [] (8 * (first :: tail).length + rest.length)).port.state = .executing := by
        rw [drive_port_state, advance_port, executing]
      refine (write_heeded heeded notRead dt tail part).trans ?_
      unfold State.takeWrite
      rw [state]
      rfl
    · refine (write_heeded frames.heeded notRead dt tail part).trans ?_
      rw [takeWrite_bad (drive_waiting frames.waiting dt [] _) ((frameGood_eq_false_iff _ _).2 bad)]
      rfl
  · refine ⟨rfl, ?_, fun ignoring => ?_, fun heeded part => badFrame_empty heeded dt part⟩
    · rw [← wireBits_eq]
      rfl
    · exact congrArg Host.Outcome.next (transfer_ignored ignoring dt _ _)
  · rw [requestBytes_heeded frames.heeded notRead, takeWrite_good (drive_waiting frames.waiting dt [] _)
      (by rw [frameGood_requestBytes, decide_eq_true short]), requestBytes_body]
    unfold State.acceptFrame
    rw [requestOf_none body unnamed]
    rfl
  · rw [unknownRequest_badFrame]
    exact ⟨exec_unknownRequest_known request s, exec_unknownRequest_known request s⟩

/-! ### Responses (R171, R175, R176) -/

theorem holdResponse_formed {s : State} {r : Response} (executing : s.port.state = .executing) (forming : s.port.forming = some r) :
    s.holdResponse = s.modPort (fun p =>
      { p with state := .responseHeld, held := some { r with overlap := p.overlapMark }, forming := none, overlapMark := false }) := by
  unfold State.holdResponse
  rw [executing, forming]

theorem holdResponse_idle {s : State} (idle : s.port.state ≠ .executing) : s.holdResponse = s := by
  unfold State.holdResponse
  cases state : s.port.state with
  | executing => exact absurd state idle
  | ready => rfl
  | responseHeld => rfl

/-- Bit `m` of the bits of some bytes is bit `m % 8` of byte `m / 8`. -/
theorem wireBits_get (bytes : List Byte) (m : Nat) (h : m < 8 * bytes.length) (fill : Byte) :
    (wireBits bytes)[m]? = some ((bytes.getD (m / 8) fill).getMsbD (m % 8)) := by
  induction bytes generalizing m with
  | nil => exact absurd h (Nat.not_lt_zero m)
  | cons b bytes ih =>
    rw [List.length_cons] at h
    show (msbFirst b ++ wireBits bytes)[m]? = _
    by_cases first : m < 8
    · rw [List.getElem?_append_left (by rw [msbFirst_length]; exact first), Nat.div_eq_of_lt first, Nat.mod_eq_of_lt first]
      show ((List.range 8).map b.getMsbD)[m]? = _
      rw [List.getElem?_map, List.getElem?_range first]
      rfl
    · rw [List.getElem?_append_right (by rw [msbFirst_length]; omega), msbFirst_length, ih (m - 8) (by omega)]
      rw [show m / 8 = (m - 8) / 8 + 1 by omega, show m % 8 = (m - 8) % 8 by omega, List.getD_cons_succ]

/-- After one fill byte data out carries the bits of `out`, as far as they are clocked out (R171, R175). -/
theorem drive_reads (out : List Byte) (n : Nat) (s : State) :
    ((s.drive out (8 + n)).port.dataOut.drop 8).take (8 * out.length) = (wireBits out).take n := by
  refine List.ext_getElem? fun m => ?_
  rw [List.getElem?_take, List.getElem?_take, List.getElem?_drop]
  by_cases inside : m < 8 * out.length
  · rw [if_pos inside]
    by_cases clocked : m < n
    · rw [if_pos clocked, drive_dataOut_get out (by omega), wireBits_get out m inside (Config.fillByte (s.freeCount + m / 8 + 1)),
        show (8 + m) / 8 = m / 8 + 1 by omega, show (8 + m) % 8 = m % 8 by omega]
      rfl
    · rw [if_neg clocked]
      exact List.getElem?_eq_none (by rw [drive_dataOut_length]; omega)
  · rw [if_neg inside]
    by_cases clocked : m < n
    · rw [if_pos clocked]
      exact (List.getElem?_eq_none (by rw [wireBits_length]; omega)).symm
    · rw [if_neg clocked]

theorem endRead_kept {s : State} {n : Nat} (h : s.port.state ≠ .responseHeld ∨ ∃ r, s.port.held = some r ∧ n < r.bytes.length) :
    s.endRead n = s := by
  unfold State.endRead
  split
  · rename_i r state held
    obtain ⟨r', held', part⟩ := h.resolve_left (fun other => other state)
    cases held.symm.trans held'
    exact if_neg (by omega)
  · rfl

theorem endRead_read {s : State} {n : Nat} {r : Response} (state : s.port.state = .responseHeld) (held : s.port.held = some r)
    (whole : r.bytes.length ≤ n) : s.endRead n = s.modPort (fun p => { p with state := .ready, held := none }) := by
  unfold State.endRead
  rw [state, held]
  exact if_pos whole

/-- Settles O37. -/
theorem responsesAreHeldUntilRead : Obligations.ResponsesAreHeldUntilRead := by
  refine ⟨fun dt s => ⟨fun r executing forming => ?_, fun idle => ?_⟩, fun dt n s ignoring => ?_, fun dt n out s heeded what => ?_⟩
  · refine congrArg Host.Outcome.next ((holdResponse_formed (r := r) ?_ ?_).trans ?_)
    · rw [advance_port, executing]
    · rw [advance_port, forming]
    · unfold State.modPort
      rw [advance_port]
  · refine congrArg Host.Outcome.next (holdResponse_idle ?_)
    rw [advance_port]
    exact idle
  · exact congrArg Host.Outcome.next (transfer_ignored ignoring dt _ _)
  · have readout : s.port.readout = out := by
      unfold Port.readout
      obtain ⟨state, hout⟩ | ⟨state, hout⟩ | ⟨state, r, held, hout⟩ := what
      · rw [state, hout]
        rfl
      · rw [state, hout]
        rfl
      · rw [state, held, hout]
        rfl
    have held : s.port.state = .responseHeld → ∃ r, s.port.held = some r ∧ r.bytes = out := fun state => by
      obtain ⟨other, _⟩ | ⟨other, _⟩ | ⟨_, r, held, hout⟩ := what
      · cases state.symm.trans other
      · cases state.symm.trans other
      · exact ⟨r, held, hout.symm⟩
    have driven : (s.advance dt).drive out (8 + n) = { s.advance dt with
        port := { s.port with link := Link.idle, dataOut := ((s.advance dt).drive out (8 + n)).port.dataOut }
        freeCount := ((s.advance dt).drive out (8 + n)).freeCount } := by
      have port : ((s.advance dt).drive out (8 + n)).port =
          { s.port with link := Link.idle, dataOut := ((s.advance dt).drive out (8 + n)).port.dataOut } := by
        rw [← advance_port s dt]
        rfl
      rw [← port]
      rfl
    have state : ((s.advance dt).drive out (8 + n)).port.state = s.port.state := by rw [drive_port_state, advance_port]
    have holds : ((s.advance dt).drive out (8 + n)).port.held = s.port.held := by rw [drive_port_held, advance_port]
    have len := drive_dataOut_length out (8 + n) (s.advance dt)
    have reads := drive_reads out n (s.advance dt)
    rw [read_heeded heeded, readout]
    rw [wireBits_eq] at reads
    generalize (s.advance dt).drive out (8 + n) = u at driven state holds len reads
    by_cases whole : s.port.state = .responseHeld ∧ 8 * out.length ≤ n
    · obtain ⟨isHeld, whole⟩ := whole
      obtain ⟨r, hr, hout⟩ := held isHeld
      rw [endRead_read (r := r) (state.trans isHeld) (holds.trans hr) (by rw [hout]; omega)]
      refine ⟨_, rfl, len, reads, fun part => ?_, fun _ _ => ?_⟩
      · rcases part with other | part
        · exact absurd isHeld other
        · omega
      · rw [driven]
        rfl
    · rw [endRead_kept]
      · refine ⟨_, rfl, len, reads, fun _ => driven, fun isHeld long => absurd ⟨isHeld, long⟩ whole⟩
      · by_cases isHeld : s.port.state = .responseHeld
        · obtain ⟨r, hr, hout⟩ := held isHeld
          have part : ¬8 * out.length ≤ n := fun long => whole ⟨isHeld, long⟩
          exact .inr ⟨r, holds.trans hr, by rw [hout]; omega⟩
        · exact .inl (by rw [state]; exact isHeld)

end Sys2Proof.Machine

/-! SUPPORT. The end of a cycle's period, and the frames that a line sends (R26, R43, R47, R48, R54, R64, R186). -/

namespace Sys2Proof.Machine

open Sys2Proof

/-! ### PERIOD_ELAPSED (R43, R47, R48) -/

theorem exec_periodElapsed {i : Fin 12} {e : Nat} {s : State} (h : (s.line i).periodEnd = some e) :
    exec (.periodElapsed i) s = .next (((s.advanceTo e).modLine i Line.elapse).cycleIfDone i) := by
  show execPeriodElapsed i s = _
  unfold execPeriodElapsed
  rw [h]

theorem elapse_listed {l : Line} (list : l.phase = .list) : l.elapse = { l with
    periodEnd := none, periodElapsed := true, overrun := true
    counters := { l.counters with overruns := min 65535 (l.counters.overruns + 1) } } := by
  unfold Line.elapse
  rw [if_pos list, list]
  simp [inc16, satAdd]

theorem elapse_past {l : Line} (past : l.phase ≠ .list) : l.elapse = { l with periodEnd := none, periodElapsed := true } := by
  unfold Line.elapse
  rw [if_neg past, beq_eq_false_iff_ne.2 past, Bool.or_false]

theorem cycleIfDone_modLine {i : Fin 12} {f : Line → Line} {s : State} (h : (f (s.line i)).phase ≠ .done) :
    (s.modLine i f).cycleIfDone i = s.modLine i f := by
  unfold State.cycleIfDone
  rw [modLine_line_same, if_neg h]

/-- Settles O19. -/
theorem periodElapsedMarksTheCycle : Obligations.PeriodElapsedMarksTheCycle := by
  intro i e s period
  have line : (s.advanceTo e).line i = s.line i := advanceTo_line s e i
  rw [exec_periodElapsed period]
  refine ⟨fun list => ?_, fun past going => ?_, fun done => ?_⟩
  · rw [cycleIfDone_modLine (by rw [line]; exact list.trans_ne (by decide))]
    exact congrArg Host.Outcome.next (modLine_congr _ i (elapse_listed (by rw [line]; exact list)))
  · rw [cycleIfDone_modLine (by rw [line]; exact going)]
    exact congrArg Host.Outcome.next (modLine_congr _ i (elapse_past (by rw [line]; exact past)))
  · have elapsed : (s.advanceTo e).modLine i Line.elapse =
        (s.advanceTo e).modLine i (fun l => { l with periodEnd := none, periodElapsed := true }) :=
      modLine_congr _ i (elapse_past (by rw [line, done]; decide))
    have starts := newCycle_starts i ((s.advanceTo e).modLine i (fun l => { l with periodEnd := none, periodElapsed := true }))
    have began := starts.line
    rw [modLine_line_same, line, modLine_localNs, advanceTo_localNs] at began
    refine ⟨_, ?_, ⟨began.cycle, began.period, began.timer, began.marks, began.state, began.enable, began.quiesce, began.counters,
      began.watches, began.config⟩, starts⟩
    rw [elapsed]
    refine congrArg Host.Outcome.next (if_pos ?_)
    rw [modLine_line_same, line]
    exact done

/-! ### The bits of a frame (R26, R186) -/

theorem charBits_length (mark : Bool) (b : Byte) : (charBits mark b).length = 11 := rfl

theorem flatMap_charBits_length (mark : Bool) (bytes : List Byte) : (bytes.flatMap (charBits mark)).length = 11 * bytes.length := by
  induction bytes with
  | nil => rfl
  | cons b bytes ih =>
    rw [List.flatMap_cons, List.length_append, ih, charBits_length, List.length_cons]
    omega

theorem flatMap_charBits_char (mark : Bool) {bytes : List Byte} {k : Nat} {b : Byte} (h : bytes[k]? = some b) :
    ((bytes.flatMap (charBits mark)).drop (11 * k)).take 11 = charBits mark b := by
  induction bytes generalizing k with
  | nil => cases h
  | cons a bytes ih =>
    rw [List.flatMap_cons]
    cases k with
    | zero =>
      cases h
      exact List.take_left' rfl
    | succ k =>
      rw [show 11 * (k + 1) = (charBits mark a).length + 11 * k by rw [charBits_length]; omega, List.drop_append]
      rw [List.drop_of_length_le (by omega), List.nil_append, Nat.add_sub_cancel_left]
      exact ih h

theorem flatMap_charBits_take (mark : Bool) (bytes : List Byte) (m : Nat) :
    (bytes.take m).flatMap (charBits mark) = (bytes.flatMap (charBits mark)).take (11 * m) := by
  induction bytes generalizing m with
  | nil => rw [List.take_nil, List.flatMap_nil, List.take_nil]
  | cons b bytes ih =>
    cases m with
    | zero => rfl
    | succ m =>
      rw [List.take_succ_cons, List.flatMap_cons, List.flatMap_cons, ih,
        show 11 * (m + 1) = (charBits mark b).length + 11 * m by rw [charBits_length]; omega, List.take_length_add_append]

theorem frameBits_length (bytes : List Byte) : (frameBits bytes).length = 11 * bytes.length := by
  cases bytes with
  | nil => rfl
  | cons a rest =>
    show (charBits true a ++ rest.flatMap (charBits false)).length = _
    rw [List.length_append, flatMap_charBits_length, charBits_length, List.length_cons]
    omega

theorem frameBits_char {bytes : List Byte} {k : Nat} {b : Byte} (h : bytes[k]? = some b) :
    ((frameBits bytes).drop (11 * k)).take 11 = charBits (decide (k = 0)) b := by
  cases bytes with
  | nil => cases h
  | cons a rest =>
    show ((charBits true a ++ rest.flatMap (charBits false)).drop (11 * k)).take 11 = _
    cases k with
    | zero =>
      cases h
      exact List.take_left' rfl
    | succ k =>
      rw [show 11 * (k + 1) = (charBits true a).length + 11 * k by rw [charBits_length]; omega, List.drop_append,
        List.drop_of_length_le (by omega), List.nil_append, Nat.add_sub_cancel_left, decide_eq_false (Nat.succ_ne_zero k)]
      exact flatMap_charBits_char false h

/-- The bits of a frame's first characters are its first bits. -/
theorem frameBits_take (bytes : List Byte) (m : Nat) : frameBits (bytes.take m) = (frameBits bytes).take (11 * m) := by
  cases bytes with
  | nil =>
    rw [List.take_nil]
    exact List.take_nil.symm
  | cons a rest =>
    cases m with
    | zero => rfl
    | succ m =>
      show charBits true a ++ (rest.take m).flatMap (charBits false) = (charBits true a ++ rest.flatMap (charBits false)).take _
      rw [flatMap_charBits_take, show 11 * (m + 1) = (charBits true a).length + 11 * m by rw [charBits_length]; omega,
        List.take_length_add_append]

theorem bitNs_pos (r : BitRate) : 0 < r.bitNs := by cases r <;> decide

theorem active_iff (now : Nat) (f : TxFrame) : f.active now = true ↔ f.start ≤ now ∧ now < f.finish := by
  unfold TxFrame.active
  rw [Bool.and_eq_true, decide_eq_true_eq, decide_eq_true_eq]

/-- A frame under way at a bit rate drives the bit whose time it is. -/
theorem bitAt_eq {f : TxFrame} {rate : BitRate} {now : Nat} (timing : f.finish = f.start + f.bytes.length * (11 * rate.bitNs))
    (h : f.active now = true) : some (f.bitAt now) = f.bits[(now - f.start) / rate.bitNs]? := by
  obtain ⟨began, going⟩ := (active_iff now f).1 h
  have unit := bitNs_pos rate
  have some' : 0 < f.bytes.length := by
    rcases Nat.eq_zero_or_pos f.bytes.length with none | some'
    · rw [none, Nat.zero_mul] at timing
      omega
    · exact some'
  have index : (now - f.start) * f.bits.length / (f.finish - f.start) = (now - f.start) / rate.bitNs := by
    rw [show f.finish - f.start = rate.bitNs * (11 * f.bytes.length) by rw [timing, Nat.add_sub_cancel_left]; ring,
      show f.bits.length = 11 * f.bytes.length from frameBits_length _]
    exact Nat.mul_div_mul_right _ _ (by omega)
  have inside : (now - f.start) / rate.bitNs < f.bits.length := by
    rw [show f.bits.length = 11 * f.bytes.length from frameBits_length _]
    refine Nat.div_lt_of_lt_mul ?_
    calc now - f.start < f.bytes.length * (11 * rate.bitNs) := by omega
      _ = rate.bitNs * (11 * f.bytes.length) := by ring
  unfold TxFrame.bitAt
  rw [index, List.getD_eq_getElem _ _ inside, List.getElem?_eq_getElem inside]

theorem transmits_of {l : Line} {f : TxFrame} {now : Nat} (h : l.sending now = some f) :
    l.driverEnabled now = true ∧ l.transmits now = some (f.bitAt now) := by
  unfold Line.driverEnabled Line.transmits
  rw [h]
  exact ⟨rfl, rfl⟩

theorem transmits_none {l : Line} {now : Nat} (h : l.sending now = none) : l.driverEnabled now = false ∧ l.transmits now = none := by
  unfold Line.driverEnabled Line.transmits
  rw [h]
  exact ⟨rfl, rfl⟩

theorem sending_tx {l : Line} {f : TxFrame} {now : Nat} (tx : l.tx = some f) (h : f.active now = true) : l.sending now = some f := by
  unfold Line.sending
  rw [tx, Option.filter_some, if_pos h]

/-- A frame that is not going out hides nothing. -/
theorem filter_active_none {o : Option TxFrame} {now : Nat} (h : ∀ f, o = some f → now < f.start ∨ f.finish ≤ now) :
    o.filter (TxFrame.active now) = none := by
  cases o with
  | none => rfl
  | some f =>
    rw [Option.filter_some, if_neg]
    rw [active_iff]
    have := h f rfl
    omega

theorem sending_tail {l : Line} {now : Nat} (h : ∀ f, l.tx = some f → now < f.start ∨ f.finish ≤ now) :
    l.sending now = l.tail.filter (TxFrame.active now) := by
  unfold Line.sending
  rw [filter_active_none h]

/-- A frame that is cut off goes out to the end of the character in progress, and as it would have gone (R26). -/
theorem cut_goes_out {l n : Line} {f : TxFrame} {at' stop now : Nat} (tx : l.tx = some f)
    (timing : f.finish = f.start + f.bytes.length * (11 * l.rate.bitNs)) (began : f.start ≤ at') (going : at' < f.finish)
    (silent : n.tx = none) (cut : l.CutOff at' n.tail)
    (hstop : stop = f.start + ((at' - f.start) / (11 * l.rate.bitNs) + 1) * (11 * l.rate.bitNs)) : at' < stop ∧ stop ≤ f.finish ∧
      (at' ≤ now → now < stop → n.driverEnabled now = true ∧ n.transmits now = l.transmits now) ∧
      (stop ≤ now → n.driverEnabled now = false ∧ n.transmits now = none) := by
  obtain ⟨m, hm, tail⟩ := cut.cut f tx began going
  rw [← hm] at hstop
  rw [← hstop] at tail
  have unit : 0 < 11 * l.rate.bitNs := Nat.mul_pos (by decide) (bitNs_pos _)
  have after : at' - f.start < m * (11 * l.rate.bitNs) := by
    rw [hm, Nat.mul_comm]
    exact Nat.lt_mul_div_succ _ unit
  have short : m ≤ f.bytes.length := by
    have : (at' - f.start) / (11 * l.rate.bitNs) < f.bytes.length := Nat.div_lt_of_lt_mul (by rw [Nat.mul_comm]; omega)
    omega
  have fits : m * (11 * l.rate.bitNs) ≤ f.bytes.length * (11 * l.rate.bitNs) := Nat.mul_le_mul_right _ short
  have none : ∀ g, n.tx = some g → now < g.start ∨ g.finish ≤ now := fun g hg => by rw [silent] at hg; cases hg
  refine ⟨by omega, by omega, fun from' before => ?_, fun past => ?_⟩
  · have whole : f.active now = true := (active_iff now f).2 ⟨by omega, by omega⟩
    have part : (⟨f.bytes.take m, f.start, stop⟩ : TxFrame).active now = true := (active_iff ..).2 ⟨by show f.start ≤ now; omega, before⟩
    have sends : n.sending now = some ⟨f.bytes.take m, f.start, stop⟩ := by
      rw [sending_tail none, tail, Option.filter_some, if_pos part]
    obtain ⟨enabled, drives⟩ := transmits_of sends
    refine ⟨enabled, ?_⟩
    rw [drives, (transmits_of (sending_tx tx whole)).2, bitAt_eq timing whole, bitAt_eq (rate := l.rate) ?_ part]
    · show (frameBits (f.bytes.take m))[(now - f.start) / l.rate.bitNs]? = (frameBits f.bytes)[(now - f.start) / l.rate.bitNs]?
      rw [frameBits_take]
      refine List.getElem?_take_of_lt (Nat.div_lt_of_lt_mul ?_)
      calc now - f.start < m * (11 * l.rate.bitNs) := by omega
        _ = l.rate.bitNs * (11 * m) := by ring
    · show stop = f.start + (f.bytes.take m).length * (11 * l.rate.bitNs)
      rw [List.length_take, Nat.min_eq_left short]
      exact hstop
  · refine transmits_none ?_
    rw [sending_tail none, tail]
    refine filter_active_none fun g hg => ?_
    cases hg
    exact .inr past

/-- Settles O20. -/
theorem sentFrameOpensTheReceiver : Obligations.SentFrameOpensTheReceiver := by
  refine ⟨fun i f s tx => ⟨fun x polling transaction => ?_, fun discovering => ?_⟩,
    fun f => ⟨frameBits_length _, fun k b h => frameBits_char h⟩,
    fun l now rate => ⟨fun f tx timing began going => ?_, fun g tail idle timing began going => ?_, fun idle => ?_⟩,
    fun l n f at' stop now tx timing began going silent cut hstop => cut_goes_out tx timing began going silent cut hstop⟩
  · show execPollSent i s = _
    unfold execPollSent State.openWindow
    rw [polling, tx, transaction]
    dsimp only
    rw [advanceTo_localNs]
    rfl
  · show execDiscoverSent i s = _
    unfold execDiscoverSent State.openWindow
    rw [discovering, tx]
    dsimp only
    rw [advanceTo_localNs]
    rfl
  · have active := (active_iff now f).2 ⟨began, going⟩
    obtain ⟨enabled, drives⟩ := transmits_of (sending_tx tx active)
    exact ⟨enabled, drives.trans (bitAt_eq timing active)⟩
  · have active := (active_iff now g).2 ⟨began, going⟩
    have sends : l.sending now = some g := by rw [sending_tail idle, tail, Option.filter_some, if_pos active]
    obtain ⟨enabled, drives⟩ := transmits_of sends
    exact ⟨enabled, drives.trans (bitAt_eq timing active)⟩
  · refine transmits_none ?_
    rw [sending_tail fun f tx => idle f (.inl tx)]
    exact filter_active_none fun f tail => idle f (.inr tail)

end Sys2Proof.Machine

/-! SUPPORT. The end of a transaction and how its line goes on, for a record of any line (R38, R46, R55, R63, R66, R71, R77, R90). -/

namespace Sys2Proof.Machine

open Sys2Proof

/-! ### Records found by slot (R68) -/

/-- A change of every record that keeps the slots is found in its slot. -/
theorem bySlot_map {g : Endpoint → Endpoint} {s t : State} (records : t.records = s.records.map g) (keep : ∀ r, (g r).slot = r.slot)
    (n : Nat) : t.bySlot n = (s.bySlot n).map g := by
  unfold State.bySlot
  rw [records, List.find?_map]
  refine congrArg (Option.map g) (congrArg (fun p => List.find? p s.records) (funext fun r => ?_))
  exact congrArg (· == n) (keep r)

/-- One record put in the place of the record of its slot. -/
theorem bySlot_put {n : Nat} {q r : Endpoint} {s t : State} (records : t.records = s.records.map (fun x => if x.slot = n then q else x))
    (found : s.bySlot n = some r) (slot : q.slot = n) (m : Nat) : t.bySlot m = if m = n then some q else s.bySlot m := by
  rw [bySlot_map records fun x => by split <;> simp_all]
  by_cases same : m = n
  · rw [if_pos same, same, found, Option.map_some, if_pos (bySlot_spec found).2]
  · rw [if_neg same]
    cases here : s.bySlot m with
    | none => rfl
    | some x => rw [Option.map_some, if_neg (by rw [(bySlot_spec here).2]; exact same)]

theorem bySlot_dropped {n : Nat} {s t : State} (records : t.records = s.records.filter (fun x => x.slot != n)) (m : Nat) :
    t.bySlot m = if m = n then none else s.bySlot m := by
  unfold State.bySlot
  rw [records]
  by_cases same : m = n
  · rw [if_pos same]
    exact List.find?_eq_none.2 fun x hx => by simpa [same] using (List.mem_filter.1 hx).2
  · rw [if_neg same, List.find?_filter]
    refine congrArg (fun p => List.find? p s.records) (funext fun x => ?_)
    by_cases here : x.slot = m
    · simp [here, same]
    · simp [here]

/-- But for its in-transaction mark and its cycle base class a record is found in its slot as before. -/
theorem bySlot_plain {s t : State} (h : t.records.map Endpoint.plain = s.records.map Endpoint.plain) (n : Nat) :
    (t.bySlot n).map Endpoint.plain = (s.bySlot n).map Endpoint.plain := by
  have found : ∀ u : State, ({ s with records := u.records.map Endpoint.plain } : State).bySlot n = (u.bySlot n).map Endpoint.plain :=
    fun u => bySlot_map (t := { s with records := u.records.map Endpoint.plain }) rfl (fun _ => rfl) n
  rw [← found, ← found, h]

/-! ### A transaction's end (R31, R63, R71, R90, R102, R144, R145) -/

/-- The subject's record and the others after EPT's and STS's parts of a transaction's end. -/
theorem ended_bySlot {slot : Nat} {s : State} {r : Endpoint} (found : s.bySlot slot = some r) (how : TxnEnd) (m : Nat) :
    ((s.eptEnd slot how).stsEnd slot r.answer how).bySlot m =
      if m = slot then (if r.withdrawal = .retire then none else some (r.atEnd how)) else s.bySlot m := by
  have slotted := (bySlot_spec found).2
  by_cases retire : r.withdrawal = .retire
  · have gone : s.eptEnd slot how = s.removeRecord slot := by
      unfold State.eptEnd
      rw [found]
      exact if_pos retire
    have dropped : (s.removeRecord slot).records = s.records.filter (fun x => x.slot != slot) := by
      rw [removeRecord_records, found]
    have kept : ∀ u : State, u.records = s.records.filter (fun x => x.slot != slot) →
        (u.stsEnd slot r.answer how).records = s.records.filter (fun x => x.slot != slot) := fun u hu => by
      have missing : ∀ v : State, v.records = s.records.filter (fun x => x.slot != slot) →
          (v.updateRecord slot (fun q => { q with answer := none })).records = s.records.filter (fun x => x.slot != slot) := fun v hv => by
        have none : v.bySlot slot = none := (bySlot_dropped hv slot).trans (if_pos rfl)
        rw [updateRecord_records, none]
        exact hv
      unfold State.stsEnd
      split
      · exact hu
      · exact missing _ hu
      · refine missing _ ?_
        unfold State.removeRetired
        split
        · split <;> exact hu
        · exact hu
    rw [gone, bySlot_dropped (kept _ dropped) m, if_pos retire]
  · have stays : s.eptEnd slot how = s.updateRecord slot (Endpoint.endRule how) := by
      unfold State.eptEnd
      rw [found]
      exact if_neg retire
    have settled := endRule_settled how retire
    have key : r.keepKey (r.endRule how) = r.endRule how := by
      have slot' : (r.endRule how).slot = r.slot := (congrArg Endpoint.slot settled :)
      have line : (r.endRule how).line = r.line := (congrArg Endpoint.line settled :)
      have addr : (r.endRule how).addr = r.addr := (congrArg Endpoint.addr settled :)
      unfold Endpoint.keepKey
      rw [← slot', ← line, ← addr]
    have records : (s.updateRecord slot (Endpoint.endRule how)).records =
        s.records.map (fun x => if x.slot = slot then r.endRule how else x) := by
      rw [updateRecord_found _ found, key]
    have first := bySlot_put records found ((congrArg Endpoint.slot settled).trans slotted)
    have here : (s.updateRecord slot (Endpoint.endRule how)).bySlot slot = some (r.endRule how) := (first slot).trans (if_pos rfl)
    have answer := endRule_answer how r
    rw [stays, if_neg retire, ← answer]
    rcases stsEnd_spec here how with second | ⟨none, second⟩
    · rw [settled] at second
      rw [bySlot_put second here slotted m]
      split
      · rfl
      · rw [first m, if_neg ‹_›]
    · have same : r.endRule how = r.atEnd how := by
        rw [← settled]
        exact congrArg (fun a => ({ r.endRule how with answer := a } : Endpoint)) none
      unfold State.bySlot at first ⊢
      rw [second, ← same]
      exact first m

/-- A line's poll list and urgent queue apart, nothing of it differs. -/
def Line.ListsMoved (l k : Line) : Prop := ∃ p u, k = { l with pollList := p, urgent := u }

theorem Line.ListsMoved.refl (l : Line) : l.ListsMoved l := ⟨l.pollList, l.urgent, rfl⟩

theorem listsMoved_modLine_drop (n : Nat) (j i : Fin 12) (s : State) : (s.line i).ListsMoved ((s.modLine j (Line.dropSlot n)).line i) := by
  by_cases same : i = j
  · subst same
    rw [modLine_line_same]
    exact ⟨_, _, rfl⟩
  · rw [modLine_line_other _ _ (Ne.symm same)]
    exact .refl _

theorem eptEnd_listsMoved (n : Nat) (how : TxnEnd) (s : State) (i : Fin 12) : (s.line i).ListsMoved ((s.eptEnd n how).line i) := by
  unfold State.eptEnd
  split
  · exact .refl _
  · rename_i r found
    split
    · have lines : (s.removeRecord n).line i = (s.modLine r.line (Line.dropSlot n)).line i := by
        have slotted := (bySlot_spec found).2
        unfold State.line
        rw [← slotted, removeRecord_lines (by rw [slotted]; exact found)]
      rw [lines]
      exact listsMoved_modLine_drop ..
    · by_cases leaves : r.pollable = true ∧ (r.keepKey (r.endRule how)).pollable = false
      · unfold State.line
        rw [updateRecord_line_dropped found leaves.1 leaves.2]
        exact listsMoved_modLine_drop ..
      · unfold State.line
        rw [updateRecord_lines found _ fun was => by
          by_contra now
          exact leaves ⟨was, Bool.eq_false_iff.2 now⟩]
        exact .refl _

/-- A transaction's end, whatever its subject's line. -/
structure State.Ended (i : Fin 12) (how : TxnEnd) (slot : Nat) (r : Endpoint) (s t : State) : Prop where
  rest : t = { s with lines := t.lines, records := t.records, domains := t.domains, racks := t.racks }
  line : ∃ p u, t.line i = { (s.line i).noTransaction with pollList := p, urgent := u }
  found : ∀ m, t.bySlot m = if m = slot then (if r.withdrawal = .retire then none else some (r.atEnd how)) else s.bySlot m
  ungranted : (∀ g, r.answer ≠ some (.grant g)) → t.domains = s.domains
  granted : ∀ g d, r.answer = some (.grant g) → s.domain g.domain = some d →
    t.domain g.domain = if d.state = .retiring ∧ d.pendingDel ≤ 1 then none
      else some { d with
        pendingDel := d.pendingDel - 1
        burned := if how = .abandoned then min 4294967295 (d.burned + g.count) else d.burned }

theorem endTransaction_ended {i : Fin 12} {x : Transaction} {r : Endpoint} {s : State} (tx : (s.line i).transaction = some x)
    (found : s.bySlot x.slot = some r) (how : TxnEnd) : s.Ended i how x.slot r (s.endTransaction i how) := by
  have parts : s.endTransaction i how = ((s.eptEnd x.slot how).stsEnd x.slot r.answer how).modLine i Line.noTransaction := by
    unfold State.endTransaction State.heldAnswer
    rw [tx]
    dsimp only
    rw [found]
    rfl
  have moved : (s.line i).ListsMoved (((s.eptEnd x.slot how).stsEnd x.slot r.answer how).line i) := by
    unfold State.line
    rw [(stsEnd_still ..).1]
    exact eptEnd_listsMoved ..
  have tables : s.TablesMoved ((s.eptEnd x.slot how).stsEnd x.slot r.answer how) :=
    (eptEnd_tables ..).trans (stsEnd_tables ..)
  have bySlot := ended_bySlot found how
  have domains := stsEnd_domains x.slot r.answer how (s.eptEnd x.slot how)
  have before : (s.eptEnd x.slot how).domains = s.domains := by
    unfold State.eptEnd
    rw [found]
    dsimp only
    split
    · exact removeRecord_domains ..
    · exact updateRecord_domains ..
  rw [parts]
  generalize (s.eptEnd x.slot how).stsEnd x.slot r.answer how = u at moved tables bySlot domains ⊢
  obtain ⟨p, w, line⟩ := moved
  refine ⟨?_, ⟨p, w, ?_⟩, bySlot, fun none => (domains.1 none).trans before, fun g d answer hd => ?_⟩
  · rw [tables]
    rfl
  · rw [modLine_line_same, line]
    rfl
  · have here : (s.eptEnd x.slot how).domain g.domain = some d := by
      unfold State.domain
      rw [before]
      exact hd
    exact (domains.2 g answer g.domain).trans ((settled_find how g _).1 d here)

/-! ### Going on (R38, R46, R48) -/

/-- What every way of going on leaves (R43, R46). -/
structure State.WentOnFrom (i : Fin 12) (s t : State) : Prop where
  kept : s.CycleKept t
  counters : (t.line i).counters = (s.line i).counters

theorem proceed_wentOn (i : Fin 12) (s : State) : s.WentOnFrom i (s.proceed i) := by
  have goes := wentOn_goOn i s
  unfold State.proceed
  split
  · have began := newCycle_began i (s.goOn i).1
    exact ⟨goes.kept.trans began.kept, began.line.counters.trans goes.line.counters⟩
  · exact ⟨goes.kept, goes.line.counters⟩

theorem afterEnd_wentOn (i : Fin 12) (s : State) : s.WentOnFrom i (s.afterEnd i) := by
  unfold State.afterEnd
  split
  · exact ⟨cycleKept_modLine .., by rw [modLine_line_same]; rfl⟩
  · have goes := proceed_wentOn i (s.modLine i Line.toIdle)
    exact ⟨(cycleKept_modLine ..).trans goes.kept, goes.counters.trans (by rw [modLine_line_same]; rfl)⟩

/-- A transaction's end and how its line goes on, taken together. -/
structure State.EndedOn (i : Fin 12) (how : TxnEnd) (slot : Nat) (r : Endpoint) (s t : State) : Prop where
  now : t.localNs = s.localNs
  clk : t.clk = s.clk
  chans : t.chanA = s.chanA ∧ t.chanB = s.chanB
  newcomers : t.newcomers = s.newcomers ∧ t.overflow = s.overflow
  port : t.port = s.port
  counters : (t.line i).counters = (s.line i).counters
  quiesced : (s.line i).quiesceReq = true → (t.line i).state = .quiesced ∧ (t.line i).transaction = none ∧
    (t.line i).quiesceReq = false
  removed : r.withdrawal = .retire → t.bySlot slot = none
  settled : r.withdrawal ≠ .retire → ∃ q, t.bySlot slot = some q ∧
    q = { r.atEnd how with inTxn := q.inTxn, cycleClass := q.cycleClass }
  others : ∀ n, n ≠ slot → (t.bySlot n).map Endpoint.plain = (s.bySlot n).map Endpoint.plain
  ungranted : (∀ g, r.answer ≠ some (.grant g)) → t.domains = s.domains
  granted : ∀ g d, r.answer = some (.grant g) → s.domain g.domain = some d →
    t.domain g.domain = if d.state = .retiring ∧ d.pendingDel ≤ 1 then none
      else some { d with
        pendingDel := d.pendingDel - 1
        burned := if how = .abandoned then min 4294967295 (d.burned + g.count) else d.burned }

theorem plain_eq {q r : Endpoint} (h : q.plain = r.plain) : q = { r with inTxn := q.inTxn, cycleClass := q.cycleClass } := by
  obtain ⟨⟩ := q
  obtain ⟨⟩ := r
  simp only [Endpoint.plain, Endpoint.mk.injEq] at h
  simp only [Endpoint.mk.injEq]
  tauto

theorem slotsRise_of_records {s t : State} (records : t.records = s.records) (rise : s.SlotsRise) : t.SlotsRise := by
  unfold State.SlotsRise
  rw [records]
  exact rise

theorem eptEnd_slotsRise (n : Nat) (how : TxnEnd) {s : State} (rise : s.SlotsRise) : (s.eptEnd n how).SlotsRise := by
  unfold State.eptEnd
  split
  · exact rise
  · split
    · unfold State.SlotsRise
      rw [removeRecord_records]
      split
      · exact rise
      · exact ⟨rise.1.filter _, fun q hq => rise.2 q (List.mem_filter.1 hq).1⟩
    · exact slotsRise_updateRecord n _ rise

theorem stsEnd_slotsRise (n : Nat) (held : Option Answer) (how : TxnEnd) {s : State} (rise : s.SlotsRise) :
    (s.stsEnd n held how).SlotsRise := by
  unfold State.stsEnd
  split
  · exact rise
  · exact slotsRise_updateRecord n _ rise
  · refine slotsRise_updateRecord n _ (slotsRise_of_records ?_ rise)
    unfold State.removeRetired
    split
    · split <;> rfl
    · rfl

theorem endTransaction_slotsRise (i : Fin 12) (how : TxnEnd) {s : State} (rise : s.SlotsRise) : (s.endTransaction i how).SlotsRise := by
  unfold State.endTransaction
  split
  · exact rise
  · exact stsEnd_slotsRise _ _ _ (eptEnd_slotsRise _ _ rise)

theorem endTransaction_endedOn {i : Fin 12} {x : Transaction} {r : Endpoint} {s : State} (tx : (s.line i).transaction = some x)
    (found : s.bySlot x.slot = some r) (rise : s.SlotsRise) (how : TxnEnd) :
    s.EndedOn i how x.slot r ((s.endTransaction i how).afterEnd i) := by
  have ended := endTransaction_ended tx found how
  have rises := endTransaction_slotsRise i how rise
  generalize s.endTransaction i how = u at ended rises ⊢
  obtain ⟨p, w, line⟩ := ended.line
  have goes := afterEnd_wentOn i u
  have plain := bySlot_plain (goes.kept.records rises)
  refine ⟨goes.kept.now.1.trans ?_, goes.kept.clk.trans ?_, ⟨goes.kept.chans.1.trans ?_, goes.kept.chans.2.trans ?_⟩,
    ⟨goes.kept.newcomers.1.trans ?_, goes.kept.newcomers.2.trans ?_⟩, goes.kept.port.trans ?_, goes.counters.trans ?_,
    fun asked => ?_, fun retire => ?_, fun stays => ?_, fun n ne => ?_, fun none => goes.kept.domains.trans (ended.ungranted none),
    fun g d answer hd => ?_⟩
  · rw [ended.rest]
  · rw [ended.rest]
  · rw [ended.rest]
  · rw [ended.rest]
  · rw [ended.rest]
  · rw [ended.rest]
  · rw [ended.rest]
  · rw [line]
    rfl
  · have asked' : (u.line i).quiesceReq = true := by
      rw [line]
      exact asked
    rw [(afterEnd_goesOn i u).1 asked', modLine_line_same, line]
    exact ⟨rfl, rfl, rfl⟩
  · have gone := plain x.slot
    rw [ended.found, if_pos rfl, if_pos retire] at gone
    exact Option.map_eq_none_iff.1 gone
  · have here := plain x.slot
    rw [ended.found, if_pos rfl, if_neg stays, Option.map_some] at here
    obtain ⟨q, hq, same⟩ := Option.map_eq_some_iff.1 here
    exact ⟨q, hq, plain_eq same⟩
  · rw [plain n, ended.found, if_neg ne]
  · unfold State.domain
    rw [goes.kept.domains]
    exact ended.granted g d answer hd

/-! ### CLOSE_SENT (R63) -/

theorem exec_closeSent {i : Fin 12} {f : TxFrame} {s : State} (closing : (s.line i).state = .closing) (tx : (s.line i).tx = some f) :
    exec (.closeSent i) s =
      .next ((((s.advanceTo f.finish).modLine i Line.sent).endTransaction i .closed).afterEnd i) := by
  show execCloseSent i s = _
  unfold execCloseSent
  rw [closing, tx]

/-- Settles O24. -/
theorem closeSentCompletesTheTransaction : Obligations.CloseSentCompletesTheTransaction := by
  intro i f x r s closing tx transaction found rise
  rw [exec_closeSent closing tx]
  have line : ((s.advanceTo f.finish).modLine i Line.sent).line i = (s.line i).sent := by rw [modLine_line_same, advanceTo_line]
  have txn : (((s.advanceTo f.finish).modLine i Line.sent).line i).transaction = some x := by
    rw [line]
    exact transaction
  have here : ((s.advanceTo f.finish).modLine i Line.sent).bySlot x.slot = some r := by
    rw [modLine_bySlot, advanceTo_bySlot]
    exact found
  have domain : ∀ id, ((s.advanceTo f.finish).modLine i Line.sent).domain id = s.domain id := advanceTo_domain s f.finish
  have others : ∀ n, ((s.advanceTo f.finish).modLine i Line.sent).bySlot n = s.bySlot n := advanceTo_bySlot s f.finish
  have ended := endTransaction_endedOn txn here (slotsRise_of_records (advanceTo_records ..) rise) .closed
  obtain ⟨now, clk, chans, newcomers, port, counters, quiesced, removed, settled, rest, ungranted, granted⟩ := ended
  rw [line] at counters quiesced
  refine ⟨_, rfl, now.trans (advanceTo_localNs ..), removed, fun stays => ?_, fun g d answer hd => ?_,
    fun none => (ungranted none).trans (advanceTo_domains ..), fun n ne => (rest n ne).trans (congrArg _ (others n)), counters,
    newcomers.1.trans (advanceTo_newcomers ..), newcomers.2.trans (advanceTo_overflow ..), port.trans (advanceTo_port ..), clk,
    chans.1.trans (advanceTo_chanA ..), chans.2.trans (advanceTo_chanB ..), quiesced, fun own => ?_⟩
  · obtain ⟨q, hq, same⟩ := settled stays
    refine ⟨q, hq, ?_⟩
    rw [same]
    exact ⟨rfl, rfl, rfl, rfl, rfl, rfl, rfl, rfl, rfl⟩
  · exact granted g d answer ((domain _).trans hd)
  · have ends := endTransaction_ends (how := .closed) txn here own
    have asked : ((((s.advanceTo f.finish).modLine i Line.sent).endTransaction i .closed).line i).quiesceReq =
        (s.line i).quiesceReq := by
      rw [ends.line, line]
      rfl
    obtain ⟨quiesces, goes⟩ := afterEnd_goesOn i (((s.advanceTo f.finish).modLine i Line.sent).endTransaction i .closed)
    rw [asked] at quiesces goes
    exact ⟨_, ends, quiesces, goes⟩

/-! ### REPLY_WINDOW_END (R55, R77) -/

theorem exec_replyWindowEnd {i : Fin 12} {e : Nat} {s : State} (polling : (s.line i).state = .polling)
    (window : (s.line i).windowEnd = some e) : exec (.replyWindowEnd i) s = .next ((s.advanceTo e).replyWindowOver i) := by
  show execReplyWindowEnd i s = _
  unfold execReplyWindowEnd
  rw [polling, window]

theorem receiving_iff (l : Line) : l.receiving = true ↔ l.rx ≠ [] ∨ l.charInWindow = true := by
  unfold Line.receiving
  cases l.rx <;> simp

theorem replyWindowOver_receiving {i : Fin 12} {s : State} (h : (s.line i).rx ≠ [] ∨ (s.line i).charInWindow = true) :
    s.replyWindowOver i = s.modLine i Line.elapseWindow := if_pos ((receiving_iff _).2 h)

theorem replyWindowOver_miss {i : Fin 12} {s : State} (none : (s.line i).rx = []) (quiet : (s.line i).charInWindow = false) :
    s.replyWindowOver i = s.miss i := by
  refine if_neg fun receiving => ?_
  rcases (receiving_iff _).1 receiving with some' | some'
  · exact some' none
  · rw [quiet] at some'
    cases some'

theorem missRule_kept (limit : Nat) (r : Endpoint) : (r.missRule limit).withdrawal = r.withdrawal ∧
    (r.missRule limit).answer = r.answer := by
  obtain ⟨lost, kept⟩ := missRule_missed limit r
  by_cases h : r.withdrawal = .no ∧ (r.state = .enrolling ∨ r.state = .tracking ∨ r.state = .suspect) ∧
      limit ≤ min 15 (r.missCount + 1)
  · obtain ⟨no, active, reached⟩ := h
    rw [lost no active reached]
    exact ⟨rfl, rfl⟩
  · rw [kept h]
    exact ⟨rfl, rfl⟩

theorem missRule_no {limit : Nat} {r : Endpoint} (no : r.withdrawal = .no) : ∃ st, r.missRule limit = { r with
      missCount := min 15 (r.missCount + 1), missTotal := min 65535 (r.missTotal + 1), state := st
      goodCount := if r.state = .enrolling ∨ st = .lost ∧ r.state ≠ .lost then 0 else r.goodCount } ∧
    st = if (r.state = .enrolling ∨ r.state = .tracking ∨ r.state = .suspect) ∧ limit ≤ min 15 (r.missCount + 1) then .lost
      else if r.state = .tracking then .suspect else r.state := by
  obtain ⟨lost, kept⟩ := missRule_missed limit r
  by_cases h : (r.state = .enrolling ∨ r.state = .tracking ∨ r.state = .suspect) ∧ limit ≤ min 15 (r.missCount + 1)
  · refine ⟨.lost, ?_, (if_pos h).symm⟩
    have alive : r.state ≠ .lost := fun dead => by simp [dead] at h
    rw [lost no h.1 h.2, if_pos (.inr ⟨rfl, alive⟩)]
  · refine ⟨_, ?_, (if_neg h).symm⟩
    rw [kept fun k => h k.2]
    simp only [no, true_and]
    congr 1
    refine if_congr (or_iff_left ?_).symm rfl rfl
    rintro ⟨dead, alive⟩
    split at dead
    · cases dead
    · exact alive dead

/-- A SUSPEND that is pending is completed at a MISS too (R77, R90). -/
theorem missRule_suspend {limit : Nat} {r : Endpoint} (suspend : r.withdrawal = .suspend) : r.missRule limit = { r with
    missCount := min 15 (r.missCount + 1), missTotal := min 65535 (r.missTotal + 1)
    goodCount := if r.state = .enrolling then 0 else r.goodCount } := by
  have no : r.withdrawal ≠ .no := by rw [suspend]; decide
  rw [(missRule_missed limit r).kept fun k => no k.1, if_neg fun k => no k.1]

/-- Settles O23. -/
theorem replyWindowEndIsAMiss : Obligations.ReplyWindowEndIsAMiss := by
  intro i e s polling window
  rw [exec_replyWindowEnd polling window]
  have line : (s.advanceTo e).line i = s.line i := advanceTo_line s e i
  refine ⟨fun receiving => ?_, fun x r none quiet transaction found rise => ?_, fun none quiet _ => ?_⟩
  · rw [replyWindowOver_receiving (by rw [line]; exact receiving)]
    rfl
  · rw [replyWindowOver_miss (by rw [line, none]) (by rw [line, quiet])]
    have here : ((s.advanceTo e).modLine i Line.countMiss).bySlot x.slot = some r := by
      rw [modLine_bySlot, advanceTo_bySlot]
      exact found
    obtain ⟨tables, _, lost, kept, missed⟩ := eptMiss_spec (limit := (s.line i).missLimit) here
    have miss : (s.advanceTo e).miss i = ((((s.advanceTo e).modLine i Line.countMiss).eptMiss x.slot
        (s.line i).missLimit).endTransaction i .missed).afterEnd i := by
      unfold State.miss
      rw [line, transaction]
    have rises : (((s.advanceTo e).modLine i Line.countMiss).eptMiss x.slot (s.line i).missLimit).SlotsRise := by
      have before : ((s.advanceTo e).modLine i Line.countMiss).SlotsRise := slotsRise_of_records (advanceTo_records ..) rise
      unfold State.eptMiss
      rw [here]
      dsimp only
      split
      · exact slotsRise_of_records rfl (slotsRise_updateRecord _ _ before)
      · exact slotsRise_updateRecord _ _ before
    have slotted : (r.missRule (s.line i).missLimit).slot = x.slot :=
      (congrArg Endpoint.slot (missRule_keeps (s.line i).missLimit r).1).symm.trans (bySlot_spec found).2
    have others := bySlot_put (congrArg State.records tables) here slotted
    obtain ⟨withdrawal, answer⟩ := missRule_kept (s.line i).missLimit r
    rw [miss]
    generalize ((s.advanceTo e).modLine i Line.countMiss).eptMiss x.slot (s.line i).missLimit = v at tables lost kept missed rises others
    have counted : v.line i = (s.line i).countMiss := by
      rw [tables]
      exact (modLine_line_same ..).trans (congrArg _ line)
    obtain ⟨-, clk, chans, newcomers, port, counters, quiesced, removed, settled, rest, ungranted, -⟩ :=
      endTransaction_endedOn (by rw [counted]; exact transaction) missed rises .missed
    rw [counted] at counters quiesced
    rw [withdrawal] at removed settled
    rw [answer] at ungranted
    refine ⟨_, rfl, counters, quiesced, removed, fun suspend => ?_, fun no => ?_, fun none => ?_, fun n ne => ?_, ?_, ?_, ?_, ?_, ?_⟩
    · obtain ⟨q, hq, same⟩ := settled (by rw [suspend]; decide)
      rw [missRule_suspend suspend] at same
      refine ⟨q, hq, ?_⟩
      rw [same]
      simp [Endpoint.atEnd, suspend]
    · obtain ⟨q, hq, same⟩ := settled (by rw [no]; decide)
      obtain ⟨st, rule, hst⟩ := missRule_no (limit := (s.line i).missLimit) no
      have state : q.state = (r.missRule (s.line i).missLimit).state := by
        rw [same]
        exact if_neg (by rw [withdrawal, no]; decide)
      have ruled : q.state = st := by rw [state, rule]
      refine ⟨q, hq, ?_, ?_, ?_, ?_, fun dead alive => ?_⟩
      · rw [same, rule]
        rfl
      · rw [same, rule]
        rfl
      · rw [ruled, hst]
        cases r.state <;> simp
      · rw [ruled, same, rule]
        simp [Endpoint.atEnd, no]
      · rw [port, lost ⟨state.symm.trans dead, alive⟩]
        exact (raise_isPending ..).2 (.inr rfl)
    · rw [ungranted (by rw [none]; nofun), tables]
      exact advanceTo_domains ..
    · rw [rest n ne, others, if_neg ne]
      exact congrArg _ (advanceTo_bySlot s e n)
    · rw [newcomers.1, tables]
      exact advanceTo_newcomers ..
    · rw [newcomers.2, tables]
      exact advanceTo_overflow ..
    · rw [clk, tables]
      rfl
    · rw [chans.1, tables]
      exact advanceTo_chanA ..
    · rw [chans.2, tables]
      exact advanceTo_chanB ..
  · rw [replyWindowOver_miss (by rw [line, none]) (by rw [line, quiet])]
    exact ⟨_, rfl, miss_misses i _⟩

/-! ### DISCOVERY_WINDOW_END (R66) -/

theorem exec_discoveryWindowEnd {i : Fin 12} {e : Nat} {s : State} (discovering : (s.line i).state = .discovering)
    (window : (s.line i).windowEnd = some e) : exec (.discoveryWindowEnd i) s = .next ((s.advanceTo e).discoveryWindowOver i) := by
  show execDiscoveryWindowEnd i s = _
  unfold execDiscoveryWindowEnd
  rw [discovering, window]

/-- Settles O27. -/
theorem discoveryWindowEndGoesOn : Obligations.DiscoveryWindowEndGoesOn := by
  intro i e s discovering window
  rw [exec_discoveryWindowEnd discovering window]
  have line : (s.advanceTo e).line i = s.line i := advanceTo_line s e i
  refine ⟨fun receiving => ?_, fun none quiet => ?_⟩
  · refine congrArg Host.Outcome.next (if_pos ((receiving_iff _).2 ?_))
    rw [line]
    exact receiving
  · have ends := endDiscovery_ends i (s.advanceTo e)
    have closes : (s.advanceTo e).discoveryWindowOver i = (s.advanceTo e).endDiscovery i := by
      refine if_neg fun receiving => ?_
      rw [receiving_iff, line, none, quiet] at receiving
      simp at receiving
    rw [closes]
    refine ⟨_, rfl, ends, fun going phase late => ?_⟩
    have began := (ends.next (by rw [line, going]) (by rw [line, phase]) (by rw [line, late])).line
    rw [modLine_line_same, line, modLine_localNs, advanceTo_localNs] at began
    exact ⟨began.cycle, began.period, began.timer, began.marks, began.state, began.enable, began.quiesce, began.counters,
      began.watches, began.config⟩

end Sys2Proof.Machine

/-! SUPPORT. Frames that end in a window and are not taken: in POLLING, in DISCOVERING, and by a gap (R28, R54, R55, R65, R66). -/

namespace Sys2Proof.Machine

open Sys2Proof

/-! ### The receiver after a window's end (R29, R53, R63, R64) -/

theorem urgentPhase_rxOpen {i : Fin 12} {s : State} (closed : (s.line i).rxOpen = false) :
    ((s.urgentPhase i).1.line i).rxOpen = false := by
  unfold State.urgentPhase
  split
  · rw [beginTransaction_line]
    rfl
  · split
    · rw [modLine_line_same]
      rfl
    · rw [modLine_line_same]
      exact closed

theorem goOn_rxOpen {i : Fin 12} {s : State} (closed : (s.line i).rxOpen = false) : ((s.goOn i).1.line i).rxOpen = false := by
  have still : ∀ f : Line → Line, (f (s.line i)).rxOpen = (s.line i).rxOpen → ((s.modLine i f).line i).rxOpen = false := fun f hf => by
    rw [modLine_line_same, hf]
    exact closed
  unfold State.goOn
  split
  · split
    · rw [beginTransaction_line]
      rfl
    · split
      · exact still _ rfl
      · exact urgentPhase_rxOpen (still _ rfl)
  · exact urgentPhase_rxOpen closed
  · exact still _ rfl
  · exact closed
  · exact closed

theorem newCycle_rxOpen {i : Fin 12} {s : State} (closed : (s.line i).rxOpen = false) : ((s.newCycle i).line i).rxOpen = false := by
  refine goOn_rxOpen ?_
  rw [cycleStart_line]
  exact closed

theorem afterEnd_rxOpen {i : Fin 12} {s : State} (closed : (s.line i).rxOpen = false) : ((s.afterEnd i).line i).rxOpen = false := by
  unfold State.afterEnd
  split
  · rw [modLine_line_same]
    exact closed
  · have goes : (((s.modLine i Line.toIdle).goOn i).1.line i).rxOpen = false := goOn_rxOpen (by rw [modLine_line_same]; exact closed)
    unfold State.proceed
    split
    · exact newCycle_rxOpen goes
    · exact goes

theorem miss_rxOpen {i : Fin 12} {s : State} (txn : (s.line i).transaction ≠ none) : ((s.miss i).line i).rxOpen = false := by
  obtain ⟨x, hx⟩ := Option.ne_none_iff_exists'.1 txn
  unfold State.miss
  rw [hx]
  dsimp only
  refine afterEnd_rxOpen ?_
  have same : (((s.modLine i Line.countMiss).eptMiss x.slot (s.line i).missLimit).line i).transaction = some x := by
    cases found : (s.modLine i Line.countMiss).bySlot x.slot with
    | none =>
      unfold State.eptMiss
      rw [found]
      dsimp only
      rw [modLine_line_same]
      exact hx
    | some r =>
      rw [(eptMiss_spec found).1]
      show ((s.modLine i Line.countMiss).line i).transaction = some x
      rw [modLine_line_same]
      exact hx
  unfold State.endTransaction
  rw [same]
  dsimp only
  rw [modLine_line_same]
  rfl

theorem endDiscovery_rxOpen (i : Fin 12) (s : State) : ((s.endDiscovery i).line i).rxOpen = false :=
  afterEnd_rxOpen (by rw [modLine_line_same]; rfl)

/-! ### A window past its length (R54, R66) -/

theorem windowOver_iff (l : Line) : l.windowOver = true ↔ l.windowElapsed = true ∧ l.charInWindow = false := by
  unfold Line.windowOver
  rw [Bool.and_eq_true, Bool.not_eq_true']

theorem missIfOver_open {i : Fin 12} {s : State} (h : (s.line i).windowElapsed = false ∨ (s.line i).charInWindow = true) :
    s.missIfOver i = s := by
  refine if_neg ?_
  rw [windowOver_iff]
  rintro ⟨elapsed, quiet⟩
  rcases h with h | h
  · rw [h] at elapsed
    cases elapsed
  · rw [h] at quiet
    cases quiet

theorem missIfOver_over {i : Fin 12} {s : State} (elapsed : (s.line i).windowElapsed = true) (quiet : (s.line i).charInWindow = false) :
    s.missIfOver i = s.miss i := if_pos ((windowOver_iff _).2 ⟨elapsed, quiet⟩)

theorem endIfOver_open {i : Fin 12} {s : State} (h : (s.line i).windowElapsed = false ∨ (s.line i).charInWindow = true) :
    s.endIfOver i = s := by
  refine if_neg ?_
  rw [windowOver_iff]
  rintro ⟨elapsed, quiet⟩
  rcases h with h | h
  · rw [h] at elapsed
    cases elapsed
  · rw [h] at quiet
    cases quiet

theorem endIfOver_over {i : Fin 12} {s : State} (elapsed : (s.line i).windowElapsed = true) (quiet : (s.line i).charInWindow = false) :
    s.endIfOver i = s.endDiscovery i := if_pos ((windowOver_iff _).2 ⟨elapsed, quiet⟩)

theorem after_quiet {l : Line} {z : RxChar} (h : l.receiver = z.after) : l.charInWindow = false := by
  unfold Line.charInWindow
  rw [h]
  unfold RxChar.after
  cases z.framing <;> rfl

/-! ### A frame that fails a transaction (R28, R54) -/

theorem isReplyOf_iff (s : State) (i : Fin 12) (addr : Nat) (p : Reply) : s.isReplyOf i addr p = true ↔
    ∃ x r, (s.line i).transaction = some x ∧ x.failed = false ∧ s.bySlot x.slot = some r ∧ p.txn = (s.line i).txNumber ∧
      r.addr = addr := by
  unfold State.isReplyOf
  cases (s.line i).transaction with
  | none => simp
  | some x =>
    cases found : s.bySlot x.slot with
    | none => simp [found]
    | some r =>
      simp only [found, Bool.and_eq_true, Bool.not_eq_true', beq_iff_eq, Option.map_some, Option.some.injEq]
      constructor
      · rintro ⟨⟨h1, h2⟩, h3⟩
        exact ⟨x, r, rfl, h1, found, h2, h3⟩
      · rintro ⟨x', r', rfl, h1, h2, h3, h4⟩
        cases found.symm.trans h2
        exact ⟨⟨h1, h3⟩, h4⟩

/-- A line after a frame that ended and failed its transaction. -/
def Line.frameFailed (noisy bad : Bool) (l : Line) : Line := { l with
  rx := []
  transaction := l.transaction.map (fun x => { x with failed := true })
  counters := { l.counters with
    noisy := if noisy then min 65535 (l.counters.noisy + 1) else l.counters.noisy
    badFrames := if bad then min 65535 (l.counters.badFrames + 1) else l.counters.badFrames } }

theorem failTxn_frameOver (noisy bad : Bool) (l : Line) : (l.frameOver noisy).failTxn bad = l.frameFailed noisy bad := by
  cases noisy <;> cases bad <;> rfl

/-- A frame in POLLING that is not the transaction's good REPLY (R54). -/
theorem frameEnded_failed {i : Fin 12} {cs : List RxChar} {s : State} (ne : cs ≠ []) (polling : (s.line i).state = .polling)
    (notReply : ∀ addr p, judgeFrame cs = .reply addr p → s.isReplyOf i addr p = false) : s.frameEnded i cs =
      (s.modLine i (Line.frameFailed (cs.any RxChar.noisy) (decide (judgeFrame cs = .bad)))).missIfOver i := by
  have fails : ∀ bad, (s.modLine i (Line.frameOver (noisyFrame cs))).failFrame i bad =
      (s.modLine i (Line.frameFailed (cs.any RxChar.noisy) bad)).missIfOver i := fun bad => by
    unfold State.failFrame
    rw [modLine_modLine]
    exact congrArg (State.missIfOver i) (modLine_congr s i (failTxn_frameOver ..))
  have state : ((s.modLine i (Line.frameOver (noisyFrame cs))).line i).state = .polling := by
    rw [modLine_line_same]
    exact polling
  unfold State.frameEnded State.handFrame
  rw [if_neg ne, state]
  dsimp only
  unfold State.pollingFrame
  cases judged : judgeFrame cs with
  | bad => exact fails true
  | announce addr ident => exact fails false
  | reply addr p =>
    refine (if_neg ?_).trans (fails false)
    have same : (s.modLine i (Line.frameOver (noisyFrame cs))).isReplyOf i addr p = s.isReplyOf i addr p := by
      unfold State.isReplyOf
      rw [modLine_line_same]
      rfl
    rw [same, notReply addr p judged]
    decide

theorem judgeFrame_short {cs : List RxChar} (short : ¬FrameFull cs) : judgeFrame cs = .bad :=
  judgeFrame_unsound fun sound => short sound.full

/-! ### A frame that reports nothing in the discovery window (R28, R65) -/

/-- A line after a frame that ended in the discovery window and is no good ANNOUNCE. -/
def Line.frameCollided (noisy bad : Bool) (l : Line) : Line := { l with
  rx := []
  counters := { l.counters with
    noisy := if noisy then min 65535 (l.counters.noisy + 1) else l.counters.noisy
    collisions := if bad then min 65535 (l.counters.collisions + 1) else l.counters.collisions } }

theorem frameEnded_collided {i : Fin 12} {cs : List RxChar} {s : State} (ne : cs ≠ []) (discovering : (s.line i).state = .discovering)
    (notAnnounce : ∀ addr ident, judgeFrame cs ≠ .announce addr ident) : s.frameEnded i cs =
      (s.modLine i (Line.frameCollided (cs.any RxChar.noisy) (decide (judgeFrame cs = .bad)))).endIfOver i := by
  have state : ((s.modLine i (Line.frameOver (noisyFrame cs))).line i).state = .discovering := by
    rw [modLine_line_same]
    exact discovering
  have collides : (s.modLine i (Line.frameOver (noisyFrame cs))).takeAnnounce i (judgeFrame cs) =
      s.modLine i (Line.frameCollided (cs.any RxChar.noisy) (decide (judgeFrame cs = .bad))) := by
    unfold State.takeAnnounce
    cases judged : judgeFrame cs with
    | bad =>
      refine (modLine_modLine ..).trans (modLine_congr s i ?_)
      show (Line.frameOver (cs.any RxChar.noisy) (s.line i)).countCollision = _
      cases cs.any RxChar.noisy <;> rfl
    | announce addr ident => exact absurd judged (notAnnounce addr ident)
    | reply addr p =>
      refine modLine_congr s i ?_
      show Line.frameOver (cs.any RxChar.noisy) (s.line i) = _
      cases cs.any RxChar.noisy <;> rfl
  unfold State.frameEnded State.handFrame
  rw [if_neg ne, state]
  dsimp only
  unfold State.discoveryFrame
  rw [collides]

/-! ### The sample that ends a frame (R27, R28) -/

theorem heard_line_eq (i : Fin 12) (dt : Nat) (v : Bool) (s : State) : (s.heard i dt v).line i = { s.line i with
    sampledAt := (s.heard i dt v).localNs, level := v
    faultWatch := (s.line i).faultWatch.map (fun n => if v then 0 else n + 1) } := heard_line i dt v s

/-- The last character of a frame leaves the receiver looking for the next one (R27). -/
theorem heard_endChar_line (i : Fin 12) (dt : Nat) (v : Bool) (z : RxChar) (s : State) :
    ((s.heard i dt v).modLine i (Line.endChar z)).line i = ((s.heard i dt v).line i).endChar z := modLine_line_same ..

/-- A character with the mark bit 1 ends the frame in assembly (R28). -/
theorem sample_marked {i : Fin 12} {dt start : Nat} {edge : Capture} {z : RxChar} {v : Bool} {s : State}
    (h : (s.line i).Completes start edge z v) (marked : z.marked = true) (begun : (s.line i).rx ≠ []) :
    (s.advance dt).sample i v =
      ((State.frameEnded i (s.line i).rx (s.heard i dt v)).firstChar i start edge z).modLine i (Line.endChar z) := by
  have rx : ((s.heard i dt v).line i).rx = (s.line i).rx := by rw [heard_line_eq]
  rw [sample_completes h]
  unfold State.receiveChar
  rw [rx, if_neg begun, if_pos marked]

/-- A character after such an end begins the next frame while the receiver is open, and is stray when it is not (R28, R29). -/
theorem firstChar_begins {i : Fin 12} {start : Nat} {edge : Capture} {z : RxChar} {s : State} (h : (s.line i).rxOpen = true) :
    (s.firstChar i start edge z).modLine i (Line.endChar z) = s.modLine i (fun l => { l with
      receiver := z.after, rx := [z], rxEdge := edge, rxAt := start + 11 * l.rate.bitNs }) := by
  unfold State.firstChar
  rw [if_pos h, modLine_modLine]
  rfl

theorem firstChar_strays {i : Fin 12} {start : Nat} {edge : Capture} {z : RxChar} {s : State} (h : (s.line i).rxOpen = false) :
    (s.firstChar i start edge z).modLine i (Line.endChar z) = s.modLine i (fun l => { l with
      receiver := z.after, counters := { l.counters with stray := min 65535 (l.counters.stray + 1) } }) := by
  unfold State.firstChar
  rw [if_neg (by rw [h]; decide), modLine_modLine]
  rfl

theorem bad_count {cs : List RxChar} {n c : Nat} (bad : BadFrame cs → n = min 65535 (c + 1)) (good : ¬BadFrame cs → n = c) :
    n = if decide (judgeFrame cs = .bad) = true then min 65535 (c + 1) else c := by
  by_cases h : BadFrame cs
  · rw [if_pos (decide_eq_true ((judgeFrame_bad cs).2 h)), bad h]
  · rw [if_neg (by rw [decide_eq_true_eq]; exact mt (judgeFrame_bad cs).1 h), good h]

/-! ### POLLING_FRAME_FAILED (R54) -/

/-- Settles O22. -/
theorem failedFrameFailsTheTransaction : Obligations.FailedFrameFailsTheTransaction := by
  intro i dt v s polling
  refine ⟨fun cs z n u frame last notReply bad good hu => ?_, fun start edge z u completes marked begun short opened hu => ?_⟩
  · obtain ⟨c, hc, samples⟩ := sample_completesFrame (dt := dt) frame
    cases last.symm.trans hc
    have ne : cs ≠ [] := fun none => by rw [none] at last; cases last
    have line := heard_endChar_line i dt v z s
    rw [heard_line_eq] at line
    have failed := frameEnded_failed (i := i) (s := (s.heard i dt v).modLine i (Line.endChar z)) ne (by rw [line]; exact polling)
      fun addr p judged => by
        rw [← Bool.not_eq_true, isReplyOf_iff, line]
        rintro ⟨x, r, tx, fresh, found, txn, rfl⟩
        rw [modLine_bySlot, heard_bySlot] at found
        exact notReply ⟨x, r, p, tx, fresh, found, txn, (judgeFrame_reply ..).1 judged⟩
    have counted := bad_count bad good
    have joined : ((s.heard i dt v).modLine i (Line.endChar z)).modLine i
        (Line.frameFailed (cs.any RxChar.noisy) (decide (judgeFrame cs = .bad))) = u := by
      rw [hu, modLine_modLine, counted]
      refine modLine_congr _ i ?_
      rw [heard_line_eq]
      rfl
    rw [joined] at failed
    have uline : u.line i = (((s.heard i dt v).line i).endChar z).frameFailed (cs.any RxChar.noisy) (decide (judgeFrame cs = .bad)) := by
      rw [← joined, modLine_line_same, modLine_line_same]
    have elapsed : (u.line i).windowElapsed = (s.line i).windowElapsed := by
      rw [uline, heard_line_eq]
      rfl
    refine ⟨_, congrArg Host.Outcome.next (samples.trans failed), fun running => ?_, fun past => ?_⟩
    · exact missIfOver_open (.inl (elapsed.trans running))
    · rw [missIfOver_over (elapsed.trans past) (after_quiet (z := z) (by rw [uline]; rfl))]
      exact miss_misses i u
  · have failed := frameEnded_failed (i := i) (s := s.heard i dt v) begun (by rw [heard_line_eq]; exact polling)
      fun addr p judged => by rw [judgeFrame_short short] at judged; cases judged
    have joined : (s.heard i dt v).modLine i (Line.frameFailed ((s.line i).rx.any RxChar.noisy)
        (decide (judgeFrame (s.line i).rx = .bad))) = u := by
      rw [hu, judgeFrame_short short]
      refine modLine_congr _ i ?_
      rw [heard_line_eq]
      rfl
    rw [joined] at failed
    have uline : u.line i = ((s.heard i dt v).line i).frameFailed ((s.line i).rx.any RxChar.noisy)
        (decide (judgeFrame (s.line i).rx = .bad)) := by rw [← joined, modLine_line_same]
    rw [heard_line_eq] at uline
    have samples := sample_marked (dt := dt) completes marked begun
    rw [failed] at samples
    refine ⟨fun going => ?_, fun elapsed quiet txn => ⟨u.miss i, miss_misses i u, ?_⟩⟩
    · refine congrArg Host.Outcome.next (samples.trans ?_)
      rw [missIfOver_open (by rw [uline]; exact going)]
      exact firstChar_begins (by rw [uline]; exact opened)
    · refine congrArg Host.Outcome.next (samples.trans ?_)
      rw [missIfOver_over (by rw [uline]; exact elapsed) (by rw [uline]; exact quiet)]
      refine firstChar_strays (miss_rxOpen ?_)
      rw [uline]
      exact fun none => txn (Option.map_eq_none_iff.1 none)

/-! ### DISCOVERY_COLLISION (R65, R66) -/

/-- Settles O26. -/
theorem discoveryCollisionIsCounted : Obligations.DiscoveryCollisionIsCounted := by
  intro i dt v s discovering
  refine ⟨fun cs z n u frame last bad good hu notAnnounce => ?_, fun start edge z u completes marked begun short opened hu => ?_⟩
  · obtain ⟨c, hc, samples⟩ := sample_completesFrame (dt := dt) frame
    cases last.symm.trans hc
    have ne : cs ≠ [] := fun none => by rw [none] at last; cases last
    have line := heard_endChar_line i dt v z s
    rw [heard_line_eq] at line
    have collided := frameEnded_collided (i := i) (s := (s.heard i dt v).modLine i (Line.endChar z)) ne
      (by rw [line]; exact discovering) fun addr ident judged => notAnnounce addr ident ((judgeFrame_announce ..).1 judged)
    have counted := bad_count bad good
    have joined : ((s.heard i dt v).modLine i (Line.endChar z)).modLine i
        (Line.frameCollided (cs.any RxChar.noisy) (decide (judgeFrame cs = .bad))) = u := by
      rw [hu, modLine_modLine, counted]
      refine modLine_congr _ i ?_
      rw [heard_line_eq]
      rfl
    rw [joined] at collided
    have uline : u.line i = (((s.heard i dt v).line i).endChar z).frameCollided (cs.any RxChar.noisy)
        (decide (judgeFrame cs = .bad)) := by rw [← joined, modLine_line_same, modLine_line_same]
    have elapsed : (u.line i).windowElapsed = (s.line i).windowElapsed := by
      rw [uline, heard_line_eq]
      rfl
    refine ⟨_, congrArg Host.Outcome.next (samples.trans collided), fun running => ?_, fun past => ?_⟩
    · exact endIfOver_open (.inl (elapsed.trans running))
    · rw [endIfOver_over (elapsed.trans past) (after_quiet (z := z) (by rw [uline]; rfl))]
      exact endDiscovery_ends i u
  · have collided := frameEnded_collided (i := i) (s := s.heard i dt v) begun (by rw [heard_line_eq]; exact discovering)
      fun addr ident judged => by rw [judgeFrame_short short] at judged; cases judged
    have joined : (s.heard i dt v).modLine i (Line.frameCollided ((s.line i).rx.any RxChar.noisy)
        (decide (judgeFrame (s.line i).rx = .bad))) = u := by
      rw [hu, judgeFrame_short short]
      refine modLine_congr _ i ?_
      rw [heard_line_eq]
      rfl
    rw [joined] at collided
    have uline : u.line i = ((s.heard i dt v).line i).frameCollided ((s.line i).rx.any RxChar.noisy)
        (decide (judgeFrame (s.line i).rx = .bad)) := by rw [← joined, modLine_line_same]
    rw [heard_line_eq] at uline
    have samples := sample_marked (dt := dt) completes marked begun
    rw [collided] at samples
    refine ⟨fun going => ?_, fun elapsed quiet => ⟨u.endDiscovery i, endDiscovery_ends i u, ?_⟩⟩
    · refine congrArg Host.Outcome.next (samples.trans ?_)
      rw [endIfOver_open (by rw [uline]; exact going)]
      exact firstChar_begins (by rw [uline]; exact opened)
    · refine congrArg Host.Outcome.next (samples.trans ?_)
      rw [endIfOver_over (by rw [uline]; exact elapsed) (by rw [uline]; exact quiet)]
      exact firstChar_strays (endDiscovery_rxOpen i u)

/-! ### FRAME_GAP_TIMEOUT (R28, R54, R65) -/

theorem exec_frameGapTimeout_idle {i : Fin 12} {s : State} (begun : (s.line i).rx ≠ []) (idle : (s.line i).receiver.busy = false) :
    exec (.frameGapTimeout i) s = .next (State.frameEnded i (s.line i).rx
      (s.advanceTo ((s.line i).rxAt + 2 * (11 * (s.line i).rate.bitNs) + 1))) := by
  show execFrameGapTimeout i s = _
  unfold execFrameGapTimeout State.gap
  rw [if_neg (by rw [idle]; simp [begun]), advanceTo_line]
  rfl

/-- Settles O28. -/
theorem frameGapEndsTheFrameAsBad : Obligations.FrameGapEndsTheFrameAsBad := by
  intro i s begun short
  refine ⟨fun start edge w taken arriving => ?_, fun resting => ?_⟩
  · show execFrameGapTimeout i s = _
    unfold execFrameGapTimeout
    rw [if_pos (.inr (by rw [arriving]; rfl))]
  · have idle : (s.line i).receiver.busy = false ∧ (s.line i).charInWindow = false := by
      unfold Line.charInWindow
      rcases resting with h | h <;> rw [h] <;> exact ⟨rfl, rfl⟩
    obtain ⟨notBusy, quiet⟩ := idle
    have judged := judgeFrame_short short
    rw [exec_frameGapTimeout_idle begun notBusy]
    generalize (s.line i).rxAt + 2 * (11 * (s.line i).rate.bitNs) + 1 = e
    have line : (s.advanceTo e).line i = s.line i := advanceTo_line s e i
    refine ⟨fun u polling hu => ?_, fun u discovering hu => ?_⟩
    · have failed := frameEnded_failed (i := i) (s := s.advanceTo e) begun (by rw [line]; exact polling)
        fun addr p reply => by rw [judged] at reply; cases reply
      have joined : (s.advanceTo e).modLine i (Line.frameFailed ((s.line i).rx.any RxChar.noisy)
          (decide (judgeFrame (s.line i).rx = .bad))) = u := by
        rw [hu, judged]
        refine modLine_congr _ i ?_
        rw [line]
        rfl
      have uline : u.line i = (s.line i).frameFailed ((s.line i).rx.any RxChar.noisy) (decide (judgeFrame (s.line i).rx = .bad)) := by
        rw [← joined, modLine_line_same, line]
      rw [joined] at failed
      rw [failed]
      refine ⟨_, rfl, fun running => missIfOver_open (.inl (by rw [uline]; exact running)), fun elapsed => ?_⟩
      rw [missIfOver_over (by rw [uline]; exact elapsed) (by rw [uline]; exact quiet)]
      exact miss_misses i u
    · have collided := frameEnded_collided (i := i) (s := s.advanceTo e) begun (by rw [line]; exact discovering)
        fun addr ident announce => by rw [judged] at announce; cases announce
      have joined : (s.advanceTo e).modLine i (Line.frameCollided ((s.line i).rx.any RxChar.noisy)
          (decide (judgeFrame (s.line i).rx = .bad))) = u := by
        rw [hu, judged]
        refine modLine_congr _ i ?_
        rw [line]
        rfl
      have uline : u.line i = (s.line i).frameCollided ((s.line i).rx.any RxChar.noisy) (decide (judgeFrame (s.line i).rx = .bad)) := by
        rw [← joined, modLine_line_same, line]
      rw [joined] at collided
      rw [collided]
      refine ⟨_, rfl, fun running => endIfOver_open (.inl (by rw [uline]; exact running)), fun elapsed => ?_⟩
      rw [endIfOver_over (by rw [uline]; exact elapsed) (by rw [uline]; exact quiet)]
      exact endDiscovery_ends i u

end Sys2Proof.Machine

/-! SUPPORT. A good ANNOUNCE, and the receiver of a line sample by sample (R27 to R29, R65, R80, R94). -/

namespace Sys2Proof.Machine

open Sys2Proof

/-! ### ANNOUNCE (R65, R80, R94) -/

theorem conflictRule_pollable (r : Endpoint) : (r.conflictRule).pollable = r.pollable := by
  unfold Endpoint.conflictRule Endpoint.pollable
  cases r.state <;> rfl

/-- An ANNOUNCE from a key with a record touches no line. -/
theorem updateRecord_conflict_lines (n : Nat) (s : State) : (s.updateRecord n Endpoint.conflictRule).lines = s.lines := by
  cases found : s.bySlot n with
  | none =>
    unfold State.updateRecord
    rw [found]
  | some r => exact updateRecord_lines found _ fun polled => (conflictRule_pollable r).trans polled

theorem newcomer_any_iff (s : State) (i : Fin 12) (addr : Nat) : (s.newcomers.any (fun n => n.line == i && n.addr == addr)) = true ↔
    ∃ n ∈ s.newcomers, n.line = i ∧ n.addr = addr := by
  simp

theorem newcomer_seen {s : State} {i : Fin 12} {addr : Nat} (ident : BitVec 32) (h : ∃ n ∈ s.newcomers, n.line = i ∧ n.addr = addr) :
    s.newcomer i addr ident = { s with newcomers := s.newcomers.map (fun n =>
      if n.line = i ∧ n.addr = addr then { n with identity := ident, timesSeen := min 255 (n.timesSeen + 1) } else n) } := by
  unfold State.newcomer
  rw [if_pos ((newcomer_any_iff ..).2 h)]
  refine congrArg (fun ns => ({ s with newcomers := ns } : State)) (List.map_congr_left fun n _ => ?_)
  exact if_congr (by rw [Bool.and_eq_true, beq_iff_eq, beq_iff_eq]) rfl rfl

theorem newcomer_lines (s : State) (i : Fin 12) (addr : Nat) (ident : BitVec 32) : (s.newcomer i addr ident).lines = s.lines := by
  unfold State.newcomer
  split
  · rfl
  · split <;> rfl

theorem eptAnnounce_lines (s : State) (i : Fin 12) (addr : Nat) (ident : BitVec 32) : (s.eptAnnounce i addr ident).lines = s.lines := by
  unfold State.eptAnnounce
  split
  · exact updateRecord_conflict_lines ..
  · exact newcomer_lines ..

theorem takeAnnounce_line (s : State) (i : Fin 12) (addr : Nat) (ident : BitVec 32) :
    (s.takeAnnounce i (.announce addr ident)).line i = s.line i := by
  show (if addrOk addr then s.eptAnnounce i addr ident else s).line i = s.line i
  split
  · unfold State.line
    rw [eptAnnounce_lines]
  · rfl

theorem takeAnnounce_inRange {s : State} {i : Fin 12} {addr : Nat} (ident : BitVec 32) (low : 1 ≤ addr) (top : addr ≤ 47) :
    s.takeAnnounce i (.announce addr ident) = s.eptAnnounce i addr ident := if_pos ((addrOk_iff addr).2 ⟨low, top⟩)

theorem eptAnnounce_stranger {s : State} {i : Fin 12} {addr : Nat} (ident : BitVec 32) (unheld : s.byKey i addr = none) :
    s.eptAnnounce i addr ident = s.newcomer i addr ident := by
  unfold State.eptAnnounce
  rw [unheld]

/-- Settles O25. -/
theorem announceReachesTheTables : Obligations.AnnounceReachesTheTables := by
  intro i dt v cs z addr ident u s discovering frame last announce hu
  obtain ⟨c, hc, samples⟩ := sample_completesFrame (dt := dt) frame
  cases last.symm.trans hc
  have ne : cs ≠ [] := fun none => by rw [none] at last; cases last
  have line := heard_endChar_line i dt v z s
  rw [heard_line_eq] at line
  have joined : ((s.heard i dt v).modLine i (Line.endChar z)).modLine i (Line.frameOver (noisyFrame cs)) = u := by
    rw [hu, modLine_modLine]
    refine modLine_congr _ i ?_
    show (Line.endChar z ((s.heard i dt v).line i)).frameOver (cs.any RxChar.noisy) = _
    rw [heard_line_eq]
    cases cs.any RxChar.noisy <;> rfl
  have uline : u.line i = (((s.heard i dt v).line i).endChar z).frameOver (noisyFrame cs) := by
    rw [← joined, modLine_line_same, modLine_line_same]
  have ended : State.frameEnded i cs ((s.heard i dt v).modLine i (Line.endChar z)) =
      (u.takeAnnounce i (.announce addr ident)).endIfOver i := by
    have state : (u.line i).state = .discovering := by
      rw [uline, heard_line_eq]
      exact discovering
    unfold State.frameEnded State.handFrame
    rw [if_neg ne, joined, state, (judgeFrame_announce ..).2 announce]
    rfl
  have kept : u.newcomers = s.newcomers ∧ u.byKey i addr = s.byKey i addr := by
    rw [hu]
    exact ⟨heard_newcomers i dt v s, heard_byKey i dt v s i addr⟩
  obtain ⟨newcomers, byKey⟩ := kept
  have elapsed : ((u.takeAnnounce i (.announce addr ident)).line i).windowElapsed = (s.line i).windowElapsed := by
    rw [takeAnnounce_line, uline, heard_line_eq]
    rfl
  have quiet : ((u.takeAnnounce i (.announce addr ident)).line i).charInWindow = false := by
    refine after_quiet (z := z) ?_
    rw [takeAnnounce_line, uline]
    rfl
  refine ⟨_, u.takeAnnounce i (.announce addr ident), congrArg Host.Outcome.next (samples.trans ended), fun running => ?_,
    fun past => ?_, fun out => ?_, fun r low top found => ?_, fun low top unheld seen => ?_, fun low top unheld unseen room => ?_,
    fun low top unheld unseen full => ?_⟩
  · exact endIfOver_open (.inl (elapsed.trans running))
  · rw [endIfOver_over (elapsed.trans past) quiet]
    exact endDiscovery_ends i _
  · exact if_neg (mt (addrOk_iff addr).1 out)
  · rw [takeAnnounce_inRange ident low top]
    unfold State.eptAnnounce
    rw [byKey, found]
    rfl
  · rw [takeAnnounce_inRange ident low top, eptAnnounce_stranger ident (byKey.trans unheld), newcomer_seen ident (by rwa [newcomers]),
      newcomers]
  · rw [takeAnnounce_inRange ident low top, eptAnnounce_stranger ident (byKey.trans unheld)]
    unfold State.newcomer
    rw [if_neg (by rwa [newcomer_any_iff, newcomers]), if_pos (by rwa [newcomers]), newcomers]
  · rw [takeAnnounce_inRange ident low top, eptAnnounce_stranger ident (byKey.trans unheld)]
    unfold State.newcomer
    rw [if_neg (by rwa [newcomer_any_iff, newcomers]), if_neg (by rw [newcomers]; omega)]

/-! ### The samples of a line (R27, R28, R29) -/

/-- A line's samples stand on the grid of sixteen to a bit time: the first at or after an instant (R27). -/
theorem sampleFrom_first (r : BitRate) (t : Nat) : ∃ k, r.sampleFrom t = k * r.bitNs / 16 ∧ t ≤ r.sampleFrom t ∧
    ∀ j, j < k → j * r.bitNs / 16 < t := by
  have unit := bitNs_pos r
  have reach := Nat.div_add_mod (16 * t + r.bitNs - 1) r.bitNs
  have rest := Nat.mod_lt (16 * t + r.bitNs - 1) unit
  refine ⟨(16 * t + r.bitNs - 1) / r.bitNs, rfl, ?_, fun j below => ?_⟩
  · unfold BitRate.sampleFrom
    generalize (16 * t + r.bitNs - 1) / r.bitNs = k at *
    rw [Nat.mul_comm k]
    omega
  · generalize (16 * t + r.bitNs - 1) / r.bitNs = k at *
    have fits : (j + 1) * r.bitNs ≤ k * r.bitNs := Nat.mul_le_mul_right _ below
    rw [Nat.add_mul, Nat.one_mul, Nat.mul_comm k] at fits
    omega

theorem heard_localNs_eq (i : Fin 12) (dt : Nat) (v : Bool) (s : State) : (s.heard i dt v).localNs =
    (s.line i).rate.sampleFrom (max (s.localNs + dt) ((s.line i).sampledAt + 1)) := by
  obtain ⟨k, _, later, _⟩ := sampleFrom_first (s.line i).rate (max (s.localNs + dt) ((s.line i).sampledAt + 1))
  rw [heard_localNs]
  exact max_eq_left (by unfold Line.sampleTime; omega)

theorem heard_epoch (i : Fin 12) (dt : Nat) (v : Bool) (s : State) : (s.heard i dt v).clk.epoch = s.clk.epoch :=
  (advance_clk_epoch _ (s.advance dt)).trans (advance_clk_epoch dt s)

theorem exec_sampled (i : Fin 12) (dt : Nat) (v : Bool) (s : State) :
    exec (.strayCharacter i dt [v]) s = .next ((s.heard i dt v).sampled i (s.line i).level v) :=
  congrArg Host.Outcome.next (sample_heard i dt v s)

theorem exec_listens {i : Fin 12} {dt : Nat} {v : Bool} {s : State} (calm : (s.line i).Undisturbed v) :
    exec (.strayCharacter i dt [v]) s = .next ((s.heard i dt v).listen i (s.line i).level v) := by
  rw [exec_sampled, sampled_listens calm]

theorem heard_receiver (i : Fin 12) (dt : Nat) (v : Bool) (s : State) : ((s.heard i dt v).line i).receiver = (s.line i).receiver := by
  rw [heard_line_eq]

/-- A sample that the receiver waits for more after (R27). -/
theorem listen_going {i : Fin 12} {was v : Bool} {s : State} {r : Receiver} (h : (s.line i).receiver.hear s.localNs
    ⟨s.clk.row, s.clk.epoch⟩ ((s.line i).rxOpen && !(s.line i).windowElapsed) was v = .going r) :
    s.listen i was v = s.modLine i (fun l => { l with receiver := r }) := by
  unfold State.listen
  rw [h]
  rfl

theorem listen_falseStart {i : Fin 12} {was v : Bool} {s : State} (h : (s.line i).receiver.hear s.localNs
    ⟨s.clk.row, s.clk.epoch⟩ ((s.line i).rxOpen && !(s.line i).windowElapsed) was v = .falseStart) :
    s.listen i was v = (s.modLine i (fun l => { l with receiver := .waiting })).settleWindow i := by
  unfold State.listen
  rw [h]
  rfl

theorem settleWindow_open {i : Fin 12} {s : State} (h : (s.line i).rx ≠ [] ∨ (s.line i).windowElapsed = false) :
    s.settleWindow i = s := by
  unfold State.settleWindow
  split
  · rename_i none
    have running := h.resolve_left (fun some' => some' none)
    split
    · exact missIfOver_open (.inl running)
    · exact endIfOver_open (.inl running)
    all_goals rfl
  · rfl

/-- The three deciding samples of a start bit: the last two taken and the one that comes (R27). -/
theorem ofBit_start {taken : List Bool} {a b : Bool} (len : taken.length = 8) (tail : taken.drop 6 = [a, b]) (v : Bool) :
    (BitSamples.ofBit (taken ++ [v]) 0).value = (a && b || a && v || b && v) := by
  have split := List.take_append_drop 6 taken
  rw [tail] at split
  have first : (taken.take 6).length = 6 := by rw [List.length_take, len]; rfl
  rw [← split]
  generalize taken.take 6 = early at first
  match early, first with
  | [t0, t1, t2, t3, t4, t5], _ => rfl

theorem exec_falseStart {i : Fin 12} {dt : Nat} {v a b : Bool} {s : State} {start : Nat} {edge : Capture} {w : Bool} {taken : List Bool}
    (calm : (s.line i).Undisturbed v) (receiver : (s.line i).receiver = .char start edge w taken) (len : taken.length = 8)
    (tail : taken.drop 6 = [a, b]) (idle : (a && b || a && v || b && v) = true) : exec (.strayCharacter i dt [v]) s =
      .next (((s.heard i dt v).modLine i (fun l => { l with receiver := .waiting })).settleWindow i) := by
  rw [exec_listens calm, listen_falseStart]
  rw [heard_receiver, receiver]
  exact if_pos ⟨by rw [List.length_append, len]; rfl, (ofBit_start len tail v).trans idle⟩

/-- Settles O29. -/
theorem strayCharacterIsCounted : Obligations.StrayCharacterIsCounted := by
  refine ⟨fun i dt vs v s c hc => ?_, fun i dt v s => ⟨?_, heard_line_eq i dt v s, fun off => ?_⟩, fun i dt v s calm =>
    ⟨fun waiting => ?_, fun held => ?_, fun start edge w taken receiver other short => ?_,
      fun start edge w taken a b receiver len tail => ⟨fun break' => ?_, fun idle open' => ?_, fun idle none elapsed => ?_⟩,
      fun start edge z completes => ⟨fun closed none => ?_, fun opened none => ?_, fun begun unmarked short => ?_⟩⟩⟩
  · have runs : ∀ vs, exec (c vs) s = .next ((s.advance dt).samples i vs) := fun vs => by
      simp only [List.mem_cons, List.not_mem_nil, or_false] at hc
      rcases hc with rfl | rfl | rfl | rfl | rfl | rfl | rfl <;> rfl
    exact ⟨runs [], runs vs, _, runs vs, (runs _).trans (congrArg Host.Outcome.next (samples_append ..))⟩
  · rw [heard_localNs_eq]
    exact sampleFrom_first ..
  · rw [exec_sampled]
    refine congrArg Host.Outcome.next (if_pos ?_)
    rw [heard_line_eq]
    exact off
  · rw [exec_listens calm, listen_going (by rw [heard_receiver, waiting]; rfl)]
    refine congrArg Host.Outcome.next ?_
    by_cases edge : (s.line i).level = true ∧ v = false
    · rw [if_pos edge, edge.1, edge.2, heard_epoch]
      rfl
    · have idle : ((s.line i).level && !v) = false := by
        rw [← Bool.not_eq_true, Bool.and_eq_true, Bool.not_eq_true']
        exact edge
      rw [if_neg edge, idle]
      refine modLine_id _ i ?_
      rw [heard_line_eq, ← waiting]
      rfl
  · rw [exec_listens calm, listen_going (by rw [heard_receiver, held]; rfl)]
  · rw [exec_listens calm, listen_going]
    rw [heard_receiver, receiver]
    unfold Receiver.hear Receiver.decided
    dsimp only
    rw [List.length_append, List.length_singleton, if_neg (by omega), if_neg (by omega)]
  · rw [exec_listens calm, listen_going]
    rw [heard_receiver, receiver]
    unfold Receiver.hear Receiver.decided
    dsimp only
    rw [List.length_append, List.length_singleton, ofBit_start len tail, break', if_neg (by simp), if_neg (by omega)]
  · rw [exec_falseStart calm receiver len tail idle, settleWindow_open]
    rw [modLine_line_same, heard_line_eq]
    exact open'
  · have line : ((s.heard i dt v).modLine i (fun l => { l with receiver := .waiting })).line i =
        { (s.heard i dt v).line i with receiver := .waiting } := modLine_line_same ..
    rw [heard_line_eq] at line
    rw [exec_falseStart calm receiver len tail idle]
    generalize (s.heard i dt v).modLine i (fun l => { l with receiver := .waiting }) = u at line ⊢
    have settles : u.settleWindow i = match (u.line i).state with
        | .polling => u.miss i
        | .discovering => u.endDiscovery i
        | _ => u := by
      unfold State.settleWindow
      rw [if_pos (by rw [line]; exact none), missIfOver_over (by rw [line]; exact elapsed) (by rw [line]; rfl),
        endIfOver_over (by rw [line]; exact elapsed) (by rw [line]; rfl)]
      cases (u.line i).state <;> rfl
    have state : (u.line i).state = (s.line i).state := by rw [line]
    refine ⟨fun polling => ⟨u.miss i, ?_, miss_misses i u⟩, fun discovering => ⟨u.endDiscovery i, ?_, endDiscovery_ends i u⟩⟩
    · rw [settles, state, polling]
    · rw [settles, state, discovering]
  all_goals
    have receives : exec (.strayCharacter i dt [v]) s = .next ((s.heard i dt v).receiveChar i start edge z) :=
      congrArg Host.Outcome.next (sample_completes completes)
    rw [receives]
    unfold State.receiveChar
    have kept : (((s.heard i dt v).modLine i (Line.endChar z)).line i).rx = (s.line i).rx ∧
        (((s.heard i dt v).modLine i (Line.endChar z)).line i).rxOpen = (s.line i).rxOpen := by
      rw [heard_endChar_line, heard_line_eq]
      exact ⟨rfl, rfl⟩
  · rw [if_pos (by rw [heard_line_eq]; exact none)]
    unfold State.firstChar
    rw [if_neg (by rw [kept.2, closed]; decide), modLine_modLine]
    rfl
  · rw [if_pos (by rw [heard_line_eq]; exact none)]
    unfold State.firstChar
    rw [if_pos (kept.2.trans opened), modLine_modLine]
    rfl
  · rw [if_neg (by rw [heard_line_eq]; exact begun), if_neg (by rw [unmarked]; decide)]
    unfold State.nextChar
    rw [kept.1, if_neg (mt (frameComplete_iff _).1 short), modLine_modLine]
    rfl

end Sys2Proof.Machine

/-! SUPPORT. The requests on lines and the recovery of a line (R34 to R37, R39, R40). -/

namespace Sys2Proof.Machine

open Sys2Proof

/-! ### What an abandonment and a cycle start leave of their line (R31, R43) -/

/-- An abandonment takes a line's transaction, its frames and its window, and may take slots off its lists (R31). -/
theorem abandon_line (i : Fin 12) (s : State) : ∃ p u, (s.abandon i).line i =
    { (s.line i).hush s.localNs with transaction := none, pollList := p, urgent := u } := by
  have line : (s.modLine i (Line.hush s.localNs)).line i = (s.line i).hush s.localNs := modLine_line_same ..
  unfold State.abandon State.endTransaction
  cases txn : ((s.modLine i (Line.hush s.localNs)).line i).transaction with
  | none =>
    rw [line] at txn
    have same : none = (s.line i).transaction := txn.symm
    refine ⟨(s.line i).pollList, (s.line i).urgent, line.trans ?_⟩
    rw [same]
    rfl
  | some x =>
    obtain ⟨p, u, moved⟩ := eptEnd_listsMoved x.slot .abandoned (s.modLine i (Line.hush s.localNs)) i
    refine ⟨p, u, ?_⟩
    dsimp only
    rw [modLine_line_same]
    have still : (((s.modLine i (Line.hush s.localNs)).eptEnd x.slot .abandoned).stsEnd x.slot
        ((s.modLine i (Line.hush s.localNs)).heldAnswer x.slot) .abandoned).line i =
        ((s.modLine i (Line.hush s.localNs)).eptEnd x.slot .abandoned).line i := by
      unfold State.line
      rw [(stsEnd_still ..).1]
    rw [still, moved, line]
    rfl

theorem abandon_tables (i : Fin 12) (s : State) : s.TablesMoved (s.abandon i) := by
  unfold State.abandon State.endTransaction
  split
  · rfl
  · have hushed : s.TablesMoved (s.modLine i (Line.hush s.localNs)) := rfl
    exact hushed.trans ((eptEnd_tables ..).trans ((stsEnd_tables ..).trans rfl))

theorem urgentPhase_keeps {P : Line → Prop} {i : Fin 12} {s : State}
    (poll : ∀ n slot addr, P (Line.beginPoll n slot addr (s.line i))) (disc : ∀ n, P (Line.beginDiscovery n (s.line i)))
    (rest : P (s.line i).rest) : P ((s.urgentPhase i).1.line i) := by
  unfold State.urgentPhase
  split
  · rw [beginTransaction_line]
    exact poll _ _ _
  · split
    · rw [modLine_line_same]
      exact disc _
    · rw [modLine_line_same]
      exact rest

/-- What a cycle's start, and each way for its first frame to go out or for the line to rest, keeps of its line. -/
theorem newCycle_keeps {P : Line → Prop} {i : Fin 12} {s : State} (starts : ∀ n b l, P (Line.startCycle n b l (s.line i)))
    (reach : ∀ l k, P l → P (l.reach k)) (urgent : ∀ l, P l → P l.toUrgent)
    (poll : ∀ l n slot addr, P l → P (l.beginPoll n slot addr)) (disc : ∀ l n, P l → P (l.beginDiscovery n))
    (rest : ∀ l, P l → P l.rest) : P ((s.newCycle i).line i) := by
  have start : P ((s.cycleStart i).line i) := by
    rw [cycleStart_line]
    exact starts _ _ _
  have phase : ((s.cycleStart i).line i).phase = .list ∧ ((s.cycleStart i).line i).overrun = false := by
    rw [cycleStart_line]
    exact ⟨rfl, rfl⟩
  unfold State.newCycle State.goOn
  rw [phase.1]
  dsimp only
  split
  · rw [beginTransaction_line, modLine_line_same]
    exact poll _ _ _ _ (reach _ _ start)
  · rw [phase.2, if_neg (by decide)]
    have turned : P (((s.cycleStart i).modLine i Line.toUrgent).line i) := by
      rw [modLine_line_same]
      exact urgent _ start
    exact urgentPhase_keeps (fun n slot addr => poll _ n slot addr turned) (fun n => disc _ n turned) (rest _ turned)

theorem newCycle_urgent_nil {i : Fin 12} {s : State} (none : (s.line i).urgent = []) : ((s.newCycle i).line i).urgent = [] := by
  refine newCycle_keeps (P := fun l => l.urgent = []) (fun _ _ _ => none) (fun _ _ h => h) (fun _ h => h) (fun l _ slot _ h => ?_)
    (fun _ _ h => h) (fun _ h => h)
  show l.urgent.filter _ = []
  rw [h]
  rfl

theorem newCycle_rate {i : Fin 12} {s : State} (taken : (s.line i).rate = (s.line i).cfgRate) :
    ((s.newCycle i).line i).rate = ((s.newCycle i).line i).cfgRate :=
  newCycle_keeps (P := fun l => l.rate = l.cfgRate) (fun _ _ _ => taken) (fun _ _ h => h) (fun _ h => h) (fun _ _ _ _ _ => rfl)
    (fun _ _ _ => rfl) (fun _ h => h)

/-! ### Recovery (R34) -/

/-- Settles O31. -/
theorem recoveryWatchBringsTheLineBack : Obligations.RecoveryWatchBringsTheLineBack := by
  refine ⟨fun i dt v w s fault watch => ?_, fun i dt e w s watch waits counted => ?_⟩
  · refine (congrArg Host.Outcome.next (sample_heard i dt v s)).trans ?_
    unfold State.sampled
    rw [heard_line_eq, if_neg (by rw [fault]; decide), if_pos fault]
    refine congrArg Host.Outcome.next (modLine_congr _ i ?_)
    unfold Line.watchIdle
    rw [heard_line_eq, watch]
    rfl
  · have instant : w.getD ((s.line i).sampleTime (s.localNs + dt)) + second = e := by
      cases w with
      | none =>
        rw [waits rfl, heard_localNs_eq]
        rfl
      | some n => exact (counted n rfl).symm
    have runs : exec (.lineRecovery i dt) s = .next (((s.advance dt).advanceTo e).recover i) := by
      show execLineRecovery i dt s = _
      unfold execLineRecovery
      rw [watch]
      dsimp only
      rw [instant]
    have line : ((s.advance dt).advanceTo e).line i = s.line i := (advanceTo_line ..).trans (advance_line ..)
    rw [runs]
    unfold State.recover State.resumeCycle
    rw [modLine_line_same, line]
    refine ⟨fun asked => ?_, fun going => ?_⟩
    · rw [if_pos (show (s.line i).watchFaults.quiesceReq = true from asked), modLine_modLine]
      rfl
    · rw [if_neg (by rw [show (s.line i).watchFaults.quiesceReq = false from going]; decide)]
      have starts := newCycle_starts i (((s.advance dt).advanceTo e).modLine i Line.watchFaults)
      have began := starts.line
      rw [modLine_line_same, line, modLine_localNs, advanceTo_localNs, advance_localNs] at began
      refine ⟨_, rfl, starts.kept.now.1.trans ?_, ⟨began.cycle, began.period, began.timer, began.marks, began.state, began.enable,
        began.quiesce, began.counters, began.watches, began.config⟩, starts⟩
      rw [modLine_localNs, advanceTo_localNs, advance_localNs]

/-! ### LINE_QUIESCE (R37) -/

section
variable {s : State} (frames : s.TakesFrames) (dt : Nat) (b : Byte)
include frames

theorem exec_lineQuiesce_taken :
    exec (.lineQuiesce dt [b]) s = .next (State.form 0x19 (lineQuiesceBlock [b] (s.accepting dt 1))) :=
  next_request_taken (n := 1) frames (by decide) dt rfl (by decide) _

theorem exec_lineResume_taken :
    exec (.lineResume dt [b]) s = .next (State.form 0x1A (lineResumeBlock [b] (s.accepting dt 1))) :=
  next_request_taken (n := 1) frames (by decide) dt rfl (by decide) _

theorem exec_lineReset_taken :
    exec (.lineReset dt [b]) s = .next (State.form 0x1B (lineResetBlock [b] (s.accepting dt 1))) :=
  next_request_taken (n := 1) frames (by decide) dt rfl (by decide) _

end

theorem accepting_now (dt n : Nat) (s : State) : (s.accepting dt n).localNs = s.localNs + dt := advance_localNs s dt

/-- Settles O33. -/
theorem lineQuiesceFollowsTheLineState : Obligations.LineQuiesceFollowsTheLineState := by
  intro dt b s frames
  have named : field [b] 0 1 = b.toNat := field_byte ..
  rw [exec_lineQuiesce_taken frames]
  unfold lineQuiesceBlock
  rw [named]
  refine ⟨fun range => by rw [lineOf_none.2 range]; rfl, fun i hi => ?_⟩
  rw [lineOf_some.2 hi]
  dsimp only
  unfold State.lineQuiesce
  rw [accepting_line]
  refine ⟨fun idle => by rw [idle]; rfl, fun discovering => ?_, fun asks => ?_, fun quiesced => by rw [quiesced]; rfl,
    fun off => by rw [off]; rfl⟩
  · rw [discovering]
    have line : ((s.accepting dt 1).modLine i (fun l => (l.hush (s.accepting dt 1).localNs).toQuiesced)).line i =
        ((s.line i).hush (s.accepting dt 1).localNs).toQuiesced := by rw [modLine_line_same, accepting_line]
    refine ⟨(s.accepting dt 1).modLine i (fun l => (l.hush (s.accepting dt 1).localNs).toQuiesced), rfl,
      modLine_congr _ i ?_, ?_⟩
    · rw [line, accepting_line]
      rfl
    · rw [line, accepting_now]
      exact cutTail_cutOff ..
  · rcases asks with state | state | state <;> rw [state] <;> rfl

/-! ### LINE_RESUME and LINE_RESET (R39, R40) -/

theorem not_begunNow {i : Fin 12} {s : State} (h : (s.line i).state ≠ .polling ∧ (s.line i).state ≠ .discovering) (b : Begun) :
    ¬s.BegunNow i b := by
  rintro ⟨_, _, discovering | ⟨polling, _⟩⟩
  · exact h.2 discovering
  · exact h.1 polling

/-- The enable field, the watches and the configuration of a line are what they were (R30). -/
structure Line.SameSetUp (old new : Line) : Prop where
  enable : new.enable = old.enable
  watches : new.faultWatch = old.faultWatch ∧ new.recoveryWatch = old.recoveryWatch
  config : new.cfgRate = old.cfgRate ∧ new.cfgPeriod = old.cfgPeriod ∧ new.replyWindow = old.replyWindow ∧
    new.discEnable = old.discEnable ∧ new.discWindow = old.discWindow ∧ new.missLimit = old.missLimit ∧
    new.delayLimit = old.delayLimit ∧ new.asymAllow = old.asymAllow ∧ new.driftAllow = old.driftAllow

theorem Line.SameSetUp.trans {a b c : Line} (h : a.SameSetUp b) (k : b.SameSetUp c) : a.SameSetUp c := by
  obtain ⟨h1, h2, h3, h4, h5, h6, h7, h8, h9⟩ := h.config
  obtain ⟨k1, k2, k3, k4, k5, k6, k7, k8, k9⟩ := k.config
  exact ⟨k.enable.trans h.enable, ⟨k.watches.1.trans h.watches.1, k.watches.2.trans h.watches.2⟩, k1.trans h1, k2.trans h2,
    k3.trans h3, k4.trans h4, k5.trans h5, k6.trans h6, k7.trans h7, k8.trans h8, k9.trans h9⟩

theorem foundIdle_setUp (i : Fin 12) (s : State) : (s.line i).SameSetUp ((s.foundIdle i).line i) := by
  have found := foundIdle_found i s
  by_cases now : ∃ b, s.BegunNow i b
  · obtain ⟨b, begun⟩ := now
    rw [found.line b begun]
    exact ⟨rfl, ⟨rfl, rfl⟩, rfl, rfl, rfl, rfl, rfl, rfl, rfl, rfl, rfl⟩
  · rw [found.asItStands (fun b begun => now ⟨b, begun⟩)]
    exact ⟨rfl, ⟨rfl, rfl⟩, rfl, rfl, rfl, rfl, rfl, rfl, rfl, rfl, rfl⟩

theorem abandon_setUp (i : Fin 12) (s : State) : (s.line i).SameSetUp ((s.abandon i).line i) := by
  obtain ⟨p, u, line⟩ := abandon_line i s
  rw [line]
  exact ⟨rfl, ⟨rfl, rfl⟩, rfl, rfl, rfl, rfl, rfl, rfl, rfl, rfl, rfl⟩

/-- A cycle begun on a line of the same set-up is one begun on the line with that cycle number, flag and counters. -/
theorem cycleBegun_of_setUp {now : Nat} {old mid new : Line} (began : Line.CycleBegun now mid new) (same : old.SameSetUp mid) :
    Line.CycleBegun now { old with cycle := mid.cycle, quiesceReq := mid.quiesceReq, counters := mid.counters } new := by
  obtain ⟨h1, h2, h3, h4, h5, h6, h7, h8, h9⟩ := same.config
  obtain ⟨k1, k2, k3, k4, k5, k6, k7, k8, k9⟩ := began.config
  exact ⟨began.cycle, began.period.trans h2, began.timer.trans (by rw [h2]), began.marks, began.state,
    began.enable.trans same.enable, began.quiesce, began.counters,
    ⟨began.watches.1.trans same.watches.1, began.watches.2.trans same.watches.2⟩, k1.trans h1, k2.trans h2, k3.trans h3,
    k4.trans h4, k5.trans h5, k6.trans h6, k7.trans h7, k8.trans h8, k9.trans h9⟩

/-- LINE_RESET's clearing of line `i`, found as R33 has it and abandoned (R40). -/
theorem lineCleared_eq (i : Fin 12) (s : State) : s.lineCleared i = State.modLine i Line.wipe
    { (s.foundIdle i).abandon i with newcomers := s.newcomers.filter (fun n => n.line != i) } := by
  have newcomers : ((s.foundIdle i).abandon i).newcomers = s.newcomers := by
    rw [abandon_tables i (s.foundIdle i), (foundIdle_found i s).rest]
  unfold State.lineCleared State.dropLineNewcomers
  rw [modLine_newcomers, newcomers]
  rfl

theorem lineCleared_line (i : Fin 12) (s : State) : (s.lineCleared i).line i = (((s.foundIdle i).abandon i).line i).wipe := by
  rw [lineCleared_eq, modLine_line_same]
  exact rfl

theorem lineCleared_setUp (i : Fin 12) (s : State) : (s.line i).SameSetUp ((s.lineCleared i).line i) := by
  rw [lineCleared_line]
  exact ((foundIdle_setUp i s).trans (abandon_setUp i _)).trans ⟨rfl, ⟨rfl, rfl⟩, rfl, rfl, rfl, rfl, rfl, rfl, rfl, rfl, rfl⟩

/-- What LINE_RESET's clearing leaves of the other tables (R40). -/
theorem lineCleared_rest (i : Fin 12) (s : State) : s.lineCleared i = { s with
    lines := (s.lineCleared i).lines, records := (s.lineCleared i).records, domains := (s.lineCleared i).domains
    racks := (s.lineCleared i).racks, newcomers := s.newcomers.filter (fun n => n.line != i) } := by
  rw [lineCleared_eq, abandon_tables i (s.foundIdle i), (foundIdle_found i s).rest]
  rfl

theorem lineCleared_now (i : Fin 12) (s : State) : (s.lineCleared i).localNs = s.localNs := by rw [lineCleared_rest]

theorem lineCleared_accepted (i : Fin 12) (dt n : Nat) (s : State) :
    ((s.accepting dt n).lineCleared i).newcomers = s.newcomers.filter (fun n => n.line != i) ∧
    ((s.accepting dt n).lineCleared i).overflow = s.overflow ∧
    ((s.accepting dt n).lineCleared i).port.causes = s.port.causes ∧
    ((s.accepting dt n).lineCleared i).clk = (s.advance dt).clk ∧
    ((s.accepting dt n).lineCleared i).chanA = s.chanA ∧ ((s.accepting dt n).lineCleared i).chanB = s.chanB := by
  rw [lineCleared_rest, accepting_newcomers]
  exact ⟨rfl, accepting_overflow dt n s, accepting_causes dt n s, rfl, accepting_chanA dt n s, accepting_chanB dt n s⟩

/-- LINE_RESET's clearing burns a grant of the transaction's record (R118, R145). -/
theorem lineCleared_domain {i : Fin 12} {s : State} {x : Transaction} {r : Endpoint} {g : Grant} {d : Domain}
    (txn : (s.line i).transaction = some x) (here : s.bySlot x.slot = some r) (answer : r.answer = some (.grant g))
    (domain : s.domain g.domain = some d) (unbegun : ∀ b, ¬s.BegunNow i b) :
    (s.lineCleared i).domain g.domain = if d.state = .retiring ∧ d.pendingDel ≤ 1 then none
      else some { d with pendingDel := d.pendingDel - 1, burned := min 4294967295 (d.burned + g.count) } := by
  have hushed : ((s.modLine i (Line.hush s.localNs)).line i).transaction = some x := by
    rw [modLine_line_same]
    exact txn
  rw [lineCleared_eq, (foundIdle_found i s).asItStands unbegun]
  exact ((endTransaction_ended hushed here .abandoned).granted g d answer domain).trans rfl

/-- Settles O34. -/
theorem lineResumeAndResetStartACycle : Obligations.LineResumeAndResetStartACycle := by
  intro dt b s frames
  have named : field [b] 0 1 = b.toNat := field_byte ..
  rw [exec_lineResume_taken frames, exec_lineReset_taken frames]
  unfold lineResumeBlock lineResetBlock
  rw [named]
  refine ⟨fun range => by rw [lineOf_none.2 range]; exact ⟨rfl, rfl⟩, fun i hi => ?_⟩
  rw [lineOf_some.2 hi]
  dsimp only
  unfold State.lineResume State.lineReset
  rw [accepting_line]
  have found := foundIdle_found i (s.accepting dt 1)
  have now := accepting_now dt 1 s
  refine ⟨fun quiesced => ?_, fun other => by rw [if_neg other]; rfl, fun stays => ?_, fun on fine => ?_,
    fun x r g d txn here answer domain unbegun => ?_⟩
  · have starts := newCycle_starts i (s.accepting dt 1)
    have began := starts.line
    rw [accepting_line, now] at began
    rw [if_pos quiesced]
    exact ⟨_, rfl, began, starts⟩
  · have stands : (s.accepting dt 1).foundIdle i = s.accepting dt 1 := found.asItStands <| not_begunNow <| by
      rw [accepting_line]
      rcases stays with state | state <;> rw [state] <;> decide
    obtain ⟨p, u, line⟩ := abandon_line i (s.accepting dt 1)
    have whole := lineCleared_eq i (s.accepting dt 1)
    have cleared := lineCleared_line i (s.accepting dt 1)
    have rest := lineCleared_accepted i dt 1 s
    rw [accepting_newcomers] at whole
    rw [stands] at whole cleared
    rw [line, accepting_line] at cleared
    rw [if_pos stays]
    generalize (s.accepting dt 1).lineCleared i = t at whole cleared rest ⊢
    refine ⟨t, rfl, ?_, ?_, ?_, ?_, ?_, ?_, ?_, ⟨_, abandon_abandons i (s.accepting dt 1), whole⟩, rest⟩
    iterate 7
      · rw [cleared]
        rfl
  · have away : ¬((s.line i).state = .off ∨ (s.line i).state = .fault) := fun h => h.elim on fine
    have whole := lineCleared_eq i (s.accepting dt 1)
    have cleared := lineCleared_line i (s.accepting dt 1)
    obtain ⟨newcomers, overflow, causes, clk, chanA, chanB⟩ := lineCleared_accepted i dt 1 s
    have instant := (lineCleared_now i (s.accepting dt 1)).trans now
    have setUp := lineCleared_setUp i (s.accepting dt 1)
    rw [accepting_newcomers] at whole
    rw [accepting_line] at setUp
    rw [if_neg away]
    generalize (s.accepting dt 1).lineCleared i = u at whole cleared newcomers overflow causes clk chanA chanB instant setUp ⊢
    have starts := newCycle_starts i u
    have began := cycleBegun_of_setUp starts.line setUp
    have urgent : ((u.newCycle i).line i).urgent = [] := newCycle_urgent_nil (by rw [cleared]; rfl)
    have zero : (u.line i).cycle = 0 ∧ (u.line i).quiesceReq = false ∧ (u.line i).counters = ⟨0, 0, 0, 0, 0, 0, 0⟩ := by
      rw [cleared]
      exact ⟨rfl, rfl, rfl⟩
    rw [instant, zero.1, zero.2.1, zero.2.2] at began
    generalize u.newCycle i = t at starts began urgent ⊢
    refine ⟨t, rfl, began, urgent, began.cycle, ⟨_, _, u, found, abandon_abandons i _, whole, starts⟩, starts.kept.newcomers.1.trans newcomers,
      starts.kept.newcomers.2.trans overflow, (congrArg Port.causes starts.kept.port).trans causes, starts.kept.clk.trans clk,
      starts.kept.chans.1.trans chanA, starts.kept.chans.2.trans chanB⟩
  · refine ⟨_, rfl, ?_⟩
    have cleared := lineCleared_domain (txn.symm ▸ congrArg Line.transaction (accepting_line dt 1 s i))
      ((accepting_bySlot dt 1 s x.slot).trans here) answer ((accepting_domain dt 1 s _).trans domain) unbegun
    split
    · exact cleared
    · refine Eq.trans ?_ cleared
      unfold State.domain
      rw [(newCycle_starts i ((s.accepting dt 1).lineCleared i)).kept.domains]

/-! ### LINE_CONFIG (R35, R36) -/

theorem exec_lineConfig_taken {s : State} (frames : s.TakesFrames) (dt : Nat) {body : List Byte} (len : body.length = 22) :
    exec (.lineConfig dt body) s = .next (State.form 0x18 (lineConfigBlock body (s.accepting dt 22))) :=
  next_request_taken frames (by decide) dt len (by decide) _

/-- The fields that LINE_CONFIG carries beside the enable are what they were (R35). -/
def Line.SameConfig (old new : Line) : Prop :=
  new.cfgRate = old.cfgRate ∧ new.cfgPeriod = old.cfgPeriod ∧ new.replyWindow = old.replyWindow ∧
    new.discEnable = old.discEnable ∧ new.discWindow = old.discWindow ∧ new.missLimit = old.missLimit ∧
    new.delayLimit = old.delayLimit ∧ new.asymAllow = old.asymAllow ∧ new.driftAllow = old.driftAllow

theorem lineConfigured_on {i : Fin 12} {body : List Byte} {s : State} (isCarried : (field body 1 2).testBit 0 = true)
    (on : flag body 3 0 = true) (off : (s.line i).state = .off) :
    s.lineConfigured i body = ((s.modLine i (Line.configure body)).modLine i Line.leaveOff).newCycle i := by
  unfold State.lineConfigured State.lineEnable
  rw [isCarried, on, modLine_line_same]
  exact (if_pos rfl).trans ((if_pos rfl).trans (if_pos off))

theorem lineConfigured_off {i : Fin 12} {body : List Byte} {s : State} (isCarried : (field body 1 2).testBit 0 = true)
    (off : flag body 3 0 = false) (on : (s.line i).state ≠ .off) :
    s.lineConfigured i body = ((s.modLine i (Line.configure body)).abandon i).modLine i Line.toOff := by
  unfold State.lineConfigured State.lineEnable
  rw [isCarried, off, modLine_line_same]
  exact (if_pos rfl).trans ((if_neg (by decide)).trans (if_neg on))

theorem lineConfigured_stays {i : Fin 12} {body : List Byte} {s : State}
    (h : (field body 1 2).testBit 0 = false ∨ (flag body 3 0 = true ↔ (s.line i).state ≠ .off)) :
    s.lineConfigured i body = s.modLine i (Line.configure body) := by
  unfold State.lineConfigured State.lineEnable
  rw [modLine_line_same]
  rcases h with h | h
  · rw [h]
    rfl
  · split
    · split
      · next on => exact if_neg (h.1 on)
      · next off => exact if_pos (Decidable.byContradiction fun k => off (h.2 k))
    · rfl

/-- The three things that LINE_CONFIG does to a line: it begins a cycle, it enters OFF, or only its fields are written (R36). -/
theorem lineConfigured_cases (i : Fin 12) (body : List Byte) (s : State) :
    s.lineConfigured i body = ((s.modLine i (Line.configure body)).modLine i Line.leaveOff).newCycle i ∨
    s.lineConfigured i body = ((s.modLine i (Line.configure body)).abandon i).modLine i Line.toOff ∨
    s.lineConfigured i body = s.modLine i (Line.configure body) := by
  unfold State.lineConfigured State.lineEnable State.lineOn State.lineOff
  split
  · split
    · split
      · exact .inl rfl
      · exact .inr (.inr rfl)
    · split
      · exact .inr (.inr rfl)
      · exact .inr (.inl rfl)
  · exact .inr (.inr rfl)

theorem lineConfigured_config (i : Fin 12) (body : List Byte) (s : State) :
    ((s.line i).configure body).SameConfig ((s.lineConfigured i body).line i) := by
  have written : (s.modLine i (Line.configure body)).line i = (s.line i).configure body := modLine_line_same ..
  rcases lineConfigured_cases i body s with h | h | h
  · have config := (newCycle_starts i ((s.modLine i (Line.configure body)).modLine i Line.leaveOff)).line.config
    rw [h]
    rw [modLine_line_same, written] at config
    exact config
  · have config := (abandon_setUp i (s.modLine i (Line.configure body))).config
    rw [h, modLine_line_same]
    rw [written] at config
    exact config
  · rw [h, written]
    exact ⟨rfl, rfl, rfl, rfl, rfl, rfl, rfl, rfl, rfl⟩

/-- What LINE_CONFIG leaves of the other tables (R35, R36). -/
theorem lineConfigured_rest (i : Fin 12) (body : List Byte) (s : State) :
    (s.lineConfigured i body).newcomers = s.newcomers ∧ (s.lineConfigured i body).overflow = s.overflow ∧
    (s.lineConfigured i body).port = s.port ∧ (s.lineConfigured i body).clk = s.clk ∧
    (s.lineConfigured i body).chanA = s.chanA ∧ (s.lineConfigured i body).chanB = s.chanB := by
  rcases lineConfigured_cases i body s with h | h | h
  · have kept := (newCycle_starts i ((s.modLine i (Line.configure body)).modLine i Line.leaveOff)).kept
    rw [h]
    exact ⟨kept.newcomers.1, kept.newcomers.2, kept.port, kept.clk, kept.chans.1, kept.chans.2⟩
  · rw [h, abandon_tables i (s.modLine i (Line.configure body))]
    exact ⟨rfl, rfl, rfl, rfl, rfl, rfl⟩
  · rw [h]
    exact ⟨rfl, rfl, rfl, rfl, rfl, rfl⟩

/-- A line given the configuration that LINE_CONFIG has written is the line that it writes. -/
theorem configure_of_config {l new : Line} {body : List Byte} (config : (l.configure body).SameConfig new) :
    { l with
      cfgRate := new.cfgRate, cfgPeriod := new.cfgPeriod, replyWindow := new.replyWindow, discEnable := new.discEnable
      discWindow := new.discWindow, missLimit := new.missLimit, delayLimit := new.delayLimit, asymAllow := new.asymAllow
      driftAllow := new.driftAllow } = l.configure body := by
  obtain ⟨h1, h2, h3, h4, h5, h6, h7, h8, h9⟩ := config
  rw [h1, h2, h3, h4, h5, h6, h7, h8, h9]
  rfl

/-- Settles O32. -/
theorem lineConfigWritesTheCarriedFields : Obligations.LineConfigWritesTheCarriedFields := by
  refine ⟨fun dt body s frames len range => ?_, fun dt body i answer s frames len named hanswer => ⟨fun bad => ?_, fun ok => ?_⟩⟩
  · rw [exec_lineConfig_taken frames dt len]
    unfold lineConfigBlock
    rw [lineOf_none.2 range]
    rfl
  · rw [exec_lineConfig_taken frames dt len]
    unfold lineConfigBlock
    rw [lineOf_some.2 named, bad]
    rfl
  · have runs : exec (.lineConfig dt body) s =
        .next (((s.accepting dt 22).lineConfigured i body).answering 0x18 .ok
          (answer (((s.accepting dt 22).lineConfigured i body).line i))) := by
      rw [exec_lineConfig_taken frames dt len]
      unfold lineConfigBlock
      rw [lineOf_some.2 named, ok, hanswer]
      rfl
    have config := lineConfigured_config i body (s.accepting dt 22)
    obtain ⟨newcomers, overflow, port, clk, chanA, chanB⟩ := lineConfigured_rest i body (s.accepting dt 22)
    have state : ((s.accepting dt 22).line i).state = (s.line i).state := by rw [accepting_line]
    have fields := configure_of_config config
    have written : ((s.accepting dt 22).modLine i (Line.configure body)).line i = (s.line i).configure body := by
      rw [modLine_line_same, accepting_line]
    rw [runs]
    obtain ⟨h1, h2, h3, h4, h5, h6, h7, h8, h9⟩ := accepting_line dt 22 s i ▸ config
    refine ⟨_, rfl, h1, h2, h3, h4, h5, h6, h7, h8, h9, fun isCarried on off => ?_, fun isCarried off on => ?_, fun h => ?_,
      newcomers.trans (accepting_newcomers ..), overflow.trans (accepting_overflow ..),
      (congrArg Port.causes port).trans (accepting_causes ..), clk, chanA.trans (accepting_chanA ..),
      chanB.trans (accepting_chanB ..)⟩
    · have eq := lineConfigured_on isCarried on (state.trans off)
      have starts := newCycle_starts i (((s.accepting dt 22).modLine i (Line.configure body)).modLine i Line.leaveOff)
      have began := starts.line
      have rate : ((s.accepting dt 22).lineConfigured i body |>.line i).rate =
          ((s.accepting dt 22).lineConfigured i body |>.line i).cfgRate := by
        rw [eq]
        exact newCycle_rate (by rw [modLine_line_same]; rfl)
      rw [← eq] at starts began
      rw [modLine_line_same, written] at began
      refine ⟨began.enable, rate, began.watches.1, began.cycle, began.period.trans began.config.2.1.symm, began.state, _, starts, ?_⟩
      rw [modLine_modLine]
      exact modLine_congr _ i ((congrArg Line.leaveOff fields.symm).trans rfl)
    · have eq := lineConfigured_off isCarried off (fun h => on (state.symm.trans h))
      obtain ⟨p, u, line⟩ := abandon_line i ((s.accepting dt 22).modLine i (Line.configure body))
      have abandons := abandon_abandons i ((s.accepting dt 22).modLine i (Line.configure body))
      have same := modLine_congr (g := fun l => _) (s.accepting dt 22) i fields.symm
      have went : ((s.accepting dt 22).lineConfigured i body).line i =
          (((s.accepting dt 22).modLine i (Line.configure body)).abandon i |>.line i).toOff := by
        rw [eq, modLine_line_same]
      rw [line, written] at went
      refine ⟨?_, ?_, ?_, ?_, ?_, ?_, ?_, ?_, ?_, ?_, ?_, ?_, _, same ▸ abandons, eq⟩
      iterate 12
        · rw [went]
          rfl
    · have eq := lineConfigured_stays (i := i) (body := body) (s := s.accepting dt 22) (by rw [state]; exact h)
      have still : ((s.accepting dt 22).lineConfigured i body).line i = (s.line i).configure body := by rw [eq, written]
      refine ⟨eq.trans (modLine_congr _ i fields.symm), ?_, ?_, ?_, ?_, ?_⟩
      iterate 4
        · rw [still]
          rfl
      · rw [eq]
        exact accepting_records dt 22 s

end Sys2Proof.Machine

/-! SUPPORT. The fault of a line (R32 to R34, R82, R162). -/

namespace Sys2Proof.Machine

open Sys2Proof

/-! ### The fault as EPT and DWU take it (R82, R161, R162) -/

/-- A record after a fault of line `i` (R82). -/
def Endpoint.afterFault (i : Fin 12) (r : Endpoint) : Endpoint :=
  if r.line = i ∧ (r.state = .enrolling ∨ r.state = .tracking ∨ r.state = .suspect) then { r with state := .lost, goodCount := 0 } else r

theorem afterFault_slot (i : Fin 12) (r : Endpoint) : (r.afterFault i).slot = r.slot := by
  unfold Endpoint.afterFault
  split <;> rfl

theorem afterFault_own {i : Fin 12} {r : Endpoint} (own : r.line = i) : r.afterFault i = { r with
    state := if r.state = .enrolling ∨ r.state = .tracking ∨ r.state = .suspect then .lost else r.state
    goodCount := if r.state = .enrolling ∨ r.state = .tracking ∨ r.state = .suspect then 0 else r.goodCount } := by
  unfold Endpoint.afterFault
  by_cases tracked : r.state = .enrolling ∨ r.state = .tracking ∨ r.state = .suspect
  · rw [if_pos ⟨own, tracked⟩, if_pos tracked, if_pos tracked]
  · rw [if_neg (fun h => tracked h.2), if_neg tracked, if_neg tracked]

theorem faultRule_pollable (r : Endpoint) : r.faultRule.pollable = r.pollable := by
  unfold Endpoint.faultRule Endpoint.pollable
  cases state : r.state <;> simp [state]

/-- What an abandonment settles of a record that no SUSPEND or RETIRE waits for (R102). -/
theorem atEnd_abandoned {r : Endpoint} (no : r.withdrawal = .no) : r.atEnd .abandoned = { r with
    inTxn := false, toSend := none, answer := none
    ackSeq := if r.toSend = none then r.ackSeq else r.cmdSeq
    unack := if r.toSend = none ∨ r.ackSeq = r.cmdSeq then r.unack else 0 } := by
  unfold Endpoint.atEnd
  rw [no]
  by_cases nothing : r.toSend = none <;> by_cases settled : r.ackSeq = r.cmdSeq <;> simp [nothing, settled]

theorem eptLineFault_moved (i : Fin 12) (s : State) : s.RecordsMoved (s.eptLineFault i) :=
  foldl_recordsMoved _ faultRule_pollable _ s

/-- A rule for records of line `i` leaves the member counts of the other racks (R152). -/
theorem foldl_updateRecord_otherRack (f : Endpoint → Endpoint) {i j : Fin 12} (other : j ≠ i) (ns : List Nat) {s : State}
    (own : ∀ n ∈ ns, ∀ r, s.bySlot n = some r → r.line = i) :
    (ns.foldl (fun s n => s.updateRecord n f) s).rack j = s.rack j := by
  induction ns generalizing s with
  | nil => rfl
  | cons n ns ih =>
    cases found : s.bySlot n with
    | none =>
      have same : s.updateRecord n f = s := by
        unfold State.updateRecord
        rw [found]
      rw [List.foldl_cons, same]
      exact ih fun m hm => own m (List.mem_cons_of_mem n hm)
    | some r =>
      have line := own n List.mem_cons_self r found
      have moved := membersMoved_still (updateRecord_moved found f) (j := j) (fun h => other (h.1.trans line))
      have lookup := bySlot_put (updateRecord_found f found) found (bySlot_spec found).2
      refine (ih fun m hm q hq => ?_).trans moved
      rw [lookup m] at hq
      split at hq
      · exact Option.some.inj hq ▸ line
      · exact own m (List.mem_cons_of_mem n hm) q hq

theorem eptLineFault_otherRack {i j : Fin 12} (other : j ≠ i) {s : State} (rise : s.SlotsRise) :
    (s.eptLineFault i).rack j = s.rack j := by
  refine foldl_updateRecord_otherRack _ other _ fun n hn r found => ?_
  obtain ⟨q, hq, slot⟩ := List.mem_map.1 hn
  obtain ⟨here, line⟩ := List.mem_filter.1 hq
  have same : r = q := slot_unique rise (bySlot_spec found).1 here ((bySlot_spec found).2.trans slot.symm)
  rw [same]
  exact eq_of_beq line

/-- Entry to ALARM, its changed flag among its rack's changes (R121, R161, R163). -/
theorem enterAlarm_eq (i : Fin 12) (c : AlarmCause) (s : State) : s.enterAlarm i c =
    ((s.alarmNotice i).modRack i (fun r => { Rack.toAlarm c r with changed := true })).raise .rack := by
  have moved : (s.modRack i (Rack.toAlarm c)).alarmNotice i = (s.alarmNotice i).modRack i (Rack.toAlarm c) := by
    unfold State.alarmNotice
    rw [modRack_domains]
    split <;> rfl
  unfold State.enterAlarm
  rw [moved, rackChanged_eq]

/-- The watch states that a line fault takes to ALARM (R162). -/
def Rack.Alarmable (r : Rack) : Prop := r.watch = .quiet ∨ r.watch = .watch ∨ r.watch = .warn

theorem rackLineFault_alarms {i : Fin 12} {s : State} (alarm : (s.rack i).Alarmable) :
    s.rackLineFault i = s.enterAlarm i .lineFault := by
  unfold State.rackLineFault
  rcases alarm with h | h | h <;> rw [h]

theorem rackLineFault_stays {i : Fin 12} {s : State} (calm : ¬(s.rack i).Alarmable) : s.rackLineFault i = s := by
  unfold State.rackLineFault
  unfold Rack.Alarmable at calm
  split <;> simp_all

/-- What a fault of line `i` does after the abandonment (R32, R82, R121, R161, R162). -/
structure State.Faults (i : Fin 12) (w t : State) : Prop where
  rest : t = { w with lines := t.lines, records := t.records, racks := t.racks, domains := t.domains, port := t.port }
  line : t.line i = (w.line i).toFault
  other : ∀ j, j ≠ i → t.line j = w.line j
  raised : t.port.isPending .line = true
  records : w.SlotsRise → t.records = w.records.map (Endpoint.afterFault i)
  racks : w.SlotsRise → ∀ j, j ≠ i → t.rack j = w.rack j
  alarm : (w.rack i).Alarmable → t.rack i = { w.rack i with
      members := (t.rack i).members, watch := .alarm, cause := some .lineFault, dwell := 0, repeats := 0, changed := true } ∧
    t.domains = w.domains.map (fun d =>
      if d.state = .opened ∧ d.fence = .freezeDomain ∧ d.members.getLsbD i = true then
        { d with state := .frozen, cause := some (.rack i) } else d) ∧ t.port.isPending .rack = true
  calm : ¬(w.rack i).Alarmable → t.rack i = { w.rack i with members := (t.rack i).members } ∧ t.domains = w.domains
  fence : t.port.isPending .domain = true ↔ w.port.isPending .domain = true ∨
    (w.rack i).Alarmable ∧ ∃ d ∈ w.domains, d.state = .opened ∧ d.fence = .freezeDomain ∧ d.members.getLsbD i = true

theorem fault_faults (i : Fin 12) (w : State) :
    w.Faults i ((((w.modLine i Line.toFault).eptLineFault i).rackLineFault i).raise .line) := by
  have moved := eptLineFault_moved i (w.modLine i Line.toFault)
  have records := fun rise : w.SlotsRise => eptLineFault_records i (s := w.modLine i Line.toFault) rise
  have racks := fun (rise : w.SlotsRise) (j : Fin 12) (other : j ≠ i) =>
    eptLineFault_otherRack other (s := w.modLine i Line.toFault) rise
  have line : (w.modLine i Line.toFault).line i = (w.line i).toFault := modLine_line_same ..
  have others : ∀ j, j ≠ i → (w.modLine i Line.toFault).line j = w.line j := fun j h => modLine_line_other _ _ (Ne.symm h)
  generalize (w.modLine i Line.toFault).eptLineFault i = b at moved records racks ⊢
  have lines : ∀ j, b.line j = (w.modLine i Line.toFault).line j := fun j => by rw [moved.rest]; rfl
  have rack : b.rack i = { w.rack i with members := (b.rack i).members } := moved.racks i
  have same : (b.rack i).Alarmable ↔ (w.rack i).Alarmable := by
    unfold Rack.Alarmable
    rw [rack]
  have kept : b.localNs = w.localNs ∧ b.domains = w.domains ∧ b.port = w.port := by rw [moved.rest]; exact ⟨rfl, rfl, rfl⟩
  by_cases alarm : (w.rack i).Alarmable
  · rw [rackLineFault_alarms (same.2 alarm), enterAlarm_eq]
    have only := alarmNotice_only i b
    have domains := alarmNotice_domains i b
    have pending := alarmNotice_pending i b
    rw [kept.2.1] at domains
    rw [kept.2.1, kept.2.2] at pending
    generalize b.alarmNotice i = c at only domains pending ⊢
    have racked : c.rack i = b.rack i := by rw [only]; rfl
    refine ⟨?_, ?_, fun j other => ?_, ?_, fun rise => ?_, fun rise j other => ?_, fun _ => ⟨?_, domains, ?_⟩, fun h => absurd alarm h, ?_⟩
    · rw [only, moved.rest]
      rfl
    · rw [only]
      exact (lines i).trans line
    · rw [only]
      exact (lines j).trans (others j other)
    · exact (raise_isPending ..).2 (.inr rfl)
    · rw [only]
      exact records rise
    · rw [raise_rack, raise_rack, modRack_rack_other _ _ (Ne.symm other), only]
      exact racks rise j other
    · rw [raise_rack, raise_rack, modRack_rack_same, racked, rack]
      rfl
    · exact (raise_isPending ..).2 (.inl ((raise_isPending ..).2 (.inr rfl)))
    · rw [raise_isPending, raise_isPending, modRack_port, pending]
      exact (or_iff_left (by decide)).trans ((or_iff_left (by decide)).trans (or_congr_right (and_iff_right alarm).symm))
  · rw [rackLineFault_stays (mt same.1 alarm)]
    refine ⟨?_, (lines i).trans line, fun j other => (lines j).trans (others j other), (raise_isPending ..).2 (.inr rfl), records,
      racks, fun h => absurd h alarm, fun _ => ⟨rack, kept.2.1⟩, ?_⟩
    · rw [moved.rest]
      rfl
    · rw [raise_isPending, kept.2.2]
      exact (or_iff_left (by decide)).trans (or_iff_left fun h => alarm h.1).symm

/-! ### The abandonment before it (R31 to R33) -/

theorem abandon_racks (i j : Fin 12) (s : State) :
    (s.abandon i).rack j = { s.rack j with members := ((s.abandon i).rack j).members } := by
  have ept : ∀ (n : Nat) (u : State), (u.eptEnd n .abandoned).rack j =
      { u.rack j with members := ((u.eptEnd n .abandoned).rack j).members } := fun n u => by
    unfold State.eptEnd
    split
    · rfl
    · next r found =>
      split
      · exact (removeRecord_rack found j).1
      · exact (updateRecord_moved found _ j).1
  unfold State.abandon State.endTransaction
  split
  · rfl
  · next x _ =>
    have still : ∀ u : State, ∀ a, (u.stsEnd x.slot a .abandoned |>.modLine i Line.noTransaction).rack j = u.rack j := fun u a => by
      unfold State.rack
      rw [modLine_racks, (stsEnd_still ..).2]
    rw [still]
    exact ept x.slot (s.modLine i (Line.hush s.localNs))

/-- An abandonment of a transaction whose record no SUSPEND or RETIRE waits for leaves the urgent queue (R31, R51). -/
theorem abandon_urgent {i : Fin 12} {s : State}
    (stays : ∀ x r, (s.line i).transaction = some x → s.bySlot x.slot = some r → r.withdrawal = .no) :
    ((s.abandon i).line i).urgent = (s.line i).urgent := by
  have hushed : (s.modLine i (Line.hush s.localNs)).line i = (s.line i).hush s.localNs := modLine_line_same ..
  unfold State.abandon State.endTransaction
  cases txn : ((s.modLine i (Line.hush s.localNs)).line i).transaction with
  | none =>
    dsimp only
    rw [hushed]
    rfl
  | some x =>
    have still : ∀ u : State, ∀ a, ((u.stsEnd x.slot a .abandoned).modLine i Line.noTransaction |>.line i).urgent =
        (u.line i).urgent := fun u a => by
      have line : (u.stsEnd x.slot a .abandoned).line i = u.line i := by
        unfold State.line
        rw [(stsEnd_still ..).1]
      rw [modLine_line_same, ← line]
      rfl
    dsimp only
    rw [still]
    cases found : s.bySlot x.slot with
    | none =>
      unfold State.eptEnd
      rw [modLine_bySlot, found]
      dsimp only
      rw [hushed]
      rfl
    | some r =>
      rw [hushed] at txn
      have no := stays x r txn found
      have lines := updateRecord_lines (s := s.modLine i (Line.hush s.localNs)) found (Endpoint.endRule .abandoned) (fun p => by
        rw [← p]
        have settled := endRule_settled .abandoned (r := r) (by rw [no]; decide)
        have state : (r.endRule .abandoned).state = r.state := (congrArg Endpoint.state settled).trans (if_neg (by rw [no]; decide))
        have withdrawal : (r.endRule .abandoned).withdrawal = r.withdrawal :=
          (congrArg Endpoint.withdrawal settled).trans no.symm
        unfold Endpoint.keepKey Endpoint.pollable
        rw [← state, ← withdrawal])
      unfold State.eptEnd
      rw [modLine_bySlot, found]
      dsimp only
      rw [if_neg (by rw [no]; decide)]
      unfold State.line at hushed ⊢
      rw [lines, hushed]
      rfl

theorem abandon_slotsRise (i : Fin 12) {s : State} (rise : s.SlotsRise) : (s.abandon i).SlotsRise :=
  endTransaction_slotsRise (s := s.modLine i (Line.hush s.localNs)) i .abandoned rise

/-- The record of the transaction abandoned (R31, R90, R102). -/
theorem abandon_bySlot {i : Fin 12} {s : State} {x : Transaction} {r : Endpoint} (txn : (s.line i).transaction = some x)
    (found : s.bySlot x.slot = some r) (m : Nat) : (s.abandon i).bySlot m =
      if m = x.slot then (if r.withdrawal = .retire then none else some (r.atEnd .abandoned)) else s.bySlot m := by
  have hushed : ((s.modLine i (Line.hush s.localNs)).line i).transaction = some x := by
    rw [modLine_line_same]
    exact txn
  exact (endTransaction_ended hushed found .abandoned).found m

theorem abandon_idle {i : Fin 12} {s : State} (idle : (s.line i).transaction = none) :
    s.abandon i = s.modLine i (Line.hush s.localNs) := by
  have hushed : ((s.modLine i (Line.hush s.localNs)).line i).transaction = none := by
    rw [modLine_line_same]
    exact idle
  unfold State.abandon State.endTransaction
  rw [hushed]

/-- Beside the transaction's record the table is what it was (R31). -/
theorem abandon_bySlot_other {i : Fin 12} {s : State} {m : Nat}
    (other : ∀ x r, (s.line i).transaction = some x → s.bySlot x.slot = some r → x.slot ≠ m) :
    (s.abandon i).bySlot m = s.bySlot m := by
  cases txn : (s.line i).transaction with
  | none => rw [abandon_idle txn, modLine_bySlot]
  | some x =>
    cases found : s.bySlot x.slot with
    | some r => rw [abandon_bySlot txn found, if_neg (Ne.symm (other x r txn found))]
    | none =>
      have hushed : ((s.modLine i (Line.hush s.localNs)).line i).transaction = some x := by
        rw [modLine_line_same]
        exact txn
      unfold State.abandon State.endTransaction State.eptEnd State.heldAnswer
      rw [hushed]
      have missing : (s.modLine i (Line.hush s.localNs)).bySlot x.slot = none := found
      dsimp only
      rw [missing]
      rfl

theorem foundIdle_slotsRise (i : Fin 12) {s : State} (rise : s.SlotsRise) : (s.foundIdle i).SlotsRise := by
  have found := foundIdle_found i s
  by_cases begun : ∃ b, s.BegunNow i b
  · obtain ⟨b, begun⟩ := begun
    refine slotsRise_of_plain ?_ rise
    rw [found.records b begun rise, List.map_map]
    refine List.map_congr_left fun r _ => ?_
    show Endpoint.plain (if _ then _ else _) = _
    split <;> rfl
  · rw [found.asItStands fun b h => begun ⟨b, h⟩]
    exact rise

theorem foundIdle_bySlot {i : Fin 12} {s : State} {b : Begun} (begun : s.BegunNow i b) (rise : s.SlotsRise) (m : Nat) :
    (s.foundIdle i).bySlot m = (s.bySlot m).map (fun r =>
      if (s.line i).transaction.map Transaction.slot = some r.slot then { r with inTxn := false } else r) :=
  bySlot_map ((foundIdle_found i s).records b begun rise) (fun r => by split <;> rfl) m

/-- The table as the fault's own steps find it, beside the transaction's record (R31, R33). -/
theorem faultFound_bySlot_other {i : Fin 12} {s : State} (rise : s.SlotsRise) {m : Nat}
    (other : ∀ x r, (s.line i).transaction = some x → s.bySlot x.slot = some r → x.slot ≠ m) :
    ((s.foundIdle i).abandon i).bySlot m = s.bySlot m := by
  have found := foundIdle_found i s
  by_cases begun : ∃ b, s.BegunNow i b
  · obtain ⟨b, begun⟩ := begun
    have idle : ((s.foundIdle i).line i).transaction = none := by rw [found.line b begun]
    rw [abandon_idle idle, modLine_bySlot, foundIdle_bySlot begun rise]
    cases here : s.bySlot m with
    | none => rfl
    | some r =>
      rw [Option.map_some, if_neg]
      cases txn : (s.line i).transaction with
      | none => simp
      | some x =>
        have slot := (bySlot_spec here).2
        have apart : x.slot ≠ m := fun same => other x r txn (same.symm ▸ here) same
        simp only [Option.map_some, Option.some.injEq, slot]
        exact apart
  · have stands := found.asItStands fun b h => begun ⟨b, h⟩
    rw [stands]
    exact abandon_bySlot_other other

/-- The record of a transaction found not begun (R33). -/
theorem faultFound_bySlot_begun {i : Fin 12} {s : State} {b : Begun} (begun : s.BegunNow i b) (rise : s.SlotsRise)
    {x : Transaction} {r : Endpoint} (txn : (s.line i).transaction = some x) (here : s.bySlot x.slot = some r) :
    ((s.foundIdle i).abandon i).bySlot x.slot = some { r with inTxn := false } := by
  have idle : ((s.foundIdle i).line i).transaction = none := by rw [(foundIdle_found i s).line b begun]
  rw [abandon_idle idle, modLine_bySlot, foundIdle_bySlot begun rise, here, Option.map_some, if_pos]
  rw [txn, (bySlot_spec here).2]
  rfl

/-- What a start found not begun leaves of its line (R33). -/
theorem foundIdle_line_kept (i : Fin 12) (s : State) :
    ((s.foundIdle i).line i).counters = (s.line i).counters ∧ ((s.foundIdle i).line i).cycle = (s.line i).cycle ∧
    ((s.foundIdle i).line i).tail = (s.line i).tail ∧ ((s.foundIdle i).line i).quiesceReq = (s.line i).quiesceReq ∧
    (((s.foundIdle i).line i).state == .quiesced) = ((s.line i).state == .quiesced) := by
  have found := foundIdle_found i s
  by_cases begun : ∃ b, s.BegunNow i b
  · obtain ⟨b, begun⟩ := begun
    rw [found.line b begun]
    obtain ⟨_, _, state | ⟨state, _⟩⟩ := begun <;> rw [state] <;> exact ⟨rfl, rfl, rfl, rfl, rfl⟩
  · rw [found.asItStands fun b h => begun ⟨b, h⟩]
    exact ⟨rfl, rfl, rfl, rfl, rfl⟩

theorem faultFound_tables (i : Fin 12) (s : State) : s.TablesMoved ((s.foundIdle i).abandon i) := by
  have rest : s.TablesMoved (s.foundIdle i) := by
    have rest := (foundIdle_found i s).rest
    generalize s.foundIdle i = z at rest
    rw [rest]
  exact rest.trans (abandon_tables i _)

/-- The racks as the fault's own steps find them (R31, R33, R69). -/
theorem faultFound_rack (i j : Fin 12) (s : State) : ((s.foundIdle i).abandon i).rack j =
    { s.rack j with members := (((s.foundIdle i).abandon i).rack j).members } := by
  have same : (s.foundIdle i).rack j = s.rack j := by
    rw [(foundIdle_found i s).rest]
    rfl
  rw [← same]
  exact abandon_racks i j _

/-- What a fault makes of the table, record by record (R31, R33, R82, R90, R102). -/
structure State.FaultRecords (i : Fin 12) (u t : State) : Prop where
  others : ∀ r ∈ u.records, (∀ x, (u.line i).transaction = some x → x.slot ≠ r.slot) → r.afterFault i ∈ t.records
  begun : ∀ x r b, (u.line i).transaction = some x → u.bySlot x.slot = some r → u.BegunNow i b →
    t.bySlot x.slot = some (({ r with inTxn := false } : Endpoint).afterFault i)
  ended : ∀ x r, (u.line i).transaction = some x → u.bySlot x.slot = some r → (∀ b, ¬u.BegunNow i b) →
    t.bySlot x.slot = if r.withdrawal = .retire then none else some ((r.atEnd .abandoned).afterFault i)
  slots : ∀ q ∈ t.records, ∃ r ∈ u.records, r.slot = q.slot

theorem faultRecords {i : Fin 12} {u t : State} (rise : u.SlotsRise)
    (records : t.records = ((u.foundIdle i).abandon i).records.map (Endpoint.afterFault i)) : u.FaultRecords i t := by
  have lookup := bySlot_map records (afterFault_slot i)
  have rises := abandon_slotsRise i (foundIdle_slotsRise i rise)
  refine ⟨fun r hr other => ?_, fun x r b txn here begun => ?_, fun x r txn here unbegun => ?_, fun q hq => ?_⟩
  · rw [records]
    refine List.mem_map_of_mem (bySlot_spec ((faultFound_bySlot_other rise fun x _ txn _ => other x txn).trans (bySlot_of_mem rise hr))).1
  · rw [lookup, faultFound_bySlot_begun begun rise txn here]
    rfl
  · rw [lookup, (foundIdle_found i u).asItStands unbegun, abandon_bySlot txn here, if_pos rfl]
    split <;> rfl
  · rw [records] at hq
    obtain ⟨p, hp, rfl⟩ := List.mem_map.1 hq
    have slot := afterFault_slot i p
    by_cases subject : ∃ x r, (u.line i).transaction = some x ∧ u.bySlot x.slot = some r ∧ x.slot = p.slot
    · obtain ⟨x, r, txn, here, same⟩ := subject
      exact ⟨r, (bySlot_spec here).1, (bySlot_spec here).2.trans (same.trans slot.symm)⟩
    · have kept := faultFound_bySlot_other rise (m := p.slot) fun x r txn here same => subject ⟨x, r, txn, here, same⟩
      rw [bySlot_of_mem rises hp] at kept
      exact ⟨p, (bySlot_spec kept.symm).1, slot.symm⟩

theorem heard_rack (i j : Fin 12) (dt : Nat) (v : Bool) (s : State) :
    ((s.heard i dt v).rack j).watch = (s.rack j).watch ∧ ((s.heard i dt v).rack j).cause = (s.rack j).cause := by
  have kept : ∀ (d : Nat) (u : State), ((u.advance d).rack j).watch = (u.rack j).watch ∧
      ((u.advance d).rack j).cause = (u.rack j).cause := fun d u => by
    obtain ⟨c, b, rack⟩ := advance_rack d u j
    rw [rack]
    exact ⟨rfl, rfl⟩
  exact ⟨(kept _ (s.advance dt)).1.trans (kept dt s).1, (kept _ (s.advance dt)).2.trans (kept dt s).2⟩

/-! ### LINE_FAULT -/

theorem exec_lineFault (i : Fin 12) (dt : Nat) (v : Bool) (s : State) :
    exec (.lineFault i ⟨dt, [v]⟩) s = .next ((s.heard i dt v).sampled i (s.line i).level v) :=
  congrArg Host.Outcome.next (sample_heard i dt v s)

theorem listen_held {i : Fin 12} {was v : Bool} {s : State} (held : (s.line i).receiver = .held) :
    s.listen i was v = s.modLine i (fun l => { l with receiver := if v then .waiting else .held }) :=
  listen_going (by rw [held]; rfl)

theorem sampled_faults {i : Fin 12} {dt n : Nat} {was : Bool} {s : State} (on : (s.line i).state ≠ .off) (fine : (s.line i).state ≠ .fault)
    (watch : (s.line i).faultWatch = some n) (long : 352 ≤ n + 1) :
    (s.heard i dt false).sampled i was false = (s.heard i dt false).lineFault i := by
  have line := heard_line_eq i dt false s
  have faulty : ((s.heard i dt false).line i).faulty = true := by
    rw [line, watch]
    exact decide_eq_true long
  unfold State.sampled
  rw [if_neg (by rw [line]; exact on), if_neg (by rw [line]; exact fine), if_pos faulty]

/-- Settles O30. -/
theorem lineFaultStopsTheLine : Obligations.LineFaultStopsTheLine := by
  refine ⟨fun i dt n v s on fine watch short => ?_, fun i dt n u s on fine watch long hu => ?_⟩
  · have calm : (s.line i).Undisturbed v := ⟨⟨on, fine⟩, fun m hm low => by
      have same : m = n := Option.some.inj (hm.symm.trans watch)
      rcases short with high | short
      · rw [high] at low
        cases low
      · omega⟩
    rw [exec_lineFault, sampled_listens calm]
    have line := heard_line_eq i dt v s
    have receiver := heard_receiver i dt v s
    generalize s.heard i dt v = u at line receiver ⊢
    refine ⟨_, rfl, fun _ held low => ?_, fun held => ?_⟩
    · rw [listen_held (receiver.trans held), low]
      refine modLine_id u i ?_
      show { u.line i with receiver := .held } = u.line i
      rw [← held, ← receiver]
    · rw [listen_held (receiver.trans held), modLine_line_same, line, watch]
      exact ⟨rfl, rfl⟩
  · have heardLine : u.line i = _ := hu ▸ heard_line_eq i dt false s
    have records : u.records = s.records := hu ▸ heard_records i dt false s
    have bySlot : ∀ m, u.bySlot m = s.bySlot m := fun m => hu ▸ heard_bySlot i dt false s m
    have newcomers : u.newcomers = s.newcomers := hu ▸ heard_newcomers i dt false s
    have overflow : u.overflow = s.overflow := hu ▸ heard_overflow i dt false s
    have port : u.port = s.port := hu ▸ heard_port i dt false s
    have chanA : u.chanA = s.chanA := hu ▸ heard_chanA i dt false s
    have chanB : u.chanB = s.chanB := hu ▸ heard_chanB i dt false s
    have watched : ((u.rack i).watch = (s.rack i).watch ∧ (u.rack i).cause = (s.rack i).cause) := hu ▸ heard_rack i i dt false s
    rw [exec_lineFault, sampled_faults on fine watch long, ← hu]
    clear hu
    have rise : s.SlotsRise → u.SlotsRise := slotsRise_of_records records
    have found := foundIdle_found i u
    have abandons := abandon_abandons i (u.foundIdle i)
    have faults := fault_faults i ((u.foundIdle i).abandon i)
    obtain ⟨counters, cycle, tail, quiesceReq, quiesced⟩ := foundIdle_line_kept i u
    obtain ⟨p, q, abandoned⟩ := abandon_line i (u.foundIdle i)
    have urgent := abandon_urgent (i := i) (s := u.foundIdle i)
    have tables := faultFound_tables i u
    have racked := faultFound_rack i i u
    have recorded := fun (r : u.SlotsRise) t h => faultRecords (i := i) (t := t) r h
    have rises := fun r : u.SlotsRise => abandon_slotsRise i (foundIdle_slotsRise i r)
    have now : (u.foundIdle i).localNs = u.localNs := by rw [found.rest]
    unfold State.lineFault
    generalize (((((u.foundIdle i).abandon i).modLine i Line.toFault).eptLineFault i).rackLineFault i).raise .line = t at faults ⊢
    generalize u.foundIdle i = z at *
    generalize z.abandon i = w at *
    have line : t.line i = _ := faults.line.trans (congrArg Line.toFault abandoned)
    have asked : ((w.line i).quiesceReq || (w.line i).state == .quiesced) =
        ((s.line i).quiesceReq || (s.line i).state == .quiesced) := by
      rw [abandoned]
      show ((z.line i).quiesceReq || (z.line i).state == .quiesced) = _
      rw [quiesceReq, quiesced, heardLine]
    have frame : t.localNs = u.localNs ∧ t.newcomers = u.newcomers ∧ t.overflow = u.overflow ∧ t.clk = u.clk ∧ t.chanA = u.chanA ∧
        t.chanB = u.chanB := by
      rw [faults.rest, tables]
      exact ⟨rfl, rfl, rfl, rfl, rfl, rfl⟩
    have alarmable : (w.rack i).Alarmable ↔ (s.rack i).Alarmable := by
      unfold Rack.Alarmable
      rw [racked, ← watched.1]
    refine ⟨t, rfl, frame.1, ?_, ?_, ?_, ?_, ?_, ?_, ?_, ?_, ?_, ?_, ?_, ?_, ?_, ?_, ?_, ?_, ?_, faults.raised, ?_, ?_, ?_,
      frame.2.1.trans newcomers, frame.2.2.1.trans overflow, frame.2.2.2.1, frame.2.2.2.2.1.trans chanA, frame.2.2.2.2.2.trans chanB,
      z, w, (s.rack i).Alarmable, found, abandons, Iff.rfl, ?_, faults.other, ?_, ?_, ?_, ?_⟩
    iterate 11
      · rw [line]
        rfl
    · intro f unbegun tx start finish
      obtain ⟨m, hm, cut⟩ := abandons.cut.cut f (by rw [found.asItStands unbegun, heardLine]; exact tx) (by rw [now]; exact start)
        (by rw [now]; exact finish)
      rw [now, found.asItStands unbegun, heardLine] at hm
      rw [found.asItStands unbegun, heardLine] at cut
      refine ⟨m, hm, ?_⟩
      rw [faults.line]
      exact cut
    · intro b begun
      have here := found.line b begun
      have uncut : (w.line i).tail = (z.line i).tail := abandons.cut.uncut fun f tx => by
        rw [here] at tx
        cases tx
      refine ⟨?_, ?_⟩
      · rw [line, here]
        rfl
      · rw [faults.line]
        refine uncut.trans (tail.trans ?_)
        rw [heardLine]
    · rw [faults.line]
      exact asked
    · rw [line]
      refine counters.trans ?_
      rw [heardLine]
    · rw [line]
      refine cycle.trans ?_
      rw [heardLine]
    · intro unbegun stays
      have same := found.asItStands unbegun
      rw [faults.line]
      refine (urgent fun x r txn here => stays x r ?_ ?_).trans ?_
      · rw [same, heardLine] at txn
        exact txn
      · rw [same, bySlot] at here
        exact here
      · rw [same, heardLine]
    · intro rising
      have change := recorded (rise rising) t (faults.records (rises (rise rising)))
      have txnOf : ∀ x, (s.line i).transaction = some x → (u.line i).transaction = some x := fun x txn => by
        rw [heardLine]
        exact txn
      have hereOf : ∀ m r, s.bySlot m = some r → u.bySlot m = some r := fun m r here => (bySlot m).trans here
      refine ⟨fun r hr other => change.others r (by rw [records]; exact hr) (by rw [heardLine]; exact other),
        fun x r txn here own => ⟨fun retire unbegun => ?_, fun suspend unbegun => ?_, fun no unbegun => ?_, fun b begun => ?_⟩,
        by rw [← records]; exact change.slots⟩
      · rw [change.ended x r (txnOf x txn) (hereOf _ r here) unbegun, if_pos retire]
      · rw [change.ended x r (txnOf x txn) (hereOf _ r here) unbegun, if_neg (by rw [suspend]; decide)]
        refine ⟨_, rfl, ?_⟩
        rw [afterFault_own (r := r.atEnd .abandoned) own]
        unfold Endpoint.atEnd
        rw [suspend]
        exact ⟨rfl, rfl, rfl, rfl⟩
      · rw [change.ended x r (txnOf x txn) (hereOf _ r here) unbegun, if_neg (by rw [no]; decide)]
        refine ⟨_, rfl, ?_⟩
        rw [afterFault_own (r := r.atEnd .abandoned) own, atEnd_abandoned no]
      · rw [change.begun x r b (txnOf x txn) (hereOf _ r here) begun]
        exact ⟨_, rfl, afterFault_own (r := { r with inTxn := false }) own⟩
    · intro alarm
      obtain ⟨rack, _, raised⟩ := faults.alarm (alarmable.2 alarm)
      rw [rack]
      exact ⟨rfl, rfl, rfl, raised⟩
    · intro calm
      have rack := (faults.calm fun h => ?_).1
      · rw [rack, racked]
        exact watched
      · rcases calm with calm | calm <;> rcases alarmable.1 h with h | h | h <;> rw [calm] at h <;> cases h
    · rw [faults.line]
      unfold Line.toFault
      rw [asked]
      rfl
    · exact fun rising => ⟨faults.racks (rises (rise rising)), faults.records (rises (rise rising))⟩
    · exact fun alarm => ⟨(faults.alarm (alarmable.2 alarm)).1, (faults.alarm (alarmable.2 alarm)).2.1⟩
    · exact fun calm => faults.calm (mt alarmable.1 calm)
    · have pending := faults.fence
      rw [alarmable, tables, port] at pending
      exact pending

end Sys2Proof.Machine

/-! SUPPORT. The hand-off of a REPLY: steps 1 to 5 of R56, want-poll and the CLOSE (R50, R62). -/

namespace Sys2Proof.Machine

open Sys2Proof

/-! ### What the rules of a REPLY leave of a record (R56) -/

/-- A rule leaves the record's key, its withdrawal and its answer, and leaves it as pollable as it was (R67, R69). -/
structure Endpoint.KeepsPlace (r q : Endpoint) : Prop where
  key : q.slot = r.slot ∧ q.line = r.line ∧ q.addr = r.addr
  held : q.withdrawal = r.withdrawal ∧ q.answer = r.answer
  pollable : q.pollable = r.pollable

theorem Endpoint.KeepsPlace.refl (r : Endpoint) : r.KeepsPlace r := ⟨⟨rfl, rfl, rfl⟩, ⟨rfl, rfl⟩, rfl⟩

theorem Endpoint.KeepsPlace.trans {r q p : Endpoint} (h : r.KeepsPlace q) (k : q.KeepsPlace p) : r.KeepsPlace p :=
  ⟨⟨k.key.1.trans h.key.1, k.key.2.1.trans h.key.2.1, k.key.2.2.trans h.key.2.2⟩,
    ⟨k.held.1.trans h.held.1, k.held.2.trans h.held.2⟩, k.pollable.trans h.pollable⟩

theorem Endpoint.KeepsPlace.keepKey {r q : Endpoint} (h : r.KeepsPlace q) : r.keepKey q = q := by
  unfold Endpoint.keepKey
  rw [← h.key.1, ← h.key.2.1, ← h.key.2.2]

/-- Two states in which a record's line polls it alike (R69). -/
theorem pollable_congr {r q : Endpoint} (withdrawal : q.withdrawal = r.withdrawal)
    (state : q.state = .suspended ∨ q.state = .retiring ↔ r.state = .suspended ∨ r.state = .retiring) : q.pollable = r.pollable := by
  rw [Bool.eq_iff_iff, pollable_iff, pollable_iff, withdrawal, ← and_assoc, ← and_assoc, ← not_or, ← not_or, state]

theorem judgeAck_keeps (seq : BitVec 4) (r : Endpoint) : r.KeepsPlace (r.judgeAck seq) := by
  have acknowledged : ∀ q : Endpoint, q.KeepsPlace q.acknowledge := fun q => by
    unfold Endpoint.acknowledge
    dsimp only
    split <;> exact ⟨⟨rfl, rfl, rfl⟩, ⟨rfl, rfl⟩, rfl⟩
  have abandoned : ∀ q : Endpoint, q.KeepsPlace q.abandonCorrection := fun q => by
    refine ⟨⟨rfl, rfl, rfl⟩, ⟨rfl, rfl⟩, pollable_congr rfl ?_⟩
    have state : q.abandonCorrection.state = if q.state = .tracking then .suspect else q.state := rfl
    rw [state]
    split
    · next state => simp [state]
    · exact Iff.rfl
  have reported : r.KeepsPlace { r with repSeq := seq } := ⟨⟨rfl, rfl, rfl⟩, ⟨rfl, rfl⟩, rfl⟩
  unfold Endpoint.judgeAck
  dsimp only
  split
  · split
    · exact reported.trans (acknowledged _)
    · split
      · exact reported.trans (abandoned _)
      · exact reported.trans ⟨⟨rfl, rfl, rfl⟩, ⟨rfl, rfl⟩, rfl⟩
  · exact reported

theorem rejectRule_keeps (r : Endpoint) : r.KeepsPlace r.rejectRule := by
  unfold Endpoint.rejectRule
  dsimp only
  split
  · next state => exact ⟨⟨rfl, rfl, rfl⟩, ⟨rfl, rfl⟩, pollable_congr rfl (by simp [state])⟩
  all_goals exact ⟨⟨rfl, rfl, rfl⟩, ⟨rfl, rfl⟩, rfl⟩

theorem acceptRule_keeps (x : Sample) (sn : Bool) (r : Endpoint) : r.KeepsPlace (r.acceptRule x sn) := by
  have same : ∀ q : Endpoint, q.slot = r.slot ∧ q.line = r.line ∧ q.addr = r.addr → q.withdrawal = r.withdrawal ∧ q.answer = r.answer →
      (q.state = .suspended ∨ q.state = .retiring ↔ r.state = .suspended ∨ r.state = .retiring) → r.KeepsPlace q :=
    fun q key held state => ⟨key, held, pollable_congr held.1 state⟩
  unfold Endpoint.acceptRule
  dsimp only
  split
  · next state =>
    split
    · exact same _ ⟨rfl, rfl, rfl⟩ ⟨rfl, rfl⟩ Iff.rfl
    · split
      · exact same _ ⟨rfl, rfl, rfl⟩ ⟨rfl, rfl⟩ Iff.rfl
      · split
        · exact same _ ⟨rfl, rfl, rfl⟩ ⟨rfl, rfl⟩ (by simp [state])
        · exact same _ ⟨rfl, rfl, rfl⟩ ⟨rfl, rfl⟩ Iff.rfl
  · exact same _ ⟨rfl, rfl, rfl⟩ ⟨rfl, rfl⟩ Iff.rfl
  · next state =>
    split
    · exact same _ ⟨rfl, rfl, rfl⟩ ⟨rfl, rfl⟩ Iff.rfl
    · exact same _ ⟨rfl, rfl, rfl⟩ ⟨rfl, rfl⟩ (by simp [state])
  · next state => exact same _ ⟨rfl, rfl, rfl⟩ ⟨rfl, rfl⟩ (by simp [state])
  all_goals exact same _ ⟨rfl, rfl, rfl⟩ ⟨rfl, rfl⟩ Iff.rfl

theorem acceptRule_window {x : Sample} {r : Endpoint} (sn : Bool) (some : r.window ≠ []) : (r.acceptRule x sn).window ≠ [] := by
  unfold Endpoint.acceptRule
  dsimp only
  split
  · split
    · exact some
    · split
      · exact some
      · split <;> exact some
  · exact some
  · split <;> exact some
  · exact List.cons_ne_nil x []
  all_goals exact some

theorem takeReply_keeps (v : Verdict) (seq : BitVec 4) (r : Endpoint) : r.KeepsPlace (r.takeReply v seq) := by
  refine (judgeAck_keeps seq r).trans ?_
  unfold Endpoint.takeReply
  cases v with
  | void => exact ⟨⟨rfl, rfl, rfl⟩, ⟨rfl, rfl⟩, rfl⟩
  | rejected => exact rejectRule_keeps _
  | accepted x =>
    have appended : (r.judgeAck seq).KeepsPlace ((r.judgeAck seq).append x) := ⟨⟨rfl, rfl, rfl⟩, ⟨rfl, rfl⟩, rfl⟩
    exact appended.trans (acceptRule_keeps x _ _)

/-- COR's decision commands the record or leaves it, and so leaves its state (R98 to R101). -/
theorem correct_keeps (b : Bool) (n : Nat) (r : Endpoint) : r.KeepsPlace (r.correct b n) ∧ (r.correct b n).state = r.state := by
  have commanded : ∀ k v, r.KeepsPlace (r.command k v) ∧ (r.command k v).state = r.state := fun k v =>
    ⟨⟨⟨rfl, rfl, rfl⟩, ⟨rfl, rfl⟩, rfl⟩, rfl⟩
  have still : r.KeepsPlace r ∧ r.state = r.state := ⟨.refl r, rfl⟩
  unfold Endpoint.correct
  split
  · split
    · split
      · exact commanded ..
      · exact still
    · split
      · exact commanded ..
      · split
        · exact still
        · exact commanded ..
    · exact still
  · exact still

/-! ### Steps 1 to 5 of a hand-off (R56) -/

/-- A rack after the report of a sample with verdict `v`, its record's state then `st` (R69, R153). -/
def Rack.reported (v : Verdict) (st : RecState) (k : Rack) : Rack :=
  match v with
  | .accepted x => Rack.sample x.theta st k
  | .void => k
  | .rejected => k

/-- A record after COR's decision on a sample with verdict `v` (R56, R98). -/
def Endpoint.decided (v : Verdict) (n : Nat) (r : Endpoint) : Endpoint :=
  match v with
  | .accepted _ => r.correct true n
  | .void => r
  | .rejected => r

theorem decided_keeps (v : Verdict) (n : Nat) (r : Endpoint) : r.KeepsPlace (r.decided v n) ∧ (r.decided v n).state = r.state := by
  cases v with
  | accepted x => exact correct_keeps true n r
  | void => exact ⟨.refl r, rfl⟩
  | rejected => exact ⟨.refl r, rfl⟩

/-- The walk counter that a sample of offset `theta` leads to, before the limit is tested (R153). -/
def Rack.walked (theta : Int) (k : Rack) : Int :=
  if theta > k.walkQuantum then k.walk + 1 else if theta < -(k.walkQuantum : Int) then k.walk - 1 else k.walk

/-- A rack and its report of a sample, told field by field (R153). -/
theorem sample_eq {theta : Int} {st : RecState} {k : Rack} (running : ¬(k.watch = .off ∨ st ≠ .tracking)) :
    Rack.sample theta st k = { k with
      walk := if k.walked theta ≥ k.walkLimit then 0 else if k.walked theta ≤ -(k.walkLimit : Int) then 0 else k.walked theta
      latch := if k.walked theta ≥ k.walkLimit then some .leading
        else if k.walked theta ≤ -(k.walkLimit : Int) then some .lagging else k.latch } := by
  unfold Rack.sample
  rw [if_neg running]
  show (if k.walked theta ≥ _ then _ else if k.walked theta ≤ _ then _ else _) = _
  by_cases high : k.walked theta ≥ k.walkLimit
  · simp only [if_pos high]
  · by_cases low : k.walked theta ≤ -(k.walkLimit : Int)
    · simp only [if_neg high, if_pos low]
    · simp only [if_neg high, if_neg low]
      rfl

/-- The sample rule reads and writes nothing of the member counts (R152, R153). -/
theorem reported_members (v : Verdict) (st : RecState) (k : Rack) (m : MemberCounts) :
    Rack.reported v st { k with members := m } = { Rack.reported v st k with members := m } := by
  cases v with
  | accepted x =>
    show Rack.sample x.theta st { k with members := m } = { Rack.sample x.theta st k with members := m }
    by_cases still : k.watch = .off ∨ st ≠ .tracking
    · unfold Rack.sample
      rw [if_pos still, if_pos still]
    · rw [sample_eq still, sample_eq (k := { k with members := m }) still]
      rfl
  | void => rfl
  | rejected => rfl

/-- A rack after the sample rule differs by its walk counter and its latch. -/
theorem reported_rest (v : Verdict) (st : RecState) (k : Rack) :
    Rack.reported v st k = { k with walk := (Rack.reported v st k).walk, latch := (Rack.reported v st k).latch } := by
  cases v with
  | accepted x =>
    show Rack.sample x.theta st k = { k with walk := (Rack.sample x.theta st k).walk, latch := (Rack.sample x.theta st k).latch }
    by_cases still : k.watch = .off ∨ st ≠ .tracking
    · unfold Rack.sample
      rw [if_pos still]
    · rw [sample_eq still]
  | void => rfl
  | rejected => rfl

/-- One record of the table replaced, and nothing else. -/
structure State.Replaces (n : Nat) (q : Endpoint) (s t : State) : Prop where
  rest : t = { s with records := t.records }
  found : ∀ m, t.bySlot m = if m = n then some q else s.bySlot m

theorem updateRecord_replaces {n : Nat} {f : Endpoint → Endpoint} {s : State} {r : Endpoint} (found : s.bySlot n = some r)
    (keeps : r.keepKey (f r) = f r) (state : (f r).state = r.state) (withdrawal : (f r).withdrawal = r.withdrawal) :
    s.Replaces n (f r) (s.updateRecord n f) := by
  have slot : (f r).slot = n := (congrArg Endpoint.slot keeps.symm).trans (bySlot_spec found).2
  refine ⟨?_, bySlot_put ((updateRecord_found f found).trans (by rw [keeps])) found slot⟩
  rw [updateRecord_only found state withdrawal]

/-- Steps 1 to 3: the record's own rules, and its change of state reported to the rack (R56, R69). -/
structure State.TookReply (n : Nat) (r b : Endpoint) (s t : State) : Prop where
  rest : t = { s with records := t.records, racks := t.racks }
  found : ∀ m, t.bySlot m = if m = n then some b else s.bySlot m
  racks : s.MembersMoved r.line r.state (some b.state) t

theorem updateRecord_tookReply {n : Nat} {s : State} {r : Endpoint} (found : s.bySlot n = some r) (v : Verdict) (seq : BitVec 4) :
    s.TookReply n r (r.takeReply v seq) (s.updateRecord n (Endpoint.takeReply v seq)) := by
  have keeps := takeReply_keeps v seq r
  refine ⟨?_, ?_, updateRecord_moved found _⟩
  · have lines := updateRecord_lines found (Endpoint.takeReply v seq) fun polled => by rw [keeps.keepKey, keeps.pollable, polled]
    refine (updateRecord_rest n _ s).trans ?_
    rw [lines]
  · exact bySlot_put ((updateRecord_found _ found).trans (by rw [keeps.keepKey])) found (keeps.key.1.trans (bySlot_spec found).2)

theorem modRack_still {i : Fin 12} {f : Rack → Rack} (same : ∀ k, f k = k) (s : State) : s.modRack i f = s := by
  unfold State.modRack State.setRack
  rw [same]
  simp [State.rack]

theorem reportSample_eq {n : Nat} {s : State} {b : Endpoint} (found : s.bySlot n = some b) (i : Fin 12) (v : Verdict) :
    s.reportSample i v n = s.modRack i (Rack.reported v b.state) := by
  unfold State.reportSample
  cases v with
  | accepted x =>
    rw [found]
    rfl
  | void => exact (modRack_still (fun _ => rfl) s).symm
  | rejected => exact (modRack_still (fun _ => rfl) s).symm

theorem decideCorrection_replaces {n : Nat} {s : State} {b : Endpoint} (found : s.bySlot n = some b) (i : Fin 12) (v : Verdict) :
    s.Replaces n (b.decided v (s.interval i b)) (s.decideCorrection i v n) := by
  have still : s.Replaces n b s := ⟨rfl, fun m => by
    split
    · next same => rw [same, found]
    · rfl⟩
  unfold State.decideCorrection
  cases v with
  | accepted x =>
    rw [found]
    have keeps := correct_keeps true (s.interval i b) b
    exact updateRecord_replaces found keeps.1.keepKey keeps.2 keeps.1.held.1
  | void => exact still
  | rejected => exact still

/-- STS's decision reads the clock's U, the lines' allowances, the domains and the racks' watch states (R134, R137). -/
theorem decideLine_congr {s t : State} (clk : t.clk = s.clk) (lines : t.lines = s.lines) (domains : t.domains = s.domains)
    (watch : ∀ j, (t.rack j).watch = (s.rack j).watch) (r : Endpoint) (ev : Bool) (t4 : Capture) (id : Byte) (n : Nat) :
    t.decideLine r ev t4 id n = s.decideLine r ev t4 id n := by
  have checks : ∀ d, t.lineChecks d r ev = s.lineChecks d r ev := fun d => by
    unfold State.lineChecks State.inAlarm
    rw [watch]
  have common : t.commonChecks id n = s.commonChecks id n := by
    unfold State.commonChecks State.domain
    rw [domains]
  have bound : t.errorBound r t4.time = s.errorBound r t4.time := by
    unfold State.errorBound State.line
    rw [clk, lines]
  unfold State.decideLine
  rw [common]
  simp only [checks, bound]

/-- A hand-off's steps 1 to 5, that leave record `r` of slot `n` as `q`, which COR had left as `e` (R56). -/
structure State.Exchanged (i : Fin 12) (v : Verdict) (ev : Bool) (n : Nat) (p : Reply) (t4 : Capture) (r e q : Endpoint)
    (s t : State) : Prop where
  rest : t = { s with records := t.records, racks := t.racks, domains := t.domains }
  found : ∀ m, t.bySlot m = if m = n then some q else s.bySlot m
  counts : ∀ j st, (t.rack j).members.get st =
    if j = r.line ∧ e.state ≠ r.state then
      (if st = r.state then (s.rack j).members.get st - 1
        else if st = e.state then (s.rack j).members.get st + 1 else (s.rack j).members.get st)
    else (s.rack j).members.get st
  racks : ∀ j, t.rack j =
    { (if j = i then Rack.reported v e.state (s.rack j) else s.rack j) with members := (t.rack j).members }
  quiet : p.ask = none → q = e ∧ t.domains = s.domains
  asks : ∀ id k, p.ask = some (id, k) → q = { e with answer := some (s.decideLine e ev t4 id k) } ∧
    t.domains = (s.modDomain id (Domain.book true (s.decideLine e ev t4 id k))).domains

/-- Steps 1 to 4: the rules, the report to the rack, and COR's decision (R56). -/
structure State.Judged (i : Fin 12) (v : Verdict) (n : Nat) (r e : Endpoint) (s t : State) : Prop where
  rest : t = { s with records := t.records, racks := t.racks }
  found : ∀ m, t.bySlot m = if m = n then some e else s.bySlot m
  counts : ∀ j st, (t.rack j).members.get st =
    if j = r.line ∧ e.state ≠ r.state then
      (if st = r.state then (s.rack j).members.get st - 1
        else if st = e.state then (s.rack j).members.get st + 1 else (s.rack j).members.get st)
    else (s.rack j).members.get st
  racks : ∀ j, t.rack j =
    { (if j = i then Rack.reported v e.state (s.rack j) else s.rack j) with members := (t.rack j).members }

theorem judged {n : Nat} {s : State} {r b e : Endpoint} (found : s.bySlot n = some r) (i : Fin 12) (v : Verdict) (seq : BitVec 4)
    (took : b = r.takeReply v seq) (decided : e = b.decided v ((s.line i).period * 2 ^ b.effClass (s.line i).boost)) :
    s.Judged i v n r e (((s.updateRecord n (Endpoint.takeReply v seq)).reportSample i v n).decideCorrection i v n) := by
  have first := updateRecord_tookReply found v seq
  rw [← took] at first
  generalize s.updateRecord n (Endpoint.takeReply v seq) = x at first ⊢
  have here : x.bySlot n = some b := (first.found n).trans (if_pos rfl)
  have lines : x.line i = s.line i := by rw [first.rest]; rfl
  rw [reportSample_eq here]
  have third := decideCorrection_replaces (s := x.modRack i (Rack.reported v b.state)) here i v
  have interval : (x.modRack i (Rack.reported v b.state)).interval i b = (s.line i).period * 2 ^ b.effClass (s.line i).boost := by
    unfold State.interval
    rw [modRack_line, lines]
  rw [interval, ← decided] at third
  generalize (x.modRack i (Rack.reported v b.state)).decideCorrection i v n = t at third ⊢
  have state : e.state = b.state := by
    rw [decided]
    exact (decided_keeps ..).2
  have rack : ∀ j, t.rack j = { (if j = i then Rack.reported v b.state (s.rack j) else s.rack j) with members := (x.rack j).members } :=
    fun j => by
      have moved : t.rack j = (x.modRack i (Rack.reported v b.state)).rack j := by
        rw [third.rest]
        rfl
      rw [moved]
      by_cases same : j = i
      · rw [if_pos same, same, modRack_rack_same, ← reported_members, ← (first.racks i).1]
      · rw [if_neg same, modRack_rack_other _ _ (Ne.symm same)]
        exact (first.racks j).1
  have moved := first.racks
  rw [← state] at rack moved
  refine ⟨?_, fun m => ?_, fun j st => ?_, fun j => ?_⟩
  · rw [third.rest, first.rest]
    rfl
  · rw [third.found, modRack_bySlot, first.found]
    split <;> rfl
  · rw [rack j]
    refine ((moved j).2 st).trans ?_
    simp only [ne_eq, Option.some.injEq, eq_comm (a := st) (b := e.state)]
  · rw [rack j]

theorem decideStamp_exchanged {i : Fin 12} {v : Verdict} {n : Nat} {r e : Endpoint} {s x : State} (judged : s.Judged i v n r e x)
    (ev : Bool) (p : Reply) (t4 : Capture) : ∃ q, s.Exchanged i v ev n p t4 r e q (x.decideStamp ev t4 p n) := by
  unfold State.decideStamp
  cases ask : p.ask with
  | none =>
    refine ⟨e, ?_, judged.found, judged.counts, judged.racks, fun _ => ⟨rfl, ?_⟩, 
      fun id k asked => nomatch ask.symm.trans asked⟩
    · rw [judged.rest]
    · rw [judged.rest]
  | some request =>
    obtain ⟨id, k⟩ := request
    have here : x.bySlot n = some e := (judged.found n).trans (if_pos rfl)
    have watch : ∀ j, (x.rack j).watch = (s.rack j).watch := fun j => by
      rw [judged.racks j]
      split
      · rw [reported_rest]
      · rfl
    have answer : x.decideLine e ev t4 id k = s.decideLine e ev t4 id k :=
      decideLine_congr (by rw [judged.rest]) (by rw [judged.rest]) (by rw [judged.rest]) watch e ev t4 id k
    have stamped : x.stampLine n ev t4 id k = (x.modDomain id (Domain.book true (s.decideLine e ev t4 id k))).updateRecord n
        (fun q => { q with answer := some (s.decideLine e ev t4 id k) }) := by
      unfold State.stampLine
      rw [here]
      dsimp only
      rw [answer]
    dsimp only
    rw [stamped]
    generalize decided : s.decideLine e ev t4 id k = a at *
    have put := updateRecord_replaces (s := x.modDomain id (Domain.book true a)) (f := fun q => { q with answer := some a }) here
      rfl rfl rfl
    generalize (x.modDomain id (Domain.book true a)).updateRecord n (fun q => { q with answer := some a }) = t at put ⊢
    refine ⟨{ e with answer := some a }, ?_, fun m => ?_, fun j st => ?_, fun j => ?_, fun none => (nomatch ask.symm.trans none),
      fun id' k' asked => ?_⟩
    · rw [put.rest, judged.rest]
      rfl
    · rw [put.found, modDomain_bySlot, judged.found]
      split <;> rfl
    · rw [put.rest]
      exact judged.counts j st
    · rw [put.rest]
      exact judged.racks j
    · rw [ask] at asked
      cases asked
      rw [decided]
      refine ⟨rfl, ?_⟩
      rw [put.rest]
      unfold State.modDomain
      rw [judged.rest]

/-! ### Want-poll and the CLOSE (R50, R62) -/

/-- A line after the want-poll request of a REPLY `p`, for a record `q` (R50). -/
def Line.pollAsked (p : Reply) (q : Endpoint) (slot : Nat) (l : Line) : Line := { l with
  urgent := if p.wantPoll = true ∧ q.pollable = true ∧ slot ∉ l.urgent ∧ l.urgent.length < 8 then l.urgent ++ [slot] else l.urgent
  counters := { l.counters with
    urgentDrops := if p.wantPoll = true ∧ q.pollable = true ∧ slot ∉ l.urgent ∧ 8 ≤ l.urgent.length
      then min 65535 (l.counters.urgentDrops + 1) else l.counters.urgentDrops } }

theorem askPoll_eq {n : Nat} {s : State} {q : Endpoint} (found : s.bySlot n = some q) (i : Fin 12) (p : Reply) :
    s.askPoll i p n = s.modLine i (Line.pollAsked p q n) := by
  have still : ¬(p.wantPoll = true ∧ q.pollable = true ∧ n ∉ (s.line i).urgent) → s = s.modLine i (Line.pollAsked p q n) := fun none => by
    refine (modLine_id s i ?_).symm
    unfold Line.pollAsked
    rw [if_neg fun h => none ⟨h.1, h.2.1, h.2.2.1⟩, if_neg fun h => none ⟨h.1, h.2.1, h.2.2.1⟩]
  unfold State.askPoll
  by_cases wants : p.wantPoll = true
  · rw [if_pos wants]
    unfold State.wantPoll
    rw [found]
    dsimp only
    by_cases away : (!q.pollable || (s.line i).urgent.contains n) = true
    · rw [if_pos away]
      refine still fun h => ?_
      obtain ⟨_, polled, out⟩ := h
      simp [polled, out] at away
    · rw [if_neg away]
      have joins : q.pollable = true ∧ n ∉ (s.line i).urgent := by
        simpa using away
      by_cases full : (s.line i).urgent.length ≥ 8
      · rw [if_pos full]
        refine modLine_congr s i ?_
        unfold Line.pollAsked
        rw [if_neg (by omega), if_pos ⟨wants, joins.1, joins.2, full⟩]
        rfl
      · rw [if_neg full]
        refine modLine_congr s i ?_
        unfold Line.pollAsked
        rw [if_pos ⟨wants, joins.1, joins.2, by omega⟩, if_neg (by omega)]
        rfl
  · rw [if_neg wants]
    exact still fun h => wants h.1

theorem sendClose_eq {n : Nat} {s : State} {q : Endpoint} (found : s.bySlot n = some q) (i : Fin 12) : s.sendClose i n =
    s.modLine i (Line.beginClose s.localNs (closeFrame q.addr (s.line i).txNumber q.toSend q.answer)) := by
  unfold State.sendClose
  rw [found]

/-- A good REPLY of a polling line's transaction is handed off (R54, R56, R62). -/
theorem frameEnded_handed {i : Fin 12} {cs : List RxChar} {s t : State} {x : Transaction} {r q : Endpoint} {p : Reply} {v : Verdict}
    {ev : Bool} (ne : cs ≠ []) (polling : (s.line i).state = .polling) (txn : (s.line i).transaction = some x) (fresh : x.failed = false)
    (here : s.bySlot x.slot = some r) (good : GoodReply r.addr p cs) (number : p.txn = (s.line i).txNumber)
    (hv : v = s.verdict i r p (s.line i).rxEdge) (hev : ev = s.epochVoid i)
    (exchanged : (s.modLine i (Line.frameOver (noisyFrame cs))).exchange i v ev x.slot p (s.line i).rxEdge = t)
    (found : t.bySlot x.slot = some q) (same : t.line i = (s.line i).frameOver (noisyFrame cs)) (now : t.localNs = s.localNs) :
    s.frameEnded i cs = t.modLine i (fun l => Line.beginClose s.localNs
      (closeFrame q.addr (s.line i).txNumber q.toSend q.answer) (Line.pollAsked p q x.slot l)) := by
  have ended : (s.modLine i (Line.frameOver (noisyFrame cs))).line i = (s.line i).frameOver (noisyFrame cs) := modLine_line_same ..
  have reply : (s.modLine i (Line.frameOver (noisyFrame cs))).isReplyOf i r.addr p = true :=
    (isReplyOf_iff _ i r.addr p).2 ⟨x, r, by rw [ended]; exact txn, fresh, here, by rw [ended]; exact number, rfl⟩
  unfold State.frameEnded State.handFrame
  rw [if_neg ne, ended, (judgeFrame_reply cs r.addr p).2 good, show ((s.line i).frameOver (noisyFrame cs)).state = .polling from polling]
  dsimp only
  unfold State.pollingFrame
  dsimp only
  rw [if_pos reply]
  unfold State.handoff
  rw [ended, show ((s.line i).frameOver (noisyFrame cs)).transaction = some x from txn]
  dsimp only
  rw [modLine_bySlot, here]
  dsimp only
  have verdict : (s.modLine i (Line.frameOver (noisyFrame cs))).verdict i r p (s.line i).rxEdge = v := by
    rw [hv]
    unfold State.verdict
    rw [ended]
    rfl
  have void : (s.modLine i (Line.frameOver (noisyFrame cs))).epochVoid i = ev := hev.symm
  rw [verdict, void, exchanged, askPoll_eq found, sendClose_eq (s := t.modLine i (Line.pollAsked p q x.slot)) found, modLine_line_same, modLine_modLine, modLine_localNs, now]
  refine modLine_congr t i ?_
  rw [same]
  rfl

/-! ### The verdict (R56 to R59) -/

/-- The three verdicts of an exchange (R56 to R59). -/
theorem judgeSample_cases {void : Bool} {limit : Nat} {t1 t4 : RowTime} {p : Reply} {a : Option Int} {th de : Int} {good : Prop}
    (hth : th = offset t1 p.t2 p.t3 t4 (a.getD 0)) (hde : de = delay t1 p.t2 p.t3 t4)
    (hgood : good ↔ p.t2.ns < 1000000000 ∧ p.t3.ns < 1000000000 ∧ 0 ≤ de ∧ de ≤ limit ∧ p.clockValid = true) :
    (void = true → judgeSample void limit t1 t4 p a = .void) ∧
    (void = false → ¬good → judgeSample void limit t1 t4 p a = .rejected) ∧
    (void = false → good → judgeSample void limit t1 t4 p a = .accepted ⟨t1, th, de.toNat⟩) := by
  unfold judgeSample second
  rw [← hth, ← hde]
  refine ⟨fun h => if_pos h, fun h bad => ?_, fun h fine => ?_⟩
  · rw [h, if_neg (by decide)]
    split
    · rfl
    · next times => exact if_neg fun rest => bad (hgood.2 ⟨by omega, by omega, rest.1, rest.2.1, rest.2.2⟩)
  · obtain ⟨t2, t3, rest⟩ := hgood.1 fine
    rw [h, if_neg (by decide), if_neg (by omega)]
    exact if_pos rest

/-! ### The stamp request of a REPLY (R134 to R142) -/

theorem names_congr {s t : State} {id : Byte} {n : Nat} {d : Domain} (domains : ∀ b, t.domain b = s.domain b) (h : s.Names id n d) :
    t.Names id n d :=
  ⟨h.count, h.domain.1, (domains id).trans h.domain.2⟩

theorem lineRefused_congr {s t : State} {r : Endpoint} {ev : Bool} {id : Byte} {n : Nat} {code : RefusalCode}
    (domains : ∀ b, t.domain b = s.domain b) (watch : ∀ j, (t.rack j).watch = (s.rack j).watch)
    (h : s.LineRefused r ev id n code) : t.LineRefused r ev id n code := by
  have names := fun d => names_congr (s := s) (t := t) (id := id) (n := n) (d := d) domains
  cases h with
  | badCount h => exact .badCount h
  | noDomain h none => exact .noDomain h (none.imp_right (domains id).trans)
  | domainClosed d h st => exact .domainClosed d (names d h) st
  | domainFrozen d h st => exact .domainFrozen d (names d h) st
  | notMember d h st mem => exact .notMember d (names d h) st mem
  | epochChanged d h st mem ep => exact .epochChanged d (names d h) st mem ep
  | withdrawn d h st mem ep wd => exact .withdrawn d (names d h) st mem ep wd
  | rackFenced d h st mem ep wd fence => exact .rackFenced d (names d h) st mem ep wd (by rw [watch]; exact fence)
  | untracked d h st mem ep wd fence tr => exact .untracked d (names d h) st mem ep wd (by rw [watch]; exact fence) tr
  | correcting d h st mem ep wd fence tr fl => exact .correcting d (names d h) st mem ep wd (by rw [watch]; exact fence) tr fl

theorem linePasses_congr {s t : State} {r : Endpoint} {ev : Bool} {id : Byte} {n : Nat} {d : Domain}
    (domains : ∀ b, t.domain b = s.domain b) (watch : ∀ j, (t.rack j).watch = (s.rack j).watch)
    (h : s.LinePasses r ev id n d) : t.LinePasses r ev id n d :=
  ⟨names_congr domains h.names, h.opened, h.member, h.epoch, h.staying, by rw [watch]; exact h.fence, h.tracked, h.settled⟩

/-- Check 11 and the value of the grant, told by the base stamp and the uncertainty (R138, R140, R141). -/
theorem valueGrant_cases {d : Domain} {bound base gap n : Nat} {t4 : Capture} (one : 1 ≤ n)
    (hbase : base = baseStamp d.lastIssued t4.time) (hgap : gap = uncertaintyOf bound d.lastIssued t4.time) :
    (d.tolerance < gap ∨ 281474976710656 * 1000000000 < base + n → d.valueGrant bound t4 n = .refusal d.id .uncertain) ∧
    (gap ≤ d.tolerance → base + n ≤ 281474976710656 * 1000000000 → d.valueGrant bound t4 n =
      .grant ⟨d.id, t4.epoch, RowTime.ofNs base, n, gap, decide (t4.time.toNs < base)⟩) := by
  unfold Domain.valueGrant maxRowNs secMod second
  rw [← hbase, ← hgap]
  exact ⟨fun out => if_neg (by omega), fun within room => if_pos ⟨within, by omega⟩⟩

theorem modDomain_domains {s : State} {id : Byte} {f g : Domain → Domain} (same : ∀ d, { f d with id := d.id } = g d) :
    (s.modDomain id f).domains = s.domains.map (fun d => if d.id = id then g d else d) :=
  List.map_congr_left fun d _ => if_congr beq_iff_eq (same d) rfl

theorem baseStamp_cases (last : Option RowTime) (t : RowTime) : (last = none → baseStamp last t = t.toNs) ∧
    ∀ l, last = some l → baseStamp last t = max t.toNs (l.toNs + 1) := by
  refine ⟨fun h => by rw [h]; rfl, fun l h => ?_⟩
  rw [h]
  unfold baseStamp
  dsimp only
  split <;> omega

end Sys2Proof.Machine

/-! SUPPORT. The hand-off of a REPLY, as the statement has it (R54, R56, R62). -/

namespace Sys2Proof.Machine

open Sys2Proof

theorem heard_rack_eq (i j : Fin 12) (dt : Nat) (v : Bool) (s : State) :
    ∃ c b, (s.heard i dt v).rack j = { s.rack j with countdown := c, sweepDue := b } := by
  obtain ⟨c, b, first⟩ := advance_rack dt s j
  obtain ⟨c', b', second⟩ := advance_rack _ (s.advance dt) j
  refine ⟨c', b', Eq.trans second ?_⟩
  rw [first]

/-- A report that the walk counter takes no notice of (R153). -/
theorem reported_still {v : Verdict} {st : RecState} {k : Rack} (h : (∀ x, v ≠ .accepted x) ∨ st ≠ .tracking ∨ k.watch = .off) :
    Rack.reported v st k = k := by
  cases v with
  | accepted x => exact if_pos ((h.resolve_left fun none => none x rfl).symm)
  | void => rfl
  | rejected => rfl

theorem classIs_effClass (boost : Bool) (r : Endpoint) : r.ClassIs boost (r.effClass boost) := by
  unfold Endpoint.ClassIs Endpoint.effClass
  cases r.state <;> rfl

/-- What a REPLY with an accepted sample does to its record (R60, R61, R72 to R75, R98 to R101). -/
theorem takeReply_accepted {r b e : Endpoint} {x : Sample} {seq : BitVec 4} {boost : Bool} {period : Nat}
    (took : b = r.takeReply (.accepted x) seq)
    (decided : e = b.decided (.accepted x) (period * 2 ^ b.effClass boost)) :
    (∃ c f d, Filtered f d c.window ∧
      (r.judgeAck seq).Accepted x f (decide (r.state = .tracking ∧ (r.judgeAck seq).state = .suspect)) c b) ∧
    ∃ f d k, Filtered f d b.window ∧ b.ClassIs boost k ∧ b.Corrected f (period * 2 ^ k) e := by
  have some := append_window_ne x (r.judgeAck seq)
  constructor
  · obtain ⟨f, d, filtered⟩ := filtered_of_ne some
    have accepted := acceptRule_accepted (r.state == .tracking && (r.judgeAck seq).state == .suspect) filtered
    have flag : decide (r.state = .tracking ∧ (r.judgeAck seq).state = .suspect) =
        (r.state == .tracking && (r.judgeAck seq).state == .suspect) := Bool.decide_and ..
    rw [took, flag]
    refine ⟨_, f, d, ?_, accepted⟩
    exact filtered
  · have window : b.window ≠ [] := by
      rw [took]
      exact acceptRule_window _ some
    obtain ⟨f, d, filtered⟩ := filtered_of_ne window
    rw [decided]
    exact ⟨f, d, _, filtered, classIs_effClass boost b, correct_corrected _ filtered⟩

/-- A stamp request that is refused: the answer, and the count of its domain (R134, R136). -/
theorem exchanged_refused {i : Fin 12} {v : Verdict} {ev : Bool} {n k : Nat} {p : Reply} {t4 : Capture} {r e q : Endpoint} {s t : State}
    (h : s.Exchanged i v ev n p t4 r e q t) {id : Byte} {code : RefusalCode} (asked : p.ask = some (id, k))
    (decided : s.decideLine e ev t4 id k = .refusal id code) :
    q.answer = some (.refusal id code) ∧ t.domains = s.domains.map (fun d =>
      if d.id = id then { d with refusals := min 4294967295 (d.refusals + 1) } else d) := by
  obtain ⟨answer, domains⟩ := h.asks id k asked
  rw [decided] at answer domains
  exact ⟨by rw [answer], domains.trans (modDomain_domains fun _ => rfl)⟩

/-- A stamp request that is granted: the answer, and what its domain books (R138, R142). -/
theorem exchanged_granted {i : Fin 12} {v : Verdict} {ev : Bool} {n k base : Nat} {p : Reply} {t4 : Capture} {r e q : Endpoint}
    {s t : State} (h : s.Exchanged i v ev n p t4 r e q t) {id : Byte} {epoch : BitVec 16} {gap : Nat} {clamped : Bool}
    (asked : p.ask = some (id, k)) (room : base < 281474976710656 * 1000000000)
    (decided : s.decideLine e ev t4 id k = .grant ⟨id, epoch, RowTime.ofNs base, k, gap, clamped⟩) :
    q.answer = some (.grant ⟨id, epoch, RowTime.ofNs base, k, gap, clamped⟩) ∧
    t.domains = s.domains.map (fun d => if d.id = id then { d with
      lastIssued := some (RowTime.ofNs (base + k - 1)), grants := min 4294967295 (d.grants + 1)
      stamps := min 281474976710655 (d.stamps + k), pendingDel := d.pendingDel + 1 } else d) := by
  obtain ⟨answer, domains⟩ := h.asks id k asked
  rw [decided] at answer domains
  refine ⟨by rw [answer], domains.trans (modDomain_domains fun d => ?_)⟩
  have whole : (RowTime.ofNs base).toNs = base := by
    rw [toNs_ofNs]
    exact Nat.mod_eq_of_lt room
  unfold Domain.book satAdd
  dsimp only
  rw [whole]
  rfl

/-- The line's own part of a hand-off, told field by field (R28, R50, R62). -/
theorem handed_line (now : Nat) (bytes : List Byte) (noisy : Bool) (z : RxChar) (p : Reply) (q : Endpoint) (slot : Nat) (l : Line) :
    Line.beginClose now bytes (Line.pollAsked p q slot (Line.frameOver noisy (l.endChar z))) = { l with
      receiver := z.after, rx := [], rxOpen := false, windowEnd := none, windowElapsed := false, state := .closing
      tx := some ⟨bytes, l.sendStart now, l.sendStart now + bytes.length * (11 * l.rate.bitNs)⟩
      urgent := if p.wantPoll = true ∧ q.pollable = true ∧ slot ∉ l.urgent ∧ l.urgent.length < 8 then l.urgent ++ [slot] else l.urgent
      counters := { l.counters with
        noisy := if noisy then min 65535 (l.counters.noisy + 1) else l.counters.noisy
        urgentDrops := if p.wantPoll = true ∧ q.pollable = true ∧ slot ∉ l.urgent ∧ 8 ≤ l.urgent.length
          then min 65535 (l.counters.urgentDrops + 1) else l.counters.urgentDrops } } := by
  have frame : Line.frameOver noisy (l.endChar z) = { l with
      receiver := z.after, rx := []
      counters := { l.counters with noisy := if noisy then min 65535 (l.counters.noisy + 1) else l.counters.noisy } } := by
    cases noisy <;> rfl
  rw [frame]
  unfold Line.pollAsked Line.beginClose Line.send Line.closeWindow Line.sendStart BitRate.charNs
  rfl

theorem exec_replyHandoff (i : Fin 12) (dt : Nat) (v : Bool) (s : State) :
    exec (.replyHandoff i dt [v]) s = .next ((s.advance dt).sample i v) := rfl

/-- Settles O21. -/
theorem replyHandoffSendsTheClose : Obligations.ReplyHandoffSendsTheClose := by
  intro i dt v cs z p x r t1 t4 ev void th de good u s polling txn fresh here complete last goodReply number hu ht1 ht4 hev hvoid hth
    hde hgood
  obtain ⟨c', hc', sampled⟩ := sample_completesFrame (dt := dt) complete
  cases hc'.symm.trans last
  rw [exec_replyHandoff, sampled, ← hu]
  have heardLine : u.line i = _ := hu ▸ heard_line_eq i dt v s
  have others : ∀ j, j ≠ i → u.line j = s.line j := fun j h => hu ▸ heard_line_other i dt v s h
  have bySlot : ∀ m, u.bySlot m = s.bySlot m := fun m => hu ▸ heard_bySlot i dt v s m
  have domainsOf : u.domains = s.domains := hu ▸ heard_domains i dt v s
  have rackOf : ∀ j, ∃ c b, u.rack j = { s.rack j with countdown := c, sweepDue := b } := fun j => hu ▸ heard_rack_eq i j dt v s
  have epoch : u.clk.epoch = s.clk.epoch := hu ▸ heard_epoch i dt v s
  have newcomers : u.newcomers = s.newcomers := hu ▸ heard_newcomers i dt v s
  have overflow : u.overflow = s.overflow := hu ▸ heard_overflow i dt v s
  have port : u.port = s.port := hu ▸ heard_port i dt v s
  have chanA : u.chanA = s.chanA := hu ▸ heard_chanA i dt v s
  have chanB : u.chanB = s.chanB := hu ▸ heard_chanB i dt v s
  clear hu sampled
  have rackKept : ∀ j, (u.rack j).members = (s.rack j).members ∧ (u.rack j).watch = (s.rack j).watch ∧
      (u.rack j).walk = (s.rack j).walk ∧ (u.rack j).latch = (s.rack j).latch ∧ (u.rack j).walkQuantum = (s.rack j).walkQuantum ∧
      (u.rack j).walkLimit = (s.rack j).walkLimit := fun j => by
    obtain ⟨c, b, rack⟩ := rackOf j
    rw [rack]
    exact ⟨rfl, rfl, rfl, rfl, rfl, rfl⟩
  have ended : (u.modLine i (Line.endChar z)).line i = (u.line i).endChar z := modLine_line_same ..
  obtain ⟨vd, hvd⟩ : ∃ vd, vd = judgeSample void (s.line i).delayLimit t1 t4 p r.asym := ⟨_, rfl⟩
  have verdict : vd = (u.modLine i (Line.endChar z)).verdict i r p (s.line i).rxEdge := by
    have mine : (u.epochVoid i || r.withdrawal != .no) = void := by
      rw [hvoid, hev, ← epoch]
      unfold State.epochVoid
      rw [bne, bne, beq_eq_decide, beq_eq_decide, ← decide_not, ← decide_not]
    unfold State.verdict
    rw [ended, heardLine]
    show vd = judgeSample (u.epochVoid i || r.withdrawal != .no) (s.line i).delayLimit (u.t1 i).time (s.line i).rxEdge.time p r.asym
    rw [mine, ← ht1, ← ht4, hvd]
  have void' : ev = (u.modLine i (Line.endChar z)).epochVoid i := by
    rw [hev, ← epoch]
    exact (Bool.eq_iff_iff.2 (by simp) : decide (u.clk.epoch ≠ (u.t1 i).epoch) = (u.clk.epoch != (u.t1 i).epoch))
  have edge : ((u.modLine i (Line.endChar z)).line i).rxEdge = (s.line i).rxEdge := by
    rw [ended, heardLine]
    rfl
  obtain ⟨b, took⟩ : ∃ b, b = r.takeReply vd p.seq := ⟨_, rfl⟩
  obtain ⟨e, decided⟩ : ∃ e, e = b.decided vd ((s.line i).period * 2 ^ b.effClass (s.line i).boost) := ⟨_, rfl⟩
  obtain ⟨w, hw⟩ : ∃ w, w = (u.modLine i (Line.endChar z)).modLine i (Line.frameOver (noisyFrame cs)) := ⟨_, rfl⟩
  have lineW : w.line i = ((u.line i).endChar z).frameOver (noisyFrame cs) := by rw [hw, modLine_line_same, ended]
  have set : (w.line i).period = (s.line i).period ∧ (w.line i).boost = (s.line i).boost := by
    rw [lineW, heardLine]
    exact ⟨rfl, rfl⟩
  have foundW : w.bySlot x.slot = some r := by
    rw [hw]
    exact (bySlot x.slot).trans here
  have steps := judged (e := e) foundW i vd p.seq took (by rw [set.1, set.2]; exact decided)
  obtain ⟨q, ex⟩ := decideStamp_exchanged steps ev p (s.line i).rxEdge
  obtain ⟨y, hy⟩ : ∃ y, y = w.exchange i vd ev x.slot p (s.line i).rxEdge := ⟨_, rfl⟩
  have ex : w.Exchanged i vd ev x.slot p (s.line i).rxEdge r e q y := hy ▸ ex
  have lines : ∀ j, y.line j = w.line j := fun j => by
    rw [ex.rest]
    rfl
  have now : y.localNs = u.localNs := by
    rw [ex.rest, hw]
    rfl
  have foundY : y.bySlot x.slot = some q := (ex.found x.slot).trans (if_pos rfl)
  have handed := frameEnded_handed (s := u.modLine i (Line.endChar z)) (t := y) (x := x) (r := r) (q := q) (p := p) (v := vd) (ev := ev)
    (cs := cs) (fun none => by rw [none] at last; cases last) (by rw [ended, heardLine]; exact polling) (by rw [ended, heardLine]; exact txn)
    fresh ((bySlot x.slot).trans here) goodReply (by rw [ended, heardLine]; exact number) (by rw [edge]; exact verdict) void'
    (by rw [edge, ← hw, ← hy]) foundY (by rw [lines, lineW, ended]) now
  rw [handed]
  have txNumber : ((u.modLine i (Line.endChar z)).line i).txNumber = (s.line i).txNumber := by
    rw [ended, heardLine]
    rfl
  have whole : q = { e with answer := q.answer } := by
    cases ask : p.ask with
    | none => rw [(ex.quiet ask).1]
    | some request => rw [(ex.asks request.1 request.2 ask).1]
  have keptB := took ▸ takeReply_keeps vd p.seq r
  have keptE := decided ▸ decided_keeps vd ((s.line i).period * 2 ^ b.effClass (s.line i).boost) b
  have addr : q.addr = r.addr := by
    rw [whole]
    exact keptE.1.key.2.2.trans keptB.key.2.2
  have own : e.line = r.line := keptE.1.key.2.1.trans keptB.key.2.1
  have stateQ : q.state = e.state := by rw [whole]
  have stateE : e.state = b.state := keptE.2
  have carries := closeFrame_carries q.addr ((u.modLine i (Line.endChar z)).line i).txNumber q.toSend q.answer
  rw [addr, txNumber] at carries
  rw [addr, txNumber]
  generalize closeFrame r.addr (s.line i).txNumber q.toSend q.answer = bytes at carries ⊢
  obtain ⟨t, ht⟩ : ∃ t, t = y.modLine i (fun l => Line.beginClose (u.modLine i (Line.endChar z)).localNs bytes
    (Line.pollAsked p q x.slot l)) := ⟨_, rfl⟩
  have closes : t.line i = Line.beginClose u.localNs bytes
      (Line.pollAsked p q x.slot (Line.frameOver (cs.any RxChar.noisy) ((u.line i).endChar z))) := by
    rw [ht, modLine_line_same, lines, lineW]
    rfl
  have lineT := closes.trans (handed_line u.localNs bytes (cs.any RxChar.noisy) z p q x.slot (u.line i))
  have foundT : ∀ m, t.bySlot m = y.bySlot m := fun m => by rw [ht]; rfl
  have racksT : ∀ j, t.rack j = y.rack j := fun j => by rw [ht]; rfl
  have domainsT : t.domains = y.domains := by rw [ht]; rfl
  have domainsW : w.domains = s.domains := by
    rw [hw]
    exact domainsOf
  have domainW : ∀ id, w.domain id = s.domain id := fun id => by
    unfold State.domain
    rw [domainsW]
  have rackW : ∀ j, w.rack j = u.rack j := fun j => by rw [hw]; rfl
  have watchW : ∀ j, (w.rack j).watch = (s.rack j).watch := fun j => by rw [rackW, (rackKept j).2.1]
  have rest : t.newcomers = u.newcomers ∧ t.overflow = u.overflow ∧ t.port = u.port ∧ t.clk = u.clk ∧ t.chanA = u.chanA ∧
      t.chanB = u.chanB ∧ t.localNs = u.localNs := by
    rw [ht, ex.rest, hw]
    exact ⟨rfl, rfl, rfl, rfl, rfl, rfl, rfl⟩
  rw [← ht]
  obtain ⟨voided, rejected, accepted⟩ := judgeSample_cases (void := void) (limit := (s.line i).delayLimit) (a := r.asym) hth hde hgood
  rw [← hvd] at voided rejected accepted
  obtain ⟨c, hc⟩ : ∃ c, void = false → good → ∃ f d, Filtered f d c.window ∧ (r.judgeAck p.seq).Accepted ⟨t1, th, de.toNat⟩ f
      (decide (r.state = .tracking ∧ (r.judgeAck p.seq).state = .suspect)) c b := by
    by_cases counts : void = false ∧ good
    · obtain ⟨c, first⟩ := (takeReply_accepted (boost := (s.line i).boost) (period := (s.line i).period)
        (accepted counts.1 counts.2 ▸ took) (accepted counts.1 counts.2 ▸ decided)).1
      exact ⟨c, fun _ _ => first⟩
    · exact ⟨r, fun h k => absurd ⟨h, k⟩ counts⟩
  refine ⟨t, r.judgeAck p.seq, b, c, e, q, rfl, judgeAck_acknowledged p.seq r, fun h => ?_, fun h bad => ?_, fun h fine => ⟨hc h fine, ?_⟩,
    (foundT _).trans foundY, whole, fun none => ?_, fun id n code asked refused => ?_, fun id n d asked passes => ?_, ?_, ?_, fun j other => ?_,
    fun m other => ?_, fun j st => ?_, fun j => ?_, fun j still => ?_, fun walk h fine tracked on hwalk => ?_, rest.1.trans newcomers,
    rest.2.1.trans overflow, rest.2.2.1.trans port, rest.2.2.2.1, rest.2.2.2.2.1.trans chanA, rest.2.2.2.2.2.1.trans chanB,
    rest.2.2.2.2.2.2⟩
  · rw [voided h] at took decided
    rw [took] at decided ⊢
    exact ⟨rfl, decided⟩
  · rw [rejected h bad] at took decided
    rw [took] at decided ⊢
    exact ⟨rejectRule_rejected _, decided⟩
  · exact (takeReply_accepted (accepted h fine ▸ took) (accepted h fine ▸ decided)).2
  · obtain ⟨same, domains⟩ := ex.quiet none
    rw [same]
    exact ⟨keptE.1.held.2.trans keptB.held.2, domainsT.trans (domains.trans domainsW)⟩
  · obtain ⟨answer, domains⟩ := exchanged_refused ex asked
      (decideLine_refused (lineRefused_congr domainW watchW refused) (s.line i).rxEdge)
    exact ⟨answer, domainsT.trans (domainsW ▸ domains)⟩
  · have value := decideLine_passes (linePasses_congr domainW watchW passes) (s.line i).rxEdge
    have allowances : ∀ j, (w.line j).asymAllow = (s.line j).asymAllow ∧ (w.line j).driftAllow = (s.line j).driftAllow := fun j => by
      by_cases same : j = i
      · rw [same, lineW, heardLine]
        exact ⟨rfl, rfl⟩
      · rw [hw, modLine_line_other _ _ (Ne.symm same), modLine_line_other _ _ (Ne.symm same), others j same]
        exact ⟨rfl, rfl⟩
    have clk : w.clk = u.clk := by rw [hw]; rfl
    rw [← ht4] at value
    have worth := valueGrant_cases (d := d) (bound := w.errorBound e t4) (t4 := (s.line i).rxEdge) passes.names.count.1
      (congrArg (baseStamp d.lastIssued) ht4) (congrArg (uncertaintyOf (w.errorBound e t4) d.lastIssued) ht4)
    have id' := domain_id passes.names.domain.2
    refine ⟨w.errorBound e t4, baseStamp d.lastIssued t4, uncertaintyOf (w.errorBound e t4) d.lastIssued t4, fun empty => ?_,
      fun y f m newest filtered earlier => ?_, (baseStamp_cases _ _).1, (baseStamp_cases _ _).2, rfl, fun out => ?_, fun within room => ?_⟩
    · unfold State.errorBound
      rw [empty]
      rfl
    · unfold State.errorBound
      rw [boundOf_known newest filtered earlier, clk, own, (allowances r.line).1, (allowances r.line).2]
    · exact (exchanged_refused ex asked (value.trans ((worth.1 out).trans (by rw [id'])))).imp_right fun domains =>
        domainsT.trans (domainsW ▸ domains)
    · have one := passes.names.count.1
      have granted := value.trans (worth.2 within room)
      rw [id', ← ht4] at granted
      exact (exchanged_granted ex asked (by omega) granted).imp_right fun domains => domainsT.trans (domainsW ▸ domains)
  · rw [lineT, heardLine]
  · refine ⟨bytes, carries, ?_⟩
    rw [lineT, heardLine]
    rfl
  · rw [ht, modLine_line_other _ _ (Ne.symm other), lines, hw, modLine_line_other _ _ (Ne.symm other),
      modLine_line_other _ _ (Ne.symm other), others j other]
  · rw [foundT, ex.found, if_neg other, hw]
    exact bySlot m
  · have counts := ex.counts j st
    rw [rackW, (rackKept j).1] at counts
    rw [racksT, stateQ]
    exact counts
  · have rack := ex.racks j
    rw [rackW] at rack
    rw [racksT, rack]
    by_cases same : j = i
    · rw [if_pos same, reported_rest]
    · rw [if_neg same]
  · have rack := ex.racks j
    have same : (if j = i then Rack.reported vd e.state (u.rack j) else u.rack j) = u.rack j := by
      by_cases mine : j = i
      · refine (if_pos mine).trans (reported_still ?_)
        rcases still with other | h | bad | calm | off
        · exact absurd mine other
        · exact .inl fun x => by rw [voided h]; exact nofun
        · refine .inl fun x => ?_
          cases h : void with
          | true => rw [voided h]; exact nofun
          | false => rw [rejected h bad]; exact nofun
        · exact .inr (.inl (by rw [stateE]; exact calm))
        · exact .inr (.inr (by rw [(rackKept j).2.1]; exact off))
      · exact if_neg mine
    rw [rackW, same] at rack
    rw [racksT, rack]
    exact ⟨(rackKept j).2.2.1, (rackKept j).2.2.2.1⟩
  · have rack := ex.racks i
    obtain ⟨_, watch, walkU, latchU, quantum, limit⟩ := rackKept i
    have sample : Rack.reported vd e.state (u.rack i) = Rack.sample th .tracking (u.rack i) := by
      rw [accepted h fine, stateE, tracked]
      rfl
    have counter : (u.rack i).walked th = walk := by
      unfold Rack.walked
      rw [quantum, walkU, hwalk]
    rw [rackW, if_pos rfl, sample, sample_eq (by rw [watch]; exact fun off => off.elim on fun no => no rfl), counter, limit, latchU] at rack
    rw [racksT, rack]
    exact ⟨fun high => ⟨if_pos high, if_pos high⟩,
      fun below low => ⟨(if_neg (by omega)).trans (if_pos low), (if_neg (by omega)).trans (if_pos low)⟩,
      fun below above => ⟨(if_neg (by omega)).trans (if_neg (by omega)), (if_neg (by omega)).trans (if_neg (by omega))⟩⟩

end Sys2Proof.Machine
